-- ==== Sys2Proof/Word.lean ====
section
/-! DEFINITION. The widths of the machine's words: bytes, 16-bit CPU words and 15-bit VRAM addresses
(spec/00_scope.md R5, R9; spec/52_ppu_registers.md R318). -/

namespace Sys2Proof

/-- A byte: 8 bits, bit 0 the least significant (R9). -/
abbrev Byte := BitVec 8

/-- A CPU-space address, a program counter or any other 16-bit value (R5, R50). -/
abbrev Word := BitVec 16

/-- The packed 15-bit VRAM address registers `v` and `t` (R25, R318). -/
abbrev VramAddr := BitVec 15

end Sys2Proof
end

