-- ==== Sys2Proof/Syntax.lean ====
section
/-! DEFINITION. The instructions as syntax: one constructor for each of the 56 operations of spec/30_encoding.md
R104, with its addressing mode as an operand, and one for the 105 rows of mode `UND` (R106). A row of
spec/opcode_table.json is an operation together with one addressing mode, so a constructor that takes an operand
stands for one row per mode; `Instr.wf` (WellFormed.lean) says which modes each operation has. -/

namespace Sys2Proof

/-- An operand in memory, by the mode that computes its address (R102, R120 to R132). -/
inductive MemOperand
  /-- `ZER`, zero-page: the operand byte is at `addr` in page zero. -/
  | zer (addr : Byte)
  /-- `ZEX`, zero-page + X. -/
  | zex (base : Byte)
  /-- `ZEY`, zero-page + Y. -/
  | zey (base : Byte)
  /-- `INX`, indexed-indirect `($nn,X)`. -/
  | inx (base : Byte)
  /-- `INY`, indirect-indexed `($nn),Y`. -/
  | iny (ptr : Byte)
  /-- `ABS`, absolute. -/
  | abs (addr : Word)
  /-- `ABX`, absolute + X. -/
  | abx (base : Word)
  /-- `ABY`, absolute + Y. -/
  | aby (base : Word)
  deriving DecidableEq, Repr

/-- An operand that is only read: immediate or in memory (R123, R136). -/
inductive ReadOperand
  | imm (value : Byte)
  | mem (m : MemOperand)
  deriving DecidableEq, Repr

/-- An operand that is read and then written: the accumulator or a byte of memory (R122, R136). -/
inductive RmwOperand
  | acc
  | mem (m : MemOperand)
  deriving DecidableEq, Repr

/-- The target of JMP: absolute or absolute-indirect (R129, R130). -/
inductive JumpOperand
  | abs (target : Word)
  | abi (ptr : Word)
  deriving DecidableEq, Repr

/-- The mode tags of R102, `UND` included. -/
inductive Mode
  | IMP | ACC | IMM | ZER | ZEX | ZEY | INX | INY | REL | ABS | ABX | ABY | ABI | UND
  deriving DecidableEq, Repr

/-- The instructions of spec/opcode_table.json (R104, R106). -/
inductive Instr
  -- Load, store and register transfer (spec/40_load_store_transfer.md)
  | lda (o : ReadOperand)
  | ldx (o : ReadOperand)
  | ldy (o : ReadOperand)
  | sta (m : MemOperand)
  | stx (m : MemOperand)
  | sty (m : MemOperand)
  | tax
  | tay
  | txa
  | tya
  | tsx
  | txs
  -- Arithmetic, logic, compare, increment and decrement (spec/41_arithmetic_logic.md)
  | adc (o : ReadOperand)
  | sbc (o : ReadOperand)
  | and (o : ReadOperand)
  | ora (o : ReadOperand)
  | eor (o : ReadOperand)
  | cmp (o : ReadOperand)
  | cpx (o : ReadOperand)
  | cpy (o : ReadOperand)
  | bit (m : MemOperand)
  | inc (m : MemOperand)
  | dec (m : MemOperand)
  | inx
  | iny
  | dex
  | dey
  -- Shift and rotate (spec/42_shift_rotate.md)
  | asl (o : RmwOperand)
  | lsr (o : RmwOperand)
  | rol (o : RmwOperand)
  | ror (o : RmwOperand)
  -- Control transfer (spec/43_control_flow.md)
  | jmp (o : JumpOperand)
  | jsr (target : Word)
  | rts
  | bcc (offset : Byte)
  | bcs (offset : Byte)
  | beq (offset : Byte)
  | bne (offset : Byte)
  | bmi (offset : Byte)
  | bpl (offset : Byte)
  | bvc (offset : Byte)
  | bvs (offset : Byte)
  -- Stack, flags and system (spec/44_stack_flags_system.md)
  | pha
  | php
  | pla
  | plp
  | clc
  | sec
  | cli
  | sei
  | cld
  | sed
  | clv
  | nop
  | brk
  | rti
  -- The opcode bytes with no table entry (R106)
  | und (opcode : Byte)
  deriving DecidableEq, Repr

/-- The mode tag of an operand in memory. -/
def MemOperand.mode : MemOperand → Mode
  | .zer _ => .ZER
  | .zex _ => .ZEX
  | .zey _ => .ZEY
  | .inx _ => .INX
  | .iny _ => .INY
  | .abs _ => .ABS
  | .abx _ => .ABX
  | .aby _ => .ABY

/-- The mode tag of an operand that is read. -/
def ReadOperand.mode : ReadOperand → Mode
  | .imm _ => .IMM
  | .mem m => m.mode

/-- The mode tag of an operand that is read and written. -/
def RmwOperand.mode : RmwOperand → Mode
  | .acc => .ACC
  | .mem m => m.mode

/-- The mode tag of a jump's operand. -/
def JumpOperand.mode : JumpOperand → Mode
  | .abs _ => .ABS
  | .abi _ => .ABI

/-- The mode tag of an instruction (R102, R104). -/
def Instr.mode : Instr → Mode
  | .lda o | .ldx o | .ldy o | .adc o | .sbc o | .and o | .ora o | .eor o | .cmp o | .cpx o | .cpy o => o.mode
  | .sta m | .stx m | .sty m | .bit m | .inc m | .dec m => m.mode
  | .asl o | .lsr o | .rol o | .ror o => o.mode
  | .jmp o => o.mode
  | .jsr _ => .ABS
  | .bcc _ | .bcs _ | .beq _ | .bne _ | .bmi _ | .bpl _ | .bvc _ | .bvs _ => .REL
  | .tax | .tay | .txa | .tya | .tsx | .txs | .inx | .iny | .dex | .dey | .rts | .pha | .php | .pla | .plp | .clc
  | .sec | .cli | .sei | .cld | .sed | .clv | .nop | .brk | .rti => .IMP
  | .und _ => .UND

end Sys2Proof
end

