-- ==== Sys2Proof/WellFormed.lean ====
section
/-! DEFINITION. Which operand forms each instruction has: the modes listed for it in spec/30_encoding.md R104, and
for `und` the 105 opcode bytes of R106. -/

namespace Sys2Proof

/-- The modes of LDA, ADC, SBC, AND, ORA, EOR and CMP (R104). -/
def accumulatorModes : List Mode := [.IMM, .ZER, .ZEX, .ABS, .ABX, .ABY, .INX, .INY]

/-- The modes of LDX (R142). -/
def ldxModes : List Mode := [.IMM, .ZER, .ZEY, .ABS, .ABY]

/-- The modes of LDY (R143). -/
def ldyModes : List Mode := [.IMM, .ZER, .ZEX, .ABS, .ABX]

/-- The modes of STA (R144). -/
def staModes : List Mode := [.ZER, .ZEX, .ABS, .ABX, .ABY, .INX, .INY]

/-- The modes of STX (R145). -/
def stxModes : List Mode := [.ZER, .ZEY, .ABS]

/-- The modes of STY (R146). -/
def styModes : List Mode := [.ZER, .ZEX, .ABS]

/-- The modes of CPX and CPY (R168, R169). -/
def indexCompareModes : List Mode := [.IMM, .ZER, .ABS]

/-- The modes of BIT (R170). -/
def bitModes : List Mode := [.ZER, .ABS]

/-- The modes of INC and DEC (R171, R172). -/
def incModes : List Mode := [.ZER, .ZEX, .ABS, .ABX]

/-- The modes of ASL, LSR, ROL and ROR (R190). -/
def shiftModes : List Mode := [.ACC, .ZER, .ZEX, .ABS, .ABX]

/-- The 105 opcode bytes with no table entry, in the order R106 lists them. -/
def undefinedOpcodes : List Byte :=
  [0x02, 0x03, 0x04, 0x07, 0x0B, 0x0C, 0x0F, 0x12, 0x13, 0x14, 0x17, 0x1A, 0x1B, 0x1C, 0x1F, 0x22, 0x23, 0x27,
    0x2B, 0x2F, 0x32, 0x33, 0x34, 0x37, 0x3A, 0x3B, 0x3C, 0x3F] ++
  [0x42, 0x43, 0x44, 0x47, 0x4B, 0x4F, 0x52, 0x53, 0x54, 0x57, 0x5A, 0x5B, 0x5C, 0x5F, 0x62, 0x63, 0x64, 0x67,
    0x6B, 0x6F, 0x72, 0x73, 0x74, 0x77, 0x7A, 0x7B, 0x7C, 0x7F] ++
  [0x80, 0x82, 0x83, 0x87, 0x89, 0x8B, 0x8F, 0x92, 0x93, 0x97, 0x9B, 0x9C, 0x9E, 0x9F, 0xA3, 0xA7, 0xAB, 0xAF,
    0xB2, 0xB3, 0xB7, 0xBB, 0xBF] ++
  [0xC2, 0xC3, 0xC7, 0xCB, 0xCF, 0xD2, 0xD3, 0xD4, 0xD7, 0xDA, 0xDB, 0xDC, 0xDF, 0xE2, 0xE3, 0xE7, 0xEB, 0xEF,
    0xF2, 0xF3, 0xF4, 0xF7, 0xFA, 0xFB, 0xFC, 0xFF]

/-- An instruction is well formed when the opcode table has a row for its operation and mode. -/
def Instr.wf : Instr → Bool
  | .lda o | .adc o | .sbc o | .and o | .ora o | .eor o | .cmp o => accumulatorModes.contains o.mode
  | .ldx o => ldxModes.contains o.mode
  | .ldy o => ldyModes.contains o.mode
  | .sta m => staModes.contains m.mode
  | .stx m => stxModes.contains m.mode
  | .sty m => styModes.contains m.mode
  | .cpx o | .cpy o => indexCompareModes.contains o.mode
  | .bit m => bitModes.contains m.mode
  | .inc m | .dec m => incModes.contains m.mode
  | .asl o | .lsr o | .rol o | .ror o => shiftModes.contains o.mode
  | .jmp _ | .jsr _ => true
  | .bcc _ | .bcs _ | .beq _ | .bne _ | .bmi _ | .bpl _ | .bvc _ | .bvs _ => true
  | .tax | .tay | .txa | .tya | .tsx | .txs | .inx | .iny | .dex | .dey | .rts | .pha | .php | .pla | .plp | .clc
  | .sec | .cli | .sei | .cld | .sed | .clv | .nop | .brk | .rti => true
  | .und opcode => undefinedOpcodes.contains opcode

end Sys2Proof
end

