-- ==== Sys2Proof/Decode.lean ====
section
/-! DEFINITION. The decode table of spec/30_encoding.md R104, the decoder (total on any bytes) and the encoder.
The table is kept as rows that read like the manual's: an opcode byte, the instruction it stands for with its
argument bytes zero, the base cycle count and the page-penalty mark. -/

namespace Sys2Proof

/-- One entry of the decode table: the triple {operation, mode, base cycles} of R104 and its `+` mark; the
operation and mode are given as an instruction whose argument bytes are zero. -/
structure OpcodeRow where
  opcode : Byte
  form : Instr
  cycles : Nat
  pagePenalty : Bool
  deriving DecidableEq, Repr

/-- The rows of LDA, LDX, LDY, STA, STX, STY (R104). -/
def loadStoreRows : List OpcodeRow :=
  [⟨0xA9, .lda (.imm 0), 2, false⟩, ⟨0xA5, .lda (.mem (.zer 0)), 3, false⟩,
    ⟨0xB5, .lda (.mem (.zex 0)), 4, false⟩, ⟨0xAD, .lda (.mem (.abs 0)), 4, false⟩,
    ⟨0xBD, .lda (.mem (.abx 0)), 4, true⟩, ⟨0xB9, .lda (.mem (.aby 0)), 4, true⟩,
    ⟨0xA1, .lda (.mem (.inx 0)), 6, false⟩, ⟨0xB1, .lda (.mem (.iny 0)), 5, true⟩] ++
  [⟨0xA2, .ldx (.imm 0), 2, false⟩, ⟨0xA6, .ldx (.mem (.zer 0)), 3, false⟩,
    ⟨0xB6, .ldx (.mem (.zey 0)), 4, false⟩, ⟨0xAE, .ldx (.mem (.abs 0)), 4, false⟩,
    ⟨0xBE, .ldx (.mem (.aby 0)), 4, true⟩] ++
  [⟨0xA0, .ldy (.imm 0), 2, false⟩, ⟨0xA4, .ldy (.mem (.zer 0)), 3, false⟩,
    ⟨0xB4, .ldy (.mem (.zex 0)), 4, false⟩, ⟨0xAC, .ldy (.mem (.abs 0)), 4, false⟩,
    ⟨0xBC, .ldy (.mem (.abx 0)), 4, true⟩] ++
  [⟨0x85, .sta (.zer 0), 3, false⟩, ⟨0x95, .sta (.zex 0), 4, false⟩, ⟨0x8D, .sta (.abs 0), 4, false⟩,
    ⟨0x9D, .sta (.abx 0), 5, false⟩, ⟨0x99, .sta (.aby 0), 5, false⟩, ⟨0x81, .sta (.inx 0), 6, false⟩,
    ⟨0x91, .sta (.iny 0), 6, false⟩] ++
  [⟨0x86, .stx (.zer 0), 3, false⟩, ⟨0x96, .stx (.zey 0), 4, false⟩, ⟨0x8E, .stx (.abs 0), 4, false⟩] ++
  [⟨0x84, .sty (.zer 0), 3, false⟩, ⟨0x94, .sty (.zex 0), 4, false⟩, ⟨0x8C, .sty (.abs 0), 4, false⟩]

/-- The rows of the register transfers (R104). -/
def transferRows : List OpcodeRow :=
  [⟨0xAA, .tax, 2, false⟩, ⟨0xA8, .tay, 2, false⟩, ⟨0x8A, .txa, 2, false⟩, ⟨0x98, .tya, 2, false⟩,
    ⟨0xBA, .tsx, 2, false⟩, ⟨0x9A, .txs, 2, false⟩]

/-- The rows of ADC and SBC (R104). -/
def addSubRows : List OpcodeRow :=
  [⟨0x69, .adc (.imm 0), 2, false⟩, ⟨0x65, .adc (.mem (.zer 0)), 3, false⟩,
    ⟨0x75, .adc (.mem (.zex 0)), 4, false⟩, ⟨0x6D, .adc (.mem (.abs 0)), 4, false⟩,
    ⟨0x7D, .adc (.mem (.abx 0)), 4, true⟩, ⟨0x79, .adc (.mem (.aby 0)), 4, true⟩,
    ⟨0x61, .adc (.mem (.inx 0)), 6, false⟩, ⟨0x71, .adc (.mem (.iny 0)), 5, true⟩] ++
  [⟨0xE9, .sbc (.imm 0), 2, false⟩, ⟨0xE5, .sbc (.mem (.zer 0)), 3, false⟩,
    ⟨0xF5, .sbc (.mem (.zex 0)), 4, false⟩, ⟨0xED, .sbc (.mem (.abs 0)), 4, false⟩,
    ⟨0xFD, .sbc (.mem (.abx 0)), 4, true⟩, ⟨0xF9, .sbc (.mem (.aby 0)), 4, true⟩,
    ⟨0xE1, .sbc (.mem (.inx 0)), 6, false⟩, ⟨0xF1, .sbc (.mem (.iny 0)), 5, true⟩]

/-- The rows of AND, ORA and EOR (R104). -/
def logicRows : List OpcodeRow :=
  [⟨0x29, .and (.imm 0), 2, false⟩, ⟨0x25, .and (.mem (.zer 0)), 3, false⟩,
    ⟨0x35, .and (.mem (.zex 0)), 4, false⟩, ⟨0x2D, .and (.mem (.abs 0)), 4, false⟩,
    ⟨0x3D, .and (.mem (.abx 0)), 4, true⟩, ⟨0x39, .and (.mem (.aby 0)), 4, true⟩,
    ⟨0x21, .and (.mem (.inx 0)), 6, false⟩, ⟨0x31, .and (.mem (.iny 0)), 5, true⟩] ++
  [⟨0x09, .ora (.imm 0), 2, false⟩, ⟨0x05, .ora (.mem (.zer 0)), 3, false⟩,
    ⟨0x15, .ora (.mem (.zex 0)), 4, false⟩, ⟨0x0D, .ora (.mem (.abs 0)), 4, false⟩,
    ⟨0x1D, .ora (.mem (.abx 0)), 4, true⟩, ⟨0x19, .ora (.mem (.aby 0)), 4, true⟩,
    ⟨0x01, .ora (.mem (.inx 0)), 6, false⟩, ⟨0x11, .ora (.mem (.iny 0)), 5, true⟩] ++
  [⟨0x49, .eor (.imm 0), 2, false⟩, ⟨0x45, .eor (.mem (.zer 0)), 3, false⟩,
    ⟨0x55, .eor (.mem (.zex 0)), 4, false⟩, ⟨0x4D, .eor (.mem (.abs 0)), 4, false⟩,
    ⟨0x5D, .eor (.mem (.abx 0)), 4, true⟩, ⟨0x59, .eor (.mem (.aby 0)), 4, true⟩,
    ⟨0x41, .eor (.mem (.inx 0)), 6, false⟩, ⟨0x51, .eor (.mem (.iny 0)), 5, true⟩]

/-- The rows of CMP, CPX, CPY and BIT (R104). -/
def compareRows : List OpcodeRow :=
  [⟨0xC9, .cmp (.imm 0), 2, false⟩, ⟨0xC5, .cmp (.mem (.zer 0)), 3, false⟩,
    ⟨0xD5, .cmp (.mem (.zex 0)), 4, false⟩, ⟨0xCD, .cmp (.mem (.abs 0)), 4, false⟩,
    ⟨0xDD, .cmp (.mem (.abx 0)), 4, true⟩, ⟨0xD9, .cmp (.mem (.aby 0)), 4, true⟩,
    ⟨0xC1, .cmp (.mem (.inx 0)), 6, false⟩, ⟨0xD1, .cmp (.mem (.iny 0)), 5, true⟩] ++
  [⟨0xE0, .cpx (.imm 0), 2, false⟩, ⟨0xE4, .cpx (.mem (.zer 0)), 3, false⟩,
    ⟨0xEC, .cpx (.mem (.abs 0)), 4, false⟩] ++
  [⟨0xC0, .cpy (.imm 0), 2, false⟩, ⟨0xC4, .cpy (.mem (.zer 0)), 3, false⟩,
    ⟨0xCC, .cpy (.mem (.abs 0)), 4, false⟩] ++
  [⟨0x24, .bit (.zer 0), 3, false⟩, ⟨0x2C, .bit (.abs 0), 4, false⟩]

/-- The rows of INC, DEC and the register increments and decrements (R104). -/
def incDecRows : List OpcodeRow :=
  [⟨0xE6, .inc (.zer 0), 5, false⟩, ⟨0xF6, .inc (.zex 0), 6, false⟩, ⟨0xEE, .inc (.abs 0), 6, false⟩,
    ⟨0xFE, .inc (.abx 0), 7, false⟩] ++
  [⟨0xC6, .dec (.zer 0), 5, false⟩, ⟨0xD6, .dec (.zex 0), 6, false⟩, ⟨0xCE, .dec (.abs 0), 6, false⟩,
    ⟨0xDE, .dec (.abx 0), 7, false⟩] ++
  [⟨0xE8, .inx, 2, false⟩] ++
  [⟨0xC8, .iny, 2, false⟩] ++
  [⟨0xCA, .dex, 2, false⟩] ++
  [⟨0x88, .dey, 2, false⟩]

/-- The rows of ASL, LSR, ROL and ROR (R104). -/
def shiftRows : List OpcodeRow :=
  [⟨0x0A, .asl .acc, 2, false⟩, ⟨0x06, .asl (.mem (.zer 0)), 5, false⟩, ⟨0x16, .asl (.mem (.zex 0)), 6, false⟩,
    ⟨0x0E, .asl (.mem (.abs 0)), 6, false⟩, ⟨0x1E, .asl (.mem (.abx 0)), 7, false⟩] ++
  [⟨0x4A, .lsr .acc, 2, false⟩, ⟨0x46, .lsr (.mem (.zer 0)), 5, false⟩, ⟨0x56, .lsr (.mem (.zex 0)), 6, false⟩,
    ⟨0x4E, .lsr (.mem (.abs 0)), 6, false⟩, ⟨0x5E, .lsr (.mem (.abx 0)), 7, false⟩] ++
  [⟨0x2A, .rol .acc, 2, false⟩, ⟨0x26, .rol (.mem (.zer 0)), 5, false⟩, ⟨0x36, .rol (.mem (.zex 0)), 6, false⟩,
    ⟨0x2E, .rol (.mem (.abs 0)), 6, false⟩, ⟨0x3E, .rol (.mem (.abx 0)), 7, false⟩] ++
  [⟨0x6A, .ror .acc, 2, false⟩, ⟨0x66, .ror (.mem (.zer 0)), 5, false⟩, ⟨0x76, .ror (.mem (.zex 0)), 6, false⟩,
    ⟨0x6E, .ror (.mem (.abs 0)), 6, false⟩, ⟨0x7E, .ror (.mem (.abx 0)), 7, false⟩]

/-- The rows of JMP, JSR, RTS and the branches (R104). -/
def controlRows : List OpcodeRow :=
  [⟨0x4C, .jmp (.abs 0), 3, false⟩, ⟨0x6C, .jmp (.abi 0), 5, false⟩, ⟨0x20, .jsr 0, 6, false⟩,
    ⟨0x60, .rts, 6, false⟩, ⟨0x90, .bcc 0, 2, false⟩, ⟨0xB0, .bcs 0, 2, false⟩, ⟨0xF0, .beq 0, 2, false⟩,
    ⟨0xD0, .bne 0, 2, false⟩, ⟨0x30, .bmi 0, 2, false⟩, ⟨0x10, .bpl 0, 2, false⟩, ⟨0x50, .bvc 0, 2, false⟩,
    ⟨0x70, .bvs 0, 2, false⟩]

/-- The rows of the stack, flag and system instructions (R104). -/
def systemRows : List OpcodeRow :=
  [⟨0x48, .pha, 3, false⟩, ⟨0x08, .php, 3, false⟩, ⟨0x68, .pla, 4, false⟩, ⟨0x28, .plp, 4, false⟩,
    ⟨0x18, .clc, 2, false⟩, ⟨0x38, .sec, 2, false⟩, ⟨0x58, .cli, 2, false⟩, ⟨0x78, .sei, 2, false⟩,
    ⟨0xD8, .cld, 2, false⟩, ⟨0xF8, .sed, 2, false⟩, ⟨0xB8, .clv, 2, false⟩, ⟨0xEA, .nop, 2, false⟩,
    ⟨0x00, .brk, 7, false⟩, ⟨0x40, .rti, 6, false⟩]
/-- The 151 entries of the decode table that hold a triple (R104). -/
def opcodeTable : List OpcodeRow :=
  loadStoreRows ++ transferRows ++ addSubRows ++ logicRows ++ compareRows ++ incDecRows ++ shiftRows ++
    controlRows ++ systemRows

/-- The table entry of an opcode byte; none for the bytes of mode `UND` (R104, R106). -/
def rowOf (opcode : Byte) : Option OpcodeRow :=
  opcodeTable.find? fun r => r.opcode == opcode

/-- A 16-bit argument from its two bytes, the first byte the low one (R103). -/
def argWord (arg0 arg1 : Byte) : Word := arg1 ++ arg0

/-- The first argument byte of a 16-bit argument: its low byte (R101, R103). -/
def argLow (w : Word) : Byte := w.extractLsb' 0 8

/-- The second argument byte of a 16-bit argument: its high byte (R101, R103). -/
def argHigh (w : Word) : Byte := w.extractLsb' 8 8

/-- The operand of the same mode with these argument bytes (R103). -/
def MemOperand.fill (arg0 arg1 : Byte) : MemOperand → MemOperand
  | .zer _ => .zer arg0
  | .zex _ => .zex arg0
  | .zey _ => .zey arg0
  | .inx _ => .inx arg0
  | .iny _ => .iny arg0
  | .abs _ => .abs (argWord arg0 arg1)
  | .abx _ => .abx (argWord arg0 arg1)
  | .aby _ => .aby (argWord arg0 arg1)

/-- The operand of the same mode with these argument bytes (R103). -/
def ReadOperand.fill (arg0 arg1 : Byte) : ReadOperand → ReadOperand
  | .imm _ => .imm arg0
  | .mem m => .mem (m.fill arg0 arg1)

/-- The operand of the same mode with these argument bytes (R103). -/
def RmwOperand.fill (arg0 arg1 : Byte) : RmwOperand → RmwOperand
  | .acc => .acc
  | .mem m => .mem (m.fill arg0 arg1)

/-- The jump operand of the same mode with these argument bytes (R103). -/
def JumpOperand.fill (arg0 arg1 : Byte) : JumpOperand → JumpOperand
  | .abs _ => .abs (argWord arg0 arg1)
  | .abi _ => .abi (argWord arg0 arg1)

/-- The instruction of the same operation and mode with these argument bytes (R103). -/
def Instr.fill (arg0 arg1 : Byte) : Instr → Instr
  | .lda o => .lda (o.fill arg0 arg1)
  | .ldx o => .ldx (o.fill arg0 arg1)
  | .ldy o => .ldy (o.fill arg0 arg1)
  | .sta m => .sta (m.fill arg0 arg1)
  | .stx m => .stx (m.fill arg0 arg1)
  | .sty m => .sty (m.fill arg0 arg1)
  | .adc o => .adc (o.fill arg0 arg1)
  | .sbc o => .sbc (o.fill arg0 arg1)
  | .and o => .and (o.fill arg0 arg1)
  | .ora o => .ora (o.fill arg0 arg1)
  | .eor o => .eor (o.fill arg0 arg1)
  | .cmp o => .cmp (o.fill arg0 arg1)
  | .cpx o => .cpx (o.fill arg0 arg1)
  | .cpy o => .cpy (o.fill arg0 arg1)
  | .bit m => .bit (m.fill arg0 arg1)
  | .inc m => .inc (m.fill arg0 arg1)
  | .dec m => .dec (m.fill arg0 arg1)
  | .asl o => .asl (o.fill arg0 arg1)
  | .lsr o => .lsr (o.fill arg0 arg1)
  | .rol o => .rol (o.fill arg0 arg1)
  | .ror o => .ror (o.fill arg0 arg1)
  | .jmp o => .jmp (o.fill arg0 arg1)
  | .jsr _ => .jsr (argWord arg0 arg1)
  | .bcc _ => .bcc arg0
  | .bcs _ => .bcs arg0
  | .beq _ => .beq arg0
  | .bne _ => .bne arg0
  | .bmi _ => .bmi arg0
  | .bpl _ => .bpl arg0
  | .bvc _ => .bvc arg0
  | .bvs _ => .bvs arg0
  | .tax => .tax
  | .tay => .tay
  | .txa => .txa
  | .tya => .tya
  | .tsx => .tsx
  | .txs => .txs
  | .inx => .inx
  | .iny => .iny
  | .dex => .dex
  | .dey => .dey
  | .rts => .rts
  | .pha => .pha
  | .php => .php
  | .pla => .pla
  | .plp => .plp
  | .clc => .clc
  | .sec => .sec
  | .cli => .cli
  | .sei => .sei
  | .cld => .cld
  | .sed => .sed
  | .clv => .clv
  | .nop => .nop
  | .brk => .brk
  | .rti => .rti
  | .und opcode => .und opcode

/-- The argument bytes of an operand, in the order they stand after the opcode (R101, R102). -/
def MemOperand.args : MemOperand → List Byte
  | .zer a | .zex a | .zey a | .inx a | .iny a => [a]
  | .abs w | .abx w | .aby w => [argLow w, argHigh w]

/-- The argument bytes of an operand (R101, R102). -/
def ReadOperand.args : ReadOperand → List Byte
  | .imm v => [v]
  | .mem m => m.args

/-- The argument bytes of an operand (R101, R102). -/
def RmwOperand.args : RmwOperand → List Byte
  | .acc => []
  | .mem m => m.args

/-- The argument bytes of a jump's operand (R101, R102). -/
def JumpOperand.args : JumpOperand → List Byte
  | .abs w | .abi w => [argLow w, argHigh w]

/-- The argument bytes of an instruction (R101, R102). -/
def Instr.args : Instr → List Byte
  | .lda o | .ldx o | .ldy o | .adc o | .sbc o | .and o | .ora o | .eor o | .cmp o | .cpx o | .cpy o => o.args
  | .sta m | .stx m | .sty m | .bit m | .inc m | .dec m => m.args
  | .asl o | .lsr o | .rol o | .ror o => o.args
  | .jmp o => o.args
  | .jsr w => [argLow w, argHigh w]
  | .bcc d | .bcs d | .beq d | .bne d | .bmi d | .bpl d | .bvc d | .bvs d => [d]
  | .tax | .tay | .txa | .tya | .tsx | .txs | .inx | .iny | .dex | .dey | .rts | .pha | .php | .pla | .plp | .clc
  | .sec | .cli | .sei | .cld | .sed | .clv | .nop | .brk | .rti | .und _ => []

/-- By how many bytes fetching an instruction advances PC: the opcode byte and the argument bytes (R102), and
none for an undefined opcode, whose fault is detected before PC is advanced (R253; the table's length 0). -/
def Instr.length : Instr → Nat
  | .und _ => 0
  | i => 1 + i.args.length

/-- How many argument bytes are read after an opcode byte (R100, R102); none after an undefined one (R253). -/
def argCount (opcode : Byte) : Nat :=
  match rowOf opcode with
  | some r => r.form.args.length
  | none => 0

/-- The instruction an opcode byte and its argument bytes stand for; an argument byte the mode does not have is
ignored, and an opcode without an entry is `und` (R104, R106, R107). -/
def instrOf (opcode arg0 arg1 : Byte) : Instr :=
  match rowOf opcode with
  | some r => r.form.fill arg0 arg1
  | none => .und opcode

/-- Why a list of bytes is no instruction: it ends too early. Every opcode byte is decided (R107). -/
inductive DecodeError
  /-- There is no opcode byte. -/
  | noBytes
  /-- The argument bytes of this opcode are missing. -/
  | truncated (opcode : Byte)
  deriving DecidableEq, Repr

/-- The decoder: the first instruction of a list of bytes, and the bytes after it (R100 to R107). -/
def decode : List Byte → Except DecodeError (Instr × List Byte)
  | [] => .error .noBytes
  | opcode :: rest =>
    match argCount opcode, rest with
    | 0, rest => .ok (instrOf opcode 0 0, rest)
    | 1, arg0 :: rest => .ok (instrOf opcode arg0 0, rest)
    | _ + 2, arg0 :: arg1 :: rest => .ok (instrOf opcode arg0 arg1, rest)
    | _, _ => .error (.truncated opcode)

/-- The table row of an instruction: the one whose form it has once its argument bytes are set to zero. -/
def rowFor (i : Instr) : Option OpcodeRow :=
  opcodeTable.find? fun r => r.form == i.fill 0 0

/-- The encoder: the bytes of a well-formed instruction, opcode first and a 16-bit argument low byte first
(R101, R104); an undefined opcode is its one byte. An operand form the table does not have has no bytes. -/
def encode (i : Instr) : List Byte :=
  match i with
  | .und opcode => [opcode]
  | i =>
    match rowFor i with
    | some r => r.opcode :: i.args
    | none => []

/-- The bytes of a word whose bit 0 is the least significant bit of the first byte, three of them: the longest
instruction (R100). -/
def tableBytes (nbits w : Nat) : List Byte :=
  let w := w % 2 ^ nbits
  [BitVec.ofNat 8 w, BitVec.ofNat 8 (w / 0x100), BitVec.ofNat 8 (w / 0x10000)]

/-- The instruction the decoder reads from an instruction whose bits are `w`, numbered as
spec/opcode_table.json numbers them; the bits above `nbits` are zero. -/
def decodeTableWord (nbits w : Nat) : Option Instr :=
  match decode (tableBytes nbits w) with
  | .ok (i, _) => some i
  | .error _ => none

/-- The cycles an instruction costs by its table entry: the base count, and one more when the entry is marked
`+` and the page was crossed (R256). The branches' own penalty is R208's. -/
def Instr.cost (i : Instr) (crossed : Bool) : Nat :=
  match rowFor i with
  | some r => r.cycles + (if r.pagePenalty && crossed then 1 else 0)
  | none => 0

end Sys2Proof
end

