-- ==== Sys2Proof/Machine/Bits.lean ====
section
/-! DEFINITION. The bit-field, byte-order and sign-extension helpers of spec/00_scope.md R9. -/

namespace Sys2Proof.Machine

/-- `hi(w)`: bits 15 to 8 (R9). -/
def hi (w : Word) : Byte := w.extractLsb' 8 8

/-- `lo(w)`: bits 7 to 0 (R9). -/
def lo (w : Word) : Byte := w.extractLsb' 0 8

/-- `(h << 8) | l`: the 16-bit value of two bytes (R67). -/
def wordOf (h l : Byte) : Word := h ++ l

/-- `zext_16(b)` (R9). -/
def zext16 (b : Byte) : Word := b.setWidth 16

/-- `sext_8(b)`, the byte read as two's complement, in 16 bits (R9). -/
def sext8 (b : Byte) : Word := b.signExtend 16

/-- A byte with bit `i` replaced. -/
def putBit (b : Byte) (i : Nat) (v : Bool) : Byte :=
  if v then b ||| (1#8 <<< i) else b &&& ~~~(1#8 <<< i)

/-- A Bool as the bit it stands for. -/
def bitOf (v : Bool) : Byte := if v then 1 else 0

/-- `rev8(b)`: bit k to bit 7 − k (R375). -/
def rev8 (b : Byte) : Byte :=
  b.extractLsb' 0 1 ++ b.extractLsb' 1 1 ++ b.extractLsb' 2 1 ++ b.extractLsb' 3 1 ++ b.extractLsb' 4 1 ++
    b.extractLsb' 5 1 ++ b.extractLsb' 6 1 ++ b.extractLsb' 7 1

/-- A 15-bit VRAM address with the bits of `mask` taken from `b` and the others kept. -/
def putField (v mask b : VramAddr) : VramAddr := (v &&& ~~~mask) ||| (b &&& mask)

end Sys2Proof.Machine
end

