-- ==== Sys2Proof/Config.lean ====
section
/-! DEFINITION. The configuration: the parameters of spec/00_scope.md R6 that stay fixed for a run, and the
values the spec leaves open (`rgbTable`, `freeByte`). -/

namespace Sys2Proof

/-- `PRG_BANKS`, the number of 16 KiB program-ROM banks: 1 or 2 (R6, R72). -/
inductive PrgBanks
  | one
  | two
  deriving DecidableEq, Repr

/-- `CHR_BANKS`: 0 means 8 KiB of character RAM, 1 means 8 KiB of character ROM (R6, decision D19). -/
inductive ChrBanks
  | zero
  | one
  deriving DecidableEq, Repr

/-- `MIRRORING`, the nametable mirroring of header byte 6 bit 0 (R6, R64). -/
inductive Mirroring
  | horizontal
  | vertical
  deriving DecidableEq, Repr

/-- `UNMAPPED`: what an access to CPU `$4020–$5FFF` does (R53, decision D17). -/
inductive UnmappedPolicy
  | fault
  | dummy
  deriving DecidableEq, Repr

/-- `ROM_WRITE`: what a store into program or character ROM does (R57, decision D18). -/
inductive RomWritePolicy
  | fault
  | ignore
  | store
  deriving DecidableEq, Repr

/-- The parameters that are fixed for the lifetime of a loaded cartridge or of a run (R6). -/
structure Config where
  prgBanks : PrgBanks
  chrBanks : ChrBanks
  mirroring : Mirroring
  unmapped : UnmappedPolicy
  romWrite : RomWritePolicy
  deriving DecidableEq, Repr

/-- The configuration of `State.reset`: the spec's defaults `fault`, `fault` (D17, D18), and one program bank,
no character ROM and horizontal mirroring, which the spec leaves to the cartridge (log entry 2). -/
def Config.reference : Config :=
  { prgBanks := .one, chrBanks := .zero, mirroring := .horizontal, unmapped := .fault, romWrite := .fault }

/-- `RGB_TABLE`: the 64 packed colour values, which the spec does not give (R6, R381, U6). No body: a claim
about a colour holds for every table. -/
opaque Config.rgbTable : BitVec 6 → Nat

/-- The free values of the one place where a rule's arithmetic has no stated result: the pattern bytes of a
sprite unit whose row falls below zero (R375, log entry 9). No body: nothing can be proved of a value. -/
opaque Config.freeByte : Nat → Byte

end Sys2Proof
end

