-- ==== Sys2Proof/Machine/State.lean ====
section
/-! DEFINITION. The state of the block: every piece of state of spec/10_state.md (R10 to R29), as plain data; the
reasons a step can stop; and the state after power-on (R30, R430). -/

namespace Sys2Proof.Machine

/-- A byte array in sparse form: (index, byte) pairs, indexes strictly rising, none holding the byte an unlisted
index reads as (`Memory.wf` in Machine/Ops.lean). -/
abbrev Memory := List Host.Cell

/-- The memories of the block (R22), and the pixel buffer (R29). -/
inductive Bank
  | ram
  | sram
  | prg
  | chr
  | vram
  | palette
  | oam
  | secOam
  | pixels
  deriving DecidableEq, Repr

/-- What an index that a memory does not list reads as. `SEC_OAM` is all `0xFF` at power-on (R30); for every
other memory the spec leaves the power-on contents open and the model takes 0 (log entry 3). -/
def Bank.unlisted : Bank → Byte
  | .secOam => 0xFF
  | _ => 0x00

/-- The storage the Mapper owns (R22): each an array of bytes. -/
structure Mapper where
  ram : Memory
  sram : Memory
  prg : Memory
  chr : Memory
  vram : Memory
  palette : Memory
  deriving DecidableEq, Repr

/-- The last access an acknowledgment slot records (R23). -/
inductive Access
  | none
  | read
  | write
  deriving DecidableEq, Repr

/-- The IORegisterBank (R23): the eight PPU register cells, `$4014`, `$4016`, `$4017`, the shared dummy cell, and
the 40 acknowledgment slots. -/
structure IoBank where
  ioreg : Vector Byte 8
  dmareg : Byte
  joy1 : Byte
  joy2 : Byte
  dummy : Byte
  ack : Vector Access 40
  deriving DecidableEq, Repr

/-- One joypad (R24): its shift register, its shift position (1 to 10) and its polling flag. -/
structure Joypad where
  shift : Byte
  pos : Nat
  polling : Bool
  deriving DecidableEq, Repr

/-- The Controller (R24): two joypads and the look-back `last_strobe`. -/
structure Controller where
  pad1 : Joypad
  pad2 : Joypad
  lastStrobe : Bool
  deriving DecidableEq, Repr

/-- The background pipeline's latches and shift registers (R27). -/
structure Background where
  ntLatch : Byte
  atLatch : BitVec 2
  patLoLatch : Byte
  patHiLatch : Byte
  patLo : BitVec 16
  patHi : BitVec 16
  attLo : BitVec 16
  attHi : BitVec 16
  deriving DecidableEq, Repr

/-- The states of the sprite-evaluation machine (R28, R370). -/
inductive EvalPhase
  | copyY
  | copyRest
  | overflowDetect
  | wait
  deriving DecidableEq, Repr

/-- The sprite-evaluation machine (R28): its state, the primary entry index `n` (0 to 63), the byte index `m`
(0 to 3), the entries found (0 to 8) and whether entry 0 was copied. -/
structure Evaluation where
  sev : EvalPhase
  n : Nat
  m : Nat
  found : Nat
  zeroNext : Bool
  deriving DecidableEq, Repr

/-- A sprite-rendering unit (R28). -/
structure SpriteUnit where
  lo : Byte
  hi : Byte
  attr : Byte
  x : Byte
  deriving DecidableEq, Repr

/-- The PPU (R25 to R28), with primary and secondary OAM (R22). -/
structure Ppu where
  ctrl : Byte
  mask : Byte
  vblank : Bool
  sprite0 : Bool
  overflow : Bool
  oamaddr : Byte
  v : VramAddr
  t : VramAddr
  fineX : BitVec 3
  w : Bool
  cycle : Nat
  scanline : Int
  oddFrame : Bool
  bg : Background
  eval : Evaluation
  units : Vector SpriteUnit 8
  spriteCount : Nat
  zeroLine : Bool
  oam : Memory
  secOam : Memory
  deriving DecidableEq, Repr

/-- The whole state of the block.
`a` … `pc` are the CPU register file (R10), `context` the interrupt context (R19), `cyc` the cycle counter (R20),
`mapper` the Mapper's storage (R22), `io` the IORegisterBank (R23), `pads` the Controller (R24), `ppu` the PPU
(R25 to R28) and `pixels` the output buffer (R29): the 6-bit palette entry of the pixel at (x, y) at index
256·y + x, its colour being `Config.rgbTable` of that entry (R381, log entry 8).
The model's own fields: `cfg` is the configuration, which no step changes (R6); `keys` is the button state the
input source delivers (R8, R305); `frames` counts the frame-complete events emitted (R8, R384); `fresh` counts
the free values used so far (log entry 9). -/
structure State where
  a : Byte
  x : Byte
  y : Byte
  sp : Byte
  p : Byte
  pc : Word
  context : Byte
  cyc : Nat
  mapper : Mapper
  io : IoBank
  pads : Controller
  ppu : Ppu
  pixels : Memory
  cfg : Config
  keys : BitVec 16
  frames : Nat
  fresh : Nat
  deriving DecidableEq, Repr

/-- Why the machine stops with a fault. Each carries what the spec says is known of it and the state it leaves:
the effects of the step before the faulting access are kept (R410, R412). A fault is terminal and never a
successful final state, so stopping is safe. -/
inductive Fault
  /-- The opcode byte at PC has no table entry (R106, R410). Raised by `und` only. Safe. -/
  | decodeFault (opcode : Byte) (left : State)
  /-- A CPU access to `$4020–$5FFF` while `UNMAPPED` is `fault` (R53, R412). Raised by fetches, operand accesses,
  the pointer reads of `JMP ($nnnn)` and DMA source reads. Safe. -/
  | unmappedAccess (addr : Word) (left : State)
  /-- A store into program ROM, or a PPU-side store into character ROM, while `ROM_WRITE` is `fault` (R57, R412).
  Raised by operand stores and by the PPU's `$2007` store. Safe. -/
  | romWrite (addr : Word) (left : State)
  deriving DecidableEq, Repr

/-- Why the model has no meaning for an instruction. -/
inductive Refusal
  /-- The instruction has no meaning in this model. Raised by `exec`'s refused arms, of which none is left. Safe. -/
  | notModelled (mnemonic : String)
  deriving DecidableEq, Repr

/-- The power-on parameters of R6: the `INIT_*` values, the cartridge's contents and the configuration. -/
structure PowerOn where
  a : Byte
  x : Byte
  y : Byte
  sp : Byte
  p : Byte
  pc : Word
  ram : Memory
  sram : Memory
  prg : Memory
  chr : Memory
  vram : Memory
  palette : Memory
  oam : Memory
  pixels : Memory
  keys : BitVec 16
  cfg : Config
  deriving DecidableEq, Repr

/-- The reference values of R30 for the CPU registers; nothing listed in any memory (log entries 1, 2 and 3). -/
def PowerOn.reference : PowerOn where
  a := 0x00
  x := 0x00
  y := 0x00
  sp := 0x00
  p := 0x34
  pc := 0x0000
  ram := []
  sram := []
  prg := []
  chr := []
  vram := []
  palette := []
  oam := []
  pixels := []
  keys := 0x0000
  cfg := Config.reference

/-- The IORegisterBank at power-on: every cell 0, no access recorded (R30). -/
def IoBank.powerOn : IoBank where
  ioreg := Vector.replicate 8 0x00
  dmareg := 0x00
  joy1 := 0x00
  joy2 := 0x00
  dummy := 0x00
  ack := Vector.replicate 40 .none

/-- A joypad at power-on: `shift` = 0, `pos` = 1, not polling (R30). -/
def Joypad.powerOn : Joypad where
  shift := 0x00
  pos := 1
  polling := false

/-- The Controller at power-on (R30). -/
def Controller.powerOn : Controller where
  pad1 := Joypad.powerOn
  pad2 := Joypad.powerOn
  lastStrobe := false

/-- The background latches and shift registers at power-on: 0 (R30). -/
def Background.powerOn : Background where
  ntLatch := 0x00
  atLatch := 0
  patLoLatch := 0x00
  patHiLatch := 0x00
  patLo := 0x0000
  patHi := 0x0000
  attLo := 0x0000
  attHi := 0x0000

/-- The evaluation machine at power-on: `WAIT`, 0, 0, 0, false (R30). -/
def Evaluation.powerOn : Evaluation where
  sev := .wait
  n := 0
  m := 0
  found := 0
  zeroNext := false

/-- A sprite unit at power-on: every field 0 (R30). -/
def SpriteUnit.powerOn : SpriteUnit where
  lo := 0x00
  hi := 0x00
  attr := 0x00
  x := 0x00

/-- The PPU at power-on: everything 0, position (0, 0) on an even frame, `SEC_OAM` all `0xFF` (R30). -/
def Ppu.powerOn (oam : Memory) : Ppu where
  ctrl := 0x00
  mask := 0x00
  vblank := false
  sprite0 := false
  overflow := false
  oamaddr := 0x00
  v := 0
  t := 0
  fineX := 0
  w := false
  cycle := 0
  scanline := 0
  oddFrame := false
  bg := Background.powerOn
  eval := Evaluation.powerOn
  units := Vector.replicate 8 SpriteUnit.powerOn
  spriteCount := 0
  zeroLine := false
  oam := oam
  secOam := []

/-- The state at power-on (R30, R430): the open parameters as given, Reset pending, everything else as R30
says. -/
def State.powerOn (i : PowerOn) : State where
  a := i.a
  x := i.x
  y := i.y
  sp := i.sp
  p := i.p
  pc := i.pc
  context := 0x01
  cyc := 0
  mapper :=
    { ram := i.ram, sram := i.sram, prg := i.prg, chr := i.chr, vram := i.vram, palette := i.palette }
  io := IoBank.powerOn
  pads := Controller.powerOn
  ppu := Ppu.powerOn i.oam
  pixels := i.pixels
  cfg := i.cfg
  keys := i.keys
  frames := 0
  fresh := 0

/-- The machine right after reset: power-on with the reference parameters (R30, R430). -/
def State.reset : State := State.powerOn PowerOn.reference

end Sys2Proof.Machine
end

