-- ==== Sys2Proof/Machine/Flags.lean ====
section
/-! DEFINITION. The status register's fields (spec/10_state.md R15) and every flag computation: `SetNZ` (R9), add
and subtract (spec/41_arithmetic_logic.md R161 to R163), compare (R167) and the shifts (spec/42_shift_rotate.md
R191 to R194). -/

namespace Sys2Proof.Machine

/-- The eight fields of P (R15). -/
inductive Flag
  | carry
  | zero
  | interrupt
  | decimal
  | brk
  | unused
  | overflow
  | negative
  deriving DecidableEq, Repr

/-- The bit position of a flag in P (R15). -/
def Flag.index : Flag → Nat
  | .carry => 0
  | .zero => 1
  | .interrupt => 2
  | .decimal => 3
  | .brk => 4
  | .unused => 5
  | .overflow => 6
  | .negative => 7

/-- A flag of a status byte. -/
def flagOf (p : Byte) (f : Flag) : Bool := p.getLsbD f.index

/-- A status byte with one flag replaced. -/
def putFlag (p : Byte) (f : Flag) (v : Bool) : Byte := putBit p f.index v

/-- `SetNZ(v)` on a status byte: N is bit 7 of `v`, Z says `v` is zero (R9). -/
def setNZ (p v : Byte) : Byte := putFlag (putFlag p .negative (v.getLsbD 7)) .zero (v == 0)

/-- The copy of P that NMI and IRQ push: unused set, Break cleared (R17). -/
def pushedByInterrupt (p : Byte) : Byte := (p ||| 0x20) &&& 0xEF

/-- The copy of P that PHP and BRK push: unused and Break set (R17). -/
def pushedByInstruction (p : Byte) : Byte := p ||| 0x30

/-- What PLP and RTI load into P from the pulled byte: unused forced to 1 (R18). -/
def pulledStatus (b : Byte) : Byte := b ||| 0x20

/-- The 9-bit sum `A + M + C` (R162). -/
def sum9 (a m : Byte) (c : Bool) : Nat := a.toNat + m.toNat + c.toNat

/-- The result byte of `A + M + C` (R162). -/
def addResult (a m : Byte) (c : Bool) : Byte := BitVec.ofNat 8 (sum9 a m c)

/-- The carry out of `A + M + C` (R162). -/
def addCarry (a m : Byte) (c : Bool) : Bool := decide (sum9 a m c > 0xFF)

/-- The signed overflow of `A + M + C`: `((A ^ t) & (M ^ t) & 0x80) != 0` (R161, R162). -/
def addOverflow (a m : Byte) (c : Bool) : Bool :=
  (a ^^^ addResult a m c) &&& (m ^^^ addResult a m c) &&& 0x80 != 0

/-- P after ADC of `M` to `A` (R162); SBC is the same with the operand complemented (R163). -/
def addStatus (p a m : Byte) : Byte :=
  let c := flagOf p .carry
  setNZ (putFlag (putFlag p .carry (addCarry a m c)) .overflow (addOverflow a m c)) (addResult a m c)

/-- P after comparing `r` with `M`: C is unsigned `r ≥ M`, Z is `r = M`, N is bit 7 of the difference (R167). -/
def compareStatus (p r m : Byte) : Byte :=
  putFlag (putFlag (putFlag p .carry (decide (m.toNat ≤ r.toNat))) .zero (r == m)) .negative ((r - m).getLsbD 7)

/-- P after BIT: Z from `A & M`, N and V from bits 7 and 6 of `M` (R170). -/
def bitStatus (p a m : Byte) : Byte :=
  putFlag (putFlag (putFlag p .zero (a &&& m == 0)) .negative (m.getLsbD 7)) .overflow (m.getLsbD 6)

/-- ASL's result (R191). -/
def aslResult (v : Byte) : Byte := v <<< 1

/-- LSR's result (R192). -/
def lsrResult (v : Byte) : Byte := v >>> 1

/-- ROL's result: the old carry enters bit 0 (R193). -/
def rolResult (v : Byte) (c : Bool) : Byte := (v <<< 1) ||| bitOf c

/-- ROR's result: the old carry enters bit 7 (R194). -/
def rorResult (v : Byte) (c : Bool) : Byte := (v >>> 1) ||| (bitOf c <<< 7)

end Sys2Proof.Machine
end

