-- ==== Sys2Proof/Machine/Ops.lean ====
section
/-! DEFINITION. The named operations over registers and memories: the sparse memories, the Mapper's two address
spaces (spec/20_memory.md R50 to R66), the acknowledgments (spec/51_io_registers_dma_controller.md R284, R285), the
stack (spec/10_state.md R14), taking an interrupt and returning from one (spec/60_exceptions.md R406 to R408, R415). -/

namespace Sys2Proof.Machine

/-! ### Sparse memories -/

/-- The byte at an index: the listed one, or what an unlisted index reads as. -/
def Memory.read (d : Byte) : Memory → Nat → Byte
  | [], _ => d
  | (k, b) :: m, i => if k = i then b else Memory.read d m i

/-- Store a byte at an index; storing what an unlisted index reads as removes the entry. -/
def Memory.write (d : Byte) : Memory → Nat → Byte → Memory
  | [], i, v => if v = d then [] else [(i, v)]
  | (k, b) :: m, i, v =>
    if i < k then (if v = d then (k, b) :: m else (i, v) :: (k, b) :: m)
    else if i = k then (if v = d then m else (i, v) :: m)
    else (k, b) :: Memory.write d m i v

/-- The canonical form from an index up: indexes strictly rising, below `size`, and no entry that reads as if
unlisted. -/
def Memory.wfFrom (d : Byte) (size : Nat) : Nat → Memory → Bool
  | _, [] => true
  | lowest, (k, b) :: m => decide (lowest ≤ k) && decide (k < size) && b != d && Memory.wfFrom d size (k + 1) m

/-- The canonical form of a memory of `size` bytes whose unlisted bytes read as `d`. -/
def Memory.wf (d : Byte) (size : Nat) (m : Memory) : Bool := Memory.wfFrom d size 0 m

/-- A memory that holds these bytes from index `i` on, and nothing else. -/
def Memory.ofBytes (d : Byte) : Nat → List Byte → Memory
  | _, [] => []
  | i, b :: bs => if b = d then Memory.ofBytes d (i + 1) bs else (i, b) :: Memory.ofBytes d (i + 1) bs

/-! ### Registers -/

/-- Replace A. -/
def State.setA (s : State) (v : Byte) : State := { s with a := v }

/-- Replace X. -/
def State.setX (s : State) (v : Byte) : State := { s with x := v }

/-- Replace Y. -/
def State.setY (s : State) (v : Byte) : State := { s with y := v }

/-- Replace SP. -/
def State.setSp (s : State) (v : Byte) : State := { s with sp := v }

/-- Replace P. -/
def State.setP (s : State) (v : Byte) : State := { s with p := v }

/-- Replace PC. -/
def State.setPc (s : State) (v : Word) : State := { s with pc := v }

/-- Replace the interrupt context. -/
def State.setContext (s : State) (v : Byte) : State := { s with context := v }

/-- Count consumed cycles: `cyc <- cyc + n` (R20, R250). -/
def State.charge (s : State) (n : Nat) : State := { s with cyc := s.cyc + n }

/-- Replace the Mapper's storage. -/
def State.setMapper (s : State) (v : Mapper) : State := { s with mapper := v }

/-- Replace the IORegisterBank. -/
def State.setIo (s : State) (v : IoBank) : State := { s with io := v }

/-- Replace the Controller. -/
def State.setPads (s : State) (v : Controller) : State := { s with pads := v }

/-- Replace the PPU. -/
def State.setPpu (s : State) (v : Ppu) : State := { s with ppu := v }

/-- Replace the pixel buffer. -/
def State.setPixels (s : State) (v : Memory) : State := { s with pixels := v }

/-- A flag of the live P (R15). -/
def State.flag (s : State) (f : Flag) : Bool := flagOf s.p f

/-- Replace one flag of the live P. -/
def State.setFlag (s : State) (f : Flag) (v : Bool) : State := s.setP (putFlag s.p f v)

/-- `SetNZ(v)` (R9). -/
def State.setNZ (s : State) (v : Byte) : State := s.setP (Machine.setNZ s.p v)

/-! ### The CPU address space -/

/-- The cell a CPU address resolves to (R51 to R56): the Mapper's `Get` on the CPU space (R80). -/
inductive CpuCell
  | ram (i : Nat)
  | ioreg (k : Fin 8)
  | dmareg
  | joy1
  | joy2
  | dummy
  | sram (i : Nat)
  | prg (i : Nat)
  deriving DecidableEq, Repr

/-- The size of the program ROM (R22). -/
def prgSize (cfg : Config) : Nat :=
  match cfg.prgBanks with
  | .one => 0x4000
  | .two => 0x8000

/-- `iocell(k)`: the cell of `$4000 + k` (R58). -/
def ioCell (k : Nat) : CpuCell :=
  if k = 0x14 then .dmareg else if k = 0x16 then .joy1 else if k = 0x17 then .joy2 else .dummy

/-- The cell of a CPU address; none for `$4020–$5FFF` while `UNMAPPED` is `fault` (R51 to R56, R58). -/
def cpuCell (cfg : Config) (addr : Word) : Option CpuCell :=
  let a := addr.toNat
  if a ≤ 0x1FFF then some (.ram (a % 0x800))
  else if a ≤ 0x3FFF then some (.ioreg (Fin.ofNat 8 a))
  else if a ≤ 0x401F then some (ioCell (a - 0x4000))
  else if a ≤ 0x5FFF then
    match cfg.unmapped with
    | .fault => none
    | .dummy => some .dummy
  else if a ≤ 0x7FFF then some (.sram (a % 0x2000))
  else some (.prg (a % prgSize cfg))

/-- The acknowledgment slot of a CPU address: `$2000–$3FFF` have slots 0 to 7, `$4000–$401F` slots 8 to 39, no
other address has one (R52, R281). -/
def ackSlot (addr : Word) : Option (Fin 40) :=
  let a := addr.toNat
  if a ≤ 0x1FFF then none
  else if a ≤ 0x3FFF then some (Fin.ofNat 40 (a % 8))
  else if a ≤ 0x401F then some (Fin.ofNat 40 (8 + (a - 0x4000)))
  else none

/-- The byte a cell holds. -/
def State.readCell (s : State) : CpuCell → Byte
  | .ram i => Memory.read Bank.ram.unlisted s.mapper.ram i
  | .ioreg k => s.io.ioreg[k]
  | .dmareg => s.io.dmareg
  | .joy1 => s.io.joy1
  | .joy2 => s.io.joy2
  | .dummy => s.io.dummy
  | .sram i => Memory.read Bank.sram.unlisted s.mapper.sram i
  | .prg i => Memory.read Bank.prg.unlisted s.mapper.prg i

/-- Store a byte in a cell. -/
def State.writeCell (s : State) (c : CpuCell) (v : Byte) : State :=
  match c with
  | .ram i => s.setMapper { s.mapper with ram := Memory.write Bank.ram.unlisted s.mapper.ram i v }
  | .ioreg k => s.setIo { s.io with ioreg := s.io.ioreg.set k.val v k.isLt }
  | .dmareg => s.setIo { s.io with dmareg := v }
  | .joy1 => s.setIo { s.io with joy1 := v }
  | .joy2 => s.setIo { s.io with joy2 := v }
  | .dummy => s.setIo { s.io with dummy := v }
  | .sram i => s.setMapper { s.mapper with sram := Memory.write Bank.sram.unlisted s.mapper.sram i v }
  | .prg i => s.setMapper { s.mapper with prg := Memory.write Bank.prg.unlisted s.mapper.prg i v }

/-- The byte a CPU read of an address would return, with no side effect; none where the read would fault. -/
def State.peek (s : State) (addr : Word) : Option Byte := (cpuCell s.cfg addr).map s.readCell

/-- Record an access in an acknowledgment slot, overwriting what it held (R55, R284). -/
def State.setAck (s : State) (slot : Fin 40) (k : Access) : State :=
  s.setIo { s.io with ack := s.io.ack.set slot.val k slot.isLt }

/-- The side effect of a CPU access to an address: record it in the register's slot, if it has one (R55). -/
def State.touch (s : State) (addr : Word) (k : Access) : State :=
  match ackSlot addr with
  | some slot => s.setAck slot k
  | none => s

/-- `MemRead(addr, 1)` (R58). -/
def memRead (addr : Word) (s : State) : Except Fault (Byte × State) :=
  match s.peek addr with
  | some b => .ok (b, s.touch addr .read)
  | none => .error (.unmappedAccess addr s)

/-- `MemWrite(addr, 1, v)` (R58), a store into program ROM per `ROM_WRITE` (R57). -/
def memWrite (addr : Word) (v : Byte) (s : State) : Except Fault State :=
  match cpuCell s.cfg addr with
  | none => .error (.unmappedAccess addr s)
  | some (.prg i) =>
    match s.cfg.romWrite with
    | .fault => .error (.romWrite addr s)
    | .ignore => .ok s
    | .store => .ok (s.writeCell (.prg i) v)
  | some c => .ok ((s.touch addr .write).writeCell c v)

/-- `Ack(a)` on a slot: the recorded access, and the slot cleared (R285). -/
def State.takeAck (s : State) (slot : Fin 40) : Access × State := (s.io.ack[slot], s.setAck slot .none)

/-- Place a byte at a CPU address from outside the machine, with no side effect and whatever `ROM_WRITE` says: how
a program's bytes are loaded (log entry 4). Nothing happens at an address that has no cell. -/
def State.poke (s : State) (addr : Word) (v : Byte) : State :=
  match cpuCell s.cfg addr with
  | some c => s.writeCell c v
  | none => s

/-! ### The PPU address space -/

/-- The cell a PPU address resolves to (R62). -/
inductive PpuCell
  | chr (i : Nat)
  | vram (i : Nat)
  | palette (i : Nat)
  deriving DecidableEq, Repr

/-- The palette cell of a 5-bit index: `0x10`, `0x14`, `0x18`, `0x1C` are the cells of `0x00`, `0x04`, `0x08`,
`0x0C` (R65). -/
def paletteIndex (i : Nat) : Nat := if i ≥ 0x10 ∧ i % 4 = 0 then i - 0x10 else i

/-- The nametable half an address selects (R64): bit 11 with horizontal mirroring, bit 10 with vertical. -/
def vramHalf (mirroring : Mirroring) (a : Nat) : Nat :=
  match mirroring with
  | .horizontal => (a / 0x800) % 2
  | .vertical => (a / 0x400) % 2

/-- `PpuCell(a)`, the address masked to 14 bits first (R61, R62). -/
def ppuCell (cfg : Config) (addr : Word) : PpuCell :=
  let a := addr.toNat % 0x4000
  if a ≤ 0x1FFF then .chr a
  else if a ≤ 0x3EFF then .vram (vramHalf cfg.mirroring a * 0x400 + a % 0x400)
  else .palette (paletteIndex (a % 0x20))

/-- `PpuRead(a)` (R62). -/
def ppuRead (cfg : Config) (m : Mapper) (addr : Word) : Byte :=
  match ppuCell cfg addr with
  | .chr i => Memory.read Bank.chr.unlisted m.chr i
  | .vram i => Memory.read Bank.vram.unlisted m.vram i
  | .palette i => Memory.read Bank.palette.unlisted m.palette i

/-- The Mapper's storage with a byte stored in a PPU cell. -/
def Mapper.writePpuCell (m : Mapper) (c : PpuCell) (v : Byte) : Mapper :=
  match c with
  | .chr i => { m with chr := Memory.write Bank.chr.unlisted m.chr i v }
  | .vram i => { m with vram := Memory.write Bank.vram.unlisted m.vram i v }
  | .palette i => { m with palette := Memory.write Bank.palette.unlisted m.palette i v }

/-- `PpuWrite(a, v)`; a store into character ROM per `ROM_WRITE` (R57, R62). -/
def ppuWrite (addr : Word) (v : Byte) (s : State) : Except Fault State :=
  match ppuCell s.cfg addr, s.cfg.chrBanks with
  | .chr i, .one =>
    match s.cfg.romWrite with
    | .fault => .error (.romWrite (addr &&& 0x3FFF) s)
    | .ignore => .ok s
    | .store => .ok (s.setMapper (s.mapper.writePpuCell (.chr i) v))
  | c, _ => .ok (s.setMapper (s.mapper.writePpuCell c v))

/-! ### The stack -/

/-- The stack location SP designates: `0x0100 | SP` (R14). -/
def stackAddr (sp : Byte) : Word := 0x0100 ||| zext16 sp

/-- The RAM cell of a stack location: offset `0x100 + SP` (R14, R51). -/
def stackCell (sp : Byte) : CpuCell := .ram (0x100 + sp.toNat)

/-- `Push(v)`: store at `0x0100 | SP`, then `SP <- (SP − 1) mod 256` (R14). A stack location is in RAM, so the
store cannot fault and touches no acknowledgment (R220; Laws/Ops.lean: `push_eq_memWrite`). -/
def State.push (s : State) (v : Byte) : State := (s.writeCell (stackCell s.sp) v).setSp (s.sp - 1)

/-- `Pull()`: `SP <- (SP + 1) mod 256`, then read at `0x0100 | SP` (R14): the byte pulled. -/
def State.pulled (s : State) : Byte := s.readCell (stackCell (s.sp + 1))

/-- The state after `Pull()` (R14). -/
def State.pop (s : State) : State := s.setSp (s.sp + 1)

/-- Push a 16-bit value: its high byte first (R67). -/
def State.pushWord (s : State) (w : Word) : State := (s.push (hi w)).push (lo w)

/-- The 16-bit value pulled low byte first (R67). -/
def State.pulledWord (s : State) : Word := wordOf s.pop.pulled s.pulled

/-! ### Interrupt entry and return -/

/-- The NMI vector (R59, R401). -/
def nmiVector : Word := 0xFFFA

/-- The Reset vector (R59, R401). -/
def resetVector : Word := 0xFFFC

/-- The vector of IRQ and BRK (R59, R401). -/
def irqVector : Word := 0xFFFE

/-- The byte of program ROM at an address of `$8000–$FFFF` (R56). -/
def State.prgByte (s : State) (addr : Word) : Byte := s.readCell (.prg (addr.toNat % prgSize s.cfg))

/-- `MemRead(vector, 1) | (MemRead(vector + 1, 1) << 8)`: the vectors lie in program ROM, so the reads cannot
fault and touch no acknowledgment (R59; Laws/Ops.lean: `prgByte_eq_peek`). -/
def State.vectorTarget (s : State) (vector : Word) : Word := wordOf (s.prgByte (vector + 1)) (s.prgByte vector)

/-- Taking an interrupt: push the return address, high byte first, and a copy of P, load PC from the vector and set
P.I (R407, R408; BRK, R234). -/
def State.enter (s : State) (ret : Word) (status : Byte) (vector : Word) : State :=
  let s := (s.pushWord ret).push status
  (s.setPc (s.vectorTarget vector)).setFlag .interrupt true

/-- Returning from an interrupt: pull P, with unused forced to 1, then PC, low byte first (R236, R415). -/
def State.returnFromInterrupt (s : State) : State :=
  let s1 := s.pop.setP (pulledStatus s.pulled)
  (s1.pop.pop).setPc s1.pulledWord

/-- `ServiceReset()`: SP − 3 with no store, PC from the Reset vector, P.I set, Reset no longer pending (R406). -/
def State.serviceReset (s : State) : State :=
  (((s.setSp (s.sp - 3)).setPc (s.vectorTarget resetVector)).setFlag .interrupt true).setContext
    (s.context &&& ~~~0x01)

/-- `ServiceNMI()` (R407). -/
def State.serviceNmi (s : State) : State :=
  (s.enter s.pc (pushedByInterrupt s.p) nmiVector).setContext (s.context &&& ~~~0x02)

/-- `ServiceIRQ()` (R408). -/
def State.serviceIrq (s : State) : State :=
  (s.enter s.pc (pushedByInterrupt s.p) irqVector).setContext (s.context &&& ~~~0x04)

/-- The three interrupts, in priority order (R401, R411). -/
inductive Interrupt
  | reset
  | nmi
  | irq
  deriving DecidableEq, Repr

/-- The interrupt the check services: Reset, then NMI, then IRQ if P.I is 0 (R405). -/
def State.dueInterrupt (s : State) : Option Interrupt :=
  if s.context.getLsbD 0 then some .reset
  else if s.context.getLsbD 1 then some .nmi
  else if s.context.getLsbD 2 && !s.flag .interrupt then some .irq
  else none

/-- `InterruptCheck()`, phase 1 of a CPU step: service at most one interrupt, for 7 cycles (R251, R405). -/
def State.interruptCheck (s : State) : State :=
  match s.dueInterrupt with
  | some .reset => s.serviceReset.charge 7
  | some .nmi => s.serviceNmi.charge 7
  | some .irq => s.serviceIrq.charge 7
  | none => s

/-! ### Inputs from outside the block -/

/-- What the outside world can do between two steps (R8): request Reset (R402), request IRQ (R404), or change the
button state (R305). -/
inductive Input
  | resetRequest
  | irqRequest
  | keys (k : BitVec 16)
  deriving DecidableEq, Repr

/-- The effect of an input: a request sets its pending bit (R402, R404, R409). -/
def State.accept (s : State) : Input → State
  | .resetRequest => s.setContext (s.context ||| 0x01)
  | .irqRequest => s.setContext (s.context ||| 0x04)
  | .keys k => { s with keys := k }

end Sys2Proof.Machine
end

