-- ==== Sys2Proof/Machine/Operands.lean ====
section
/-! DEFINITION. The addressing modes (spec/31_addressing_modes.md R120 to R137): effective addresses, the
page-crossed flag, and the two helpers through which an operation reaches its operand. -/

namespace Sys2Proof

open Machine

/-- A byte of page zero, which is always RAM: reading it has no side effect and cannot fault (R51, R124). -/
def Machine.State.zeroPage (s : State) (a : Byte) : Byte := s.readCell (.ram a.toNat)

/-- The pointer stored at a zero-page address; the step to its second byte wraps inside page zero (R127, R128). -/
def Machine.State.zeroPageWord (s : State) (p : Byte) : Word := wordOf (s.zeroPage (p + 1)) (s.zeroPage p)

/-- The address before the index is added, in the modes that can cross a page (R135); in the others the
effective address itself. -/
def MemOperand.base (m : MemOperand) (s : State) : Word :=
  match m with
  | .zer a => zext16 a
  | .zex a => zext16 (a + s.x)
  | .zey a => zext16 (a + s.y)
  | .inx a => s.zeroPageWord (a + s.x)
  | .iny a => s.zeroPageWord a
  | .abs w => w
  | .abx w => w
  | .aby w => w

/-- The effective address (R124 to R132). -/
def MemOperand.ea (m : MemOperand) (s : State) : Word :=
  match m with
  | .iny _ => m.base s + zext16 s.y
  | .abx _ => m.base s + zext16 s.x
  | .aby _ => m.base s + zext16 s.y
  | .zer _ | .zex _ | .zey _ | .inx _ | .abs _ => m.base s

/-- The page-crossed flag: the high bytes of base and effective address differ; false but for `ABX`, `ABY` and
`INY` (R120, R135). -/
def MemOperand.crossed (m : MemOperand) (s : State) : Bool :=
  match m with
  | .iny _ | .abx _ | .aby _ => hi (m.base s) != hi (m.ea s)
  | .zer _ | .zex _ | .zey _ | .inx _ | .abs _ => false

/-- The page-crossed flag of an operand that is read: false for an immediate (R123). -/
def ReadOperand.crossed (o : ReadOperand) (s : State) : Bool :=
  match o with
  | .imm _ => false
  | .mem m => m.crossed s

/-- `LoadOperand()` for an immediate or a byte of memory (R136). -/
def ReadOperand.load (o : ReadOperand) (s : State) : Except Fault (Byte × State) :=
  match o with
  | .imm v => .ok (v, s)
  | .mem m => memRead (m.ea s) s

/-- `LoadOperand()` for the accumulator or a byte of memory (R136). -/
def RmwOperand.load (o : RmwOperand) (s : State) : Except Fault (Byte × State) :=
  match o with
  | .acc => .ok (s.a, s)
  | .mem m => memRead (m.ea s) s

/-- `StoreOperand(v)` for the accumulator or a byte of memory (R136). -/
def RmwOperand.store (o : RmwOperand) (v : Byte) (s : State) : Except Fault State :=
  match o with
  | .acc => .ok (s.setA v)
  | .mem m => memWrite (m.ea s) v s

/-- The address of the pointer's second byte in mode `ABI`: on the same page as the first (R130). -/
def Machine.abiHighAddr (p : Word) : Word := (p &&& 0xFF00) ||| ((p + 1) &&& 0x00FF)

/-- The target of JMP (R129, R130). -/
def JumpOperand.target (o : JumpOperand) (s : State) : Except Fault (Word × State) :=
  match o with
  | .abs w => .ok (w, s)
  | .abi p => do
    let (l, s) ← memRead p s
    let (h, s) ← memRead (abiHighAddr p) s
    return (wordOf h l, s)

/-- The target of a branch: PC, already past the branch, plus the signed offset (R133, R208). -/
def Machine.branchTarget (offset : Byte) (s : State) : Word := s.pc + sext8 offset

/-- What a step of the CPU answers. -/
abbrev Machine.Result := Host.Outcome State Fault Refusal

/-- The outcome of a computation that may fault. -/
def Machine.outcome : Except Fault State → Result
  | .ok s => .next s
  | .error f => .fault f

/-- An instruction that reads its operand `M` and computes with it (R140, R160): `k M` is its effect, and its cost
is charged at the end (R250, R256). -/
def Machine.readInstr (i : Instr) (o : ReadOperand) (s : State) (k : Byte → State → State) : Result :=
  match o.load s with
  | .ok (m, s') => .next ((k m s').charge (i.cost (o.crossed s)))
  | .error f => .fault f

/-- An instruction that only stores a byte (R136, R144). -/
def Machine.storeInstr (i : Instr) (m : MemOperand) (v : Byte) (s : State) : Result :=
  match memWrite (m.ea s) v s with
  | .ok s' => .next (s'.charge (i.cost (m.crossed s)))
  | .error f => .fault f

/-- A read-modify-write instruction (R136, R171, R190): one read, then `carry` of the byte read into P.C where the
instruction shifts a bit out, then one write of `r`, then `SetNZ(r)`. -/
def Machine.rmwInstr (i : Instr) (o : RmwOperand) (s : State) (carry : Option (Byte → Bool)) (r : Byte → Byte) : Result :=
  match o.load s with
  | .error f => .fault f
  | .ok (v, s1) =>
    let s2 := match carry with
      | some c => s1.setFlag .carry (c v)
      | none => s1
    match o.store (r v) s2 with
    | .error f => .fault f
    | .ok s3 => .next ((s3.setNZ (r v)).charge (i.cost false))

/-- An instruction with no operand, or whose operand is no byte to load: its effect, then its cost (R220). -/
def Machine.plainInstr (i : Instr) (s : State) : Result := .next (s.charge (i.cost false))

/-- A branch on a condition: 2 cycles and PC unchanged if it is false; if it is true PC is the target, for 3
cycles, or 4 when the target's page is not that of the next instruction (R208). -/
def Machine.branchInstr (cond : Bool) (offset : Byte) (s : State) : Result :=
  let target := branchTarget offset s
  if cond then .next ((s.setPc target).charge (3 + (if hi target != hi s.pc then 1 else 0)))
  else .next (s.charge 2)

end Sys2Proof
end

