-- ==== Sys2Proof/Machine/Arith.lean ====
section
/-! DEFINITION. Arithmetic, logic, compare, increment and decrement instructions (spec/41_arithmetic_logic.md). -/

namespace Sys2Proof.Machine

/-- ADC of the byte `m` (R162): the flags are computed from the old A and C. -/
def State.addWithCarry (s : State) (m : Byte) : State :=
  (s.setA (addResult s.a m (s.flag .carry))).setP (addStatus s.p s.a m)

/-- The compare of the byte `m` with a register `r` (R167). -/
def State.compare (s : State) (r m : Byte) : State := s.setP (compareStatus s.p r m)

/-- ADC (R162). -/
def execAdc (o : ReadOperand) (s : State) : Result := readInstr (.adc o) o s fun m s => s.addWithCarry m

/-- SBC (R163): ADC with the operand complemented. -/
def execSbc (o : ReadOperand) (s : State) : Result := readInstr (.sbc o) o s fun m s => s.addWithCarry (m ^^^ 0xFF)

/-- AND (R164): `A <- A & LoadOperand(); SetNZ(A)`. -/
def execAnd (o : ReadOperand) (s : State) : Result :=
  readInstr (.and o) o s fun m s => (s.setA (s.a &&& m)).setNZ (s.a &&& m)

/-- ORA (R165): `A <- A | LoadOperand(); SetNZ(A)`. -/
def execOra (o : ReadOperand) (s : State) : Result :=
  readInstr (.ora o) o s fun m s => (s.setA (s.a ||| m)).setNZ (s.a ||| m)

/-- EOR (R166): `A <- A ^ LoadOperand(); SetNZ(A)`. -/
def execEor (o : ReadOperand) (s : State) : Result :=
  readInstr (.eor o) o s fun m s => (s.setA (s.a ^^^ m)).setNZ (s.a ^^^ m)

/-- CMP (R167). -/
def execCmp (o : ReadOperand) (s : State) : Result := readInstr (.cmp o) o s fun m s => s.compare s.a m

/-- CPX (R168): as CMP, with X. -/
def execCpx (o : ReadOperand) (s : State) : Result := readInstr (.cpx o) o s fun m s => s.compare s.x m

/-- CPY (R169): as CMP, with Y. -/
def execCpy (o : ReadOperand) (s : State) : Result := readInstr (.cpy o) o s fun m s => s.compare s.y m

/-- BIT (R170). -/
def execBit (m : MemOperand) (s : State) : Result :=
  readInstr (.bit m) (.mem m) s fun b s => s.setP (bitStatus s.p s.a b)

/-- INC (R171): `v <- (LoadOperand() + 1) mod 256; StoreOperand(v); SetNZ(v)`. -/
def execInc (m : MemOperand) (s : State) : Result := rmwInstr (.inc m) (.mem m) s none fun v => v + 1

/-- DEC (R172): `v <- (LoadOperand() − 1) mod 256; StoreOperand(v); SetNZ(v)`. -/
def execDec (m : MemOperand) (s : State) : Result := rmwInstr (.dec m) (.mem m) s none fun v => v - 1

/-- INX (R173): `X <- (X + 1) mod 256; SetNZ(X)`. -/
def execInx (s : State) : Result := plainInstr .inx ((s.setX (s.x + 1)).setNZ (s.x + 1))

/-- INY (R174): `Y <- (Y + 1) mod 256; SetNZ(Y)`. -/
def execIny (s : State) : Result := plainInstr .iny ((s.setY (s.y + 1)).setNZ (s.y + 1))

/-- DEX (R175): `X <- (X − 1) mod 256; SetNZ(X)`. -/
def execDex (s : State) : Result := plainInstr .dex ((s.setX (s.x - 1)).setNZ (s.x - 1))

/-- DEY (R176): `Y <- (Y − 1) mod 256; SetNZ(Y)`. -/
def execDey (s : State) : Result := plainInstr .dey ((s.setY (s.y - 1)).setNZ (s.y - 1))

end Sys2Proof.Machine
end

