-- ==== Sys2Proof/Machine/Control.lean ====
section
/-! DEFINITION. Control-transfer instructions (spec/43_control_flow.md). PC on entry is the address of the byte
after the instruction (R200). -/

namespace Sys2Proof.Machine

/-- JMP (R201): `PC <- ea`. -/
def execJmp (o : JumpOperand) (s : State) : Result :=
  match o.target s with
  | .ok (target, s') => plainInstr (.jmp o) (s'.setPc target)
  | .error f => .fault f

/-- JSR (R202): push the address of its own last byte, high byte first, then `PC <- ea`. -/
def execJsr (target : Word) (s : State) : Result :=
  plainInstr (.jsr target) ((s.pushWord (s.pc - 1)).setPc target)

/-- RTS (R203): pull the address, low byte first, and add 1. -/
def execRts (s : State) : Result := plainInstr .rts (s.pop.pop.setPc (s.pulledWord + 1))

/-- BCC (R209): branch if C = 0. -/
def execBcc (offset : Byte) (s : State) : Result := branchInstr (!s.flag .carry) offset s

/-- BCS (R210): branch if C = 1. -/
def execBcs (offset : Byte) (s : State) : Result := branchInstr (s.flag .carry) offset s

/-- BEQ (R211): branch if Z = 1. -/
def execBeq (offset : Byte) (s : State) : Result := branchInstr (s.flag .zero) offset s

/-- BNE (R212): branch if Z = 0. -/
def execBne (offset : Byte) (s : State) : Result := branchInstr (!s.flag .zero) offset s

/-- BMI (R213): branch if N = 1. -/
def execBmi (offset : Byte) (s : State) : Result := branchInstr (s.flag .negative) offset s

/-- BPL (R214): branch if N = 0. -/
def execBpl (offset : Byte) (s : State) : Result := branchInstr (!s.flag .negative) offset s

/-- BVC (R215): branch if V = 0. -/
def execBvc (offset : Byte) (s : State) : Result := branchInstr (!s.flag .overflow) offset s

/-- BVS (R216): branch if V = 1. -/
def execBvs (offset : Byte) (s : State) : Result := branchInstr (s.flag .overflow) offset s

end Sys2Proof.Machine
end

