-- ==== Sys2Proof/Machine/LoadStore.lean ====
section
/-! DEFINITION. Load, store and register-transfer instructions (spec/40_load_store_transfer.md). -/

namespace Sys2Proof.Machine

/-- LDA (R141): `A <- LoadOperand(); SetNZ(A)`. -/
def execLda (o : ReadOperand) (s : State) : Result := readInstr (.lda o) o s fun m s => (s.setA m).setNZ m

/-- LDX (R142): `X <- LoadOperand(); SetNZ(X)`. -/
def execLdx (o : ReadOperand) (s : State) : Result := readInstr (.ldx o) o s fun m s => (s.setX m).setNZ m

/-- LDY (R143): `Y <- LoadOperand(); SetNZ(Y)`. -/
def execLdy (o : ReadOperand) (s : State) : Result := readInstr (.ldy o) o s fun m s => (s.setY m).setNZ m

/-- STA (R144): `StoreOperand(A)`. -/
def execSta (m : MemOperand) (s : State) : Result := storeInstr (.sta m) m s.a s

/-- STX (R145): `StoreOperand(X)`. -/
def execStx (m : MemOperand) (s : State) : Result := storeInstr (.stx m) m s.x s

/-- STY (R146): `StoreOperand(Y)`. -/
def execSty (m : MemOperand) (s : State) : Result := storeInstr (.sty m) m s.y s

/-- TAX (R147): `X <- A; SetNZ(X)`. -/
def execTax (s : State) : Result := plainInstr .tax ((s.setX s.a).setNZ s.a)

/-- TAY (R148): `Y <- A; SetNZ(Y)`. -/
def execTay (s : State) : Result := plainInstr .tay ((s.setY s.a).setNZ s.a)

/-- TXA (R149): `A <- X; SetNZ(A)`. -/
def execTxa (s : State) : Result := plainInstr .txa ((s.setA s.x).setNZ s.x)

/-- TYA (R150): `A <- Y; SetNZ(A)`. -/
def execTya (s : State) : Result := plainInstr .tya ((s.setA s.y).setNZ s.y)

/-- TSX (R151): `X <- SP; SetNZ(X)`. -/
def execTsx (s : State) : Result := plainInstr .tsx ((s.setX s.sp).setNZ s.sp)

/-- TXS (R152): `SP <- X`, and no flag. -/
def execTxs (s : State) : Result := plainInstr .txs (s.setSp s.x)

end Sys2Proof.Machine
end

