-- ==== Sys2Proof/Machine/Shift.lean ====
section
/-! DEFINITION. Shift and rotate instructions (spec/42_shift_rotate.md): the bit shifted out goes into P.C before
the result is stored, as the rules' pseudocode orders it. -/

namespace Sys2Proof.Machine

/-- ASL (R191): bit 7 into C. -/
def execAsl (o : RmwOperand) (s : State) : Result :=
  rmwInstr (.asl o) o s (some fun v => v.getLsbD 7) aslResult

/-- LSR (R192): bit 0 into C. -/
def execLsr (o : RmwOperand) (s : State) : Result :=
  rmwInstr (.lsr o) o s (some fun v => v.getLsbD 0) lsrResult

/-- ROL (R193): bit 7 into C, the old C into bit 0. -/
def execRol (o : RmwOperand) (s : State) : Result :=
  rmwInstr (.rol o) o s (some fun v => v.getLsbD 7) fun v => rolResult v (s.flag .carry)

/-- ROR (R194): bit 0 into C, the old C into bit 7. -/
def execRor (o : RmwOperand) (s : State) : Result :=
  rmwInstr (.ror o) o s (some fun v => v.getLsbD 0) fun v => rorResult v (s.flag .carry)

end Sys2Proof.Machine
end

