-- ==== Sys2Proof/Machine/StackSystem.lean ====
section
/-! DEFINITION. Stack, flag and system instructions (spec/44_stack_flags_system.md), and the undefined opcodes
(spec/30_encoding.md R106). -/

namespace Sys2Proof.Machine

/-- PHA (R221): `Push(A)`. -/
def execPha (s : State) : Result := plainInstr .pha (s.push s.a)

/-- PHP (R222): `Push(P | 0x30)`; the live P is unchanged. -/
def execPhp (s : State) : Result := plainInstr .php (s.push (pushedByInstruction s.p))

/-- PLA (R223): `A <- Pull(); SetNZ(A)`. -/
def execPla (s : State) : Result := plainInstr .pla ((s.pop.setA s.pulled).setNZ s.pulled)

/-- PLP (R224): `P <- Pull() | 0x20`. -/
def execPlp (s : State) : Result := plainInstr .plp (s.pop.setP (pulledStatus s.pulled))

/-- CLC (R225): `P.C <- 0`. -/
def execClc (s : State) : Result := plainInstr .clc (s.setFlag .carry false)

/-- SEC (R226): `P.C <- 1`. -/
def execSec (s : State) : Result := plainInstr .sec (s.setFlag .carry true)

/-- CLI (R227): `P.I <- 0`. -/
def execCli (s : State) : Result := plainInstr .cli (s.setFlag .interrupt false)

/-- SEI (R228): `P.I <- 1`. -/
def execSei (s : State) : Result := plainInstr .sei (s.setFlag .interrupt true)

/-- CLD (R229): `P.D <- 0`. -/
def execCld (s : State) : Result := plainInstr .cld (s.setFlag .decimal false)

/-- SED (R230): `P.D <- 1`. -/
def execSed (s : State) : Result := plainInstr .sed (s.setFlag .decimal true)

/-- CLV (R231): `P.V <- 0`. -/
def execClv (s : State) : Result := plainInstr .clv (s.setFlag .overflow false)

/-- NOP (R232): nothing but its cycles. -/
def execNop (s : State) : Result := plainInstr .nop s

/-- BRK (R234): entry through the IRQ vector, with the address of the BRK plus 2 and P with B and U set pushed. -/
def execBrk (s : State) : Result := plainInstr .brk (s.enter (s.pc + 1) (pushedByInstruction s.p) irqVector)

/-- RTI (R236): pull P, with U forced to 1, then PC. -/
def execRti (s : State) : Result := plainInstr .rti s.returnFromInterrupt

/-- An opcode without a table entry (R106, R253, R410): `DecodeFault(opcode)`, with PC at the opcode and nothing
changed. -/
def execUnd (opcode : Byte) (s : State) : Result := .fault (.decodeFault opcode s)

end Sys2Proof.Machine
end

