-- ==== Sys2Proof/Machine/Cpu.lean ====
section
/-! DEFINITION. One CPU step (spec/50_cpu_step.md R250): interrupt check, sprite DMA
(spec/51_io_registers_dma_controller.md R290 to R292), fetch and decode (R252, R253), and execution. -/

namespace Sys2Proof.Machine

/-- The acknowledgment slot of `$4014` (R281). -/
def dmaSlot : Fin 40 := 28

/-- DMA is active exactly when the slot of `$4014` records a write (R290). -/
def State.dmaActive (s : State) : Bool := s.io.ack[dmaSlot] == .write

/-- Store a byte in primary OAM. -/
def State.writeOam (s : State) (i : Nat) (v : Byte) : State :=
  s.setPpu { s.ppu with oam := Memory.write Bank.oam.unlisted s.ppu.oam i v }

/-- The transfer's loop from byte `i` on, `n` bytes to go: `OAM[(oamaddr + i) mod 256] <- MemRead((page << 8) | i)`
(R291). -/
def dmaCopy (page : Byte) : Nat → Nat → State → Except Fault State
  | 0, _, s => .ok s
  | n + 1, i, s =>
    match memRead (wordOf page (BitVec.ofNat 8 i)) s with
    | .ok (b, s') => dmaCopy page n (i + 1) (s'.writeOam ((s.ppu.oamaddr.toNat + i) % 256) b)
    | .error f => .error f

/-- The cost of a transfer: 513, and one more when `cyc` is odd at the DMA check (R291). -/
def dmaCost (cyc : Nat) : Nat := 513 + cyc % 2

/-- `DmaTransfer()`: 256 bytes of page `dmareg` into OAM from `oamaddr` on (R291). -/
def dmaTransfer (s : State) : Except Fault State :=
  match dmaCopy s.io.dmareg 256 0 s with
  | .ok s' => .ok (s'.charge (dmaCost s.cyc))
  | .error f => .error f

/-- Phase 3 of a CPU step: read the opcode byte at PC and the argument bytes after it, each an ordinary read with
its side effect, and advance PC past them (R252). For an undefined opcode no argument byte is read and PC stays
(R253). -/
def fetch (s : State) : Except Fault (Instr × State) := do
  let pc := s.pc
  let (opcode, s) ← memRead pc s
  let (arg0, s) ← if argCount opcode = 0 then .ok (0, s) else memRead (pc + 1) s
  let (arg1, s) ← if argCount opcode < 2 then .ok (0, s) else memRead (pc + 2) s
  let i := instrOf opcode arg0 arg1
  return (i, s.setPc (pc + BitVec.ofNat 16 i.length))

/-- Phases 3 to 5: fetch an instruction and run it (R252, R254). -/
def fetchExecute (s : State) : Result :=
  match fetch s with
  | .ok (i, s') => exec i s'
  | .error f => .fault f

/-- `CPU_Step()` (R250): the interrupt check, then either a DMA transfer or one instruction (R251, R258). The
DMA check clears the slot of `$4014` whatever it held (R285, R290). -/
def cpuStep (s : State) : Result :=
  let s := s.interruptCheck
  let checked := s.setAck dmaSlot .none
  if s.dmaActive then outcome (dmaTransfer checked) else fetchExecute checked

end Sys2Proof.Machine
end

