-- ==== Sys2Proof/Machine/Joypads.lean ====
section
/-! DEFINITION. The Controller (spec/51_io_registers_dma_controller.md R300 to R306): two joypad shift registers,
stepped once per system step after the CPU. -/

namespace Sys2Proof.Machine

/-- The acknowledgment slot of `$4016` (R281). -/
def joy1Slot : Fin 40 := 30

/-- The acknowledgment slot of `$4017` (R281). -/
def joy2Slot : Fin 40 := 31

/-- `Latch(pad, k)` (R301). -/
def Joypad.latch (_pad : Joypad) (k : Byte) : Joypad := { shift := k, polling := true, pos := 1 }

/-- Bit 0 of the shift register as the byte a read returns. -/
def Joypad.bit0 (pad : Joypad) : Byte := pad.shift &&& 0x01

/-- `Shift(pad, cell)`, called once per acknowledged read: the joypad afterwards and the new cell (R302, R303). -/
def Joypad.advance (pad : Joypad) (cell : Byte) : Joypad × Byte :=
  if !pad.polling then (pad, cell)
  else if pad.pos ≤ 7 then
    let pad := { pad with shift := pad.shift >>> 1, pos := pad.pos + 1 }
    (pad, pad.bit0)
  else if pad.pos = 8 then ({ pad with shift := pad.shift >>> 1, pos := 9 }, 1)
  else if pad.pos = 9 then ({ pad with pos := 10 }, 1)
  else ({ shift := 0, polling := false, pos := 1 }, 1)

/-- What a write of `$4016` does (R300): a byte with bit 0 set raises the strobe; a byte with bit 0 clear after a
raised strobe latches both joypads. -/
def State.strobe (s : State) : State :=
  if s.io.joy1.getLsbD 0 then s.setPads { s.pads with lastStrobe := true }
  else if s.pads.lastStrobe then
    let pad1 := s.pads.pad1.latch (s.keys.extractLsb' 0 8)
    let pad2 := s.pads.pad2.latch (s.keys.extractLsb' 8 8)
    (s.setPads { pad1 := pad1, pad2 := pad2, lastStrobe := false }).setIo
      { s.io with joy1 := pad1.bit0, joy2 := pad2.bit0 }
  else s

/-- What a read of `$4016` does (R300). -/
def State.shiftPad1 (s : State) : State :=
  let (pad, cell) := s.pads.pad1.advance s.io.joy1
  (s.setPads { s.pads with pad1 := pad }).setIo { s.io with joy1 := cell }

/-- What a read of `$4017` does (R300). -/
def State.shiftPad2 (s : State) : State :=
  let (pad, cell) := s.pads.pad2.advance s.io.joy2
  (s.setPads { s.pads with pad2 := pad }).setIo { s.io with joy2 := cell }

/-- `Controller_Step()` (R300). -/
def controllerStep (s : State) : State :=
  let (a1, s) := s.takeAck joy1Slot
  let (a2, s) := s.takeAck joy2Slot
  let s := match a1 with
    | .write => s.strobe
    | .read => s.shiftPad1
    | .none => s
  match a2 with
  | .read => s.shiftPad2
  | .write => s
  | .none => s

end Sys2Proof.Machine
end

