-- ==== Sys2Proof/Machine/Load.lean ====
section
/-! DEFINITION. How a program comes into the machine: the cartridge file's header and contents
(spec/20_memory.md R70 to R73), the power-on parameters taken from it, and one instruction placed where the next
step fetches (log entry 4). -/

namespace Sys2Proof.Machine

/-- Place bytes at consecutive CPU addresses from outside the machine. -/
def State.pokes (s : State) (addr : Word) : List Byte → State
  | [] => s
  | b :: bs => (s.poke addr b).pokes (addr + 1) bs

/-- The address the next step fetches its instruction from: PC once the interrupt check has run (R250, R251). -/
def State.fetchAddr (s : State) : Word := s.interruptCheck.pc

/-- Place an instruction where the next step fetches it; a DMA transfer that the next step would run instead is
withdrawn (R258). -/
def State.placeInstruction (s : State) (bytes : List Byte) : State :=
  let s := if s.dmaActive then s.setAck dmaSlot .none else s
  s.pokes s.fetchAddr bytes

/-- Why a cartridge file yields no machine (R72, decision D42). -/
inductive CartridgeError
  /-- Fewer than 16 bytes, or not the magic bytes `N E S 0x1A`. -/
  | notACartridge
  /-- A byte of 10 to 15 is not zero. -/
  | ripped
  /-- The mapper id is not 0. -/
  | unsupportedMapper (id : Byte)
  /-- The trainer bit is set: outside the spec (R71). -/
  | trainer
  /-- `PRG_BANKS` is not 1 or 2. -/
  | prgBanks (n : Byte)
  /-- `CHR_BANKS` is not 0 or 1. -/
  | chrBanks (n : Byte)
  /-- The file ends before its program and character data. -/
  | truncated
  deriving DecidableEq, Repr

/-- A byte of a cartridge file; 0 past its end. -/
def fileByte (file : List Byte) (i : Nat) : Byte := file.getD i 0

/-- The mapper id: `(byte7 & 0xF0) | (byte6 >> 4)` (R70). -/
def mapperId (file : List Byte) : Byte := (fileByte file 7 &&& 0xF0) ||| (fileByte file 6 >>> 4)

/-- `PRG_BANKS` from header byte 4 (R70, R72). -/
def headerPrgBanks (file : List Byte) : Except CartridgeError PrgBanks :=
  if fileByte file 4 = 1 then .ok .one
  else if fileByte file 4 = 2 then .ok .two
  else .error (.prgBanks (fileByte file 4))

/-- `CHR_BANKS` from header byte 5 (R70, R72). -/
def headerChrBanks (file : List Byte) : Except CartridgeError ChrBanks :=
  if fileByte file 5 = 0 then .ok .zero
  else if fileByte file 5 = 1 then .ok .one
  else .error (.chrBanks (fileByte file 5))

/-- `MIRRORING` from header byte 6 bit 0 (R70). -/
def headerMirroring (file : List Byte) : Mirroring :=
  if (fileByte file 6).getLsbD 0 then .vertical else .horizontal

/-- The configuration a cartridge file's header gives, `UNMAPPED` and `ROM_WRITE` as given (R70, R72, R73). -/
def parseHeader (file : List Byte) (unmapped : UnmappedPolicy) (romWrite : RomWritePolicy) :
    Except CartridgeError Config :=
  if file.length < 16 ∨ file.take 4 ≠ [0x4E, 0x45, 0x53, 0x1A] then .error .notACartridge
  else if (file.drop 10).take 6 ≠ [0, 0, 0, 0, 0, 0] then .error .ripped
  else if mapperId file ≠ 0 then .error (.unsupportedMapper (mapperId file))
  else if (fileByte file 6).getLsbD 2 then .error .trainer
  else do
    let prgBanks ← headerPrgBanks file
    let chrBanks ← headerChrBanks file
    return { prgBanks, chrBanks, mirroring := headerMirroring file, unmapped, romWrite }

/-- The size of the character ROM in the file (R71). -/
def chrFileSize (cfg : Config) : Nat :=
  match cfg.chrBanks with
  | .zero => 0
  | .one => 0x2000

/-- The power-on parameters of a cartridge file: `PRG[i]` is file byte `16 + i` and `CHR[i]` follows it (R71); the
other parameters are as given. -/
def PowerOn.ofCartridge (i : PowerOn) (file : List Byte) : Except CartridgeError PowerOn := do
  let cfg ← parseHeader file i.cfg.unmapped i.cfg.romWrite
  if file.length < 16 + prgSize cfg + chrFileSize cfg then .error .truncated
  else
    let prg := Memory.ofBytes Bank.prg.unlisted 0 ((file.drop 16).take (prgSize cfg))
    let chr := match cfg.chrBanks with
      | .zero => i.chr
      | .one => Memory.ofBytes Bank.chr.unlisted 0 ((file.drop (16 + prgSize cfg)).take 0x2000)
    return { i with cfg, prg, chr }

end Sys2Proof.Machine
end

