-- ==== Sys2Proof/Machine/PpuRegs.lean ====
section
/-! DEFINITION. The PPU's register step (spec/52_ppu_registers.md R310 to R331): polling the eight
acknowledgments and applying each register's side effect, and the refresh of the two cells the PPU drives. -/

namespace Sys2Proof.Machine

/-- What a write of `$2000` does: `ctrl <- d; t[11:10] <- d[1:0]` (R310, R312). -/
def Ppu.writeCtrl (p : Ppu) (d : Byte) : Ppu :=
  { p with ctrl := d, t := putField p.t 0x0C00 (d.setWidth 15 <<< 10) }

/-- The increment of `v` after a `$2007` access: 32 if `ctrl[2]` is set, else 1 (R310). -/
def Ppu.increment (p : Ppu) : VramAddr := if p.ctrl.getLsbD 2 then 32 else 1

/-- `v` after a `$2007` access, modulo 0x8000 (R326, R327). -/
def Ppu.bumpV (p : Ppu) : Ppu := { p with v := p.v + p.increment }

/-- What a read of `$2002` does (R317). -/
def Ppu.readStatus (p : Ppu) : Ppu := { p with vblank := false, w := false }

/-- What a write of `$2004` does: the byte at `OAM[oamaddr]`, then `oamaddr` plus 1 (R323). -/
def Ppu.writeOamData (p : Ppu) (d : Byte) : Ppu :=
  { p with oam := Memory.write Bank.oam.unlisted p.oam p.oamaddr.toNat d, oamaddr := p.oamaddr + 1 }

/-- What a write of `$2005` does (R324). -/
def Ppu.writeScroll (p : Ppu) (d : Byte) : Ppu :=
  if !p.w then
    { p with t := putField p.t 0x001F (d.setWidth 15 >>> 3), fineX := d.setWidth 3, w := true }
  else
    { p with
      t := putField (putField p.t 0x7000 (d.setWidth 15 <<< 12)) 0x03E0 ((d.setWidth 15 >>> 3) <<< 5)
      w := false }

/-- What a write of `$2006` does (R325). -/
def Ppu.writeAddr (p : Ppu) (d : Byte) : Ppu :=
  if !p.w then { p with t := putField (putField p.t 0x3F00 (d.setWidth 15 <<< 8)) 0x4000 0, w := true }
  else
    let t := putField p.t 0x00FF (d.setWidth 15)
    { p with t := t, v := t, w := false }

/-- The PPU address that `v` designates: only `v[13:0]` reach the PPU space (R318, R326). -/
def Ppu.dataAddr (p : Ppu) : Word := p.v.setWidth 16 &&& 0x3FFF

/-- What a write of `$2007` does: store at `v`, then bump `v` (R326). -/
def State.writeData (s : State) (d : Byte) : Except Fault State :=
  match ppuWrite s.ppu.dataAddr d s with
  | .ok s' => .ok (s'.setPpu s'.ppu.bumpV)
  | .error f => .error f

/-- What a read of `$2007` does: reload the cell from `v`, then bump `v` (R327). -/
def State.readData (s : State) : State :=
  let b := ppuRead s.cfg s.mapper s.ppu.dataAddr
  (s.setIo { s.io with ioreg := s.io.ioreg.set 7 b }).setPpu s.ppu.bumpV

/-- The side effect of the recorded access of one register (R310, R329); `d` is the cell's content. -/
def State.registerEffect (s : State) (k : Fin 8) (a : Access) (d : Byte) : Except Fault State :=
  match k.val, a with
  | 0, .write => .ok (s.setPpu (s.ppu.writeCtrl d))
  | 1, .write => .ok (s.setPpu { s.ppu with mask := d })
  | 2, .read => .ok (s.setPpu s.ppu.readStatus)
  | 3, .write => .ok (s.setPpu { s.ppu with oamaddr := d })
  | 4, .write => .ok (s.setPpu (s.ppu.writeOamData d))
  | 5, .write => .ok (s.setPpu (s.ppu.writeScroll d))
  | 6, .write => .ok (s.setPpu (s.ppu.writeAddr d))
  | 7, .write => s.writeData d
  | 7, .read => .ok s.readData
  | _, _ => .ok s

/-- The acknowledgment slot of a PPU register (R281). -/
def ppuSlot (k : Fin 8) : Fin 40 := Fin.castLE (by decide) k

/-- Query and clear one register's acknowledgment and apply its side effect (R310). -/
def manageRegister (k : Fin 8) (s : State) : Except Fault State :=
  let (a, s) := s.takeAck (ppuSlot k)
  s.registerEffect k a s.io.ioreg[k]

/-- `ManageRegisters()`: the eight registers in ascending order (R310). -/
def manageRegisters (s : State) : Except Fault State := do
  let s ← manageRegister 0 s
  let s ← manageRegister 1 s
  let s ← manageRegister 2 s
  let s ← manageRegister 3 s
  let s ← manageRegister 4 s
  let s ← manageRegister 5 s
  let s ← manageRegister 6 s
  manageRegister 7 s

/-- The status byte: the three flags in bits 7 to 5, bits 4:0 zero (R315, R316). -/
def Ppu.status (p : Ppu) : Byte := (bitOf p.vblank <<< 7) ||| (bitOf p.sprite0 <<< 6) ||| (bitOf p.overflow <<< 5)

/-- The end of a PPU step: refresh `ioreg[2]` with the status byte and `ioreg[4]` with `OAM[oamaddr]` (R316,
R322). -/
def refreshCells (s : State) : State :=
  let r := s.io.ioreg.set 2 s.ppu.status
  s.setIo { s.io with ioreg := r.set 4 (Memory.read Bank.oam.unlisted s.ppu.oam s.ppu.oamaddr.toNat) }

end Sys2Proof.Machine
end

