-- ==== Sys2Proof/Machine/PpuRender.lean ====
section
/-! DEFINITION. One PPU cycle (spec/53_ppu_rendering.md R350 to R384): the counters, the background pipeline,
sprite evaluation and fetch, the compositor, and the start of vertical blank. -/

namespace Sys2Proof.Machine

/-! ### The background pipeline -/

/-- `NtAddr(v) = 0x2000 | (v & 0x0FFF)` (R357). -/
def ntAddr (v : VramAddr) : Word := 0x2000 ||| (v.setWidth 16 &&& 0x0FFF)

/-- `AtAddr(v)` (R358). -/
def atAddr (v : VramAddr) : Word :=
  let w := v.setWidth 16
  0x23C0 ||| (w &&& 0x0C00) ||| ((w >>> 4) &&& 0x38) ||| ((w >>> 2) &&& 0x07)

/-- `AttrBits(a, v)` (R358). -/
def attrBits (a : Byte) (v : VramAddr) : BitVec 2 :=
  let a := if v.getLsbD 6 then a >>> 4 else a
  let a := if v.getLsbD 1 then a >>> 2 else a
  a.setWidth 2

/-- `PatAddr() = (ctrl[4] << 12) | (nt_latch << 4) | v[14:12]` (R359). -/
def Ppu.patAddr (p : Ppu) : Word :=
  (if p.ctrl.getLsbD 4 then (0x1000 : Word) else 0) ||| (zext16 p.bg.ntLatch <<< 4) ||| (p.v.setWidth 16 >>> 12)

/-- `IncX()` on `v` (R360). -/
def incX (v : VramAddr) : VramAddr :=
  if v &&& 0x001F = 0x001F then (v &&& ~~~0x001F) ^^^ 0x0400 else v + 1

/-- `IncY()` on `v` (R361). -/
def incY (v : VramAddr) : VramAddr :=
  if v &&& 0x7000 ≠ 0x7000 then v + 0x1000
  else
    let v := v &&& ~~~0x7000
    let row := (v &&& 0x03E0) >>> 5
    if row = 29 then (v &&& ~~~0x03E0) ^^^ 0x0800
    else if row = 31 then v &&& ~~~0x03E0
    else v + 0x0020

/-- `CopyX()`: coarse X and the horizontal nametable bit of `t` (R362). -/
def copyX (v t : VramAddr) : VramAddr := putField v 0x041F t

/-- `CopyY()`: fine Y, coarse Y and the vertical nametable bit of `t` (R363). -/
def copyY (v t : VramAddr) : VramAddr := putField v 0x7BE0 t

/-- `ShiftBackground()` (R356). -/
def Background.shift (b : Background) : Background :=
  { b with patLo := b.patLo <<< 1, patHi := b.patHi <<< 1, attLo := b.attLo <<< 1, attHi := b.attHi <<< 1 }

/-- A shift register with its low 8 bits replaced (R356). -/
def loadLow (r : BitVec 16) (b : Byte) : BitVec 16 := (r &&& 0xFF00) ||| zext16 b

/-- `LoadShifters()` (R356). -/
def Background.load (b : Background) : Background :=
  { b with
    patLo := loadLow b.patLo b.patLoLatch
    patHi := loadLow b.patHi b.patHiLatch
    attLo := loadLow b.attLo (if b.atLatch.getLsbD 0 then 0xFF else 0x00)
    attHi := loadLow b.attHi (if b.atLatch.getLsbD 1 then 0xFF else 0x00) }

/-- The shift and the load of a pipeline cycle (R355). -/
def Ppu.shiftLoad (p : Ppu) : Ppu :=
  let c := p.cycle
  let bg := if (2 ≤ c ∧ c ≤ 257) ∨ (321 ≤ c ∧ c ≤ 337) then p.bg.shift else p.bg
  let bg := if ((1 ≤ c ∧ c ≤ 257) ∨ (321 ≤ c ∧ c ≤ 337)) ∧ (c - 1) % 8 = 0 then bg.load else bg
  { p with bg := bg }

/-- The fetch of a pipeline cycle, by its place in the 8-cycle pattern (R355, R357 to R360). -/
def Ppu.fetchTile (cfg : Config) (m : Mapper) (p : Ppu) : Ppu :=
  match (p.cycle - 1) % 8 with
  | 0 => { p with bg := { p.bg with ntLatch := ppuRead cfg m (ntAddr p.v) } }
  | 2 => { p with bg := { p.bg with atLatch := attrBits (ppuRead cfg m (atAddr p.v)) p.v } }
  | 4 => { p with bg := { p.bg with patLoLatch := ppuRead cfg m p.patAddr } }
  | 6 => { p with bg := { p.bg with patHiLatch := ppuRead cfg m (p.patAddr + 8) } }
  | 7 => { p with v := incX p.v }
  | _ => p

/-- The scroll updates of a pipeline cycle: `IncY` at 256, `CopyX` at 257, `CopyY` at 280 to 304 of the pre-render
line (R355). -/
def Ppu.scrollUpdate (p : Ppu) : Ppu :=
  let p := if p.cycle = 256 then { p with v := incY p.v } else p
  let p := if p.cycle = 257 then { p with v := copyX p.v p.t } else p
  if p.scanline = -1 ∧ 280 ≤ p.cycle ∧ p.cycle ≤ 304 then { p with v := copyY p.v p.t } else p

/-- `BackgroundPipeline()` (R355). -/
def Ppu.backgroundPipeline (cfg : Config) (m : Mapper) (p : Ppu) : Ppu :=
  let p := p.shiftLoad
  let p := if (1 ≤ p.cycle ∧ p.cycle ≤ 256) ∨ (321 ≤ p.cycle ∧ p.cycle ≤ 336) then p.fetchTile cfg m else p
  p.scrollUpdate

/-! ### Sprites -/

/-- The sprite height h: 16 if `ctrl[5]` is set, else 8 (R370). -/
def Ppu.spriteHeight (p : Ppu) : Nat := if p.ctrl.getLsbD 5 then 16 else 8

/-- `0 <= L - y < h`, on integers (R370). -/
def inRange (line : Int) (y : Byte) (h : Nat) : Bool :=
  decide (0 ≤ line - (y.toNat : Int)) && decide (line - (y.toNat : Int) < (h : Int))

/-- A byte of primary OAM. -/
def Ppu.oamByte (p : Ppu) (i : Nat) : Byte := Memory.read Bank.oam.unlisted p.oam i

/-- A byte of secondary OAM. -/
def Ppu.secByte (p : Ppu) (i : Nat) : Byte := Memory.read Bank.secOam.unlisted p.secOam i

/-- Store a byte in secondary OAM. -/
def Ppu.writeSec (p : Ppu) (i : Nat) (v : Byte) : Ppu :=
  { p with secOam := Memory.write Bank.secOam.unlisted p.secOam i v }

/-- `NextSprite()` (R370). -/
def Evaluation.next (e : Evaluation) : Evaluation :=
  if e.n = 63 then { e with sev := .wait }
  else { e with n := e.n + 1, sev := if e.found = 8 then .overflowDetect else .copyY }

/-- `EvalStep()` (R370, R371). -/
def Ppu.evalStep (p : Ppu) : Ppu :=
  let e := p.eval
  match e.sev with
  | .copyY =>
    let y := p.oamByte (4 * e.n)
    if inRange p.scanline y p.spriteHeight then
      { p.writeSec (4 * e.found) y with
        eval := { e with zeroNext := e.zeroNext || decide (e.n = 0), m := 1, sev := .copyRest } }
    else { p with eval := e.next }
  | .copyRest =>
    let p := p.writeSec (4 * e.found + e.m) (p.oamByte (4 * e.n + e.m))
    if e.m + 1 = 4 then
      let e : Evaluation := { e with m := 0, found := e.found + 1 }
      { p with eval := e.next }
    else { p with eval := { e with m := e.m + 1 } }
  | .overflowDetect =>
    if inRange p.scanline (p.oamByte (4 * e.n)) p.spriteHeight then
      { p with overflow := true, eval := { e with sev := .wait } }
    else { p with eval := e.next }
  | .wait => p

/-- The start of evaluation, at cycle 65 (R369). -/
def Evaluation.start (_e : Evaluation) : Evaluation :=
  { sev := .copyY, n := 0, m := 0, found := 0, zeroNext := false }

/-- The hand-over at cycle 257 of a visible line (R369, R373). -/
def Ppu.handOver (p : Ppu) : Ppu :=
  { p with
    spriteCount := p.eval.found
    zeroLine := p.eval.zeroNext
    units := p.units.map fun u => { u with lo := 0, hi := 0 } }

/-- The row of a sprite that is shown on the next line, flipped if its attribute says so (R375). -/
def spriteRow (line : Int) (y attr : Byte) (h : Nat) : Int :=
  let row := line - (y.toNat : Int)
  if attr.getLsbD 7 then (h : Int) - 1 - row else row

/-- The pattern address of a row of a sprite (R375). -/
def spriteAddr (ctrl tile : Byte) (h : Nat) (row : Nat) : Word :=
  if h = 8 then (if ctrl.getLsbD 3 then (0x1000 : Word) else 0) ||| (zext16 tile <<< 4) ||| BitVec.ofNat 16 row
  else
    let addr : Word := (if tile.getLsbD 0 then (0x1000 : Word) else 0) ||| (zext16 (tile &&& 0xFE) <<< 4)
    if row ≥ 8 then (addr + 16) ||| BitVec.ofNat 16 (row - 8) else addr ||| BitVec.ofNat 16 row

/-- The pattern bytes of a sprite row, mirrored if the attribute says so (R375). -/
def spritePattern (cfg : Config) (m : Mapper) (addr : Word) (attr : Byte) : Byte × Byte :=
  let l := ppuRead cfg m addr
  let h := ppuRead cfg m (addr + 8)
  if attr.getLsbD 6 then (rev8 l, rev8 h) else (l, h)

/-- `LoadUnit(i)` (R375). A negative row, for which R375's arithmetic states no address, leaves the two pattern
bytes free (log entry 9). -/
def State.loadUnit (i : Fin 8) (s : State) : State :=
  let p := s.ppu
  let y := p.secByte (4 * i.val)
  let tile := p.secByte (4 * i.val + 1)
  let attr := p.secByte (4 * i.val + 2)
  let x := p.secByte (4 * i.val + 3)
  let row := spriteRow p.scanline y attr p.spriteHeight
  if 0 ≤ row then
    let (l, h) := spritePattern s.cfg s.mapper (spriteAddr p.ctrl tile p.spriteHeight row.toNat) attr
    s.setPpu { p with units := p.units.set i.val { lo := l, hi := h, attr := attr, x := x } }
  else
    let u : SpriteUnit := { lo := Config.freeByte s.fresh, hi := Config.freeByte (s.fresh + 1), attr := attr, x := x }
    { s.setPpu { p with units := p.units.set i.val u } with fresh := s.fresh + 2 }

/-- The part of `SpritePipeline` before the unit loads (R369, R372, R373). -/
def Ppu.spriteEvaluation (p : Ppu) : Ppu :=
  let c := p.cycle
  let p := if 1 ≤ c ∧ c ≤ 64 ∧ c % 2 = 0 then p.writeSec (c / 2 - 1) 0xFF else p
  let p := if c = 65 then { p with eval := p.eval.start } else p
  let p := if 66 ≤ c ∧ c ≤ 256 ∧ c % 2 = 0 then p.evalStep else p
  if c = 257 then p.handOver else p

/-- `SpritePipeline(rendering)` (R369). -/
def State.spritePipeline (rendering : Bool) (s : State) : State :=
  if s.ppu.scanline = -1 ∨ rendering = false then
    if s.ppu.cycle = 257 then s.setPpu { s.ppu with spriteCount := 0, zeroLine := false } else s
  else
    let s := s.setPpu s.ppu.spriteEvaluation
    let c := s.ppu.cycle
    if 264 ≤ c ∧ c ≤ 320 ∧ c % 8 = 0 then
      let i := (c - 264) / 8
      if i < s.ppu.eval.found then s.loadUnit (Fin.ofNat 8 i) else s
    else s

/-- The pixel of a sprite unit at screen column `x` (R376). -/
def SpriteUnit.pixel (u : SpriteUnit) (x : Nat) : BitVec 2 :=
  let off := (x : Int) - (u.x.toNat : Int)
  if 0 ≤ off ∧ off ≤ 7 then
    let b := 7 - off.toNat
    BitVec.ofBool (u.hi.getLsbD b) ++ BitVec.ofBool (u.lo.getLsbD b)
  else 0

/-! ### The compositor -/

/-- What the compositor sees of a layer at a column: the 2-bit pixel and palette number, and for a sprite its
priority and whether it is entry 0 (R378). -/
structure LayerPixel where
  pix : BitVec 2
  pal : BitVec 2
  front : Bool
  zero : Bool
  deriving DecidableEq, Repr

/-- A transparent layer. -/
def LayerPixel.clear : LayerPixel := { pix := 0, pal := 0, front := false, zero := false }

/-- The background pixel at column `x` (R378). -/
def Ppu.bgPixel (p : Ppu) (x : Nat) : LayerPixel :=
  if p.mask.getLsbD 3 ∧ (x ≥ 8 ∨ p.mask.getLsbD 1) then
    let b := 15 - p.fineX.toNat
    { pix := BitVec.ofBool (p.bg.patHi.getLsbD b) ++ BitVec.ofBool (p.bg.patLo.getLsbD b)
      pal := BitVec.ofBool (p.bg.attHi.getLsbD b) ++ BitVec.ofBool (p.bg.attLo.getLsbD b)
      front := false
      zero := false }
  else .clear

/-- The first unit of a list, in index order, that is opaque at column `x` (R378, R379); `zero` says whether the
list's first unit holds entry 0. -/
def firstOpaque (x : Nat) : Bool → List SpriteUnit → LayerPixel
  | _, [] => .clear
  | zero, u :: us =>
    if u.pixel x ≠ 0 then
      { pix := u.pixel x, pal := u.attr.setWidth 2, front := !u.attr.getLsbD 5, zero := zero }
    else firstOpaque x false us

/-- The sprite pixel at column `x` (R378, R379). -/
def Ppu.spritePixel (p : Ppu) (x : Nat) : LayerPixel :=
  if p.mask.getLsbD 4 ∧ (x ≥ 8 ∨ p.mask.getLsbD 2) then
    firstOpaque x p.zeroLine (p.units.toList.take p.spriteCount)
  else .clear

/-- The 5-bit palette index of a background pixel: `(bg_pal << 2) | bg_pix` (R378). -/
def LayerPixel.bgIndex (l : LayerPixel) : Word := (l.pal.setWidth 16 <<< 2) ||| l.pix.setWidth 16

/-- The 5-bit palette index of a sprite pixel: `0x10 | (sp_pal << 2) | sp_pix` (R378). -/
def LayerPixel.spriteIndex (l : LayerPixel) : Word := 0x10 ||| l.bgIndex

/-- Which palette index is shown (R378, R379). -/
def composite (bg sp : LayerPixel) : Word :=
  if bg.pix = 0 ∧ sp.pix = 0 then 0x00
  else if bg.pix = 0 then sp.spriteIndex
  else if sp.pix = 0 then bg.bgIndex
  else if sp.front then sp.spriteIndex
  else bg.bgIndex

/-- Whether this pixel is a sprite-zero hit (R378, R380). -/
def spriteZeroHit (x : Nat) (bg sp : LayerPixel) : Bool :=
  bg.pix != 0 && sp.pix != 0 && sp.zero && decide (x ≠ 255)

/-- The 6-bit palette entry of an index, as the pixel buffer holds it (R381). -/
def paletteEntry (cfg : Config) (m : Mapper) (idx : Word) : Byte := ppuRead cfg m (0x3F00 ||| idx) &&& 0x3F

/-- `Draw()` (R378, R383). -/
def State.draw (s : State) : State :=
  let x := s.ppu.cycle - 1
  let bg := s.ppu.bgPixel x
  let sp := s.ppu.spritePixel x
  let pixel := paletteEntry s.cfg s.mapper (composite bg sp)
  (s.setPixels (Memory.write Bank.pixels.unlisted s.pixels (256 * s.ppu.scanline.toNat + x) pixel)).setPpu
    { s.ppu with sprite0 := s.ppu.sprite0 || spriteZeroHit x bg sp }

/-- The colour of a pixel of the output buffer (R29, R381). -/
def State.pixelColour (s : State) (x y : Nat) : Nat :=
  Config.rgbTable ((Memory.read Bank.pixels.unlisted s.pixels (256 * y + x)).setWidth 6)

/-! ### The counters and the tick -/

/-- "Rendering is enabled": `mask[3] = 1 or mask[4] = 1` (R314). -/
def Ppu.rendering (p : Ppu) : Bool := p.mask.getLsbD 3 || p.mask.getLsbD 4

/-- `Advance()` (R351, R352). -/
def Ppu.advance (p : Ppu) : Ppu :=
  if p.scanline = -1 ∧ p.cycle = 339 ∧ p.oddFrame then { p with cycle := 0, scanline := 0 }
  else if p.cycle = 340 then
    if p.scanline = 260 then { p with cycle := 0, scanline := -1, oddFrame := !p.oddFrame }
    else { p with cycle := 0, scanline := p.scanline + 1 }
  else { p with cycle := p.cycle + 1 }

/-- The clear of the three status flags at (−1, 1) (R354). -/
def Ppu.clearFlags (p : Ppu) : Ppu := { p with vblank := false, sprite0 := false, overflow := false }

/-- `VblankStart()` (R384): `vblank` set, the NMI request if `ctrl[7]` is set, and the frame-complete event. -/
def State.vblankStart (s : State) : State :=
  let s1 := { s.setPpu { s.ppu with vblank := true } with frames := s.frames + 1 }
  if s.ppu.ctrl.getLsbD 7 then s1.setContext (s.context ||| 0x02) else s1

/-- The pipelines and the compositor of a tick of lines −1 to 239 (R350). -/
def State.renderTick (s : State) : State :=
  let rendering := s.ppu.rendering
  let s := if rendering then s.setPpu (s.ppu.backgroundPipeline s.cfg s.mapper) else s
  let s := s.spritePipeline rendering
  if 0 ≤ s.ppu.scanline ∧ 1 ≤ s.ppu.cycle ∧ s.ppu.cycle ≤ 256 then s.draw else s

/-- `PPU_Tick()` (R350). -/
def ppuTick (s : State) : State :=
  let s := if s.ppu.scanline = -1 ∧ s.ppu.cycle = 1 then s.setPpu s.ppu.clearFlags else s
  let s := if s.ppu.scanline = 241 ∧ s.ppu.cycle = 1 then s.vblankStart else s
  let s := if -1 ≤ s.ppu.scanline ∧ s.ppu.scanline ≤ 239 then s.renderTick else s
  s.setPpu s.ppu.advance

/-- A number of PPU cycles. -/
def ppuTicks : Nat → State → State
  | 0, s => s
  | n + 1, s => ppuTicks n (ppuTick s)

end Sys2Proof.Machine
end

