-- ==== Sys2Proof/Machine/Step.lean ====
section
/-! DEFINITION. One step of the machine: a system step (spec/50_cpu_step.md R270). -/

namespace Sys2Proof.Machine

/-- `PPU_Step(n)`: the register step, 3·n ticks, then the two refreshed cells (R270). -/
def ppuStep (n : Nat) (s : State) : Except Fault State :=
  match manageRegisters s with
  | .ok s' => .ok (refreshCells (ppuTicks (3 * n) s'))
  | .error f => .error f

/-- What follows a CPU step that consumed `n` cycles: the Controller step, then the PPU step (R270). -/
def deviceStep (n : Nat) (s : State) : Except Fault State := ppuStep n (controllerStep s)

/-- `System_Step()` (R270): the CPU step, then the Controller and the PPU, which advances 3 cycles for each CPU
cycle consumed. A fault ends the step where it is raised (R410). -/
def step (s : State) : Host.Outcome State Fault Refusal :=
  match cpuStep s with
  | .next s' => outcome (deviceStep (s'.cyc - s.cyc) s')
  | .fault f => .fault f
  | .refused r => .refused r

/-- A step before which the outside world delivers some inputs, in order (R8: inputs act between two steps). -/
def stepWith (inputs : List Input) (s : State) : Host.Outcome State Fault Refusal := step (inputs.foldl State.accept s)

/-- The state with an instruction stored where the next step fetches, so that the next step runs it (log
entry 4). -/
def State.withFetchWord (s : State) (nbits w : Nat) : State := s.placeInstruction (tableBytes nbits w)

end Sys2Proof.Machine
end

