-- ==== Sys2Proof/Machine/Run.lean ====
section
/-! DEFINITION. Runs and their end. The hardware never ends a run (spec/50_cpu_step.md R259), so a model defines the
end itself (decision D45): a condition on the state between two steps, such as "PC reaches a given address" or the
frame boundary at which the orchestrator stops (R271). Log entry 17. -/

namespace Sys2Proof.Machine

/-- How a run of at most a given number of steps comes out. -/
inductive RunResult
  /-- The end condition holds in this state, and in none before it. -/
  | ended (s : State)
  /-- The steps allowed are used up and the end condition has not held yet. -/
  | running (s : State)
  /-- A step has stopped with a fault, which is never a successful end (R410, R412). -/
  | fault (f : Fault)
  /-- A step has been refused. -/
  | refused (r : Refusal)
  deriving DecidableEq, Repr

/-- Run up to the first state in which `done` holds, the starting state included, for at most `n` steps (R259). -/
def runUntil (done : State → Bool) : Nat → State → RunResult
  | 0, s => if done s then .ended s else .running s
  | n + 1, s =>
    if done s then .ended s
    else
      match step s with
      | .next t => runUntil done n t
      | .fault f => .fault f
      | .refused r => .refused r

/-- The end condition "PC reaches a given address" (R259). -/
def State.atAddress (addr : Word) (s : State) : Bool := s.pc == addr

/-- The end condition of the orchestrator: a frame-complete event since the state `start` (R271, R384). -/
def State.frameCompletedSince (start s : State) : Bool := decide (start.frames < s.frames)

/-- Run until PC is `addr` (R259). -/
def runToAddress (addr : Word) (n : Nat) (s : State) : RunResult := runUntil (State.atAddress addr) n s

/-- Run one frame: until the next frame-complete event (R271). -/
def runFrame (n : Nat) (s : State) : RunResult := runUntil (State.frameCompletedSince s) n s

end Sys2Proof.Machine
end

