-- ==== Sys2Proof/Safety.lean ====
section
/-! DEFINITION. What counts as a safe run, and the words statements are made of: the invariant of the machine, when an
access can be made, what an operand reads as, and what an instruction may change (spec/10_state.md R11, R16). -/

namespace Sys2Proof.Machine

/-! ### The invariant -/

/-- Every memory of the Mapper is in canonical form and has its size (R22). -/
structure Mapper.Inv (cfg : Config) (m : Mapper) : Prop where
  ram : Memory.wf Bank.ram.unlisted 0x800 m.ram
  sram : Memory.wf Bank.sram.unlisted 0x2000 m.sram
  prg : Memory.wf Bank.prg.unlisted (prgSize cfg) m.prg
  chr : Memory.wf Bank.chr.unlisted 0x2000 m.chr
  vram : Memory.wf Bank.vram.unlisted 0x800 m.vram
  palette : Memory.wf Bank.palette.unlisted 32 m.palette

/-- A joypad's shift position is 1 to 10 (R24). -/
structure Joypad.Inv (pad : Joypad) : Prop where
  low : 1 ≤ pad.pos
  high : pad.pos ≤ 10

/-- The evaluation machine's counters are in range (R28); while it copies an entry, fewer than 8 are kept and the
entry's first byte is done. -/
structure Evaluation.Inv (e : Evaluation) : Prop where
  n : e.n ≤ 63
  m : e.m ≤ 3
  found : e.found ≤ 8
  room : e.sev = .copyY ∨ e.sev = .copyRest → e.found < 8
  begun : e.sev = .copyRest → 1 ≤ e.m

/-- The PPU's counters are in range (R26, R28), its memories are in canonical form and have their sizes (R22), and it
is never at the skipped position (−1, 340) of an odd frame (R352). -/
structure Ppu.Inv (p : Ppu) : Prop where
  cycle : p.cycle ≤ 340
  first : -1 ≤ p.scanline
  last : p.scanline ≤ 260
  skipped : ¬(p.scanline = -1 ∧ p.cycle = 340 ∧ p.oddFrame = true)
  eval : p.eval.Inv
  spriteCount : p.spriteCount ≤ 8
  oam : Memory.wf Bank.oam.unlisted 256 p.oam
  secOam : Memory.wf Bank.secOam.unlisted 32 p.secOam

/-- The invariant of the machine: canonical memories, counters in range, bits 3 to 7 of the interrupt context zero
(R19). -/
structure State.Inv (s : State) : Prop where
  mapper : s.mapper.Inv s.cfg
  pad1 : s.pads.pad1.Inv
  pad2 : s.pads.pad2.Inv
  ppu : s.ppu.Inv
  pixels : Memory.wf Bank.pixels.unlisted 61440 s.pixels
  context : s.context &&& 0xF8 = 0

/-! ### When an access can be made -/

/-- A CPU read of this address does not fault (R53). -/
def State.CanLoad (s : State) (addr : Word) : Prop :=
  0x4020 ≤ addr.toNat → addr.toNat ≤ 0x5FFF → s.cfg.unmapped = .dummy

/-- A CPU write of this address does not fault (R53, R57). -/
def State.CanStore (s : State) (addr : Word) : Prop :=
  s.CanLoad addr ∧ (0x8000 ≤ addr.toNat → s.cfg.romWrite ≠ .fault)

/-- A CPU write of this address that does not fault leaves the cell as it is: program ROM while `ROM_WRITE` is
`ignore` (R57). -/
def State.Ignores (s : State) (addr : Word) : Prop := 0x8000 ≤ addr.toNat ∧ s.cfg.romWrite = .ignore

/-- Two addresses designate one cell. -/
def State.SameCell (s : State) (a b : Word) : Prop := cpuCell s.cfg a = cpuCell s.cfg b

/-- Reading address `a` gives `v` and does not fault. -/
def State.Reads (s : State) (a : Word) (v : Byte) : Prop := s.peek a = some v

/-- `t` reads everywhere as `s` does, but for the cells of the addresses listed. -/
def State.MemKept (stored : List Word) (s t : State) : Prop :=
  ∀ b, (∀ a ∈ stored, ¬s.SameCell a b) → t.peek b = s.peek b

/-- `t` is `s` with the byte `v` stored at `a`: `a` reads as `v`, unless a store there is ignored, and every cell but
that of `a` reads as before. -/
def State.Stored (a : Word) (v : Byte) (s t : State) : Prop :=
  (¬s.Ignores a → t.Reads a v) ∧ (s.Ignores a → t.peek a = s.peek a) ∧ State.MemKept [a] s t

/-- The acknowledgment slots of `t` are those of `s`, but for the slot of `a`, which records the access `k`. -/
def State.Acknowledged (a : Word) (k : Access) (s t : State) : Prop :=
  ∀ slot, t.io.ack[slot] = if ackSlot a = some slot then k else s.io.ack[slot]

/-! ### What an instruction may change -/

/-- N and Z of `t` say of the byte `v`: bit 7, and whether it is zero (R9). -/
def State.FlagsOf (v : Byte) (t : State) : Prop := t.flag .negative = v.getLsbD 7 ∧ t.flag .zero = decide (v = 0)

/-- The 8-bit registers of the CPU but P (R10). -/
inductive Reg
  | a
  | x
  | y
  | sp
  deriving DecidableEq, Repr

/-- The content of a register. -/
def State.reg (s : State) : Reg → Byte
  | .a => s.a
  | .x => s.x
  | .y => s.y
  | .sp => s.sp

/-- `t` has the registers A, X, Y, SP, P and PC of `s`. -/
structure State.SameRegisters (s t : State) : Prop where
  a : t.a = s.a
  x : t.x = s.x
  y : t.y = s.y
  sp : t.sp = s.sp
  p : t.p = s.p
  pc : t.pc = s.pc

/-- Everything but the CPU's registers, the CPU address space and the acknowledgments is as before: the interrupt
context, the PPU with OAM, the PPU's memories, the Controller, the picture, the configuration and the inputs. -/
structure State.SameDevices (s t : State) : Prop where
  context : t.context = s.context
  ppu : t.ppu = s.ppu
  chr : t.mapper.chr = s.mapper.chr
  vram : t.mapper.vram = s.mapper.vram
  palette : t.mapper.palette = s.mapper.palette
  pads : t.pads = s.pads
  pixels : t.pixels = s.pixels
  cfg : t.cfg = s.cfg
  keys : t.keys = s.keys
  frames : t.frames = s.frames
  fresh : t.fresh = s.fresh

/-! ### Fetching -/

/-- Record a read of each of `n` bytes from address `a` on (R55, R77). -/
def State.touches (a : Word) : Nat → State → State
  | 0, s => s
  | n + 1, s => State.touches (a + 1) n (s.touch a .read)

/-- The bytes listed stand at `a` and the addresses after it. -/
def State.HoldsBytes (s : State) (a : Word) : List Byte → Prop
  | [] => True
  | b :: bs => s.Reads a b ∧ s.HoldsBytes (a + 1) bs

/-- The state in which an instruction of `n` bytes runs, when the step starts in `s` with nothing to service: the DMA
query has cleared the slot of `$4014`, the bytes have been read and PC is past them (R250, R252). -/
def State.fetched (n : Nat) (s : State) : State :=
  (State.touches s.pc n (s.setAck dmaSlot .none)).setPc (s.pc + BitVec.ofNat 16 n)

/-! ### The Controller -/

/-- A joypad and its cell after `n` acknowledged reads. -/
def Joypad.afterReads (pad : Joypad) (cell : Byte) : Nat → Joypad × Byte
  | 0 => (pad, cell)
  | n + 1 => (Joypad.afterReads pad cell n).1.advance (Joypad.afterReads pad cell n).2

/-- The Controller's step latches both joypads: `$4016` was written last with bit 0 clear, after a raised strobe (R300,
R301). -/
def State.LatchesJoypads (s : State) : Prop :=
  s.io.ack[joy1Slot] = .write ∧ s.io.joy1.getLsbD 0 = false ∧ s.pads.lastStrobe = true

/-! ### The PPU's register step -/

/-- Polling the acknowledgment slot `slot` takes `s` to `t`: the slot is cleared and every other is as before, and so is
all but the PPU, the Mapper's memories and the cells `ioreg[0–7]` (R310). -/
structure State.Polled (slot : Fin 40) (s t : State) : Prop where
  acks : ∀ j : Fin 40, t.io.ack[j] = if j = slot then .none else s.io.ack[j]
  registers : t.SameRegisters s
  context : t.context = s.context
  cyc : t.cyc = s.cyc
  ram : t.mapper.ram = s.mapper.ram
  sram : t.mapper.sram = s.mapper.sram
  prg : t.mapper.prg = s.mapper.prg
  dmareg : t.io.dmareg = s.io.dmareg
  joy1 : t.io.joy1 = s.io.joy1
  joy2 : t.io.joy2 = s.io.joy2
  dummy : t.io.dummy = s.io.dummy
  pads : t.pads = s.pads
  pixels : t.pixels = s.pixels
  cfg : t.cfg = s.cfg
  keys : t.keys = s.keys
  frames : t.frames = s.frames
  fresh : t.fresh = s.fresh

/-! ### The background (R355, R356) -/

/-- The tick shifts the background's shift registers (R355). -/
abbrev Ppu.Shifts (p : Ppu) : Prop := (2 ≤ p.cycle ∧ p.cycle ≤ 257) ∨ (321 ≤ p.cycle ∧ p.cycle ≤ 337)

/-- The tick loads the latches into the shift registers (R355). -/
abbrev Ppu.Loads (p : Ppu) : Prop :=
  ((1 ≤ p.cycle ∧ p.cycle ≤ 257) ∨ (321 ≤ p.cycle ∧ p.cycle ≤ 337)) ∧ (p.cycle - 1) % 8 = 0

/-- The tick is number `k` of the 8-cycle fetch pattern (R355). -/
abbrev Ppu.Fetches (p : Ppu) (k : Nat) : Prop :=
  ((1 ≤ p.cycle ∧ p.cycle ≤ 256) ∨ (321 ≤ p.cycle ∧ p.cycle ≤ 336)) ∧ (p.cycle - 1) % 8 = k

/-- A shift register goes from `r` to `r'` in the tick, `b` being the byte its latch supplies: it moves left by one,
bit 15 lost and 0 brought in, where the tick shifts, and then its low 8 bits are `b` where the tick loads (R356). -/
def Ppu.MovesShifter (p : Ppu) (b : Byte) (r r' : BitVec 16) : Prop :=
  (p.Shifts → p.Loads → r'.toNat = 2 * r.toNat % 65536 / 256 * 256 + b.toNat) ∧
  (p.Shifts → ¬p.Loads → r'.toNat = 2 * r.toNat % 65536) ∧
  (¬p.Shifts → p.Loads → r'.toNat = r.toNat / 256 * 256 + b.toNat) ∧
  (¬p.Shifts → ¬p.Loads → r' = r)

/-! ### Sprite evaluation (R370) -/

/-- Entry `k` of primary OAM is in range on the current line: `y ≤ L ≤ y + h − 1` (R370). -/
def Ppu.shows (p : Ppu) (k : Nat) : Bool :=
  decide (((p.oamByte (4 * k)).toNat : Int) ≤ p.scanline ∧
    p.scanline < (p.oamByte (4 * k)).toNat + (if p.ctrl.getLsbD 5 then 16 else 8))

/-- The entries in range on the current line, in index order. -/
def Ppu.shown (p : Ppu) : List Nat := (List.range 64).filter p.shows

/-- `e'` is `e` moved on to the next entry with `found` entries kept: past entry 63 the machine waits; otherwise it
looks at entry `n + 1`, to copy it, or once 8 are kept to detect an overflow (R370). -/
def Evaluation.MovedOn (e : Evaluation) (found : Nat) (e' : Evaluation) : Prop :=
  e'.found = found ∧ (e.n = 63 → e'.sev = .wait ∧ e'.n = 63) ∧
  (e.n < 63 → e'.n = e.n + 1 ∧ e'.sev = if found = 8 then .overflowDetect else .copyY)

/-- The PPU address of a row of a sprite's pattern: 8 rows of a tile of the table `ctrl[3]` selects, or 16 rows of a
pair of tiles of the table the tile number's bit 0 selects (R375). -/
def Ppu.spriteRowAddr (p : Ppu) (tile : Byte) (row : Nat) : Nat :=
  if p.ctrl.getLsbD 5 then 0x1000 * (tile.toNat % 2) + 16 * (tile.toNat / 2 * 2) + row / 8 * 16 + row % 8
  else 0x1000 * (p.ctrl.getLsbD 3).toNat + 16 * tile.toNat + row

/-- The unit `u` is loaded from entry `i` of secondary OAM: attribute and X from its bytes, and for a row inside the
sprite, counted from the bottom when the attribute flips it, the pattern bytes of that row, their bits reversed when
the attribute mirrors them (R375). -/
structure State.LoadedUnit (s : State) (i : Nat) (u : SpriteUnit) : Prop where
  attr : u.attr = s.ppu.secByte (4 * i + 2)
  x : u.x = s.ppu.secByte (4 * i + 3)
  pattern : ∀ row : Nat, row < (if s.ppu.ctrl.getLsbD 5 then 16 else 8) →
    s.ppu.scanline - (s.ppu.secByte (4 * i)).toNat =
      (if (s.ppu.secByte (4 * i + 2)).getLsbD 7 then (if s.ppu.ctrl.getLsbD 5 then 15 else 7) - (row : Int) else row) →
    ∀ b : Nat, b < 8 →
      u.lo.getLsbD b =
        (ppuRead s.cfg s.mapper (BitVec.ofNat 16 (s.ppu.spriteRowAddr (s.ppu.secByte (4 * i + 1)) row))).getLsbD
          (if (s.ppu.secByte (4 * i + 2)).getLsbD 6 then 7 - b else b) ∧
      u.hi.getLsbD b =
        (ppuRead s.cfg s.mapper (BitVec.ofNat 16 (s.ppu.spriteRowAddr (s.ppu.secByte (4 * i + 1)) row + 8))).getLsbD
          (if (s.ppu.secByte (4 * i + 2)).getLsbD 6 then 7 - b else b)

/-! ### The fields of a VRAM address (R318) -/

/-- Coarse X, the tile column. -/
def coarseX (v : VramAddr) : Nat := v.toNat % 32

/-- Coarse Y, the tile row. -/
def coarseY (v : VramAddr) : Nat := v.toNat / 32 % 32

/-- The horizontal nametable bit. -/
def nametableX (v : VramAddr) : Nat := v.toNat / 0x400 % 2

/-- The vertical nametable bit. -/
def nametableY (v : VramAddr) : Nat := v.toNat / 0x800 % 2

/-- Fine Y, the row inside the tile. -/
def fineY (v : VramAddr) : Nat := v.toNat / 0x1000

end Sys2Proof.Machine

namespace Sys2Proof

open Machine

/-! ### What an operand reads as -/

/-- The operand is the byte `v`: the immediate, or what its address reads as (R136). -/
def ReadOperand.Is (o : ReadOperand) (s : State) (v : Byte) : Prop :=
  match o with
  | .imm w => w = v
  | .mem m => s.Reads (m.ea s) v

/-- The operand is the byte `v`: A, or what its address reads as (R136). -/
def RmwOperand.Is (o : RmwOperand) (s : State) (v : Byte) : Prop :=
  match o with
  | .acc => s.a = v
  | .mem m => s.Reads (m.ea s) v

/-- The operand can be written (R53, R57). -/
def RmwOperand.CanStore (o : RmwOperand) (s : State) : Prop :=
  match o with
  | .acc => True
  | .mem m => s.CanStore (m.ea s)

/-- In `t` the operand has become `r`: A is `r`, or `r` was stored at the operand's address in `s`, which is
acknowledged as written (R136). -/
def RmwOperand.Becomes (o : RmwOperand) (r : Byte) (s t : State) : Prop :=
  match o with
  | .acc => t.a = r
  | .mem m => State.Stored (m.ea s) r s t ∧ State.Acknowledged (m.ea s) .write s t

/-- The addresses at which an operand is accessed. -/
def ReadOperand.addrs (o : ReadOperand) (s : State) : List Word :=
  match o with
  | .imm _ => []
  | .mem m => [m.ea s]

/-- The addresses at which an operand is accessed. -/
def RmwOperand.addrs (o : RmwOperand) (s : State) : List Word :=
  match o with
  | .acc => []
  | .mem m => [m.ea s]

/-- The page-crossed flag of an operand that is read and written (R120). -/
def RmwOperand.crossed (o : RmwOperand) (s : State) : Bool :=
  match o with
  | .acc => false
  | .mem m => m.crossed s

/-- The addresses of a jump's pointer (R130). -/
def JumpOperand.addrs : JumpOperand → List Word
  | .abs _ => []
  | .abi p => [p, abiHighAddr p]

/-- The registers a shift writes: A in mode `ACC` (R11). -/
def RmwOperand.regs : RmwOperand → List Reg
  | .acc => [.a]
  | .mem _ => []

/-! ### What each instruction may write -/

/-- The registers each instruction writes (R11), PC and P apart. -/
def Instr.regsWritten : Instr → List Reg
  | .lda _ | .txa | .tya | .adc _ | .sbc _ | .and _ | .ora _ | .eor _ => [.a]
  | .ldx _ | .tax | .tsx | .inx | .dex => [.x]
  | .ldy _ | .tay | .iny | .dey => [.y]
  | .asl o | .lsr o | .rol o | .ror o => o.regs
  | .pla => [.a, .sp]
  | .pha | .php | .plp | .jsr _ | .rts | .brk | .rti | .txs => [.sp]
  | .sta _ | .stx _ | .sty _ | .cmp _ | .cpx _ | .cpy _ | .bit _ | .inc _ | .dec _ | .jmp _ | .bcc _ | .bcs _ | .beq _
  | .bne _ | .bmi _ | .bpl _ | .bvc _ | .bvs _ | .clc | .sec | .cli | .sei | .cld | .sed | .clv | .nop | .und _ => []

/-- The flags each instruction writes (R16). -/
def Instr.flagsWritten : Instr → List Flag
  | .lda _ | .ldx _ | .ldy _ | .tax | .tay | .txa | .tya | .tsx | .pla | .and _ | .ora _ | .eor _ | .inc _ | .dec _
  | .inx | .iny | .dex | .dey => [.negative, .zero]
  | .asl _ | .lsr _ | .rol _ | .ror _ | .cmp _ | .cpx _ | .cpy _ => [.negative, .zero, .carry]
  | .adc _ | .sbc _ => [.negative, .zero, .carry, .overflow]
  | .bit _ => [.negative, .overflow, .zero]
  | .clc | .sec => [.carry]
  | .cli | .sei | .brk => [.interrupt]
  | .cld | .sed => [.decimal]
  | .clv => [.overflow]
  | .plp | .rti => [.carry, .zero, .interrupt, .decimal, .brk, .unused, .overflow, .negative]
  | .sta _ | .stx _ | .sty _ | .txs | .pha | .php | .jmp _ | .jsr _ | .rts | .nop | .bcc _ | .bcs _ | .beq _ | .bne _
  | .bmi _ | .bpl _ | .bvc _ | .bvs _ | .und _ => []

/-- The CPU addresses at which each instruction stores, computed from the state it starts in: the operand's effective
address, or the stack locations it pushes to (R14, R136). -/
def Instr.stores (i : Instr) (s : State) : List Word :=
  match i with
  | .sta m | .stx m | .sty m | .inc m | .dec m => [m.ea s]
  | .asl o | .lsr o | .rol o | .ror o => o.addrs s
  | .pha | .php => [stackAddr s.sp]
  | .jsr _ => [stackAddr s.sp, stackAddr (s.sp - 1)]
  | .brk => [stackAddr s.sp, stackAddr (s.sp - 1), stackAddr (s.sp - 2)]
  | .lda _ | .ldx _ | .ldy _ | .tax | .tay | .txa | .tya | .tsx | .txs | .adc _ | .sbc _ | .and _ | .ora _ | .eor _
  | .cmp _ | .cpx _ | .cpy _ | .bit _ | .inx | .iny | .dex | .dey | .jmp _ | .rts | .bcc _ | .bcs _ | .beq _ | .bne _
  | .bmi _ | .bpl _ | .bvc _ | .bvs _ | .pla | .plp | .clc | .sec | .cli | .sei | .cld | .sed | .clv | .nop | .rti
  | .und _ => []

/-- The CPU addresses at which each instruction reads or writes its operand or its pointer in memory: the accesses
that can touch an acknowledgment slot (R55, R130, R136). -/
def Instr.accesses (i : Instr) (s : State) : List Word :=
  match i with
  | .lda o | .ldx o | .ldy o | .adc o | .sbc o | .and o | .ora o | .eor o | .cmp o | .cpx o | .cpy o => o.addrs s
  | .sta m | .stx m | .sty m | .bit m | .inc m | .dec m => [m.ea s]
  | .asl o | .lsr o | .rol o | .ror o => o.addrs s
  | .jmp o => o.addrs
  | .tax | .tay | .txa | .tya | .tsx | .txs | .inx | .iny | .dex | .dey | .jsr _ | .rts | .bcc _ | .bcs _ | .beq _
  | .bne _ | .bmi _ | .bpl _ | .bvc _ | .bvs _ | .pha | .php | .pla | .plp | .clc | .sec | .cli | .sei | .cld | .sed
  | .clv | .nop | .brk | .rti | .und _ => []

/-- The frame of an instruction that takes `s` to `t`: every register, flag, byte of CPU memory and acknowledgment slot
it does not write or access is as before, and so are all devices. -/
structure Instr.Frame (i : Instr) (s t : State) : Prop where
  regs : ∀ r, r ∉ i.regsWritten → t.reg r = s.reg r
  flags : ∀ f, f ∉ i.flagsWritten → t.flag f = s.flag f
  memory : State.MemKept (i.stores s) s t
  acks : ∀ slot, (∀ a ∈ i.accesses s, ackSlot a ≠ some slot) → t.io.ack[slot] = s.io.ack[slot]
  devices : State.SameDevices s t

/-- The page-crossed flag of an instruction's operand (R120). -/
def Instr.crossed (i : Instr) (s : State) : Bool :=
  match i with
  | .lda o | .ldx o | .ldy o | .adc o | .sbc o | .and o | .ora o | .eor o | .cmp o | .cpx o | .cpy o => o.crossed s
  | .sta m | .stx m | .sty m | .bit m | .inc m | .dec m => m.crossed s
  | .asl o | .lsr o | .rol o | .ror o => o.crossed s
  | .tax | .tay | .txa | .tya | .tsx | .txs | .inx | .iny | .dex | .dey | .jmp _ | .jsr _ | .rts | .bcc _ | .bcs _
  | .beq _ | .bne _ | .bmi _ | .bpl _ | .bvc _ | .bvs _ | .pha | .php | .pla | .plp | .clc | .sec | .cli | .sei | .cld
  | .sed | .clv | .nop | .brk | .rti | .und _ => false

end Sys2Proof
end

