-- ==== Sys2Proof/Certificates/Slice0/Obligations.lean ====
section
/-! DEFINITION. The statements for the provers, each a numbered rule of spec/ or a consequence of several. The words
they use are defined in Safety.lean. -/

section

open Sys2Proof Sys2Proof.Machine

/-! ### Encoding and addressing -/

/-- Decoding the bytes of a well-formed instruction gives the instruction back, with every argument byte, and the
bytes after it (R101 to R107). -/
def Obligations.DecodeOfEncodeIsTheInstruction : Prop :=
  ∀ (i : Instr) (rest : List Byte), i.wf = true → decode (encode i ++ rest) = .ok (i, rest)

/-- What the decoder reads is well formed, and encoding it gives back the bytes read: each byte string has one meaning
(R100 to R107). -/
def Obligations.EncodeOfDecodeIsTheBytes : Prop :=
  ∀ (bytes rest : List Byte) (i : Instr), decode bytes = .ok (i, rest) → i.wf = true ∧ encode i ++ rest = bytes

/-- Every opcode byte is decided, whatever the argument bytes: it begins an instruction of the table, or it is one of
the 105 undefined ones (R104, R106, R107). -/
def Obligations.EveryOpcodeByteIsDecided : Prop :=
  ∀ (opcode arg0 arg1 : Byte) (rest : List Byte), ∃ (i : Instr) (rest' : List Byte),
    decode (opcode :: arg0 :: arg1 :: rest) = .ok (i, rest') ∧
    encode i = opcode :: [arg0, arg1].take i.args.length ∧
    (i.mode = .UND ↔ opcode ∈ undefinedOpcodes)

/-- The decode table byte by byte: each of its 151 opcode bytes, with the argument bytes of its mode after it, decodes to
its operation and mode; ten byte sequences written out whole (R101 to R104, R109). -/
def Obligations.WordsOfTheSpecDecode : Prop :=
  (decode [0xA9, 0x10] = .ok (.lda (.imm 0x10), []) ∧
    decode [0x8D, 0x07, 0x20] = .ok (.sta (.abs 0x2007), []) ∧
    decode [0xAA] = .ok (.tax, []) ∧
    decode [0x71, 0x86] = .ok (.adc (.mem (.iny 0x86)), []) ∧
    decode [0xDE, 0x34, 0x12] = .ok (.dec (.abx 0x1234), []) ∧
    decode [0x0A] = .ok (.asl .acc, []) ∧
    decode [0x6C, 0xFF, 0x02] = .ok (.jmp (.abi 0x02FF), []) ∧
    decode [0xD0, 0xFB] = .ok (.bne 0xFB, []) ∧
    decode [0x00] = .ok (.brk, []) ∧
    decode [0x02] = .ok (.und 0x02, [])) ∧
  (∀ p ∈ -- IMP
    [(0x00, Instr.brk), (0x18, .clc), (0xD8, .cld), (0x58, .cli), (0xB8, .clv), (0xCA, .dex), (0x88, .dey),
      (0xE8, .inx), (0xC8, .iny), (0xEA, .nop), (0x48, .pha), (0x08, .php), (0x68, .pla), (0x28, .plp), (0x40, .rti),
      (0x60, .rts), (0x38, .sec), (0xF8, .sed), (0x78, .sei), (0xAA, .tax), (0xA8, .tay), (0xBA, .tsx), (0x8A, .txa),
      (0x9A, .txs), (0x98, .tya)],
      decode [p.1] = .ok (p.2, [])) ∧
  (∀ p ∈ -- ACC
    [(0x0A, Instr.asl .acc), (0x4A, .lsr .acc), (0x2A, .rol .acc), (0x6A, .ror .acc)],
      decode [p.1] = .ok (p.2, [])) ∧
  (∀ l : Byte,
    (∀ p ∈ -- IMM
      [(0x69, Instr.adc (.imm l)), (0x29, .and (.imm l)), (0xC9, .cmp (.imm l)), (0xE0, .cpx (.imm l)),
        (0xC0, .cpy (.imm l)), (0x49, .eor (.imm l)), (0xA9, .lda (.imm l)), (0xA2, .ldx (.imm l)),
        (0xA0, .ldy (.imm l)), (0x09, .ora (.imm l)), (0xE9, .sbc (.imm l))],
        decode [p.1, l] = .ok (p.2, [])) ∧
    (∀ p ∈ -- ZER
      [(0x65, Instr.adc (.mem (.zer l))), (0x25, .and (.mem (.zer l))), (0x06, .asl (.mem (.zer l))),
        (0x24, .bit (.zer l)), (0xC5, .cmp (.mem (.zer l))), (0xE4, .cpx (.mem (.zer l))),
        (0xC4, .cpy (.mem (.zer l))), (0xC6, .dec (.zer l)), (0x45, .eor (.mem (.zer l))), (0xE6, .inc (.zer l)),
        (0xA5, .lda (.mem (.zer l))), (0xA6, .ldx (.mem (.zer l))), (0xA4, .ldy (.mem (.zer l))),
        (0x46, .lsr (.mem (.zer l))), (0x05, .ora (.mem (.zer l))), (0x26, .rol (.mem (.zer l))),
        (0x66, .ror (.mem (.zer l))), (0xE5, .sbc (.mem (.zer l))), (0x85, .sta (.zer l)), (0x86, .stx (.zer l)),
        (0x84, .sty (.zer l))],
        decode [p.1, l] = .ok (p.2, [])) ∧
    (∀ p ∈ -- ZEX
      [(0x75, Instr.adc (.mem (.zex l))), (0x35, .and (.mem (.zex l))), (0x16, .asl (.mem (.zex l))),
        (0xD5, .cmp (.mem (.zex l))), (0xD6, .dec (.zex l)), (0x55, .eor (.mem (.zex l))), (0xF6, .inc (.zex l)),
        (0xB5, .lda (.mem (.zex l))), (0xB4, .ldy (.mem (.zex l))), (0x56, .lsr (.mem (.zex l))),
        (0x15, .ora (.mem (.zex l))), (0x36, .rol (.mem (.zex l))), (0x76, .ror (.mem (.zex l))),
        (0xF5, .sbc (.mem (.zex l))), (0x95, .sta (.zex l)), (0x94, .sty (.zex l))],
        decode [p.1, l] = .ok (p.2, [])) ∧
    (∀ p ∈ -- ZEY
      [(0xB6, Instr.ldx (.mem (.zey l))), (0x96, .stx (.zey l))],
        decode [p.1, l] = .ok (p.2, [])) ∧
    (∀ p ∈ -- INX
      [(0x61, Instr.adc (.mem (.inx l))), (0x21, .and (.mem (.inx l))), (0xC1, .cmp (.mem (.inx l))),
        (0x41, .eor (.mem (.inx l))), (0xA1, .lda (.mem (.inx l))), (0x01, .ora (.mem (.inx l))),
        (0xE1, .sbc (.mem (.inx l))), (0x81, .sta (.inx l))],
        decode [p.1, l] = .ok (p.2, [])) ∧
    (∀ p ∈ -- INY
      [(0x71, Instr.adc (.mem (.iny l))), (0x31, .and (.mem (.iny l))), (0xD1, .cmp (.mem (.iny l))),
        (0x51, .eor (.mem (.iny l))), (0xB1, .lda (.mem (.iny l))), (0x11, .ora (.mem (.iny l))),
        (0xF1, .sbc (.mem (.iny l))), (0x91, .sta (.iny l))],
        decode [p.1, l] = .ok (p.2, [])) ∧
    (∀ p ∈ -- REL
      [(0x90, Instr.bcc l), (0xB0, .bcs l), (0xF0, .beq l), (0x30, .bmi l), (0xD0, .bne l), (0x10, .bpl l),
        (0x50, .bvc l), (0x70, .bvs l)],
        decode [p.1, l] = .ok (p.2, []))) ∧
  ∀ (l h : Byte) (w : Word), w.toNat = h.toNat * 256 + l.toNat →
    (∀ p ∈ -- ABS
      [(0x6D, Instr.adc (.mem (.abs w))), (0x2D, .and (.mem (.abs w))), (0x0E, .asl (.mem (.abs w))),
        (0x2C, .bit (.abs w)), (0xCD, .cmp (.mem (.abs w))), (0xEC, .cpx (.mem (.abs w))),
        (0xCC, .cpy (.mem (.abs w))), (0xCE, .dec (.abs w)), (0x4D, .eor (.mem (.abs w))), (0xEE, .inc (.abs w)),
        (0x4C, .jmp (.abs w)), (0x20, .jsr w), (0xAD, .lda (.mem (.abs w))), (0xAE, .ldx (.mem (.abs w))),
        (0xAC, .ldy (.mem (.abs w))), (0x4E, .lsr (.mem (.abs w))), (0x0D, .ora (.mem (.abs w))),
        (0x2E, .rol (.mem (.abs w))), (0x6E, .ror (.mem (.abs w))), (0xED, .sbc (.mem (.abs w))),
        (0x8D, .sta (.abs w)), (0x8E, .stx (.abs w)), (0x8C, .sty (.abs w))],
        decode [p.1, l, h] = .ok (p.2, [])) ∧
    (∀ p ∈ -- ABX
      [(0x7D, Instr.adc (.mem (.abx w))), (0x3D, .and (.mem (.abx w))), (0x1E, .asl (.mem (.abx w))),
        (0xDD, .cmp (.mem (.abx w))), (0xDE, .dec (.abx w)), (0x5D, .eor (.mem (.abx w))), (0xFE, .inc (.abx w)),
        (0xBD, .lda (.mem (.abx w))), (0xBC, .ldy (.mem (.abx w))), (0x5E, .lsr (.mem (.abx w))),
        (0x1D, .ora (.mem (.abx w))), (0x3E, .rol (.mem (.abx w))), (0x7E, .ror (.mem (.abx w))),
        (0xFD, .sbc (.mem (.abx w))), (0x9D, .sta (.abx w))],
        decode [p.1, l, h] = .ok (p.2, [])) ∧
    (∀ p ∈ -- ABY
      [(0x79, Instr.adc (.mem (.aby w))), (0x39, .and (.mem (.aby w))), (0xD9, .cmp (.mem (.aby w))),
        (0x59, .eor (.mem (.aby w))), (0xB9, .lda (.mem (.aby w))), (0xBE, .ldx (.mem (.aby w))),
        (0x19, .ora (.mem (.aby w))), (0xF9, .sbc (.mem (.aby w))), (0x99, .sta (.aby w))],
        decode [p.1, l, h] = .ok (p.2, [])) ∧
    (∀ p ∈ -- ABI
      [(0x6C, Instr.jmp (.abi w))],
        decode [p.1, l, h] = .ok (p.2, []))

/-- The effective address of every mode (R124 to R129, R131, R132): the zero-page modes wrap inside page zero, pointers
are read low byte first with their second byte wrapping inside page zero, the 16-bit indexed modes wrap at `$FFFF`. -/
def Obligations.EffectiveAddresses : Prop :=
  ∀ (s : State) (b : Byte) (w : Word),
    ((MemOperand.zer b).ea s).toNat = b.toNat ∧
    ((MemOperand.zex b).ea s).toNat = (b.toNat + s.x.toNat) % 256 ∧
    ((MemOperand.zey b).ea s).toNat = (b.toNat + s.y.toNat) % 256 ∧
    (∀ l h : Byte, s.Reads (BitVec.ofNat 16 ((b.toNat + s.x.toNat) % 256)) l →
      s.Reads (BitVec.ofNat 16 ((b.toNat + s.x.toNat + 1) % 256)) h →
      ((MemOperand.inx b).ea s).toNat = h.toNat * 256 + l.toNat) ∧
    (∀ l h : Byte, s.Reads (BitVec.ofNat 16 b.toNat) l → s.Reads (BitVec.ofNat 16 ((b.toNat + 1) % 256)) h →
      ((MemOperand.iny b).ea s).toNat = (h.toNat * 256 + l.toNat + s.y.toNat) % 65536) ∧
    (MemOperand.abs w).ea s = w ∧
    ((MemOperand.abx w).ea s).toNat = (w.toNat + s.x.toNat) % 65536 ∧
    ((MemOperand.aby w).ea s).toNat = (w.toNat + s.y.toNat) % 65536

/-- The page-crossed flag is true exactly in the modes `ABX`, `ABY` and `INY`, when base and effective address differ
in their high bytes, which is when the low byte and the index carry (R128, R131, R135). -/
def Obligations.PageCrossedExactlyWhenHighBytesDiffer : Prop :=
  ∀ (s : State) (m : MemOperand),
    (m.crossed s = true ↔
      (m.mode = .ABX ∨ m.mode = .ABY ∨ m.mode = .INY) ∧ (m.base s).toNat / 256 ≠ (m.ea s).toNat / 256) ∧
    (m.mode = .ABX → (m.crossed s = true ↔ 255 < (m.base s).toNat % 256 + s.x.toNat)) ∧
    (m.mode = .ABY ∨ m.mode = .INY → (m.crossed s = true ↔ 255 < (m.base s).toNat % 256 + s.y.toNat)) ∧
    ∀ v : Byte, (ReadOperand.imm v).crossed s = false

/-! ### The memory maps -/

/-- RAM repeats every 0x800 bytes, program ROM every 0x4000 or not at all, and save-RAM folds no two addresses; the three
share no cell with each other or with the rest; reading them changes nothing and no access touches an acknowledgment
(R51, R54, R56). -/
def Obligations.CpuMirrors : Prop :=
  ∀ (s : State) (a b : Word),
    (a.toNat ≤ 0x1FFF → b.toNat ≤ 0x1FFF → (s.SameCell a b ↔ a.toNat % 0x800 = b.toNat % 0x800)) ∧
    (0x6000 ≤ a.toNat → a.toNat ≤ 0x7FFF → 0x6000 ≤ b.toNat → b.toNat ≤ 0x7FFF → (s.SameCell a b ↔ a = b)) ∧
    (0x8000 ≤ a.toNat → 0x8000 ≤ b.toNat → s.cfg.prgBanks = .one →
      (s.SameCell a b ↔ a.toNat % 0x4000 = b.toNat % 0x4000)) ∧
    (0x8000 ≤ a.toNat → 0x8000 ≤ b.toNat → s.cfg.prgBanks = .two → (s.SameCell a b ↔ a = b)) ∧
    (a.toNat ≤ 0x1FFF → 0x2000 ≤ b.toNat → ¬s.SameCell a b) ∧
    (0x6000 ≤ a.toNat → a.toNat ≤ 0x7FFF → b.toNat < 0x6000 ∨ 0x8000 ≤ b.toNat → ¬s.SameCell a b) ∧
    (0x8000 ≤ a.toNat → b.toNat < 0x8000 → ¬s.SameCell a b) ∧
    (a.toNat ≤ 0x1FFF ∨ 0x6000 ≤ a.toNat → (∃ v, memRead a s = .ok (v, s)) ∧ ackSlot a = none)

/-- The register window, cell by cell and slot by slot: `$2000 + k` and its repetitions every 8 bytes are `ioreg[k]` and
slot `k`, `$4014` is `dmareg`, `$4016` and `$4017` are `joy1` and `joy2`, the other 29 addresses of `$4000–$401F` are
the shared dummy cell, and `$4000 + k` has slot `8 + k`; so which addresses share a cell and which share a slot (R52,
R58, R281, R283). -/
def Obligations.RegisterWindow : Prop :=
  ∀ (s : State) (a b : Word),
    (∀ k : Fin 8, 0x2000 ≤ a.toNat → a.toNat ≤ 0x3FFF → a.toNat % 8 = k.val →
      cpuCell s.cfg a = some (.ioreg k) ∧ s.peek a = some s.io.ioreg[k] ∧
      ∃ slot : Fin 40, ackSlot a = some slot ∧ slot.val = k.val) ∧
    (0x4000 ≤ a.toNat → a.toNat ≤ 0x401F →
      cpuCell s.cfg a = some (if a = 0x4014 then .dmareg else if a = 0x4016 then .joy1 else if a = 0x4017 then .joy2
        else .dummy) ∧
      s.peek a = some (if a = 0x4014 then s.io.dmareg else if a = 0x4016 then s.io.joy1 else if a = 0x4017 then s.io.joy2
        else s.io.dummy) ∧
      ∃ slot : Fin 40, ackSlot a = some slot ∧ slot.val = 8 + (a.toNat - 0x4000)) ∧
    (0x2000 ≤ a.toNat → a.toNat ≤ 0x3FFF → 0x2000 ≤ b.toNat → b.toNat ≤ 0x3FFF →
      (s.SameCell a b ↔ a.toNat % 8 = b.toNat % 8) ∧ (ackSlot a = ackSlot b ↔ a.toNat % 8 = b.toNat % 8)) ∧
    (0x4000 ≤ a.toNat → a.toNat ≤ 0x401F → 0x4000 ≤ b.toNat → b.toNat ≤ 0x401F →
      (s.SameCell a b ↔
        a = b ∨ (a ∉ [0x4014, 0x4016, 0x4017] ∧ b ∉ [0x4014, 0x4016, 0x4017])) ∧
      (ackSlot a = ackSlot b ↔ a = b)) ∧
    (0x2000 ≤ a.toNat → a.toNat ≤ 0x3FFF → 0x4000 ≤ b.toNat → b.toNat ≤ 0x401F →
      ¬s.SameCell a b ∧ ackSlot a ≠ ackSlot b) ∧
    (0x2000 ≤ a.toNat → a.toNat ≤ 0x401F → s.CanLoad a ∧ s.CanStore a ∧ ackSlot a ≠ none)

/-- `$4020–$5FFF`: while `UNMAPPED` is `fault` a read, a write and a fetch there fault and change nothing; while it is
`dummy` the address is the shared dummy cell and touches no acknowledgment (R53, decision D17). -/
def Obligations.UnmappedWindow : Prop :=
  ∀ (s : State) (a : Word) (v : Byte), 0x4020 ≤ a.toNat → a.toNat ≤ 0x5FFF →
    (s.cfg.unmapped = .fault →
      memRead a s = .error (.unmappedAccess a s) ∧ memWrite a v s = .error (.unmappedAccess a s) ∧
      (s.pc = a → fetchExecute s = .fault (.unmappedAccess a s))) ∧
    (s.cfg.unmapped = .dummy → s.SameCell a 0x4000 ∧ ackSlot a = none ∧ s.CanLoad a ∧ s.CanStore a)

/-- Stores into program ROM, and PPU-side stores into character ROM, follow `ROM_WRITE`: a fault that changes nothing,
no effect, or a store (R57, decision D18). Character RAM is always written (R22). That the PPU-side fault reports the
14-bit masked address is the model's choice (log entry 11). -/
def Obligations.RomStoresFollowRomWrite : Prop :=
  ∀ (s : State) (a : Word) (v : Byte), s.Inv →
    (0x8000 ≤ a.toNat →
      (s.cfg.romWrite = .fault → memWrite a v s = .error (.romWrite a s)) ∧
      (s.cfg.romWrite = .ignore → memWrite a v s = .ok s) ∧
      (s.cfg.romWrite = .store → ∃ t, memWrite a v s = .ok t ∧ t.Reads a v ∧ State.MemKept [a] s t)) ∧
    (a.toNat % 0x4000 ≤ 0x1FFF →
      (s.cfg.chrBanks = .one → s.cfg.romWrite = .fault →
        ∃ addr, addr.toNat = a.toNat % 0x4000 ∧ ppuWrite a v s = .error (.romWrite addr s)) ∧
      (s.cfg.chrBanks = .one → s.cfg.romWrite = .ignore → ppuWrite a v s = .ok s) ∧
      (s.cfg.chrBanks = .zero ∨ s.cfg.romWrite = .store →
        ∃ t, ppuWrite a v s = .ok t ∧ ppuRead t.cfg t.mapper a = v))

/-- A query returns the record of its register's slot and clears it; an access sets its register's record, so the first
query after it returns the access and a second one returns none, and no other slot is touched (R284, R285). -/
def Obligations.AcknowledgmentIsOneShot : Prop :=
  ∀ (s : State) (a : Word) (slot : Fin 40), ackSlot a = some slot →
    ((s.takeAck slot).1 = s.io.ack[slot] ∧ (s.takeAck slot).2.io.ack[slot] = .none) ∧
    (∀ v t, memRead a s = .ok (v, t) →
      (t.takeAck slot).1 = .read ∧ ((t.takeAck slot).2.takeAck slot).1 = .none ∧
      ∀ other, other ≠ slot → t.io.ack[other] = s.io.ack[other] ∧ (t.takeAck slot).2.io.ack[other] = s.io.ack[other]) ∧
    (∀ v t, memWrite a v s = .ok t →
      (t.takeAck slot).1 = .write ∧ ((t.takeAck slot).2.takeAck slot).1 = .none ∧
      ∀ other, other ≠ slot → t.io.ack[other] = s.io.ack[other] ∧ (t.takeAck slot).2.io.ack[other] = s.io.ack[other])

/-- The PPU address space: `$0000–$1FFF` is character data, address by address; the nametables follow the mirroring bit
with `$3000–$3EFF` repeating `$2000–$2EFF`; the palette repeats every 32 bytes with the four aliases; the three share no
cell; only the low 14 bits count (R61 to R65, decision D20). -/
def Obligations.PpuMirrors : Prop :=
  ∀ (cfg : Config) (a b : Word),
    ppuCell cfg a = ppuCell cfg (a &&& 0x3FFF) ∧
    (a.toNat ≤ 0x1FFF → ppuCell cfg a = .chr a.toNat ∧
      (∀ m : Mapper, ppuRead cfg m a = Memory.read Bank.chr.unlisted m.chr a.toNat) ∧
      (b.toNat ≤ 0x1FFF → (ppuCell cfg a = ppuCell cfg b ↔ a = b)) ∧
      (0x2000 ≤ b.toNat → b.toNat ≤ 0x3FFF → ppuCell cfg a ≠ ppuCell cfg b)) ∧
    (0x2000 ≤ a.toNat → a.toNat ≤ 0x3EFF →
      (cfg.mirroring = .horizontal → ppuCell cfg a = .vram (a.toNat / 0x800 % 2 * 0x400 + a.toNat % 0x400)) ∧
      (cfg.mirroring = .vertical → ppuCell cfg a = .vram (a.toNat % 0x800)) ∧
      (0x3F00 ≤ b.toNat → b.toNat ≤ 0x3FFF → ppuCell cfg a ≠ ppuCell cfg b)) ∧
    (0x2000 ≤ a.toNat → a.toNat ≤ 0x3EFF → 0x2000 ≤ b.toNat → b.toNat ≤ 0x3EFF →
      (cfg.mirroring = .horizontal →
        (ppuCell cfg a = ppuCell cfg b ↔
          a.toNat % 0x400 = b.toNat % 0x400 ∧ a.toNat / 0x800 % 2 = b.toNat / 0x800 % 2)) ∧
      (cfg.mirroring = .vertical → (ppuCell cfg a = ppuCell cfg b ↔ a.toNat % 0x800 = b.toNat % 0x800))) ∧
    (0x3F00 ≤ a.toNat → a.toNat ≤ 0x3FFF →
      ppuCell cfg a = .palette (if a.toNat % 4 = 0 then a.toNat % 16 else a.toNat % 32)) ∧
    (0x3F00 ≤ a.toNat → a.toNat ≤ 0x3FFF → 0x3F00 ≤ b.toNat → b.toNat ≤ 0x3FFF →
      (ppuCell cfg a = ppuCell cfg b ↔
        a.toNat % 32 = b.toNat % 32 ∨ (a.toNat % 4 = 0 ∧ a.toNat % 16 = b.toNat % 16)))

/-! ### Invariants -/

/-- The invariant holds at reset (R30). -/
def Obligations.InvariantAtReset : Prop := State.reset.Inv

/-- Every step keeps the invariant, whatever inputs arrive before it: canonical memories, counters in range, the skipped
PPU position never reached, context bits 3 to 7 zero. Inputs act in the order they are delivered: a Reset request sets bit
0 of the context, an IRQ request bit 2, pending or not before, and a change of the buttons the key state; each changes
nothing else (R19, R22, R24, R26, R28, R352, R402, R404, R409). That the key state is a field of the state is the model's
choice (log entry 5). -/
def Obligations.StepKeepsTheInvariant : Prop :=
  (∀ s t : State, s.Inv → step s = .next t → t.Inv) ∧
  (∀ (inputs : List Input) (s t : State), s.Inv → stepWith inputs s = .next t → t.Inv) ∧
  (∀ s : State, stepWith [] s = step s) ∧
  (∀ (i : Input) (inputs : List Input) (s : State), stepWith (i :: inputs) s = stepWith inputs (s.accept i)) ∧
  ∀ s : State,
    ((∀ k < 8, (s.accept .resetRequest).context.getLsbD k = if k = 0 then true else s.context.getLsbD k) ∧
      s.accept .resetRequest = { s with context := (s.accept .resetRequest).context }) ∧
    ((∀ k < 8, (s.accept .irqRequest).context.getLsbD k = if k = 2 then true else s.context.getLsbD k) ∧
      s.accept .irqRequest = { s with context := (s.accept .irqRequest).context }) ∧
    ∀ keys : BitVec 16, s.accept (.keys keys) = { s with keys := keys }

/-- No step changes the configuration or the input, and while `ROM_WRITE` is not `store` no step changes program ROM
or character ROM (R6, R57, R60). That the configuration is a field of the state, and that the button state is one which
only inputs between steps change, are the model's choice (log entries 2 and 5). -/
def Obligations.ConfigurationAndRomNeverChange : Prop :=
  ∀ s t : State, step s = .next t →
    t.cfg = s.cfg ∧ t.keys = s.keys ∧
    (s.cfg.romWrite ≠ .store → t.mapper.prg = s.mapper.prg) ∧
    (s.cfg.romWrite ≠ .store → s.cfg.chrBanks = .one → t.mapper.chr = s.mapper.chr)

/-! ### Where each instruction completes, and with what result -/

/-- LDA, LDX and LDY complete on every operand that can be read: the register is the operand, N and Z say so, the read
is acknowledged (R136, R140 to R143). -/
def Obligations.LoadsComplete : Prop :=
  ∀ (s : State) (o : ReadOperand) (v : Byte), o.Is s v →
    (∃ t, exec (.lda o) s = .next t ∧ t.a = v ∧ t.FlagsOf v ∧ (∀ a ∈ o.addrs s, State.Acknowledged a .read s t) ∧
      t.cyc = s.cyc + (Instr.lda o).cost (o.crossed s)) ∧
    (∃ t, exec (.ldx o) s = .next t ∧ t.x = v ∧ t.FlagsOf v ∧ (∀ a ∈ o.addrs s, State.Acknowledged a .read s t) ∧
      t.cyc = s.cyc + (Instr.ldx o).cost (o.crossed s)) ∧
    (∃ t, exec (.ldy o) s = .next t ∧ t.y = v ∧ t.FlagsOf v ∧ (∀ a ∈ o.addrs s, State.Acknowledged a .read s t) ∧
      t.cyc = s.cyc + (Instr.ldy o).cost (o.crossed s))

/-- STA, STX and STY complete wherever a store can be made: the register's byte is stored at the effective address and
the write acknowledged (R136, R144 to R146). -/
def Obligations.StoresComplete : Prop :=
  ∀ (s : State) (m : MemOperand), s.Inv → s.CanStore (m.ea s) →
    (∃ t, exec (.sta m) s = .next t ∧ State.Stored (m.ea s) s.a s t ∧ State.Acknowledged (m.ea s) .write s t ∧
      t.cyc = s.cyc + (Instr.sta m).cost (m.crossed s)) ∧
    (∃ t, exec (.stx m) s = .next t ∧ State.Stored (m.ea s) s.x s t ∧ State.Acknowledged (m.ea s) .write s t ∧
      t.cyc = s.cyc + (Instr.stx m).cost (m.crossed s)) ∧
    (∃ t, exec (.sty m) s = .next t ∧ State.Stored (m.ea s) s.y s t ∧ State.Acknowledged (m.ea s) .write s t ∧
      t.cyc = s.cyc + (Instr.sty m).cost (m.crossed s))

/-- The register transfers complete in every state, in 2 cycles; TXS alone writes no flag (R147 to R152). -/
def Obligations.TransfersComplete : Prop :=
  ∀ s : State,
    (encode .tax = [0xAA] ∧ ∃ t, exec .tax s = .next t ∧ t.x = s.a ∧ t.FlagsOf s.a ∧ Instr.tax.Frame s t ∧
      t.cyc = s.cyc + 2) ∧
    (encode .tay = [0xA8] ∧ ∃ t, exec .tay s = .next t ∧ t.y = s.a ∧ t.FlagsOf s.a ∧ Instr.tay.Frame s t ∧
      t.cyc = s.cyc + 2) ∧
    (encode .txa = [0x8A] ∧ ∃ t, exec .txa s = .next t ∧ t.a = s.x ∧ t.FlagsOf s.x ∧ Instr.txa.Frame s t ∧
      t.cyc = s.cyc + 2) ∧
    (encode .tya = [0x98] ∧ ∃ t, exec .tya s = .next t ∧ t.a = s.y ∧ t.FlagsOf s.y ∧ Instr.tya.Frame s t ∧
      t.cyc = s.cyc + 2) ∧
    (encode .tsx = [0xBA] ∧ ∃ t, exec .tsx s = .next t ∧ t.x = s.sp ∧ t.FlagsOf s.sp ∧ Instr.tsx.Frame s t ∧
      t.cyc = s.cyc + 2) ∧
    (encode .txs = [0x9A] ∧ ∃ t, exec .txs s = .next t ∧ t.sp = s.x ∧ t.p = s.p ∧ Instr.txs.Frame s t ∧
      t.cyc = s.cyc + 2)

/-- ADC and SBC complete on every operand that can be read: the result is the exact sum or difference modulo 256, C its
unsigned carry or no-borrow, V says that the exact signed value does not fit in a byte; the D flag plays no part; the
read is acknowledged (R160 to R163, decision D3). -/
def Obligations.AddAndSubtractComplete : Prop :=
  ∀ (s : State) (o : ReadOperand) (v : Byte), o.Is s v →
    (∃ t, exec (.adc o) s = .next t ∧
      t.a.toNat = (s.a.toNat + v.toNat + (s.flag .carry).toNat) % 256 ∧ t.FlagsOf t.a ∧
      (t.flag .carry = true ↔ 255 < s.a.toNat + v.toNat + (s.flag .carry).toNat) ∧
      (t.flag .overflow = true ↔
        s.a.toInt + v.toInt + (s.flag .carry).toNat < -128 ∨ 127 < s.a.toInt + v.toInt + (s.flag .carry).toNat) ∧
      (∀ a ∈ o.addrs s, State.Acknowledged a .read s t) ∧ t.cyc = s.cyc + (Instr.adc o).cost (o.crossed s)) ∧
    (∃ t, exec (.sbc o) s = .next t ∧
      (t.a.toNat : Int) = ((s.a.toNat : Int) - v.toNat - (!s.flag .carry).toNat) % 256 ∧ t.FlagsOf t.a ∧
      (t.flag .carry = true ↔ v.toNat + (!s.flag .carry).toNat ≤ s.a.toNat) ∧
      (t.flag .overflow = true ↔
        s.a.toInt - v.toInt - (!s.flag .carry).toNat < -128 ∨ 127 < s.a.toInt - v.toInt - (!s.flag .carry).toNat) ∧
      (∀ a ∈ o.addrs s, State.Acknowledged a .read s t) ∧ t.cyc = s.cyc + (Instr.sbc o).cost (o.crossed s))

/-- AND, ORA and EOR complete on every operand that can be read, bit by bit, and the read is acknowledged (R160, R164 to
R166). -/
def Obligations.LogicCompletes : Prop :=
  ∀ (s : State) (o : ReadOperand) (v : Byte), o.Is s v →
    (∃ t, exec (.and o) s = .next t ∧ (∀ k, t.a.getLsbD k = (s.a.getLsbD k && v.getLsbD k)) ∧ t.FlagsOf t.a ∧
      (∀ a ∈ o.addrs s, State.Acknowledged a .read s t) ∧ t.cyc = s.cyc + (Instr.and o).cost (o.crossed s)) ∧
    (∃ t, exec (.ora o) s = .next t ∧ (∀ k, t.a.getLsbD k = (s.a.getLsbD k || v.getLsbD k)) ∧ t.FlagsOf t.a ∧
      (∀ a ∈ o.addrs s, State.Acknowledged a .read s t) ∧ t.cyc = s.cyc + (Instr.ora o).cost (o.crossed s)) ∧
    (∃ t, exec (.eor o) s = .next t ∧ (∀ k, t.a.getLsbD k = (s.a.getLsbD k ^^ v.getLsbD k)) ∧ t.FlagsOf t.a ∧
      (∀ a ∈ o.addrs s, State.Acknowledged a .read s t) ∧ t.cyc = s.cyc + (Instr.eor o).cost (o.crossed s))

/-- CMP, CPX, CPY and BIT complete on every operand that can be read: C is the unsigned comparison, Z equality, N bit 7
of the difference; BIT takes Z from the and, N and V from the operand; the read is acknowledged (R160, R167 to R170). -/
def Obligations.ComparesComplete : Prop :=
  (∀ (s : State) (o : ReadOperand) (v : Byte), o.Is s v →
    ∀ p ∈ [(Instr.cmp o, s.a), (Instr.cpx o, s.x), (Instr.cpy o, s.y)],
      ∃ t, exec p.1 s = .next t ∧ (t.flag .carry = true ↔ v.toNat ≤ p.2.toNat) ∧ (t.flag .zero = true ↔ p.2 = v) ∧
        (t.flag .negative = true ↔ 128 ≤ ((p.2.toNat : Int) - v.toNat) % 256) ∧
        (∀ a ∈ o.addrs s, State.Acknowledged a .read s t) ∧ t.cyc = s.cyc + p.1.cost (o.crossed s)) ∧
  (∀ (s : State) (m : MemOperand) (v : Byte), s.Reads (m.ea s) v →
    ∃ t, exec (.bit m) s = .next t ∧ (t.flag .zero = true ↔ ∀ k, (s.a.getLsbD k && v.getLsbD k) = false) ∧
      t.flag .negative = v.getLsbD 7 ∧ t.flag .overflow = v.getLsbD 6 ∧
      State.Acknowledged (m.ea s) .read s t ∧ t.cyc = s.cyc + (Instr.bit m).cost (m.crossed s))

/-- INC and DEC complete on every byte that can be read and written: it wraps modulo 256, and a register ends up
acknowledged as written (R136, R171, R172). -/
def Obligations.IncrementsOfMemoryComplete : Prop :=
  ∀ (s : State) (m : MemOperand) (v : Byte), s.Inv → s.Reads (m.ea s) v → s.CanStore (m.ea s) →
    (∃ t r, exec (.inc m) s = .next t ∧ r.toNat = (v.toNat + 1) % 256 ∧ (RmwOperand.mem m).Becomes r s t ∧ t.FlagsOf r ∧
      t.cyc = s.cyc + (Instr.inc m).cost false) ∧
    (∃ t r, exec (.dec m) s = .next t ∧ r.toNat = (v.toNat + 255) % 256 ∧ (RmwOperand.mem m).Becomes r s t ∧
      t.FlagsOf r ∧ t.cyc = s.cyc + (Instr.dec m).cost false)

/-- INX, INY, DEX and DEY complete in every state, in 2 cycles, modulo 256 (R173 to R176). -/
def Obligations.IncrementsOfRegistersComplete : Prop :=
  ∀ s : State,
    (encode .inx = [0xE8] ∧ ∃ t, exec .inx s = .next t ∧ t.x.toNat = (s.x.toNat + 1) % 256 ∧ t.FlagsOf t.x ∧
      Instr.inx.Frame s t ∧ t.cyc = s.cyc + 2) ∧
    (encode .iny = [0xC8] ∧ ∃ t, exec .iny s = .next t ∧ t.y.toNat = (s.y.toNat + 1) % 256 ∧ t.FlagsOf t.y ∧
      Instr.iny.Frame s t ∧ t.cyc = s.cyc + 2) ∧
    (encode .dex = [0xCA] ∧ ∃ t, exec .dex s = .next t ∧ t.x.toNat = (s.x.toNat + 255) % 256 ∧ t.FlagsOf t.x ∧
      Instr.dex.Frame s t ∧ t.cyc = s.cyc + 2) ∧
    (encode .dey = [0x88] ∧ ∃ t, exec .dey s = .next t ∧ t.y.toNat = (s.y.toNat + 255) % 256 ∧ t.FlagsOf t.y ∧
      Instr.dey.Frame s t ∧ t.cyc = s.cyc + 2)

/-- ASL, LSR, ROL and ROR complete on A and on every byte that can be read and written: the byte moves by one place, the
bit shifted out is C, the rotates bring in the old C (R190 to R194). -/
def Obligations.ShiftsComplete : Prop :=
  ∀ (s : State) (o : RmwOperand) (v : Byte), s.Inv → o.Is s v → o.CanStore s →
    (∃ t r, exec (.asl o) s = .next t ∧ r.toNat = 2 * v.toNat % 256 ∧ o.Becomes r s t ∧
      t.flag .carry = v.getLsbD 7 ∧ t.FlagsOf r ∧ t.cyc = s.cyc + (Instr.asl o).cost false) ∧
    (∃ t r, exec (.lsr o) s = .next t ∧ r.toNat = v.toNat / 2 ∧ o.Becomes r s t ∧
      t.flag .carry = v.getLsbD 0 ∧ t.FlagsOf r ∧ t.cyc = s.cyc + (Instr.lsr o).cost false) ∧
    (∃ t r, exec (.rol o) s = .next t ∧ r.toNat = (2 * v.toNat + (s.flag .carry).toNat) % 256 ∧ o.Becomes r s t ∧
      t.flag .carry = v.getLsbD 7 ∧ t.FlagsOf r ∧ t.cyc = s.cyc + (Instr.rol o).cost false) ∧
    (∃ t r, exec (.ror o) s = .next t ∧ r.toNat = v.toNat / 2 + 128 * (s.flag .carry).toNat ∧ o.Becomes r s t ∧
      t.flag .carry = v.getLsbD 0 ∧ t.FlagsOf r ∧ t.cyc = s.cyc + (Instr.ror o).cost false)

/-- JMP completes: to its argument, or to the word at its pointer when both pointer bytes can be read, the second one
taken from the page of the first (R129, R130, R201, decision D10). -/
def Obligations.JumpsComplete : Prop :=
  (∀ (s : State) (w : Word), ∃ t, exec (.jmp (.abs w)) s = .next t ∧ t.pc = w ∧ t.cyc = s.cyc + 3) ∧
  (∀ (s : State) (p q : Word) (l h : Byte), s.Reads p l → q.toNat = p.toNat / 256 * 256 + (p.toNat + 1) % 256 →
    s.Reads q h → ∃ t, exec (.jmp (.abi p)) s = .next t ∧ t.pc.toNat = h.toNat * 256 + l.toNat ∧ t.cyc = s.cyc + 5)

/-- JSR and RTS complete in every state: JSR pushes the address of its own last byte, high byte first, and RTS goes to
the word it pulls plus 1 (R202, R203). -/
def Obligations.CallsComplete : Prop :=
  encode .rts = [0x60] ∧
  (∀ w : Word, ∃ l h : Byte, encode (.jsr w) = [0x20, l, h] ∧ h.toNat * 256 + l.toNat = w.toNat) ∧
  (∀ (s : State) (w : Word), s.Inv → ∃ t, exec (.jsr w) s = .next t ∧ t.pc = w ∧ t.sp = s.sp - 2 ∧ t.p = s.p ∧
    (∃ h l : Byte, h.toNat * 256 + l.toNat = (s.pc.toNat + 65535) % 65536 ∧ t.Reads (stackAddr s.sp) h ∧
      t.Reads (stackAddr (s.sp - 1)) l) ∧ t.cyc = s.cyc + 6) ∧
  (∀ (s : State) (l h : Byte), s.Reads (stackAddr (s.sp + 1)) l → s.Reads (stackAddr (s.sp + 2)) h →
    ∃ t, exec .rts s = .next t ∧ t.pc.toNat = (h.toNat * 256 + l.toNat + 1) % 65536 ∧ t.sp = s.sp + 2 ∧ t.p = s.p ∧
      t.cyc = s.cyc + 6)

/-- The eight branches complete in every state: 2 cycles and PC unchanged when the condition is false; the signed offset
added to PC, for 3 cycles, or 4 across a page, when it is true; nothing else changes (R208 to R216; the page test's
operands are decision D47). -/
def Obligations.BranchesComplete : Prop :=
  ∀ (s : State) (d : Byte),
    ∀ p ∈ [(Instr.bcc d, (0x90 : Byte), !s.flag .carry), (Instr.bcs d, 0xB0, s.flag .carry),
        (Instr.beq d, 0xF0, s.flag .zero), (Instr.bne d, 0xD0, !s.flag .zero),
        (Instr.bmi d, 0x30, s.flag .negative), (Instr.bpl d, 0x10, !s.flag .negative),
        (Instr.bvc d, 0x50, !s.flag .overflow), (Instr.bvs d, 0x70, s.flag .overflow)],
      encode p.1 = [p.2.1, d] ∧
      ∃ t, exec p.1 s = .next t ∧ t.p = s.p ∧ p.1.Frame s t ∧
        (p.2.2 = false → t.pc = s.pc ∧ t.cyc = s.cyc + 2) ∧
        (p.2.2 = true → (t.pc.toNat : Int) = (s.pc.toNat + d.toInt) % 65536 ∧
          t.cyc = s.cyc + (if t.pc.toNat / 256 = s.pc.toNat / 256 then 3 else 4))

/-- PHA, PHP, PLA and PLP complete in every state: a push stores at `0x0100 | SP` and then decrements SP, a pull
increments SP and then reads; PHP's copy has B and U set, PLP forces U; PC stays (R14, R17, R220 to R224). -/
def Obligations.StackOperationsComplete : Prop :=
  (∀ s : State, s.Inv →
    (∃ t, exec .pha s = .next t ∧ t.Reads (stackAddr s.sp) s.a ∧ t.sp = s.sp - 1 ∧ t.p = s.p ∧ t.pc = s.pc ∧
      t.cyc = s.cyc + 3) ∧
    (∃ t b, exec .php s = .next t ∧ t.Reads (stackAddr s.sp) b ∧ t.sp = s.sp - 1 ∧ t.p = s.p ∧ t.pc = s.pc ∧
      t.cyc = s.cyc + 3 ∧
      ∀ f, flagOf b f = if f = .brk ∨ f = .unused then true else s.flag f)) ∧
  (∀ (s : State) (b : Byte), s.Reads (stackAddr (s.sp + 1)) b →
    (∃ t, exec .pla s = .next t ∧ t.a = b ∧ t.FlagsOf b ∧ t.sp = s.sp + 1 ∧ t.pc = s.pc ∧ t.cyc = s.cyc + 4) ∧
    (∃ t, exec .plp s = .next t ∧ t.sp = s.sp + 1 ∧ t.pc = s.pc ∧ t.cyc = s.cyc + 4 ∧
      ∀ f, t.flag f = if f = .unused then true else flagOf b f))

/-- The flag instructions and NOP complete in every state, in 2 cycles: one flag takes its value and nothing else
changes (R225 to R232). -/
def Obligations.FlagInstructionsComplete : Prop :=
  ∀ s : State,
    (∀ p ∈ [(Instr.clc, (0x18 : Byte), Flag.carry, false), (.sec, 0x38, .carry, true), (.cli, 0x58, .interrupt, false),
        (.sei, 0x78, .interrupt, true), (.cld, 0xD8, .decimal, false), (.sed, 0xF8, .decimal, true),
        (.clv, 0xB8, .overflow, false)],
      encode p.1 = [p.2.1] ∧ ∃ t, exec p.1 s = .next t ∧ t.flag p.2.2.1 = p.2.2.2 ∧ p.1.Frame s t ∧ t.pc = s.pc ∧
        t.cyc = s.cyc + 2) ∧
    (encode .nop = [0xEA] ∧ ∃ t, exec .nop s = .next t ∧ t.p = s.p ∧ Instr.nop.Frame s t ∧ t.pc = s.pc ∧
      t.cyc = s.cyc + 2)

/-- BRK completes in every state: it pushes the address of the BRK plus 2, high byte first, then P with B and U set,
sets I and goes through the vector at `$FFFE`, whatever P.I is (R234, decisions D5 and D9). -/
def Obligations.BreakCompletes : Prop :=
  ∀ (s : State) (l h : Byte), s.Inv → s.Reads 0xFFFE l → s.Reads 0xFFFF h →
    ∃ t, exec .brk s = .next t ∧ t.pc.toNat = h.toNat * 256 + l.toNat ∧ t.sp = s.sp - 3 ∧ t.flag .interrupt = true ∧
      (∃ rh rl b : Byte, rh.toNat * 256 + rl.toNat = (s.pc.toNat + 1) % 65536 ∧ t.Reads (stackAddr s.sp) rh ∧
        t.Reads (stackAddr (s.sp - 1)) rl ∧ t.Reads (stackAddr (s.sp - 2)) b ∧
        ∀ f, flagOf b f = if f = .brk ∨ f = .unused then true else s.flag f) ∧ t.cyc = s.cyc + 7

/-- RTI completes in every state: it pulls P, with U forced to 1, then PC, low byte first, with no 1 added (R236,
R415, decision D8). -/
def Obligations.ReturnFromInterruptCompletes : Prop :=
  ∀ (s : State) (b l h : Byte), s.Reads (stackAddr (s.sp + 1)) b → s.Reads (stackAddr (s.sp + 2)) l →
    s.Reads (stackAddr (s.sp + 3)) h →
    ∃ t, exec .rti s = .next t ∧ t.pc.toNat = h.toNat * 256 + l.toNat ∧ t.sp = s.sp + 3 ∧
      (∀ f, t.flag f = if f = .unused then true else flagOf b f) ∧ t.cyc = s.cyc + 6

/-- An opcode byte without a table entry stops the machine with `DecodeFault`, which carries the opcode and the state as
it was after the interrupt check, PC at the opcode: no argument byte is read, no cycle is consumed but a service's, which
stands, and of the acknowledgments the opcode's read is recorded and that of `$4014` cleared by the query of the DMA check;
the cells, joypads, pixels and the model's own fields (log entries 2, 5, 6 and 9) are as they were (R106, R253, R410, R411,
decision D14). -/
def Obligations.UndefinedOpcodesFault : Prop :=
  (∀ (opcode : Byte) (s : State), exec (.und opcode) s = .fault (.decodeFault opcode s)) ∧
  ∀ (s u : State) (opcode : Byte), s.interruptCheck = u → u.Reads u.pc opcode → opcode ∈ undefinedOpcodes →
    u.dmaActive = false → ∃ left, step s = .fault (.decodeFault opcode left) ∧ left.SameRegisters u ∧
      left.cyc = u.cyc ∧ left.mapper = u.mapper ∧ left.ppu = u.ppu ∧ left.context = u.context ∧
      (∀ slot : Fin 40, left.io.ack[slot] =
        if ackSlot u.pc = some slot then .read else if slot = dmaSlot then .none else u.io.ack[slot]) ∧
      left.io.ioreg = u.io.ioreg ∧ left.io.dmareg = u.io.dmareg ∧ left.io.joy1 = u.io.joy1 ∧ left.io.joy2 = u.io.joy2 ∧
      left.io.dummy = u.io.dummy ∧ left.pads = u.pads ∧ left.pixels = u.pixels ∧ left.cfg = u.cfg ∧ left.keys = u.keys ∧
      left.frames = u.frames ∧ left.fresh = u.fresh ∧
      (s.dueInterrupt = none → left.SameRegisters s ∧ left.cyc = s.cyc ∧ left.mapper = s.mapper ∧ left.ppu = s.ppu ∧
        left.context = s.context)

/-! ### Frames, faults and costs -/

/-- The frame of the instructions that only touch registers and flags: every other register and flag, all of CPU
memory, every acknowledgment and every device is as before, and PC too (R11, R16, R137). -/
def Obligations.RegisterInstructionsFrame : Prop :=
  ∀ (s t : State) (i : Instr),
    i ∈ [.tax, .tay, .txa, .tya, .tsx, .txs, .inx, .iny, .dex, .dey, .clc, .sec, .cli, .sei, .cld, .sed, .clv, .nop] →
    exec i s = .next t → i.Frame s t ∧ t.pc = s.pc

/-- The frame of the instructions that read an operand and store nothing: all of CPU memory is as before (R11, R16,
R137, R140, R160). -/
def Obligations.ReadingInstructionsFrame : Prop :=
  ∀ (s t : State) (o : ReadOperand) (m : MemOperand) (i : Instr),
    i ∈ [.lda o, .ldx o, .ldy o, .adc o, .sbc o, .and o, .ora o, .eor o, .cmp o, .cpx o, .cpy o, .bit m] →
    exec i s = .next t → i.Frame s t ∧ t.pc = s.pc

/-- The frame of the instructions that store an operand: every byte of CPU memory but the cell of the effective address
is as before, and all of it in mode `ACC` (R11, R16, R136, R137). -/
def Obligations.StoringInstructionsFrame : Prop :=
  ∀ (s t : State) (o : RmwOperand) (m : MemOperand) (i : Instr),
    i ∈ [.sta m, .stx m, .sty m, .inc m, .dec m, .asl o, .lsr o, .rol o, .ror o] →
    exec i s = .next t → i.Frame s t ∧ t.pc = s.pc

/-- The frame of the instructions that use the stack or change PC: every byte of CPU memory but the stack locations
pushed to is as before, SP is the only 8-bit register written but for PLA's A, and PHA, PHP, PLA and PLP leave PC as it
is (R11, R14, R16, R220). -/
def Obligations.StackAndControlInstructionsFrame : Prop :=
  ∀ (s t : State) (j : JumpOperand) (w : Word) (d : Byte) (i : Instr),
    i ∈ [.jmp j, .jsr w, .rts, .bcc d, .bcs d, .beq d, .bne d, .bmi d, .bpl d, .bvc d, .bvs d, .pha, .php, .pla, .plp,
      .brk, .rti] →
    exec i s = .next t → i.Frame s t ∧ (i ∈ [.pha, .php, .pla, .plp] → t.pc = s.pc)

/-- No instruction is refused; one faults only if it is undefined, if an address it accesses has no cell, or if it
stores into program ROM while `ROM_WRITE` is `fault`. With the parameters set otherwise, every defined instruction
completes (R200, R220, R412, R420). That a faulting instruction leaves PC past it, charges no cycle and has stored
nothing is the model's choice (log entry 7). -/
def Obligations.InstructionsFaultOnlyWhereTheSpecSays : Prop :=
  ∀ (i : Instr) (s : State),
    (∃ t, exec i s = .next t) ∨
      (∃ opcode, i = .und opcode ∧ exec i s = .fault (.decodeFault opcode s)) ∨
      (∃ a ∈ i.accesses s, ¬s.CanLoad a ∧ ∃ left, exec i s = .fault (.unmappedAccess a left) ∧
        left.mapper = s.mapper ∧ left.pc = s.pc ∧ left.cyc = s.cyc) ∨
      (∃ a ∈ i.stores s, 0x8000 ≤ a.toNat ∧ s.cfg.romWrite = .fault ∧ ∃ left, exec i s = .fault (.romWrite a left) ∧
        left.mapper = s.mapper ∧ left.pc = s.pc ∧ left.cyc = s.cyc)

/-- The cost of an instruction, as R104 gives it for each operation and mode: the base count, one more if the row is marked
and the page was crossed, and for a taken branch 1 or 2 more; 2 to 7 cycles in all. The marked opcodes are the 23 of R256,
and the counts of each operation and mode are given as numbers (R104, R208, R256). -/
def Obligations.InstructionCosts : Prop :=
  (∀ (i : Instr) (s t : State), i.wf = true → exec i s = .next t →
    ∃ row extra, rowFor i = some row ∧
      t.cyc = s.cyc + row.cycles + (if row.pagePenalty = true ∧ i.crossed s = true then 1 else 0) + extra ∧
      (i.mode ≠ .REL → extra = 0) ∧ extra ≤ 2 ∧ s.cyc + 2 ≤ t.cyc ∧ t.cyc ≤ s.cyc + 7) ∧
  (∀ opcode : Byte, (∃ row ∈ opcodeTable, row.opcode = opcode ∧ row.pagePenalty = true) ↔
    opcode ∈ [0x7D, 0x79, 0x71, 0x3D, 0x39, 0x31, 0xDD, 0xD9, 0xD1, 0x5D, 0x59, 0x51, 0xBD, 0xB9, 0xB1, 0xBE, 0xBC, 0x1D,
      0x19, 0x11, 0xFD, 0xF9, 0xF1]) ∧
  ∀ (s t : State) (v : Byte) (w : Word),
    (∀ f ∈ [Instr.lda, Instr.ldx, Instr.ldy, Instr.adc, Instr.sbc, Instr.and, Instr.ora, Instr.eor, Instr.cmp, Instr.cpx,
        Instr.cpy],
      ∀ p ∈ [(ReadOperand.imm v, 2, 0), (.mem (.zer v), 3, 0), (.mem (.zex v), 4, 0), (.mem (.zey v), 4, 0),
          (.mem (.abs w), 4, 0), (.mem (.abx w), 4, 1), (.mem (.aby w), 4, 1), (.mem (.inx v), 6, 0),
          (.mem (.iny v), 5, 1)],
        (f p.1).wf = true → exec (f p.1) s = .next t →
        t.cyc = s.cyc + p.2.1 + if p.1.crossed s = true then p.2.2 else 0) ∧
    (∀ f ∈ [Instr.sta, Instr.stx, Instr.sty],
      ∀ p ∈ [(MemOperand.zer v, 3), (.zex v, 4), (.zey v, 4), (.abs w, 4), (.abx w, 5), (.aby w, 5), (.inx v, 6),
          (.iny v, 6)],
        (f p.1).wf = true → exec (f p.1) s = .next t → t.cyc = s.cyc + p.2) ∧
    (∀ p ∈ [(MemOperand.zer v, 3), (.abs w, 4)], exec (.bit p.1) s = .next t → t.cyc = s.cyc + p.2) ∧
    (∀ f ∈ [Instr.inc, Instr.dec, fun m => Instr.asl (.mem m), fun m => Instr.lsr (.mem m), fun m => Instr.rol (.mem m),
        fun m => Instr.ror (.mem m)],
      ∀ p ∈ [(MemOperand.zer v, 5), (.zex v, 6), (.abs w, 6), (.abx w, 7)],
        exec (f p.1) s = .next t → t.cyc = s.cyc + p.2) ∧
    (∀ i ∈ [Instr.asl .acc, .lsr .acc, .rol .acc, .ror .acc, .tax, .tay, .txa, .tya, .tsx, .txs, .inx, .iny, .dex, .dey,
        .clc, .sec, .cli, .sei, .cld, .sed, .clv, .nop],
      exec i s = .next t → t.cyc = s.cyc + 2) ∧
    (∀ p ∈ [(Instr.jmp (.abs w), 3), (.jmp (.abi w), 5), (.jsr w, 6), (.rts, 6), (.brk, 7), (.rti, 6), (.pha, 3),
        (.php, 3), (.pla, 4), (.plp, 4)],
      exec p.1 s = .next t → t.cyc = s.cyc + p.2) ∧
    ∀ i ∈ [Instr.bcc v, .bcs v, .beq v, .bne v, .bmi v, .bpl v, .bvc v, .bvs v],
      exec i s = .next t → t.cyc = s.cyc + 2 ∨ t.cyc = s.cyc + 3 ∨ t.cyc = s.cyc + 4

/-- Returns undo entries: RTS after JSR continues after the JSR with SP and P as before; RTI after an NMI or IRQ entry
continues at the interrupted boundary with SP and every flag but B and U as before; RTI after BRK continues at the
address of the BRK plus 2 (R202, R203, R234, R236, R414, R415). -/
def Obligations.ReturnsUndoEntries : Prop :=
  ∀ (s t u : State) (w pc : Word), s.Inv →
    (exec (.jsr w) s = .next t → exec .rts (t.setPc pc) = .next u → u.pc = s.pc ∧ u.sp = s.sp ∧ u.p = s.p) ∧
    (s.dueInterrupt = some .nmi ∨ s.dueInterrupt = some .irq → exec .rti (s.interruptCheck.setPc pc) = .next u →
      u.pc = s.pc ∧ u.sp = s.sp ∧ ∀ f, u.flag f = if f = .brk then false else if f = .unused then true else s.flag f) ∧
    (exec .brk s = .next t → exec .rti (t.setPc pc) = .next u →
      u.pc.toNat = (s.pc.toNat + 1) % 65536 ∧ u.sp = s.sp ∧
      ∀ f, u.flag f = if f = .brk ∨ f = .unused then true else s.flag f)

/-! ### The step -/

/-- A step runs the decoded instruction. Let `u` be the state after the interrupt check, which is `s` itself when no
interrupt is due. With no DMA and the bytes of a well-formed instruction other than an undefined opcode at the PC of `u`,
which after a service is the handler's, the step is `exec` of that instruction once its bytes are fetched; then the
Controller's step, the PPU's register step, 3 PPU ticks for each cycle consumed, the service's among them, and the refresh
of the two driven cells, in this order (R250, R251, R252, R270, R411; decision D11). -/
def Obligations.StepRunsTheDecodedInstruction : Prop :=
  (∀ s : State, s.dueInterrupt = none → s.interruptCheck = s) ∧
  ∀ (s u : State) (i : Instr), s.interruptCheck = u → u.dmaActive = false → i.wf = true → i.mode ≠ .UND →
    u.HoldsBytes u.pc (encode i) →
    step s = match exec i (u.fetched (encode i).length) with
      | .next t =>
        match manageRegisters (controllerStep t) with
        | .ok v => .next (refreshCells (ppuTicks (3 * (t.cyc - s.cyc)) v))
        | .error f => .fault f
      | .fault f => .fault f
      | .refused r => .refused r

/-- A step with DMA active, an interrupt that is due serviced first: it copies page `dmareg` into OAM from `oamaddr` on,
wrapping, for 513 cycles, or 514 when the cycle count after the interrupt check is odd, and runs no instruction; then the
Controller's step and the PPU's follow, with 3 ticks for each cycle consumed (R258, R270, R290 to R292, R411; decisions
D11, D12 and D13). -/
def Obligations.DmaCopiesThePage : Prop :=
  ∀ s u : State, s.Inv → s.interruptCheck = u → u.dmaActive = true → (∀ i : Byte, u.CanLoad (wordOf u.io.dmareg i)) →
    ∃ t, cpuStep s = .next t ∧ t.SameRegisters u ∧ t.cyc = u.cyc + 513 + u.cyc % 2 ∧ t.mapper = u.mapper ∧
      t.context = u.context ∧ t.ppu.oamaddr = u.ppu.oamaddr ∧ t.dmaActive = false ∧
      (∀ i v : Byte, u.Reads (wordOf u.io.dmareg i) v →
        Memory.read Bank.oam.unlisted t.ppu.oam ((u.ppu.oamaddr.toNat + i.toNat) % 256) = v) ∧
      step s = match manageRegisters (controllerStep t) with
        | .ok v => .next (refreshCells (ppuTicks (3 * (t.cyc - s.cyc)) v))
        | .error f => .fault f

/-- Reset service: SP loses 3 with nothing stored, PC is the word at `$FFFC`, I is set, bit 0 of the context is cleared,
7 cycles; nothing else changes (R405, R406). The configuration, the key state and the counters are fields of the model's
own (log entries 2, 5, 6 and 9). -/
def Obligations.ResetService : Prop :=
  ∀ (s : State) (l h : Byte), s.context.getLsbD 0 = true → s.Reads 0xFFFC l → s.Reads 0xFFFD h →
    s.interruptCheck.sp = s.sp - 3 ∧ s.interruptCheck.pc.toNat = h.toNat * 256 + l.toNat ∧
    (∀ f, s.interruptCheck.flag f = if f = .interrupt then true else s.flag f) ∧
    (∀ k, s.interruptCheck.context.getLsbD k = if k = 0 then false else s.context.getLsbD k) ∧
    s.interruptCheck.cyc = s.cyc + 7 ∧ s.interruptCheck.a = s.a ∧ s.interruptCheck.x = s.x ∧
    s.interruptCheck.y = s.y ∧ s.interruptCheck.mapper = s.mapper ∧ s.interruptCheck.io = s.io ∧
    s.interruptCheck.pads = s.pads ∧ s.interruptCheck.ppu = s.ppu ∧ s.interruptCheck.pixels = s.pixels ∧
    s.interruptCheck.cfg = s.cfg ∧ s.interruptCheck.keys = s.keys ∧ s.interruptCheck.frames = s.frames ∧
    s.interruptCheck.fresh = s.fresh

/-- NMI service, when Reset is not pending: PC high, PC low, then P with B clear and U set are pushed, PC is the word at
`$FFFA`, I is set in the live P alone, bit 1 of the context is cleared, 7 cycles; nothing else changes (R405, R407). The
configuration, the key state and the counters are fields of the model's own (log entries 2, 5, 6 and 9). -/
def Obligations.NmiService : Prop :=
  ∀ (s : State) (l h : Byte), s.Inv → s.context.getLsbD 0 = false → s.context.getLsbD 1 = true →
    s.Reads 0xFFFA l → s.Reads 0xFFFB h →
    s.interruptCheck.sp = s.sp - 3 ∧ s.interruptCheck.pc.toNat = h.toNat * 256 + l.toNat ∧
    (∀ f, s.interruptCheck.flag f = if f = .interrupt then true else s.flag f) ∧
    (∃ rh rl b : Byte, rh.toNat * 256 + rl.toNat = s.pc.toNat ∧ s.interruptCheck.Reads (stackAddr s.sp) rh ∧
      s.interruptCheck.Reads (stackAddr (s.sp - 1)) rl ∧ s.interruptCheck.Reads (stackAddr (s.sp - 2)) b ∧
      ∀ f, flagOf b f = if f = .brk then false else if f = .unused then true else s.flag f) ∧
    State.MemKept [stackAddr s.sp, stackAddr (s.sp - 1), stackAddr (s.sp - 2)] s s.interruptCheck ∧
    (∀ k, s.interruptCheck.context.getLsbD k = if k = 1 then false else s.context.getLsbD k) ∧
    s.interruptCheck.cyc = s.cyc + 7 ∧ s.interruptCheck.a = s.a ∧ s.interruptCheck.x = s.x ∧
    s.interruptCheck.y = s.y ∧ s.interruptCheck.mapper = { s.mapper with ram := s.interruptCheck.mapper.ram } ∧
    s.interruptCheck.io = s.io ∧ s.interruptCheck.pads = s.pads ∧ s.interruptCheck.ppu = s.ppu ∧
    s.interruptCheck.pixels = s.pixels ∧ s.interruptCheck.cfg = s.cfg ∧ s.interruptCheck.keys = s.keys ∧
    s.interruptCheck.frames = s.frames ∧ s.interruptCheck.fresh = s.fresh

/-- IRQ service, when only IRQ is pending: as NMI service through the vector at `$FFFE` when I is 0, and nothing else
changes; when I is 1, or when nothing is pending, the check changes nothing and costs nothing (R405, R408, decision D5).
The configuration, the key state and the counters are fields of the model's own (log entries 2, 5, 6 and 9). -/
def Obligations.IrqService : Prop :=
  ∀ s : State, s.context.getLsbD 0 = false → s.context.getLsbD 1 = false →
    (s.context.getLsbD 2 = false ∨ s.flag .interrupt = true → s.interruptCheck = s) ∧
    ∀ l h : Byte, s.Inv → s.context.getLsbD 2 = true → s.flag .interrupt = false → s.Reads 0xFFFE l →
      s.Reads 0xFFFF h →
      s.interruptCheck.sp = s.sp - 3 ∧ s.interruptCheck.pc.toNat = h.toNat * 256 + l.toNat ∧
      (∀ f, s.interruptCheck.flag f = if f = .interrupt then true else s.flag f) ∧
      (∃ rh rl b : Byte, rh.toNat * 256 + rl.toNat = s.pc.toNat ∧ s.interruptCheck.Reads (stackAddr s.sp) rh ∧
        s.interruptCheck.Reads (stackAddr (s.sp - 1)) rl ∧ s.interruptCheck.Reads (stackAddr (s.sp - 2)) b ∧
        ∀ f, flagOf b f = if f = .brk then false else if f = .unused then true else s.flag f) ∧
      State.MemKept [stackAddr s.sp, stackAddr (s.sp - 1), stackAddr (s.sp - 2)] s s.interruptCheck ∧
      (∀ k, s.interruptCheck.context.getLsbD k = if k = 2 then false else s.context.getLsbD k) ∧
      s.interruptCheck.cyc = s.cyc + 7 ∧ s.interruptCheck.a = s.a ∧ s.interruptCheck.x = s.x ∧
      s.interruptCheck.y = s.y ∧ s.interruptCheck.mapper = { s.mapper with ram := s.interruptCheck.mapper.ram } ∧
      s.interruptCheck.io = s.io ∧ s.interruptCheck.pads = s.pads ∧ s.interruptCheck.ppu = s.ppu ∧
      s.interruptCheck.pixels = s.pixels ∧ s.interruptCheck.cfg = s.cfg ∧ s.interruptCheck.keys = s.keys ∧
      s.interruptCheck.frames = s.frames ∧ s.interruptCheck.fresh = s.fresh

/-- The first CPU step after power-on, for any cartridge and any open parameter: Reset is serviced, and the instruction
at the word in `$FFFC` runs in the same step, after 7 cycles, on the cartridge's memories and with every flag but I and
all else as power-on left it (R30, R251, R406, R431; decisions D11, D21 and D23). That no frame is counted yet is the
model's choice, for the counter is its own (log entry 6), and so are the fields of the configuration and the key state (log
entries 2 and 5). -/
def Obligations.FirstStepAfterPowerOn : Prop :=
  ∀ (i : PowerOn) (l h : Byte), (State.powerOn i).Reads 0xFFFC l → (State.powerOn i).Reads 0xFFFD h →
    ∃ u : State, cpuStep (State.powerOn i) = fetchExecute u ∧ u.sp = i.sp - 3 ∧
      u.pc.toNat = h.toNat * 256 + l.toNat ∧ u.flag .interrupt = true ∧ u.a = i.a ∧ u.x = i.x ∧ u.y = i.y ∧
      u.context = 0 ∧ u.cyc = 7 ∧ (∀ f, u.flag f = if f = .interrupt then true else flagOf i.p f) ∧
      u.mapper = { ram := i.ram, sram := i.sram, prg := i.prg, chr := i.chr, vram := i.vram, palette := i.palette } ∧
      u.cfg = i.cfg ∧ u.keys = i.keys ∧ u.pixels = i.pixels ∧ u.ppu.oam = i.oam ∧ u.ppu = (State.powerOn i).ppu ∧
      u.io = (State.powerOn i).io ∧ u.pads = (State.powerOn i).pads ∧ u.frames = 0 ∧
      u.fresh = (State.powerOn i).fresh

/-- What reset leaves in every piece of state for which the spec gives a value, its reference values for the CPU
registers among them (R30, R331, R430; the spec's decisions D21 to D23). -/
def Obligations.ResetValues : Prop :=
  State.reset.a = 0 ∧ State.reset.x = 0 ∧ State.reset.y = 0 ∧ State.reset.sp = 0 ∧ State.reset.p = 0x34 ∧
  State.reset.context = 0x01 ∧ State.reset.cyc = 0 ∧
  (∀ k : Fin 8, State.reset.io.ioreg[k] = 0) ∧ (∀ k : Fin 40, State.reset.io.ack[k] = .none) ∧
  State.reset.io.dmareg = 0 ∧ State.reset.io.joy1 = 0 ∧ State.reset.io.joy2 = 0 ∧ State.reset.io.dummy = 0 ∧
  State.reset.pads.pad1 = { shift := 0, pos := 1, polling := false } ∧
  State.reset.pads.pad2 = { shift := 0, pos := 1, polling := false } ∧ State.reset.pads.lastStrobe = false ∧
  State.reset.ppu.ctrl = 0 ∧ State.reset.ppu.mask = 0 ∧ State.reset.ppu.oamaddr = 0 ∧ State.reset.ppu.v = 0 ∧
  State.reset.ppu.t = 0 ∧ State.reset.ppu.fineX = 0 ∧ State.reset.ppu.w = false ∧ State.reset.ppu.status = 0 ∧
  State.reset.ppu.cycle = 0 ∧ State.reset.ppu.scanline = 0 ∧ State.reset.ppu.oddFrame = false ∧
  State.reset.ppu.eval = { sev := .wait, n := 0, m := 0, found := 0, zeroNext := false } ∧
  State.reset.ppu.spriteCount = 0 ∧ State.reset.ppu.zeroLine = false ∧
  State.reset.ppu.bg =
    { ntLatch := 0, atLatch := 0, patLoLatch := 0, patHiLatch := 0, patLo := 0, patHi := 0, attLo := 0, attHi := 0 } ∧
  (∀ k : Fin 8, State.reset.ppu.units[k] = { lo := 0, hi := 0, attr := 0, x := 0 }) ∧
  ∀ k : Fin 32, State.reset.ppu.secByte k = 0xFF

/-! ### The Controller -/

/-- A latched joypad serves its key byte least significant bit first in the first eight reads, and 1 in every read
after them; the tenth ends polling. A joypad that is not polling keeps its registers and its cell in every read; at
power-on neither polls and both cells are 0 (R301 to R304, R306; decision D37). -/
def Obligations.JoypadServesTheKeysInOrder : Prop :=
  (∀ (pad : Joypad) (keys : Byte) (n : Nat),
    ((pad.latch keys).afterReads (pad.latch keys).bit0 n).2 = (if n < 8 then bitOf (keys.getLsbD n) else 1) ∧
    (((pad.latch keys).afterReads (pad.latch keys).bit0 n).1.polling = true ↔ n < 10) ∧
    (10 ≤ n → ((pad.latch keys).afterReads (pad.latch keys).bit0 n).1 = { shift := 0, pos := 1, polling := false })) ∧
  (∀ (pad : Joypad) (cell : Byte) (n : Nat), pad.polling = false →
    pad.advance cell = (pad, cell) ∧ pad.afterReads cell n = (pad, cell)) ∧
  ∀ i : PowerOn, (State.powerOn i).pads.pad1.polling = false ∧ (State.powerOn i).pads.pad2.polling = false ∧
    (State.powerOn i).io.joy1 = 0 ∧ (State.powerOn i).io.joy2 = 0

/-- The Controller's step: a write of `$4016` with bit 0 set raises the strobe; one with bit 0 clear latches both
joypads if the strobe was raised and does nothing otherwise; a read of `$4016` advances the first joypad and its cell, and
then a read of `$4017` the second, which may just have been latched; both slots are cleared and nothing else changes
(R300 to R302; decision D37). -/
def Obligations.ControllerStepFollowsTheStrobe : Prop :=
  ∀ s : State, ∃ t, controllerStep s = t ∧
    (∀ slot : Fin 40, t.io.ack[slot] = if slot = joy1Slot ∨ slot = joy2Slot then .none else s.io.ack[slot]) ∧
    t.io.ioreg = s.io.ioreg ∧ t.io.dmareg = s.io.dmareg ∧ t.io.dummy = s.io.dummy ∧ t.SameRegisters s ∧
    t.context = s.context ∧ t.cyc = s.cyc ∧ t.mapper = s.mapper ∧ t.ppu = s.ppu ∧ t.pixels = s.pixels ∧ t.cfg = s.cfg ∧
    t.keys = s.keys ∧ t.frames = s.frames ∧ t.fresh = s.fresh ∧
    (s.io.ack[joy1Slot] = .none →
      t.pads.pad1 = s.pads.pad1 ∧ t.pads.lastStrobe = s.pads.lastStrobe ∧ t.io.joy1 = s.io.joy1) ∧
    (s.io.ack[joy1Slot] = .read →
      (t.pads.pad1, t.io.joy1) = s.pads.pad1.advance s.io.joy1 ∧ t.pads.lastStrobe = s.pads.lastStrobe) ∧
    (s.io.ack[joy1Slot] = .write → s.io.joy1.getLsbD 0 = true →
      t.pads.pad1 = s.pads.pad1 ∧ t.pads.lastStrobe = true ∧ t.io.joy1 = s.io.joy1) ∧
    (s.io.ack[joy1Slot] = .write → s.io.joy1.getLsbD 0 = false → s.pads.lastStrobe = false →
      t.pads.pad1 = s.pads.pad1 ∧ t.pads.lastStrobe = false ∧ t.io.joy1 = s.io.joy1) ∧
    (s.LatchesJoypads →
      t.pads.pad1 = { shift := s.keys.extractLsb' 0 8, pos := 1, polling := true } ∧ t.pads.lastStrobe = false ∧
      t.io.joy1 = bitOf (s.keys.getLsbD 0)) ∧
    (¬s.LatchesJoypads → s.io.ack[joy2Slot] ≠ .read → t.pads.pad2 = s.pads.pad2 ∧ t.io.joy2 = s.io.joy2) ∧
    (¬s.LatchesJoypads → s.io.ack[joy2Slot] = .read → (t.pads.pad2, t.io.joy2) = s.pads.pad2.advance s.io.joy2) ∧
    (s.LatchesJoypads → s.io.ack[joy2Slot] ≠ .read →
      t.pads.pad2 = { shift := s.keys.extractLsb' 8 8, pos := 1, polling := true } ∧
      t.io.joy2 = bitOf (s.keys.getLsbD 8)) ∧
    (s.LatchesJoypads → s.io.ack[joy2Slot] = .read →
      (t.pads.pad2, t.io.joy2) =
        Joypad.advance { shift := s.keys.extractLsb' 8 8, pos := 1, polling := true } (bitOf (s.keys.getLsbD 8)))

/-! ### The PPU's registers -/

/-- Writes of `$2000`, `$2005` and `$2006`, field by field, and what each leaves alone: the nametable bits of `t`; coarse
X and fine X, then fine Y and coarse Y; the high six address bits with bit 14 cleared, then the low byte and the copy of
`t` to `v`, whichever register made the first write; so a `$2006` pair makes `v` the 14-bit address of the two bytes
(R312, R318, R319, R324, R325; the bit positions are decision D28). -/
def Obligations.ScrollAndAddressWrites : Prop :=
  ∀ (p : Ppu) (d e : Byte),
    ((p.writeCtrl d).ctrl = d ∧ nametableX (p.writeCtrl d).t = d.toNat % 2 ∧
      nametableY (p.writeCtrl d).t = d.toNat / 2 % 2 ∧ coarseX (p.writeCtrl d).t = coarseX p.t ∧
      coarseY (p.writeCtrl d).t = coarseY p.t ∧ fineY (p.writeCtrl d).t = fineY p.t ∧ (p.writeCtrl d).v = p.v ∧
      p.writeCtrl d = { p with ctrl := d, t := (p.writeCtrl d).t }) ∧
    (p.w = false →
      coarseX (p.writeScroll d).t = d.toNat / 8 ∧ (p.writeScroll d).fineX.toNat = d.toNat % 8 ∧
      coarseY (p.writeScroll d).t = coarseY p.t ∧ nametableX (p.writeScroll d).t = nametableX p.t ∧
      nametableY (p.writeScroll d).t = nametableY p.t ∧ fineY (p.writeScroll d).t = fineY p.t ∧
      (p.writeScroll d).w = true ∧ (p.writeScroll d).v = p.v) ∧
    (p.w = true →
      fineY (p.writeScroll d).t = d.toNat % 8 ∧ coarseY (p.writeScroll d).t = d.toNat / 8 ∧
      coarseX (p.writeScroll d).t = coarseX p.t ∧ nametableX (p.writeScroll d).t = nametableX p.t ∧
      nametableY (p.writeScroll d).t = nametableY p.t ∧ (p.writeScroll d).fineX = p.fineX ∧
      (p.writeScroll d).w = false ∧ (p.writeScroll d).v = p.v) ∧
    p.writeScroll d =
      { p with t := (p.writeScroll d).t, fineX := (p.writeScroll d).fineX, w := (p.writeScroll d).w } ∧
    (p.w = false →
      (p.writeAddr d).t.toNat = d.toNat % 64 * 256 + p.t.toNat % 256 ∧ (p.writeAddr d).v = p.v ∧
      (p.writeAddr d).w = true) ∧
    (p.w = true →
      (p.writeAddr d).t.toNat = p.t.toNat / 256 * 256 + d.toNat ∧ (p.writeAddr d).v = (p.writeAddr d).t ∧
      (p.writeAddr d).w = false) ∧
    p.writeAddr d = { p with t := (p.writeAddr d).t, v := (p.writeAddr d).v, w := (p.writeAddr d).w } ∧
    (p.w = false →
      ((p.writeAddr d).writeAddr e).v.toNat = d.toNat % 64 * 256 + e.toNat ∧
      ((p.writeAddr d).writeAddr e).t = ((p.writeAddr d).writeAddr e).v ∧ ((p.writeAddr d).writeAddr e).w = false ∧
      (p.writeAddr d).v = p.v ∧ (p.writeAddr d).w = true)

/-- The register step polls the eight registers in ascending order. What each acknowledged access of a register but
`$2007` does when it is polled: its slot is cleared, and nothing but the PPU changes, so that no write of `$2000` raises
or withdraws an NMI and no read of `$2002` withdraws one; every access kind the table does not list does nothing (R310,
R312, R317, R321, R323, R329, R403; decisions D31 and D36). -/
def Obligations.RegisterAccessesTakeEffect : Prop :=
  (∀ s : State, manageRegisters s = [0, 1, 2, 3, 4, 5, 6, 7].foldlM (fun t k => manageRegister k t) s) ∧
  ∀ (s : State) (k : Fin 8),
    (k.val ≠ 7 → ∃ t, manageRegister k s = .ok t ∧ State.Polled (ppuSlot k) s t ∧ t.io.ioreg = s.io.ioreg ∧
      t.mapper = s.mapper ∧
      (s.io.ack[ppuSlot k] = .write →
        (k = 0 → t.ppu = s.ppu.writeCtrl s.io.ioreg[k]) ∧ (k = 1 → t.ppu = { s.ppu with mask := s.io.ioreg[k] }) ∧
        (k = 2 → t.ppu = s.ppu) ∧ (k = 3 → t.ppu = { s.ppu with oamaddr := s.io.ioreg[k] }) ∧
        (k = 4 → t.ppu = s.ppu.writeOamData s.io.ioreg[k]) ∧ (k = 5 → t.ppu = s.ppu.writeScroll s.io.ioreg[k]) ∧
        (k = 6 → t.ppu = s.ppu.writeAddr s.io.ioreg[k])) ∧
      (s.io.ack[ppuSlot k] = .read →
        t.ppu = if k = 2 then { s.ppu with vblank := false, w := false } else s.ppu) ∧
      (s.io.ack[ppuSlot k] = .none → t.ppu = s.ppu)) ∧
    (k.val = 7 → s.io.ack[ppuSlot k] = .none → manageRegister k s = .ok (s.setAck (ppuSlot k) .none))

/-- The data port: a write of `$2007` stores the byte at `v` where the PPU can write and leaves every other PPU cell as
it was, a read loads the cell from `v`, and both clear the slot, add 1 or 32 to `v` modulo 0x8000 and change nothing else.
With `v` in character ROM a write follows `ROM_WRITE`: it faults, or leaves the cell or changes it, and `v` moves. OAM
data is stored at `oamaddr`, which then moves by one (R57, R310, R323, R326, R327; decisions D18, D27 and D39). -/
def Obligations.DataPort : Prop :=
  ∀ s : State, s.Inv →
    (s.io.ack[ppuSlot 7] = .write →
      ¬(s.ppu.v.toNat % 0x4000 ≤ 0x1FFF ∧ s.cfg.chrBanks = .one ∧ s.cfg.romWrite = .fault) →
      ∃ t, manageRegister 7 s = .ok t ∧ State.Polled (ppuSlot 7) s t ∧
        (¬(s.ppu.v.toNat % 0x4000 ≤ 0x1FFF ∧ s.cfg.chrBanks = .one ∧ s.cfg.romWrite = .ignore) →
          ppuRead t.cfg t.mapper s.ppu.dataAddr = s.io.ioreg[7]) ∧
        (s.ppu.v.toNat % 0x4000 ≤ 0x1FFF ∧ s.cfg.chrBanks = .one ∧ s.cfg.romWrite = .ignore → t.mapper = s.mapper) ∧
        (∀ a : Word, ppuCell s.cfg a ≠ ppuCell s.cfg s.ppu.dataAddr →
          ppuRead t.cfg t.mapper a = ppuRead s.cfg s.mapper a) ∧
        t.ppu = { s.ppu with v := t.ppu.v } ∧
        t.ppu.v.toNat = (s.ppu.v.toNat + if s.ppu.ctrl.getLsbD 2 then 32 else 1) % 0x8000 ∧ t.io.ioreg = s.io.ioreg) ∧
    (s.io.ack[ppuSlot 7] = .write →
      s.ppu.v.toNat % 0x4000 ≤ 0x1FFF ∧ s.cfg.chrBanks = .one ∧ s.cfg.romWrite = .fault →
      ∃ a left, manageRegister 7 s = .error (.romWrite a left)) ∧
    (s.io.ack[ppuSlot 7] = .read →
      ∃ t, manageRegister 7 s = .ok t ∧ State.Polled (ppuSlot 7) s t ∧
        (∀ k : Fin 8, t.io.ioreg[k] = if k = 7 then ppuRead s.cfg s.mapper s.ppu.dataAddr else s.io.ioreg[k]) ∧
        t.ppu = { s.ppu with v := t.ppu.v } ∧
        t.ppu.v.toNat = (s.ppu.v.toNat + if s.ppu.ctrl.getLsbD 2 then 32 else 1) % 0x8000 ∧ t.mapper = s.mapper) ∧
    s.ppu.dataAddr.toNat = s.ppu.v.toNat % 0x4000 ∧
    (∀ d : Byte, (s.ppu.writeOamData d).oamByte s.ppu.oamaddr.toNat = d ∧
      (s.ppu.writeOamData d).oamaddr.toNat = (s.ppu.oamaddr.toNat + 1) % 256 ∧
      ∀ j, j ≠ s.ppu.oamaddr.toNat → (s.ppu.writeOamData d).oamByte j = s.ppu.oamByte j)

/-- After every step the status cell holds the three flags in bits 7 to 5 with bits 4 to 0 zero, and the OAM data cell
the OAM byte at `oamaddr` (R315, R316, R322; decision D26). -/
def Obligations.DrivenCellsAreRefreshed : Prop :=
  ∀ s t : State, step s = .next t →
    t.io.ioreg[2].toNat =
      128 * t.ppu.vblank.toNat + 64 * t.ppu.sprite0.toNat + 32 * t.ppu.overflow.toNat ∧
    t.io.ioreg[4] = t.ppu.oamByte t.ppu.oamaddr.toNat

/-! ### The PPU's ticks -/

/-- One tick moves the counters: to the next cycle, to the next line after cycle 340, from line 260 to line −1 with the
frame parity toggled, and past cycle 340 of the pre-render line of an odd frame (R351, R352; decision D30). -/
def Obligations.CountersAdvance : Prop :=
  ∀ s : State,
    (s.ppu.scanline = -1 ∧ s.ppu.cycle = 339 ∧ s.ppu.oddFrame = true →
      (ppuTick s).ppu.scanline = 0 ∧ (ppuTick s).ppu.cycle = 0 ∧ (ppuTick s).ppu.oddFrame = true) ∧
    (¬(s.ppu.scanline = -1 ∧ s.ppu.cycle = 339 ∧ s.ppu.oddFrame = true) →
      (s.ppu.cycle ≠ 340 → (ppuTick s).ppu.scanline = s.ppu.scanline ∧ (ppuTick s).ppu.cycle = s.ppu.cycle + 1 ∧
        (ppuTick s).ppu.oddFrame = s.ppu.oddFrame) ∧
      (s.ppu.cycle = 340 ∧ s.ppu.scanline ≠ 260 → (ppuTick s).ppu.scanline = s.ppu.scanline + 1 ∧
        (ppuTick s).ppu.cycle = 0 ∧ (ppuTick s).ppu.oddFrame = s.ppu.oddFrame) ∧
      (s.ppu.cycle = 340 ∧ s.ppu.scanline = 260 → (ppuTick s).ppu.scanline = -1 ∧ (ppuTick s).ppu.cycle = 0 ∧
        (ppuTick s).ppu.oddFrame = !s.ppu.oddFrame))

/-- A frame is 89341 ticks when its pre-render line is an odd frame's and 89342 when it is not: from (0, 0) the counters
are back at (0, 0), with the parity toggled, and not before (R351, R352, R385). -/
def Obligations.FrameLength : Prop :=
  ∀ s : State, s.ppu.scanline = 0 → s.ppu.cycle = 0 →
    (ppuTicks (if s.ppu.oddFrame then 89342 else 89341) s).ppu.scanline = 0 ∧
    (ppuTicks (if s.ppu.oddFrame then 89342 else 89341) s).ppu.cycle = 0 ∧
    (ppuTicks (if s.ppu.oddFrame then 89342 else 89341) s).ppu.oddFrame = !s.ppu.oddFrame ∧
    ∀ n, 0 < n → n < (if s.ppu.oddFrame then 89342 else 89341) →
      ¬((ppuTicks n s).ppu.scanline = 0 ∧ (ppuTicks n s).ppu.cycle = 0)

/-- The vertical blank: at (241, 1) `vblank` is set, a frame is complete, and the NMI is requested exactly if `ctrl[7]`
is set; at (−1, 1) the three flags are cleared; no other tick changes `vblank`, the context or the frame count
(R315, R354, R384, R403; decisions D29 and D31). That the frame-complete event is counted in a field is the model's
choice (log entry 6). -/
def Obligations.VerticalBlank : Prop :=
  ∀ s : State,
    (s.ppu.scanline = 241 ∧ s.ppu.cycle = 1 →
      (ppuTick s).ppu.vblank = true ∧ (ppuTick s).frames = s.frames + 1 ∧
      ∀ k, (ppuTick s).context.getLsbD k = (s.context.getLsbD k || (decide (k = 1) && s.ppu.ctrl.getLsbD 7))) ∧
    (s.ppu.scanline = -1 ∧ s.ppu.cycle = 1 →
      (ppuTick s).ppu.vblank = false ∧ (ppuTick s).ppu.sprite0 = false ∧ (ppuTick s).ppu.overflow = false) ∧
    (¬(s.ppu.scanline = 241 ∧ s.ppu.cycle = 1) →
      (ppuTick s).context = s.context ∧ (ppuTick s).frames = s.frames ∧
      (¬(s.ppu.scanline = -1 ∧ s.ppu.cycle = 1) → (ppuTick s).ppu.vblank = s.ppu.vblank))

/-- What a tick does to the background and what it leaves alone. With rendering enabled on lines −1 to 239 each shift
register is shifted and loaded, each latch fetched and `v` moved at the cycles R355 gives, and at no other; otherwise they
keep their values. The CPU, the Mapper's memories, the cells and acknowledgments, the Controller, OAM and `oamaddr`, and
the registers written by software are left alone (R314, R321, R350, R355 to R363; decisions D29 and D40). -/
def Obligations.TicksLeaveTheRestAlone : Prop :=
  ∀ s : State,
    (ppuTick s).SameRegisters s ∧ (ppuTick s).mapper = s.mapper ∧ (ppuTick s).io = s.io ∧ (ppuTick s).pads = s.pads ∧
    (ppuTick s).cyc = s.cyc ∧ (ppuTick s).ppu.oam = s.ppu.oam ∧ (ppuTick s).ppu.oamaddr = s.ppu.oamaddr ∧
    (ppuTick s).ppu.ctrl = s.ppu.ctrl ∧ (ppuTick s).ppu.mask = s.ppu.mask ∧ (ppuTick s).ppu.t = s.ppu.t ∧
    (ppuTick s).ppu.fineX = s.ppu.fineX ∧ (ppuTick s).ppu.w = s.ppu.w ∧
    (s.ppu.rendering = false ∨ s.ppu.scanline < -1 ∨ 239 < s.ppu.scanline →
      (ppuTick s).ppu.bg = s.ppu.bg ∧ (ppuTick s).ppu.v = s.ppu.v) ∧
    (s.ppu.rendering = true → -1 ≤ s.ppu.scanline → s.ppu.scanline ≤ 239 →
      s.ppu.MovesShifter s.ppu.bg.patLoLatch s.ppu.bg.patLo (ppuTick s).ppu.bg.patLo ∧
      s.ppu.MovesShifter s.ppu.bg.patHiLatch s.ppu.bg.patHi (ppuTick s).ppu.bg.patHi ∧
      s.ppu.MovesShifter (if s.ppu.bg.atLatch.getLsbD 0 then 0xFF else 0x00) s.ppu.bg.attLo (ppuTick s).ppu.bg.attLo ∧
      s.ppu.MovesShifter (if s.ppu.bg.atLatch.getLsbD 1 then 0xFF else 0x00) s.ppu.bg.attHi (ppuTick s).ppu.bg.attHi ∧
      (s.ppu.Fetches 0 → (ppuTick s).ppu.bg.ntLatch =
        ppuRead s.cfg s.mapper (BitVec.ofNat 16 (0x2000 + s.ppu.v.toNat % 0x1000))) ∧
      (¬s.ppu.Fetches 0 → (ppuTick s).ppu.bg.ntLatch = s.ppu.bg.ntLatch) ∧
      (s.ppu.Fetches 2 → (ppuTick s).ppu.bg.atLatch.toNat =
        (ppuRead s.cfg s.mapper (BitVec.ofNat 16 (0x23C0 + 0x800 * nametableY s.ppu.v + 0x400 * nametableX s.ppu.v +
          8 * (coarseY s.ppu.v / 4) + coarseX s.ppu.v / 4))).toNat /
          4 ^ (2 * (coarseY s.ppu.v / 2 % 2) + coarseX s.ppu.v / 2 % 2) % 4) ∧
      (¬s.ppu.Fetches 2 → (ppuTick s).ppu.bg.atLatch = s.ppu.bg.atLatch) ∧
      (s.ppu.Fetches 4 → (ppuTick s).ppu.bg.patLoLatch =
        ppuRead s.cfg s.mapper (BitVec.ofNat 16 (0x1000 * (s.ppu.ctrl.getLsbD 4).toNat + 16 * s.ppu.bg.ntLatch.toNat +
          fineY s.ppu.v))) ∧
      (¬s.ppu.Fetches 4 → (ppuTick s).ppu.bg.patLoLatch = s.ppu.bg.patLoLatch) ∧
      (s.ppu.Fetches 6 → (ppuTick s).ppu.bg.patHiLatch =
        ppuRead s.cfg s.mapper (BitVec.ofNat 16 (0x1000 * (s.ppu.ctrl.getLsbD 4).toNat + 16 * s.ppu.bg.ntLatch.toNat +
          fineY s.ppu.v + 8))) ∧
      (¬s.ppu.Fetches 6 → (ppuTick s).ppu.bg.patHiLatch = s.ppu.bg.patHiLatch) ∧
      (ppuTick s).ppu.v =
        if s.ppu.cycle = 256 then incY (incX s.ppu.v)
        else if s.ppu.cycle = 257 then copyX s.ppu.v s.ppu.t
        else if s.ppu.scanline = -1 ∧ 280 ≤ s.ppu.cycle ∧ s.ppu.cycle ≤ 304 then copyY s.ppu.v s.ppu.t
        else if s.ppu.Fetches 7 then incX s.ppu.v
        else s.ppu.v)

/-- The scroll counters, field by field: `IncX` wraps coarse X into the other horizontal nametable; `IncY` carries fine Y
into coarse Y, which wraps at 29 into the other vertical nametable and at 31 into the same one; `CopyX` and `CopyY`
take their fields from `t` (R360 to R363). -/
def Obligations.ScrollCounters : Prop :=
  ∀ v t : VramAddr,
    (coarseX (incX v) = (coarseX v + 1) % 32 ∧
      nametableX (incX v) = (if coarseX v = 31 then 1 - nametableX v else nametableX v) ∧
      coarseY (incX v) = coarseY v ∧ nametableY (incX v) = nametableY v ∧ fineY (incX v) = fineY v) ∧
    (fineY (incY v) = (fineY v + 1) % 8 ∧
      coarseY (incY v) =
        (if fineY v < 7 then coarseY v else if coarseY v = 29 ∨ coarseY v = 31 then 0 else coarseY v + 1) ∧
      nametableY (incY v) = (if fineY v = 7 ∧ coarseY v = 29 then 1 - nametableY v else nametableY v) ∧
      coarseX (incY v) = coarseX v ∧ nametableX (incY v) = nametableX v) ∧
    (coarseX (copyX v t) = coarseX t ∧ nametableX (copyX v t) = nametableX t ∧ coarseY (copyX v t) = coarseY v ∧
      nametableY (copyX v t) = nametableY v ∧ fineY (copyX v t) = fineY v) ∧
    (coarseX (copyY v t) = coarseX v ∧ nametableX (copyY v t) = nametableX v ∧ coarseY (copyY v t) = coarseY t ∧
      nametableY (copyY v t) = nametableY t ∧ fineY (copyY v t) = fineY t)

/-- A tick draws at most one pixel, the one of its position on lines 0 to 239 and cycles 1 to 256: the 6 low bits of the
palette entry that the background and the sprite layer compose to, the backdrop with rendering disabled; `sprite0` is set
where the chosen sprite is entry 0, both layers are opaque and the column is not 255, and but for its clearing at (−1, 1)
nowhere else changes. What each layer shows at a column: the show bits, the left-column masks, `fine_x`, and for a sprite
the first opaque unit (R350, R354, R376, R378, R380, R381, R383; decisions D33 to D35). -/
def Obligations.TicksDrawOnePixel : Prop :=
  (∀ (s : State) (j : Nat), s.Inv →
    (¬(0 ≤ s.ppu.scanline ∧ s.ppu.scanline ≤ 239 ∧ 1 ≤ s.ppu.cycle ∧ s.ppu.cycle ≤ 256 ∧
        j = 256 * s.ppu.scanline.toNat + (s.ppu.cycle - 1)) →
      Memory.read Bank.pixels.unlisted (ppuTick s).pixels j = Memory.read Bank.pixels.unlisted s.pixels j) ∧
    (0 ≤ s.ppu.scanline → s.ppu.scanline ≤ 239 → 1 ≤ s.ppu.cycle → s.ppu.cycle ≤ 256 →
      j = 256 * s.ppu.scanline.toNat + (s.ppu.cycle - 1) →
      (Memory.read Bank.pixels.unlisted (ppuTick s).pixels j).toNat =
        (ppuRead s.cfg s.mapper (0x3F00 ||| composite ((ppuTick s).ppu.bgPixel (s.ppu.cycle - 1))
          (s.ppu.spritePixel (s.ppu.cycle - 1)))).toNat % 64 ∧
      (s.ppu.rendering = false →
        (Memory.read Bank.pixels.unlisted (ppuTick s).pixels j).toNat =
          (ppuRead s.cfg s.mapper 0x3F00).toNat % 64) ∧
      ((ppuTick s).ppu.sprite0 = true ↔
        s.ppu.sprite0 = true ∨
          (((ppuTick s).ppu.bgPixel (s.ppu.cycle - 1)).pix ≠ 0 ∧ (s.ppu.spritePixel (s.ppu.cycle - 1)).pix ≠ 0 ∧
            (s.ppu.spritePixel (s.ppu.cycle - 1)).zero = true ∧ s.ppu.cycle - 1 ≠ 255))) ∧
    (¬(0 ≤ s.ppu.scanline ∧ s.ppu.scanline ≤ 239 ∧ 1 ≤ s.ppu.cycle ∧ s.ppu.cycle ≤ 256) →
      ¬(s.ppu.scanline = -1 ∧ s.ppu.cycle = 1) → (ppuTick s).ppu.sprite0 = s.ppu.sprite0)) ∧
  ∀ (p : Ppu) (u : SpriteUnit) (x : Nat),
    (p.mask.getLsbD 3 = true ∧ (8 ≤ x ∨ p.mask.getLsbD 1 = true) →
      (p.bgPixel x).pix.toNat =
        2 * (p.bg.patHi.getLsbD (15 - p.fineX.toNat)).toNat + (p.bg.patLo.getLsbD (15 - p.fineX.toNat)).toNat ∧
      (p.bgPixel x).pal.toNat =
        2 * (p.bg.attHi.getLsbD (15 - p.fineX.toNat)).toNat + (p.bg.attLo.getLsbD (15 - p.fineX.toNat)).toNat) ∧
    (¬(p.mask.getLsbD 3 = true ∧ (8 ≤ x ∨ p.mask.getLsbD 1 = true)) → (p.bgPixel x).pix = 0) ∧
    (p.mask.getLsbD 4 = true ∧ (8 ≤ x ∨ p.mask.getLsbD 2 = true) →
      p.spritePixel x = firstOpaque x p.zeroLine (p.units.toList.take p.spriteCount)) ∧
    (¬(p.mask.getLsbD 4 = true ∧ (8 ≤ x ∨ p.mask.getLsbD 2 = true)) → (p.spritePixel x).pix = 0) ∧
    (∀ off : Nat, off < 8 → x = u.x.toNat + off →
      (u.pixel x).toNat = 2 * (u.hi.getLsbD (7 - off)).toNat + (u.lo.getLsbD (7 - off)).toNat) ∧
    (x < u.x.toNat ∨ u.x.toNat + 8 ≤ x → u.pixel x = 0)

/-- Which layer shows: the opaque one; where both are opaque, the sprite if its priority bit is clear and the background
if it is set; where neither is, the backdrop. Among sprites the first opaque unit is taken whatever its priority, and
where none is opaque the sprite layer is transparent (R378, R379). -/
def Obligations.PixelPriority : Prop :=
  (∀ bg sp : LayerPixel,
    (bg.pix = 0 → sp.pix = 0 → composite bg sp = 0) ∧
    (bg.pix ≠ 0 → sp.pix = 0 → (composite bg sp).toNat = 4 * bg.pal.toNat + bg.pix.toNat) ∧
    (bg.pix = 0 → sp.pix ≠ 0 → (composite bg sp).toNat = 16 + 4 * sp.pal.toNat + sp.pix.toNat) ∧
    (bg.pix ≠ 0 → sp.pix ≠ 0 →
      (composite bg sp).toNat = if sp.front then 16 + 4 * sp.pal.toNat + sp.pix.toNat
        else 4 * bg.pal.toNat + bg.pix.toNat)) ∧
  (∀ (x : Nat) (zero : Bool) (units : List SpriteUnit), (∀ u ∈ units, u.pixel x = 0) →
    (firstOpaque x zero units).pix = 0) ∧
  ∀ (x : Nat) (zero : Bool) (before after : List SpriteUnit) (u : SpriteUnit),
    (∀ w ∈ before, w.pixel x = 0) → u.pixel x ≠ 0 →
    firstOpaque x zero (before ++ u :: after) =
      { pix := u.pixel x, pal := u.attr.setWidth 2, front := !u.attr.getLsbD 5,
        zero := zero && before.isEmpty }

/-- Sprites. One evaluation step: an entry in range is copied, byte by byte, and any other is moved on from; after the
eighth kept the next entries are examined for an overflow, and the first of them in range sets `overflow`, which no other
step changes. A whole line of evaluation: the first 8 entries in range are kept in index order and handed over, and
`overflow` is set exactly if a ninth is in range. Each tick: secondary OAM is cleared at cycles 1 to 64, the units are
cleared at the hand-over of cycle 257 and loaded at cycles 264 to 320, no line shows sprites after the pre-render line or
a disabled one, and `overflow` changes in an evaluation step and at (−1, 1) only (R315, R369 to R373, R375; decisions D29,
D32 and D33). -/
def Obligations.SpriteOverflow : Prop :=
  (∀ p : Ppu, p.Inv →
    p.evalStep.eval.found ≤ 8 ∧
    (p.eval.sev = .copyY → p.shows p.eval.n = true →
      p.evalStep.eval =
        { sev := .copyRest, n := p.eval.n, m := 1, found := p.eval.found,
          zeroNext := p.eval.zeroNext || decide (p.eval.n = 0) } ∧
      p.evalStep.secByte (4 * p.eval.found) = p.oamByte (4 * p.eval.n)) ∧
    (p.eval.sev = .copyY → p.shows p.eval.n = false → p.eval.MovedOn p.eval.found p.evalStep.eval) ∧
    (p.eval.sev = .copyRest →
      p.evalStep.secByte (4 * p.eval.found + p.eval.m) = p.oamByte (4 * p.eval.n + p.eval.m) ∧
      (p.eval.m < 3 → p.evalStep.eval = { p.eval with m := p.eval.m + 1 }) ∧
      (p.eval.m = 3 → p.eval.MovedOn (p.eval.found + 1) p.evalStep.eval)) ∧
    (p.eval.sev = .overflowDetect → p.shows p.eval.n = true →
      p.evalStep.eval.sev = .wait ∧ p.evalStep.overflow = true) ∧
    (p.eval.sev = .overflowDetect → p.shows p.eval.n = false →
      p.eval.MovedOn p.eval.found p.evalStep.eval ∧ p.evalStep.overflow = p.overflow) ∧
    (p.eval.sev ≠ .overflowDetect → p.evalStep.overflow = p.overflow) ∧
    (p.eval.sev = .wait → p.evalStep = p)) ∧
  (∀ s : State, s.Inv → 0 ≤ s.ppu.scanline → s.ppu.scanline ≤ 239 → s.ppu.rendering = true → s.ppu.cycle = 65 →
    (ppuTicks 193 s).ppu.spriteCount = min 8 s.ppu.shown.length ∧
    (ppuTicks 193 s).ppu.zeroLine = s.ppu.shows 0 ∧
    ((ppuTicks 193 s).ppu.overflow = true ↔ s.ppu.overflow = true ∨ 9 ≤ s.ppu.shown.length) ∧
    ∀ i k : Nat, i < 8 → s.ppu.shown[i]? = some k → ∀ b : Nat, b < 4 →
      (ppuTicks 193 s).ppu.secByte (4 * i + b) = s.ppu.oamByte (4 * k + b)) ∧
  ∀ s : State, s.Inv →
    (0 ≤ s.ppu.scanline → s.ppu.scanline ≤ 239 → s.ppu.rendering = true →
      (∀ j : Nat, (ppuTick s).ppu.secByte j =
        if 1 ≤ s.ppu.cycle ∧ s.ppu.cycle ≤ 64 ∧ s.ppu.cycle % 2 = 0 ∧ j = s.ppu.cycle / 2 - 1 then 0xFF
        else if 66 ≤ s.ppu.cycle ∧ s.ppu.cycle ≤ 256 ∧ s.ppu.cycle % 2 = 0 then s.ppu.evalStep.secByte j
        else s.ppu.secByte j) ∧
      (ppuTick s).ppu.eval =
        (if s.ppu.cycle = 65 then { sev := .copyY, n := 0, m := 0, found := 0, zeroNext := false }
        else if 66 ≤ s.ppu.cycle ∧ s.ppu.cycle ≤ 256 ∧ s.ppu.cycle % 2 = 0 then s.ppu.evalStep.eval
        else s.ppu.eval) ∧
      (s.ppu.cycle = 257 → (ppuTick s).ppu.spriteCount = s.ppu.eval.found ∧
        (ppuTick s).ppu.zeroLine = s.ppu.eval.zeroNext ∧
        ∀ i : Fin 8, (ppuTick s).ppu.units[i] = { lo := 0, hi := 0, attr := s.ppu.units[i].attr, x := s.ppu.units[i].x }) ∧
      (s.ppu.cycle ≠ 257 →
        (ppuTick s).ppu.spriteCount = s.ppu.spriteCount ∧ (ppuTick s).ppu.zeroLine = s.ppu.zeroLine ∧
        ∀ i : Fin 8,
          (s.ppu.cycle = 264 + 8 * i.val ∧ i.val < s.ppu.eval.found → s.LoadedUnit i.val (ppuTick s).ppu.units[i]) ∧
          (¬(s.ppu.cycle = 264 + 8 * i.val ∧ i.val < s.ppu.eval.found) →
            (ppuTick s).ppu.units[i] = s.ppu.units[i]))) ∧
    (s.ppu.scanline = -1 ∨ 239 < s.ppu.scanline ∨ s.ppu.rendering = false →
      (ppuTick s).ppu.secOam = s.ppu.secOam ∧ (ppuTick s).ppu.eval = s.ppu.eval ∧
      (ppuTick s).ppu.units = s.ppu.units ∧
      (s.ppu.cycle = 257 ∧ s.ppu.scanline ≤ 239 →
        (ppuTick s).ppu.spriteCount = 0 ∧ (ppuTick s).ppu.zeroLine = false) ∧
      (¬(s.ppu.cycle = 257 ∧ s.ppu.scanline ≤ 239) →
        (ppuTick s).ppu.spriteCount = s.ppu.spriteCount ∧ (ppuTick s).ppu.zeroLine = s.ppu.zeroLine)) ∧
    (ppuTick s).ppu.overflow =
      if s.ppu.scanline = -1 ∧ s.ppu.cycle = 1 then false
      else if 0 ≤ s.ppu.scanline ∧ s.ppu.scanline ≤ 239 ∧ s.ppu.rendering = true ∧ 66 ≤ s.ppu.cycle ∧
        s.ppu.cycle ≤ 256 ∧ s.ppu.cycle % 2 = 0 then s.ppu.evalStep.overflow
      else s.ppu.overflow

end
end

