-- ==== Sys2Proof/Laws/State.lean ====
section
/-! SUPPORT. One lemma per field and update of State, so that no proof unfolds a record update. -/

namespace Sys2Proof.Machine.State

/-! ### setA -/

@[simp] theorem setA_a (s : State) (v : Byte) : (s.setA v).a = v := rfl
@[simp] theorem setA_x (s : State) (v : Byte) : (s.setA v).x = s.x := rfl
@[simp] theorem setA_y (s : State) (v : Byte) : (s.setA v).y = s.y := rfl
@[simp] theorem setA_sp (s : State) (v : Byte) : (s.setA v).sp = s.sp := rfl
@[simp] theorem setA_p (s : State) (v : Byte) : (s.setA v).p = s.p := rfl
@[simp] theorem setA_pc (s : State) (v : Byte) : (s.setA v).pc = s.pc := rfl
@[simp] theorem setA_context (s : State) (v : Byte) : (s.setA v).context = s.context := rfl
@[simp] theorem setA_cyc (s : State) (v : Byte) : (s.setA v).cyc = s.cyc := rfl
@[simp] theorem setA_mapper (s : State) (v : Byte) : (s.setA v).mapper = s.mapper := rfl
@[simp] theorem setA_io (s : State) (v : Byte) : (s.setA v).io = s.io := rfl
@[simp] theorem setA_pads (s : State) (v : Byte) : (s.setA v).pads = s.pads := rfl
@[simp] theorem setA_ppu (s : State) (v : Byte) : (s.setA v).ppu = s.ppu := rfl
@[simp] theorem setA_pixels (s : State) (v : Byte) : (s.setA v).pixels = s.pixels := rfl
@[simp] theorem setA_cfg (s : State) (v : Byte) : (s.setA v).cfg = s.cfg := rfl
@[simp] theorem setA_keys (s : State) (v : Byte) : (s.setA v).keys = s.keys := rfl
@[simp] theorem setA_frames (s : State) (v : Byte) : (s.setA v).frames = s.frames := rfl
@[simp] theorem setA_fresh (s : State) (v : Byte) : (s.setA v).fresh = s.fresh := rfl

/-! ### setX -/

@[simp] theorem setX_a (s : State) (v : Byte) : (s.setX v).a = s.a := rfl
@[simp] theorem setX_x (s : State) (v : Byte) : (s.setX v).x = v := rfl
@[simp] theorem setX_y (s : State) (v : Byte) : (s.setX v).y = s.y := rfl
@[simp] theorem setX_sp (s : State) (v : Byte) : (s.setX v).sp = s.sp := rfl
@[simp] theorem setX_p (s : State) (v : Byte) : (s.setX v).p = s.p := rfl
@[simp] theorem setX_pc (s : State) (v : Byte) : (s.setX v).pc = s.pc := rfl
@[simp] theorem setX_context (s : State) (v : Byte) : (s.setX v).context = s.context := rfl
@[simp] theorem setX_cyc (s : State) (v : Byte) : (s.setX v).cyc = s.cyc := rfl
@[simp] theorem setX_mapper (s : State) (v : Byte) : (s.setX v).mapper = s.mapper := rfl
@[simp] theorem setX_io (s : State) (v : Byte) : (s.setX v).io = s.io := rfl
@[simp] theorem setX_pads (s : State) (v : Byte) : (s.setX v).pads = s.pads := rfl
@[simp] theorem setX_ppu (s : State) (v : Byte) : (s.setX v).ppu = s.ppu := rfl
@[simp] theorem setX_pixels (s : State) (v : Byte) : (s.setX v).pixels = s.pixels := rfl
@[simp] theorem setX_cfg (s : State) (v : Byte) : (s.setX v).cfg = s.cfg := rfl
@[simp] theorem setX_keys (s : State) (v : Byte) : (s.setX v).keys = s.keys := rfl
@[simp] theorem setX_frames (s : State) (v : Byte) : (s.setX v).frames = s.frames := rfl
@[simp] theorem setX_fresh (s : State) (v : Byte) : (s.setX v).fresh = s.fresh := rfl

/-! ### setY -/

@[simp] theorem setY_a (s : State) (v : Byte) : (s.setY v).a = s.a := rfl
@[simp] theorem setY_x (s : State) (v : Byte) : (s.setY v).x = s.x := rfl
@[simp] theorem setY_y (s : State) (v : Byte) : (s.setY v).y = v := rfl
@[simp] theorem setY_sp (s : State) (v : Byte) : (s.setY v).sp = s.sp := rfl
@[simp] theorem setY_p (s : State) (v : Byte) : (s.setY v).p = s.p := rfl
@[simp] theorem setY_pc (s : State) (v : Byte) : (s.setY v).pc = s.pc := rfl
@[simp] theorem setY_context (s : State) (v : Byte) : (s.setY v).context = s.context := rfl
@[simp] theorem setY_cyc (s : State) (v : Byte) : (s.setY v).cyc = s.cyc := rfl
@[simp] theorem setY_mapper (s : State) (v : Byte) : (s.setY v).mapper = s.mapper := rfl
@[simp] theorem setY_io (s : State) (v : Byte) : (s.setY v).io = s.io := rfl
@[simp] theorem setY_pads (s : State) (v : Byte) : (s.setY v).pads = s.pads := rfl
@[simp] theorem setY_ppu (s : State) (v : Byte) : (s.setY v).ppu = s.ppu := rfl
@[simp] theorem setY_pixels (s : State) (v : Byte) : (s.setY v).pixels = s.pixels := rfl
@[simp] theorem setY_cfg (s : State) (v : Byte) : (s.setY v).cfg = s.cfg := rfl
@[simp] theorem setY_keys (s : State) (v : Byte) : (s.setY v).keys = s.keys := rfl
@[simp] theorem setY_frames (s : State) (v : Byte) : (s.setY v).frames = s.frames := rfl
@[simp] theorem setY_fresh (s : State) (v : Byte) : (s.setY v).fresh = s.fresh := rfl

/-! ### setSp -/

@[simp] theorem setSp_a (s : State) (v : Byte) : (s.setSp v).a = s.a := rfl
@[simp] theorem setSp_x (s : State) (v : Byte) : (s.setSp v).x = s.x := rfl
@[simp] theorem setSp_y (s : State) (v : Byte) : (s.setSp v).y = s.y := rfl
@[simp] theorem setSp_sp (s : State) (v : Byte) : (s.setSp v).sp = v := rfl
@[simp] theorem setSp_p (s : State) (v : Byte) : (s.setSp v).p = s.p := rfl
@[simp] theorem setSp_pc (s : State) (v : Byte) : (s.setSp v).pc = s.pc := rfl
@[simp] theorem setSp_context (s : State) (v : Byte) : (s.setSp v).context = s.context := rfl
@[simp] theorem setSp_cyc (s : State) (v : Byte) : (s.setSp v).cyc = s.cyc := rfl
@[simp] theorem setSp_mapper (s : State) (v : Byte) : (s.setSp v).mapper = s.mapper := rfl
@[simp] theorem setSp_io (s : State) (v : Byte) : (s.setSp v).io = s.io := rfl
@[simp] theorem setSp_pads (s : State) (v : Byte) : (s.setSp v).pads = s.pads := rfl
@[simp] theorem setSp_ppu (s : State) (v : Byte) : (s.setSp v).ppu = s.ppu := rfl
@[simp] theorem setSp_pixels (s : State) (v : Byte) : (s.setSp v).pixels = s.pixels := rfl
@[simp] theorem setSp_cfg (s : State) (v : Byte) : (s.setSp v).cfg = s.cfg := rfl
@[simp] theorem setSp_keys (s : State) (v : Byte) : (s.setSp v).keys = s.keys := rfl
@[simp] theorem setSp_frames (s : State) (v : Byte) : (s.setSp v).frames = s.frames := rfl
@[simp] theorem setSp_fresh (s : State) (v : Byte) : (s.setSp v).fresh = s.fresh := rfl

/-! ### setP -/

@[simp] theorem setP_a (s : State) (v : Byte) : (s.setP v).a = s.a := rfl
@[simp] theorem setP_x (s : State) (v : Byte) : (s.setP v).x = s.x := rfl
@[simp] theorem setP_y (s : State) (v : Byte) : (s.setP v).y = s.y := rfl
@[simp] theorem setP_sp (s : State) (v : Byte) : (s.setP v).sp = s.sp := rfl
@[simp] theorem setP_p (s : State) (v : Byte) : (s.setP v).p = v := rfl
@[simp] theorem setP_pc (s : State) (v : Byte) : (s.setP v).pc = s.pc := rfl
@[simp] theorem setP_context (s : State) (v : Byte) : (s.setP v).context = s.context := rfl
@[simp] theorem setP_cyc (s : State) (v : Byte) : (s.setP v).cyc = s.cyc := rfl
@[simp] theorem setP_mapper (s : State) (v : Byte) : (s.setP v).mapper = s.mapper := rfl
@[simp] theorem setP_io (s : State) (v : Byte) : (s.setP v).io = s.io := rfl
@[simp] theorem setP_pads (s : State) (v : Byte) : (s.setP v).pads = s.pads := rfl
@[simp] theorem setP_ppu (s : State) (v : Byte) : (s.setP v).ppu = s.ppu := rfl
@[simp] theorem setP_pixels (s : State) (v : Byte) : (s.setP v).pixels = s.pixels := rfl
@[simp] theorem setP_cfg (s : State) (v : Byte) : (s.setP v).cfg = s.cfg := rfl
@[simp] theorem setP_keys (s : State) (v : Byte) : (s.setP v).keys = s.keys := rfl
@[simp] theorem setP_frames (s : State) (v : Byte) : (s.setP v).frames = s.frames := rfl
@[simp] theorem setP_fresh (s : State) (v : Byte) : (s.setP v).fresh = s.fresh := rfl

/-! ### setPc -/

@[simp] theorem setPc_a (s : State) (v : Word) : (s.setPc v).a = s.a := rfl
@[simp] theorem setPc_x (s : State) (v : Word) : (s.setPc v).x = s.x := rfl
@[simp] theorem setPc_y (s : State) (v : Word) : (s.setPc v).y = s.y := rfl
@[simp] theorem setPc_sp (s : State) (v : Word) : (s.setPc v).sp = s.sp := rfl
@[simp] theorem setPc_p (s : State) (v : Word) : (s.setPc v).p = s.p := rfl
@[simp] theorem setPc_pc (s : State) (v : Word) : (s.setPc v).pc = v := rfl
@[simp] theorem setPc_context (s : State) (v : Word) : (s.setPc v).context = s.context := rfl
@[simp] theorem setPc_cyc (s : State) (v : Word) : (s.setPc v).cyc = s.cyc := rfl
@[simp] theorem setPc_mapper (s : State) (v : Word) : (s.setPc v).mapper = s.mapper := rfl
@[simp] theorem setPc_io (s : State) (v : Word) : (s.setPc v).io = s.io := rfl
@[simp] theorem setPc_pads (s : State) (v : Word) : (s.setPc v).pads = s.pads := rfl
@[simp] theorem setPc_ppu (s : State) (v : Word) : (s.setPc v).ppu = s.ppu := rfl
@[simp] theorem setPc_pixels (s : State) (v : Word) : (s.setPc v).pixels = s.pixels := rfl
@[simp] theorem setPc_cfg (s : State) (v : Word) : (s.setPc v).cfg = s.cfg := rfl
@[simp] theorem setPc_keys (s : State) (v : Word) : (s.setPc v).keys = s.keys := rfl
@[simp] theorem setPc_frames (s : State) (v : Word) : (s.setPc v).frames = s.frames := rfl
@[simp] theorem setPc_fresh (s : State) (v : Word) : (s.setPc v).fresh = s.fresh := rfl

/-! ### setContext -/

@[simp] theorem setContext_a (s : State) (v : Byte) : (s.setContext v).a = s.a := rfl
@[simp] theorem setContext_x (s : State) (v : Byte) : (s.setContext v).x = s.x := rfl
@[simp] theorem setContext_y (s : State) (v : Byte) : (s.setContext v).y = s.y := rfl
@[simp] theorem setContext_sp (s : State) (v : Byte) : (s.setContext v).sp = s.sp := rfl
@[simp] theorem setContext_p (s : State) (v : Byte) : (s.setContext v).p = s.p := rfl
@[simp] theorem setContext_pc (s : State) (v : Byte) : (s.setContext v).pc = s.pc := rfl
@[simp] theorem setContext_context (s : State) (v : Byte) : (s.setContext v).context = v := rfl
@[simp] theorem setContext_cyc (s : State) (v : Byte) : (s.setContext v).cyc = s.cyc := rfl
@[simp] theorem setContext_mapper (s : State) (v : Byte) : (s.setContext v).mapper = s.mapper := rfl
@[simp] theorem setContext_io (s : State) (v : Byte) : (s.setContext v).io = s.io := rfl
@[simp] theorem setContext_pads (s : State) (v : Byte) : (s.setContext v).pads = s.pads := rfl
@[simp] theorem setContext_ppu (s : State) (v : Byte) : (s.setContext v).ppu = s.ppu := rfl
@[simp] theorem setContext_pixels (s : State) (v : Byte) : (s.setContext v).pixels = s.pixels := rfl
@[simp] theorem setContext_cfg (s : State) (v : Byte) : (s.setContext v).cfg = s.cfg := rfl
@[simp] theorem setContext_keys (s : State) (v : Byte) : (s.setContext v).keys = s.keys := rfl
@[simp] theorem setContext_frames (s : State) (v : Byte) : (s.setContext v).frames = s.frames := rfl
@[simp] theorem setContext_fresh (s : State) (v : Byte) : (s.setContext v).fresh = s.fresh := rfl

/-! ### charge -/

@[simp] theorem charge_a (s : State) (n : Nat) : (s.charge n).a = s.a := rfl
@[simp] theorem charge_x (s : State) (n : Nat) : (s.charge n).x = s.x := rfl
@[simp] theorem charge_y (s : State) (n : Nat) : (s.charge n).y = s.y := rfl
@[simp] theorem charge_sp (s : State) (n : Nat) : (s.charge n).sp = s.sp := rfl
@[simp] theorem charge_p (s : State) (n : Nat) : (s.charge n).p = s.p := rfl
@[simp] theorem charge_pc (s : State) (n : Nat) : (s.charge n).pc = s.pc := rfl
@[simp] theorem charge_context (s : State) (n : Nat) : (s.charge n).context = s.context := rfl
@[simp] theorem charge_cyc (s : State) (n : Nat) : (s.charge n).cyc = s.cyc + n := rfl
@[simp] theorem charge_mapper (s : State) (n : Nat) : (s.charge n).mapper = s.mapper := rfl
@[simp] theorem charge_io (s : State) (n : Nat) : (s.charge n).io = s.io := rfl
@[simp] theorem charge_pads (s : State) (n : Nat) : (s.charge n).pads = s.pads := rfl
@[simp] theorem charge_ppu (s : State) (n : Nat) : (s.charge n).ppu = s.ppu := rfl
@[simp] theorem charge_pixels (s : State) (n : Nat) : (s.charge n).pixels = s.pixels := rfl
@[simp] theorem charge_cfg (s : State) (n : Nat) : (s.charge n).cfg = s.cfg := rfl
@[simp] theorem charge_keys (s : State) (n : Nat) : (s.charge n).keys = s.keys := rfl
@[simp] theorem charge_frames (s : State) (n : Nat) : (s.charge n).frames = s.frames := rfl
@[simp] theorem charge_fresh (s : State) (n : Nat) : (s.charge n).fresh = s.fresh := rfl

/-! ### setMapper -/

@[simp] theorem setMapper_a (s : State) (v : Mapper) : (s.setMapper v).a = s.a := rfl
@[simp] theorem setMapper_x (s : State) (v : Mapper) : (s.setMapper v).x = s.x := rfl
@[simp] theorem setMapper_y (s : State) (v : Mapper) : (s.setMapper v).y = s.y := rfl
@[simp] theorem setMapper_sp (s : State) (v : Mapper) : (s.setMapper v).sp = s.sp := rfl
@[simp] theorem setMapper_p (s : State) (v : Mapper) : (s.setMapper v).p = s.p := rfl
@[simp] theorem setMapper_pc (s : State) (v : Mapper) : (s.setMapper v).pc = s.pc := rfl
@[simp] theorem setMapper_context (s : State) (v : Mapper) : (s.setMapper v).context = s.context := rfl
@[simp] theorem setMapper_cyc (s : State) (v : Mapper) : (s.setMapper v).cyc = s.cyc := rfl
@[simp] theorem setMapper_mapper (s : State) (v : Mapper) : (s.setMapper v).mapper = v := rfl
@[simp] theorem setMapper_io (s : State) (v : Mapper) : (s.setMapper v).io = s.io := rfl
@[simp] theorem setMapper_pads (s : State) (v : Mapper) : (s.setMapper v).pads = s.pads := rfl
@[simp] theorem setMapper_ppu (s : State) (v : Mapper) : (s.setMapper v).ppu = s.ppu := rfl
@[simp] theorem setMapper_pixels (s : State) (v : Mapper) : (s.setMapper v).pixels = s.pixels := rfl
@[simp] theorem setMapper_cfg (s : State) (v : Mapper) : (s.setMapper v).cfg = s.cfg := rfl
@[simp] theorem setMapper_keys (s : State) (v : Mapper) : (s.setMapper v).keys = s.keys := rfl
@[simp] theorem setMapper_frames (s : State) (v : Mapper) : (s.setMapper v).frames = s.frames := rfl
@[simp] theorem setMapper_fresh (s : State) (v : Mapper) : (s.setMapper v).fresh = s.fresh := rfl

/-! ### setIo -/

@[simp] theorem setIo_a (s : State) (v : IoBank) : (s.setIo v).a = s.a := rfl
@[simp] theorem setIo_x (s : State) (v : IoBank) : (s.setIo v).x = s.x := rfl
@[simp] theorem setIo_y (s : State) (v : IoBank) : (s.setIo v).y = s.y := rfl
@[simp] theorem setIo_sp (s : State) (v : IoBank) : (s.setIo v).sp = s.sp := rfl
@[simp] theorem setIo_p (s : State) (v : IoBank) : (s.setIo v).p = s.p := rfl
@[simp] theorem setIo_pc (s : State) (v : IoBank) : (s.setIo v).pc = s.pc := rfl
@[simp] theorem setIo_context (s : State) (v : IoBank) : (s.setIo v).context = s.context := rfl
@[simp] theorem setIo_cyc (s : State) (v : IoBank) : (s.setIo v).cyc = s.cyc := rfl
@[simp] theorem setIo_mapper (s : State) (v : IoBank) : (s.setIo v).mapper = s.mapper := rfl
@[simp] theorem setIo_io (s : State) (v : IoBank) : (s.setIo v).io = v := rfl
@[simp] theorem setIo_pads (s : State) (v : IoBank) : (s.setIo v).pads = s.pads := rfl
@[simp] theorem setIo_ppu (s : State) (v : IoBank) : (s.setIo v).ppu = s.ppu := rfl
@[simp] theorem setIo_pixels (s : State) (v : IoBank) : (s.setIo v).pixels = s.pixels := rfl
@[simp] theorem setIo_cfg (s : State) (v : IoBank) : (s.setIo v).cfg = s.cfg := rfl
@[simp] theorem setIo_keys (s : State) (v : IoBank) : (s.setIo v).keys = s.keys := rfl
@[simp] theorem setIo_frames (s : State) (v : IoBank) : (s.setIo v).frames = s.frames := rfl
@[simp] theorem setIo_fresh (s : State) (v : IoBank) : (s.setIo v).fresh = s.fresh := rfl

/-! ### setPads -/

@[simp] theorem setPads_a (s : State) (v : Controller) : (s.setPads v).a = s.a := rfl
@[simp] theorem setPads_x (s : State) (v : Controller) : (s.setPads v).x = s.x := rfl
@[simp] theorem setPads_y (s : State) (v : Controller) : (s.setPads v).y = s.y := rfl
@[simp] theorem setPads_sp (s : State) (v : Controller) : (s.setPads v).sp = s.sp := rfl
@[simp] theorem setPads_p (s : State) (v : Controller) : (s.setPads v).p = s.p := rfl
@[simp] theorem setPads_pc (s : State) (v : Controller) : (s.setPads v).pc = s.pc := rfl
@[simp] theorem setPads_context (s : State) (v : Controller) : (s.setPads v).context = s.context := rfl
@[simp] theorem setPads_cyc (s : State) (v : Controller) : (s.setPads v).cyc = s.cyc := rfl
@[simp] theorem setPads_mapper (s : State) (v : Controller) : (s.setPads v).mapper = s.mapper := rfl
@[simp] theorem setPads_io (s : State) (v : Controller) : (s.setPads v).io = s.io := rfl
@[simp] theorem setPads_pads (s : State) (v : Controller) : (s.setPads v).pads = v := rfl
@[simp] theorem setPads_ppu (s : State) (v : Controller) : (s.setPads v).ppu = s.ppu := rfl
@[simp] theorem setPads_pixels (s : State) (v : Controller) : (s.setPads v).pixels = s.pixels := rfl
@[simp] theorem setPads_cfg (s : State) (v : Controller) : (s.setPads v).cfg = s.cfg := rfl
@[simp] theorem setPads_keys (s : State) (v : Controller) : (s.setPads v).keys = s.keys := rfl
@[simp] theorem setPads_frames (s : State) (v : Controller) : (s.setPads v).frames = s.frames := rfl
@[simp] theorem setPads_fresh (s : State) (v : Controller) : (s.setPads v).fresh = s.fresh := rfl

/-! ### setPpu -/

@[simp] theorem setPpu_a (s : State) (v : Ppu) : (s.setPpu v).a = s.a := rfl
@[simp] theorem setPpu_x (s : State) (v : Ppu) : (s.setPpu v).x = s.x := rfl
@[simp] theorem setPpu_y (s : State) (v : Ppu) : (s.setPpu v).y = s.y := rfl
@[simp] theorem setPpu_sp (s : State) (v : Ppu) : (s.setPpu v).sp = s.sp := rfl
@[simp] theorem setPpu_p (s : State) (v : Ppu) : (s.setPpu v).p = s.p := rfl
@[simp] theorem setPpu_pc (s : State) (v : Ppu) : (s.setPpu v).pc = s.pc := rfl
@[simp] theorem setPpu_context (s : State) (v : Ppu) : (s.setPpu v).context = s.context := rfl
@[simp] theorem setPpu_cyc (s : State) (v : Ppu) : (s.setPpu v).cyc = s.cyc := rfl
@[simp] theorem setPpu_mapper (s : State) (v : Ppu) : (s.setPpu v).mapper = s.mapper := rfl
@[simp] theorem setPpu_io (s : State) (v : Ppu) : (s.setPpu v).io = s.io := rfl
@[simp] theorem setPpu_pads (s : State) (v : Ppu) : (s.setPpu v).pads = s.pads := rfl
@[simp] theorem setPpu_ppu (s : State) (v : Ppu) : (s.setPpu v).ppu = v := rfl
@[simp] theorem setPpu_pixels (s : State) (v : Ppu) : (s.setPpu v).pixels = s.pixels := rfl
@[simp] theorem setPpu_cfg (s : State) (v : Ppu) : (s.setPpu v).cfg = s.cfg := rfl
@[simp] theorem setPpu_keys (s : State) (v : Ppu) : (s.setPpu v).keys = s.keys := rfl
@[simp] theorem setPpu_frames (s : State) (v : Ppu) : (s.setPpu v).frames = s.frames := rfl
@[simp] theorem setPpu_fresh (s : State) (v : Ppu) : (s.setPpu v).fresh = s.fresh := rfl

/-! ### setPixels -/

@[simp] theorem setPixels_a (s : State) (v : Memory) : (s.setPixels v).a = s.a := rfl
@[simp] theorem setPixels_x (s : State) (v : Memory) : (s.setPixels v).x = s.x := rfl
@[simp] theorem setPixels_y (s : State) (v : Memory) : (s.setPixels v).y = s.y := rfl
@[simp] theorem setPixels_sp (s : State) (v : Memory) : (s.setPixels v).sp = s.sp := rfl
@[simp] theorem setPixels_p (s : State) (v : Memory) : (s.setPixels v).p = s.p := rfl
@[simp] theorem setPixels_pc (s : State) (v : Memory) : (s.setPixels v).pc = s.pc := rfl
@[simp] theorem setPixels_context (s : State) (v : Memory) : (s.setPixels v).context = s.context := rfl
@[simp] theorem setPixels_cyc (s : State) (v : Memory) : (s.setPixels v).cyc = s.cyc := rfl
@[simp] theorem setPixels_mapper (s : State) (v : Memory) : (s.setPixels v).mapper = s.mapper := rfl
@[simp] theorem setPixels_io (s : State) (v : Memory) : (s.setPixels v).io = s.io := rfl
@[simp] theorem setPixels_pads (s : State) (v : Memory) : (s.setPixels v).pads = s.pads := rfl
@[simp] theorem setPixels_ppu (s : State) (v : Memory) : (s.setPixels v).ppu = s.ppu := rfl
@[simp] theorem setPixels_pixels (s : State) (v : Memory) : (s.setPixels v).pixels = v := rfl
@[simp] theorem setPixels_cfg (s : State) (v : Memory) : (s.setPixels v).cfg = s.cfg := rfl
@[simp] theorem setPixels_keys (s : State) (v : Memory) : (s.setPixels v).keys = s.keys := rfl
@[simp] theorem setPixels_frames (s : State) (v : Memory) : (s.setPixels v).frames = s.frames := rfl
@[simp] theorem setPixels_fresh (s : State) (v : Memory) : (s.setPixels v).fresh = s.fresh := rfl

/-! ### setFlag -/

@[simp] theorem setFlag_a (s : State) (f : Flag) (v : Bool) : (s.setFlag f v).a = s.a := rfl
@[simp] theorem setFlag_x (s : State) (f : Flag) (v : Bool) : (s.setFlag f v).x = s.x := rfl
@[simp] theorem setFlag_y (s : State) (f : Flag) (v : Bool) : (s.setFlag f v).y = s.y := rfl
@[simp] theorem setFlag_sp (s : State) (f : Flag) (v : Bool) : (s.setFlag f v).sp = s.sp := rfl
@[simp] theorem setFlag_p (s : State) (f : Flag) (v : Bool) : (s.setFlag f v).p = putFlag s.p f v := rfl
@[simp] theorem setFlag_pc (s : State) (f : Flag) (v : Bool) : (s.setFlag f v).pc = s.pc := rfl
@[simp] theorem setFlag_context (s : State) (f : Flag) (v : Bool) : (s.setFlag f v).context = s.context := rfl
@[simp] theorem setFlag_cyc (s : State) (f : Flag) (v : Bool) : (s.setFlag f v).cyc = s.cyc := rfl
@[simp] theorem setFlag_mapper (s : State) (f : Flag) (v : Bool) : (s.setFlag f v).mapper = s.mapper := rfl
@[simp] theorem setFlag_io (s : State) (f : Flag) (v : Bool) : (s.setFlag f v).io = s.io := rfl
@[simp] theorem setFlag_pads (s : State) (f : Flag) (v : Bool) : (s.setFlag f v).pads = s.pads := rfl
@[simp] theorem setFlag_ppu (s : State) (f : Flag) (v : Bool) : (s.setFlag f v).ppu = s.ppu := rfl
@[simp] theorem setFlag_pixels (s : State) (f : Flag) (v : Bool) : (s.setFlag f v).pixels = s.pixels := rfl
@[simp] theorem setFlag_cfg (s : State) (f : Flag) (v : Bool) : (s.setFlag f v).cfg = s.cfg := rfl
@[simp] theorem setFlag_keys (s : State) (f : Flag) (v : Bool) : (s.setFlag f v).keys = s.keys := rfl
@[simp] theorem setFlag_frames (s : State) (f : Flag) (v : Bool) : (s.setFlag f v).frames = s.frames := rfl
@[simp] theorem setFlag_fresh (s : State) (f : Flag) (v : Bool) : (s.setFlag f v).fresh = s.fresh := rfl

/-! ### setNZ -/

@[simp] theorem setNZ_a (s : State) (v : Byte) : (s.setNZ v).a = s.a := rfl
@[simp] theorem setNZ_x (s : State) (v : Byte) : (s.setNZ v).x = s.x := rfl
@[simp] theorem setNZ_y (s : State) (v : Byte) : (s.setNZ v).y = s.y := rfl
@[simp] theorem setNZ_sp (s : State) (v : Byte) : (s.setNZ v).sp = s.sp := rfl
@[simp] theorem setNZ_p (s : State) (v : Byte) : (s.setNZ v).p = Machine.setNZ s.p v := rfl
@[simp] theorem setNZ_pc (s : State) (v : Byte) : (s.setNZ v).pc = s.pc := rfl
@[simp] theorem setNZ_context (s : State) (v : Byte) : (s.setNZ v).context = s.context := rfl
@[simp] theorem setNZ_cyc (s : State) (v : Byte) : (s.setNZ v).cyc = s.cyc := rfl
@[simp] theorem setNZ_mapper (s : State) (v : Byte) : (s.setNZ v).mapper = s.mapper := rfl
@[simp] theorem setNZ_io (s : State) (v : Byte) : (s.setNZ v).io = s.io := rfl
@[simp] theorem setNZ_pads (s : State) (v : Byte) : (s.setNZ v).pads = s.pads := rfl
@[simp] theorem setNZ_ppu (s : State) (v : Byte) : (s.setNZ v).ppu = s.ppu := rfl
@[simp] theorem setNZ_pixels (s : State) (v : Byte) : (s.setNZ v).pixels = s.pixels := rfl
@[simp] theorem setNZ_cfg (s : State) (v : Byte) : (s.setNZ v).cfg = s.cfg := rfl
@[simp] theorem setNZ_keys (s : State) (v : Byte) : (s.setNZ v).keys = s.keys := rfl
@[simp] theorem setNZ_frames (s : State) (v : Byte) : (s.setNZ v).frames = s.frames := rfl
@[simp] theorem setNZ_fresh (s : State) (v : Byte) : (s.setNZ v).fresh = s.fresh := rfl

/-! ### setAck -/

@[simp] theorem setAck_a (s : State) (slot : Fin 40) (k : Access) : (s.setAck slot k).a = s.a := rfl
@[simp] theorem setAck_x (s : State) (slot : Fin 40) (k : Access) : (s.setAck slot k).x = s.x := rfl
@[simp] theorem setAck_y (s : State) (slot : Fin 40) (k : Access) : (s.setAck slot k).y = s.y := rfl
@[simp] theorem setAck_sp (s : State) (slot : Fin 40) (k : Access) : (s.setAck slot k).sp = s.sp := rfl
@[simp] theorem setAck_p (s : State) (slot : Fin 40) (k : Access) : (s.setAck slot k).p = s.p := rfl
@[simp] theorem setAck_pc (s : State) (slot : Fin 40) (k : Access) : (s.setAck slot k).pc = s.pc := rfl
@[simp] theorem setAck_context (s : State) (slot : Fin 40) (k : Access) : (s.setAck slot k).context = s.context := rfl
@[simp] theorem setAck_cyc (s : State) (slot : Fin 40) (k : Access) : (s.setAck slot k).cyc = s.cyc := rfl
@[simp] theorem setAck_mapper (s : State) (slot : Fin 40) (k : Access) : (s.setAck slot k).mapper = s.mapper := rfl
@[simp] theorem setAck_io (s : State) (slot : Fin 40) (k : Access) : (s.setAck slot k).io = { s.io with ack := s.io.ack.set slot.val k slot.isLt } := rfl
@[simp] theorem setAck_pads (s : State) (slot : Fin 40) (k : Access) : (s.setAck slot k).pads = s.pads := rfl
@[simp] theorem setAck_ppu (s : State) (slot : Fin 40) (k : Access) : (s.setAck slot k).ppu = s.ppu := rfl
@[simp] theorem setAck_pixels (s : State) (slot : Fin 40) (k : Access) : (s.setAck slot k).pixels = s.pixels := rfl
@[simp] theorem setAck_cfg (s : State) (slot : Fin 40) (k : Access) : (s.setAck slot k).cfg = s.cfg := rfl
@[simp] theorem setAck_keys (s : State) (slot : Fin 40) (k : Access) : (s.setAck slot k).keys = s.keys := rfl
@[simp] theorem setAck_frames (s : State) (slot : Fin 40) (k : Access) : (s.setAck slot k).frames = s.frames := rfl
@[simp] theorem setAck_fresh (s : State) (slot : Fin 40) (k : Access) : (s.setAck slot k).fresh = s.fresh := rfl
@[simp] theorem setAck_ioreg (s : State) (slot : Fin 40) (k : Access) : (s.setAck slot k).io.ioreg = s.io.ioreg := rfl
@[simp] theorem setAck_dmareg (s : State) (slot : Fin 40) (k : Access) : (s.setAck slot k).io.dmareg = s.io.dmareg := rfl
@[simp] theorem setAck_joy1 (s : State) (slot : Fin 40) (k : Access) : (s.setAck slot k).io.joy1 = s.io.joy1 := rfl
@[simp] theorem setAck_joy2 (s : State) (slot : Fin 40) (k : Access) : (s.setAck slot k).io.joy2 = s.io.joy2 := rfl
@[simp] theorem setAck_dummy (s : State) (slot : Fin 40) (k : Access) : (s.setAck slot k).io.dummy = s.io.dummy := rfl

/-! ### touch -/

@[simp] theorem touch_a (s : State) (addr : Word) (k : Access) : (s.touch addr k).a = s.a := by
  unfold touch; split <;> rfl
@[simp] theorem touch_x (s : State) (addr : Word) (k : Access) : (s.touch addr k).x = s.x := by
  unfold touch; split <;> rfl
@[simp] theorem touch_y (s : State) (addr : Word) (k : Access) : (s.touch addr k).y = s.y := by
  unfold touch; split <;> rfl
@[simp] theorem touch_sp (s : State) (addr : Word) (k : Access) : (s.touch addr k).sp = s.sp := by
  unfold touch; split <;> rfl
@[simp] theorem touch_p (s : State) (addr : Word) (k : Access) : (s.touch addr k).p = s.p := by
  unfold touch; split <;> rfl
@[simp] theorem touch_pc (s : State) (addr : Word) (k : Access) : (s.touch addr k).pc = s.pc := by
  unfold touch; split <;> rfl
@[simp] theorem touch_context (s : State) (addr : Word) (k : Access) : (s.touch addr k).context = s.context := by
  unfold touch; split <;> rfl
@[simp] theorem touch_cyc (s : State) (addr : Word) (k : Access) : (s.touch addr k).cyc = s.cyc := by
  unfold touch; split <;> rfl
@[simp] theorem touch_mapper (s : State) (addr : Word) (k : Access) : (s.touch addr k).mapper = s.mapper := by
  unfold touch; split <;> rfl
@[simp] theorem touch_pads (s : State) (addr : Word) (k : Access) : (s.touch addr k).pads = s.pads := by
  unfold touch; split <;> rfl
@[simp] theorem touch_ppu (s : State) (addr : Word) (k : Access) : (s.touch addr k).ppu = s.ppu := by
  unfold touch; split <;> rfl
@[simp] theorem touch_pixels (s : State) (addr : Word) (k : Access) : (s.touch addr k).pixels = s.pixels := by
  unfold touch; split <;> rfl
@[simp] theorem touch_cfg (s : State) (addr : Word) (k : Access) : (s.touch addr k).cfg = s.cfg := by
  unfold touch; split <;> rfl
@[simp] theorem touch_keys (s : State) (addr : Word) (k : Access) : (s.touch addr k).keys = s.keys := by
  unfold touch; split <;> rfl
@[simp] theorem touch_frames (s : State) (addr : Word) (k : Access) : (s.touch addr k).frames = s.frames := by
  unfold touch; split <;> rfl
@[simp] theorem touch_fresh (s : State) (addr : Word) (k : Access) : (s.touch addr k).fresh = s.fresh := by
  unfold touch; split <;> rfl
@[simp] theorem touch_ioreg (s : State) (addr : Word) (k : Access) : (s.touch addr k).io.ioreg = s.io.ioreg := by
  unfold touch; split <;> rfl
@[simp] theorem touch_dmareg (s : State) (addr : Word) (k : Access) : (s.touch addr k).io.dmareg = s.io.dmareg := by
  unfold touch; split <;> rfl
@[simp] theorem touch_joy1 (s : State) (addr : Word) (k : Access) : (s.touch addr k).io.joy1 = s.io.joy1 := by
  unfold touch; split <;> rfl
@[simp] theorem touch_joy2 (s : State) (addr : Word) (k : Access) : (s.touch addr k).io.joy2 = s.io.joy2 := by
  unfold touch; split <;> rfl
@[simp] theorem touch_dummy (s : State) (addr : Word) (k : Access) : (s.touch addr k).io.dummy = s.io.dummy := by
  unfold touch; split <;> rfl

/-! ### writeCell -/

@[simp] theorem writeCell_a (s : State) (c : CpuCell) (v : Byte) : (s.writeCell c v).a = s.a := by
  cases c <;> rfl
@[simp] theorem writeCell_x (s : State) (c : CpuCell) (v : Byte) : (s.writeCell c v).x = s.x := by
  cases c <;> rfl
@[simp] theorem writeCell_y (s : State) (c : CpuCell) (v : Byte) : (s.writeCell c v).y = s.y := by
  cases c <;> rfl
@[simp] theorem writeCell_sp (s : State) (c : CpuCell) (v : Byte) : (s.writeCell c v).sp = s.sp := by
  cases c <;> rfl
@[simp] theorem writeCell_p (s : State) (c : CpuCell) (v : Byte) : (s.writeCell c v).p = s.p := by
  cases c <;> rfl
@[simp] theorem writeCell_pc (s : State) (c : CpuCell) (v : Byte) : (s.writeCell c v).pc = s.pc := by
  cases c <;> rfl
@[simp] theorem writeCell_context (s : State) (c : CpuCell) (v : Byte) : (s.writeCell c v).context = s.context := by
  cases c <;> rfl
@[simp] theorem writeCell_cyc (s : State) (c : CpuCell) (v : Byte) : (s.writeCell c v).cyc = s.cyc := by
  cases c <;> rfl
@[simp] theorem writeCell_pads (s : State) (c : CpuCell) (v : Byte) : (s.writeCell c v).pads = s.pads := by
  cases c <;> rfl
@[simp] theorem writeCell_ppu (s : State) (c : CpuCell) (v : Byte) : (s.writeCell c v).ppu = s.ppu := by
  cases c <;> rfl
@[simp] theorem writeCell_pixels (s : State) (c : CpuCell) (v : Byte) : (s.writeCell c v).pixels = s.pixels := by
  cases c <;> rfl
@[simp] theorem writeCell_cfg (s : State) (c : CpuCell) (v : Byte) : (s.writeCell c v).cfg = s.cfg := by
  cases c <;> rfl
@[simp] theorem writeCell_keys (s : State) (c : CpuCell) (v : Byte) : (s.writeCell c v).keys = s.keys := by
  cases c <;> rfl
@[simp] theorem writeCell_frames (s : State) (c : CpuCell) (v : Byte) : (s.writeCell c v).frames = s.frames := by
  cases c <;> rfl
@[simp] theorem writeCell_fresh (s : State) (c : CpuCell) (v : Byte) : (s.writeCell c v).fresh = s.fresh := by
  cases c <;> rfl

end Sys2Proof.Machine.State
end

