-- ==== Sys2Proof/Laws/Flags.lean ====
section
/-! SUPPORT. The laws of the status register: what each flag computation leaves in each flag, in plain arithmetic. -/

namespace Sys2Proof.Machine

theorem getLsbD_putBit (b : Byte) {i j : Nat} (v : Bool) (hi : i < 8) :
    (putBit b i v).getLsbD j = if i = j then v else b.getLsbD j := by
  unfold putBit
  by_cases hij : i = j
  · subst hij
    cases v <;> simp [hi]
  · cases v
    · simp only [Bool.false_eq_true, if_false, hij]
      rcases Nat.lt_or_ge j 8 with hj | hj
      · simp [hj]
        omega
      · simp [BitVec.getLsbD_of_ge _ _ hj]
    · simp [hij]
      omega

@[simp] theorem Flag.index_lt (f : Flag) : f.index < 8 := by cases f <;> decide

theorem Flag.index_inj {f g : Flag} : f.index = g.index ↔ f = g := by cases f <;> cases g <;> decide

/-- Replacing a flag sets it and leaves the seven others. -/
@[simp] theorem flagOf_putFlag (p : Byte) (f g : Flag) (v : Bool) :
    flagOf (putFlag p f v) g = if f = g then v else flagOf p g := by
  simp only [flagOf, putFlag, getLsbD_putBit p v f.index_lt, Flag.index_inj]

@[simp] theorem flagOf_setNZ (p v : Byte) (f : Flag) :
    flagOf (setNZ p v) f =
      if f = .zero then v == 0 else if f = .negative then v.getLsbD 7 else flagOf p f := by
  cases f <;> simp [setNZ]

/-- Two status bytes with equal flags are equal. -/
theorem eq_of_flags {p q : Byte} (h : ∀ f, flagOf p f = flagOf q f) : p = q := by
  apply BitVec.eq_of_getLsbD_eq
  intro i hi
  match i, hi with
  | 0, _ => exact h .carry
  | 1, _ => exact h .zero
  | 2, _ => exact h .interrupt
  | 3, _ => exact h .decimal
  | 4, _ => exact h .brk
  | 5, _ => exact h .unused
  | 6, _ => exact h .overflow
  | 7, _ => exact h .negative

theorem flagOf_pushedByInterrupt (p : Byte) (f : Flag) :
    flagOf (pushedByInterrupt p) f = if f = .brk then false else if f = .unused then true else flagOf p f := by
  cases f <;> simp [flagOf, pushedByInterrupt, Flag.index]

theorem flagOf_pushedByInstruction (p : Byte) (f : Flag) :
    flagOf (pushedByInstruction p) f = if f = .brk ∨ f = .unused then true else flagOf p f := by
  cases f <;> simp [flagOf, pushedByInstruction, Flag.index]

theorem flagOf_pulledStatus (b : Byte) (f : Flag) :
    flagOf (pulledStatus b) f = if f = .unused then true else flagOf b f := by
  cases f <;> simp [flagOf, pulledStatus, Flag.index]

/-! ### Add and subtract -/

theorem addResult_toNat (a m : Byte) (c : Bool) :
    (addResult a m c).toNat = (a.toNat + m.toNat + c.toNat) % 256 := by
  simp [addResult, sum9]

theorem flagOf_addStatus (p a m : Byte) (f : Flag) :
    flagOf (addStatus p a m) f =
      if f = .carry then addCarry a m (flagOf p .carry)
      else if f = .overflow then addOverflow a m (flagOf p .carry)
      else if f = .zero then addResult a m (flagOf p .carry) == 0
      else if f = .negative then (addResult a m (flagOf p .carry)).getLsbD 7
      else flagOf p f := by
  cases f <;> simp [addStatus]

theorem testBit_top (b : Byte) : b.getLsbD 7 = decide (128 ≤ b.toNat) := by
  have := BitVec.msb_eq_decide b
  simpa [BitVec.msb_eq_getLsbD_last] using this

theorem toInt_of_top (b : Byte) : b.toInt = if b.getLsbD 7 then (b.toNat : Int) - 256 else b.toNat := by
  have hb := b.isLt
  rw [testBit_top, BitVec.toInt_eq_toNat_cond]
  by_cases h : 128 ≤ b.toNat
  · rw [if_neg (by omega), if_pos (by simpa using h)]
    rfl
  · rw [if_pos (by omega), if_neg (by simpa using h)]

theorem and_top_ne_zero (b : Byte) : (b &&& 0x80 != 0) = b.getLsbD 7 := by
  revert b
  decide

/-- V after an add says that the exact signed sum does not fit in a byte (R161). -/
theorem addOverflow_eq_signed (a m : Byte) (c : Bool) :
    addOverflow a m c =
      !(decide (-128 ≤ a.toInt + m.toInt + c.toNat) && decide (a.toInt + m.toInt + c.toNat ≤ 127)) := by
  unfold addOverflow
  rw [and_top_ne_zero]
  simp only [BitVec.getLsbD_and, BitVec.getLsbD_xor]
  have hr := addResult_toNat a m c
  rw [toInt_of_top a, toInt_of_top m]
  have ha := a.isLt
  have hm := m.isLt
  have hc : c.toNat ≤ 1 := by cases c <;> decide
  rw [testBit_top a, testBit_top m, testBit_top (addResult a m c), hr]
  by_cases h1 : 128 ≤ a.toNat <;> by_cases h2 : 128 ≤ m.toNat <;>
    by_cases h3 : 128 ≤ (a.toNat + m.toNat + c.toNat) % 256 <;> simp [h1, h2, h3] <;> omega

/-! ### Compare, bit test, shifts -/

theorem flagOf_compareStatus (p r m : Byte) (f : Flag) :
    flagOf (compareStatus p r m) f =
      if f = .carry then decide (m.toNat ≤ r.toNat)
      else if f = .zero then r == m
      else if f = .negative then (r - m).getLsbD 7
      else flagOf p f := by
  cases f <;> simp [compareStatus]

theorem flagOf_bitStatus (p a m : Byte) (f : Flag) :
    flagOf (bitStatus p a m) f =
      if f = .zero then a &&& m == 0
      else if f = .negative then m.getLsbD 7
      else if f = .overflow then m.getLsbD 6
      else flagOf p f := by
  cases f <;> simp [bitStatus]

theorem aslResult_toNat (v : Byte) : (aslResult v).toNat = 2 * v.toNat % 256 := by
  simp [aslResult, Nat.shiftLeft_eq, Nat.mul_comm]

theorem lsrResult_toNat (v : Byte) : (lsrResult v).toNat = v.toNat / 2 := by
  simp [lsrResult, Nat.shiftRight_eq_div_pow]

end Sys2Proof.Machine
end

