-- ==== Sys2Proof/Laws/Memory.lean ====
section
/-! SUPPORT. The laws of sparse memories: read after write, writes elsewhere, the canonical form is kept, and two
canonical memories that read alike are equal. -/

namespace Sys2Proof.Machine

variable {d v : Byte} {size lowest i j : Nat} {m m' : Memory}

@[simp] theorem Memory.read_nil (d : Byte) (i : Nat) : Memory.read d [] i = d := rfl

@[simp] theorem Memory.wf_nil (d : Byte) (size : Nat) : Memory.wf d size [] = true := rfl

theorem Memory.wfFrom_cons {k : Nat} {b : Byte} :
    Memory.wfFrom d size lowest ((k, b) :: m) = true ↔
      lowest ≤ k ∧ k < size ∧ b ≠ d ∧ Memory.wfFrom d size (k + 1) m = true := by
  simp [Memory.wfFrom, and_assoc]

theorem Memory.wfFrom_mono {l l' : Nat} (hl : l ≤ l') (h : Memory.wfFrom d size l' m = true) :
    Memory.wfFrom d size l m = true := by
  cases m with
  | nil => rfl
  | cons c m =>
    obtain ⟨k, b⟩ := c
    rw [Memory.wfFrom_cons] at h ⊢
    exact ⟨by omega, h.2⟩

/-- Below the first index it may list, a memory reads as unlisted. -/
theorem Memory.read_below (h : Memory.wfFrom d size lowest m = true) (hi : i < lowest) : Memory.read d m i = d := by
  induction m generalizing lowest with
  | nil => rfl
  | cons c m ih =>
    obtain ⟨k, b⟩ := c
    rw [Memory.wfFrom_cons] at h
    rw [Memory.read, if_neg (by omega)]
    exact ih h.2.2.2 (by omega)

theorem Memory.wfFrom_write (h : Memory.wfFrom d size lowest m = true) (hl : lowest ≤ i) (hi : i < size) :
    Memory.wfFrom d size lowest (Memory.write d m i v) = true := by
  induction m generalizing lowest with
  | nil =>
    unfold Memory.write
    split
    · rfl
    · rename_i hv
      exact Memory.wfFrom_cons.2 ⟨hl, hi, hv, rfl⟩
  | cons c m ih =>
    obtain ⟨k, b⟩ := c
    have hc := Memory.wfFrom_cons.1 h
    unfold Memory.write
    split
    · split
      · exact h
      · rename_i hv
        exact Memory.wfFrom_cons.2 ⟨hl, hi, hv, Memory.wfFrom_cons.2 ⟨by omega, hc.2⟩⟩
    · split
      · split
        · exact Memory.wfFrom_mono (by omega) hc.2.2.2
        · rename_i hik hv
          exact Memory.wfFrom_cons.2 ⟨hl, hi, hv, hik ▸ hc.2.2.2⟩
      · exact Memory.wfFrom_cons.2 ⟨hc.1, hc.2.1, hc.2.2.1, ih hc.2.2.2 (by omega)⟩

/-- A write inside the memory keeps the canonical form. -/
theorem Memory.wf_write (h : Memory.wf d size m = true) (hi : i < size) :
    Memory.wf d size (Memory.write d m i v) = true :=
  Memory.wfFrom_write h (Nat.zero_le _) hi

/-- A write leaves every other index alone. -/
theorem Memory.read_write_other (hij : i ≠ j) : Memory.read d (Memory.write d m i v) j = Memory.read d m j := by
  induction m with
  | nil =>
    unfold Memory.write
    split
    · rfl
    · simp [Memory.read, hij]
  | cons c m ih =>
    obtain ⟨k, b⟩ := c
    unfold Memory.write
    split
    · split
      · rfl
      · simp [Memory.read, hij]
    · split
      · rename_i hik
        split <;> simp [Memory.read, hij, ← hik]
      · simp [Memory.read, ih]

theorem Memory.read_write_same_from (h : Memory.wfFrom d size lowest m = true) :
    Memory.read d (Memory.write d m i v) i = v := by
  induction m generalizing lowest with
  | nil =>
    unfold Memory.write
    split
    · rename_i hv
      exact hv.symm
    · simp [Memory.read]
  | cons c m ih =>
    obtain ⟨k, b⟩ := c
    have hc := Memory.wfFrom_cons.1 h
    unfold Memory.write
    split
    · rename_i hik
      split
      · rename_i hv
        rw [hv]
        exact Memory.read_below (lowest := k) (Memory.wfFrom_cons.2 ⟨Nat.le_refl _, hc.2⟩) hik
      · simp [Memory.read]
    · split
      · rename_i hik
        split
        · rename_i hv
          rw [hv]
          exact Memory.read_below hc.2.2.2 (by omega)
        · simp [Memory.read]
      · rename_i hik
        rw [Memory.read, if_neg (Ne.symm hik)]
        exact ih hc.2.2.2

/-- Reading what was just written gives the value written. -/
theorem Memory.read_write_same (h : Memory.wf d size m = true) : Memory.read d (Memory.write d m i v) i = v :=
  Memory.read_write_same_from h

/-- Read after write at any index. -/
theorem Memory.read_write (h : Memory.wf d size m = true) :
    Memory.read d (Memory.write d m i v) j = if i = j then v else Memory.read d m j := by
  split
  · rename_i hij
    exact hij ▸ Memory.read_write_same h
  · rename_i hij
    exact Memory.read_write_other hij

theorem Memory.eq_of_read_eq_from (h : Memory.wfFrom d size lowest m = true)
    (h' : Memory.wfFrom d size lowest m' = true) (hr : ∀ i, Memory.read d m i = Memory.read d m' i) : m = m' := by
  induction m generalizing lowest m' with
  | nil =>
    cases m' with
    | nil => rfl
    | cons c m' =>
      obtain ⟨k, b⟩ := c
      have hb := (Memory.wfFrom_cons.1 h').2.2.1
      have := hr k
      simp [Memory.read] at this
      exact absurd this.symm hb
  | cons c m ih =>
    obtain ⟨k, b⟩ := c
    have hc := Memory.wfFrom_cons.1 h
    cases m' with
    | nil =>
      have := hr k
      simp [Memory.read] at this
      exact absurd this hc.2.2.1
    | cons c' m' =>
      obtain ⟨k', b'⟩ := c'
      have hc' := Memory.wfFrom_cons.1 h'
      have hkk : k = k' := by
        by_contra hne
        rcases Nat.lt_or_gt_of_ne hne with hlt | hgt
        · have := hr k
          rw [Memory.read_below (lowest := k') (Memory.wfFrom_cons.2 ⟨Nat.le_refl _, hc'.2⟩) hlt] at this
          simp [Memory.read] at this
          exact hc.2.2.1 this
        · have := hr k'
          rw [Memory.read_below (lowest := k) (Memory.wfFrom_cons.2 ⟨Nat.le_refl _, hc.2⟩) hgt] at this
          simp [Memory.read] at this
          exact hc'.2.2.1 this.symm
      subst hkk
      have hbb : b = b' := by
        have := hr k
        simpa [Memory.read] using this
      subst hbb
      congr 1
      refine ih hc.2.2.2 hc'.2.2.2 fun i => ?_
      by_cases hik : k = i
      · rw [Memory.read_below hc.2.2.2 (by omega), Memory.read_below hc'.2.2.2 (by omega)]
      · have := hr i
        simpa [Memory.read, hik] using this

/-- The canonical form is one per content: memories that read alike are equal. -/
theorem Memory.eq_of_read_eq (h : Memory.wf d size m = true) (h' : Memory.wf d size m' = true)
    (hr : ∀ i, Memory.read d m i = Memory.read d m' i) : m = m' :=
  Memory.eq_of_read_eq_from h h' hr

theorem Memory.wfFrom_ofBytes {bs : List Byte} (hl : lowest ≤ i) (hs : i + bs.length ≤ size) :
    Memory.wfFrom d size lowest (Memory.ofBytes d i bs) = true := by
  induction bs generalizing i lowest with
  | nil => rfl
  | cons b bs ih =>
    simp only [List.length_cons] at hs
    unfold Memory.ofBytes
    split
    · exact ih (by omega) (by omega)
    · rename_i hb
      exact Memory.wfFrom_cons.2 ⟨hl, by omega, hb, ih (Nat.le_refl _) (by omega)⟩

/-- Bytes loaded inside a memory's size are in canonical form. -/
theorem Memory.wf_ofBytes {bs : List Byte} (hs : i + bs.length ≤ size) :
    Memory.wf d size (Memory.ofBytes d i bs) = true :=
  Memory.wfFrom_ofBytes (Nat.zero_le _) hs

end Sys2Proof.Machine
end

