-- ==== Sys2Proof/Laws/Ops.lean ====
section
/-! SUPPORT. The laws of the operations over memory: cells, CPU reads and writes, acknowledgments, the stack, and when
an access faults. -/

namespace Sys2Proof.Machine

/-! ### Reading a cell after an update that is no store -/

namespace State

@[simp] theorem setA_readCell (s : State) (v : Byte) (c : CpuCell) : (s.setA v).readCell c = s.readCell c := by
  cases c <;> rfl

@[simp] theorem setX_readCell (s : State) (v : Byte) (c : CpuCell) : (s.setX v).readCell c = s.readCell c := by
  cases c <;> rfl

@[simp] theorem setY_readCell (s : State) (v : Byte) (c : CpuCell) : (s.setY v).readCell c = s.readCell c := by
  cases c <;> rfl

@[simp] theorem setSp_readCell (s : State) (v : Byte) (c : CpuCell) : (s.setSp v).readCell c = s.readCell c := by
  cases c <;> rfl

@[simp] theorem setP_readCell (s : State) (v : Byte) (c : CpuCell) : (s.setP v).readCell c = s.readCell c := by
  cases c <;> rfl

@[simp] theorem setPc_readCell (s : State) (v : Word) (c : CpuCell) : (s.setPc v).readCell c = s.readCell c := by
  cases c <;> rfl

@[simp] theorem setContext_readCell (s : State) (v : Byte) (c : CpuCell) : (s.setContext v).readCell c = s.readCell c := by
  cases c <;> rfl

@[simp] theorem charge_readCell (s : State) (n : Nat) (c : CpuCell) : (s.charge n).readCell c = s.readCell c := by
  cases c <;> rfl

@[simp] theorem setPads_readCell (s : State) (v : Controller) (c : CpuCell) : (s.setPads v).readCell c = s.readCell c := by
  cases c <;> rfl

@[simp] theorem setPpu_readCell (s : State) (v : Ppu) (c : CpuCell) : (s.setPpu v).readCell c = s.readCell c := by
  cases c <;> rfl

@[simp] theorem setPixels_readCell (s : State) (v : Memory) (c : CpuCell) : (s.setPixels v).readCell c = s.readCell c := by
  cases c <;> rfl

@[simp] theorem setNZ_readCell (s : State) (v : Byte) (c : CpuCell) : (s.setNZ v).readCell c = s.readCell c := by
  cases c <;> rfl

@[simp] theorem setFlag_readCell (s : State) (f : Flag) (v : Bool) (c : CpuCell) :
    (s.setFlag f v).readCell c = s.readCell c := by
  cases c <;> rfl

@[simp] theorem setAck_readCell (s : State) (slot : Fin 40) (k : Access) (c : CpuCell) :
    (s.setAck slot k).readCell c = s.readCell c := by
  cases c <;> rfl

@[simp] theorem touch_readCell (s : State) (addr : Word) (k : Access) (c : CpuCell) :
    (s.touch addr k).readCell c = s.readCell c := by
  unfold touch
  split <;> simp

/-- What an address reads as depends on the configuration and the cells alone. -/
theorem peek_congr {s t : State} (hc : t.cfg = s.cfg) (hr : ∀ c, t.readCell c = s.readCell c) (a : Word) :
    t.peek a = s.peek a := by
  unfold peek
  rw [hc]
  cases cpuCell s.cfg a <;> simp [hr]

@[simp] theorem setA_peek (s : State) (v : Byte) (b : Word) : (s.setA v).peek b = s.peek b :=
  peek_congr (by simp) (by simp) b

@[simp] theorem setX_peek (s : State) (v : Byte) (b : Word) : (s.setX v).peek b = s.peek b :=
  peek_congr (by simp) (by simp) b

@[simp] theorem setY_peek (s : State) (v : Byte) (b : Word) : (s.setY v).peek b = s.peek b :=
  peek_congr (by simp) (by simp) b

@[simp] theorem setSp_peek (s : State) (v : Byte) (b : Word) : (s.setSp v).peek b = s.peek b :=
  peek_congr (by simp) (by simp) b

@[simp] theorem setP_peek (s : State) (v : Byte) (b : Word) : (s.setP v).peek b = s.peek b :=
  peek_congr (by simp) (by simp) b

@[simp] theorem setPc_peek (s : State) (v : Word) (b : Word) : (s.setPc v).peek b = s.peek b :=
  peek_congr (by simp) (by simp) b

@[simp] theorem setContext_peek (s : State) (v : Byte) (b : Word) : (s.setContext v).peek b = s.peek b :=
  peek_congr (by simp) (by simp) b

@[simp] theorem charge_peek (s : State) (n : Nat) (b : Word) : (s.charge n).peek b = s.peek b :=
  peek_congr (by simp) (by simp) b

@[simp] theorem setPads_peek (s : State) (v : Controller) (b : Word) : (s.setPads v).peek b = s.peek b :=
  peek_congr (by simp) (by simp) b

@[simp] theorem setPpu_peek (s : State) (v : Ppu) (b : Word) : (s.setPpu v).peek b = s.peek b :=
  peek_congr (by simp) (by simp) b

@[simp] theorem setPixels_peek (s : State) (v : Memory) (b : Word) : (s.setPixels v).peek b = s.peek b :=
  peek_congr (by simp) (by simp) b

@[simp] theorem setNZ_peek (s : State) (v : Byte) (b : Word) : (s.setNZ v).peek b = s.peek b :=
  peek_congr (by simp) (by simp) b

@[simp] theorem setFlag_peek (s : State) (f : Flag) (v : Bool) (b : Word) : (s.setFlag f v).peek b = s.peek b :=
  peek_congr (by simp) (by simp) b

@[simp] theorem setAck_peek (s : State) (slot : Fin 40) (k : Access) (b : Word) :
    (s.setAck slot k).peek b = s.peek b :=
  peek_congr (by simp) (by simp) b

@[simp] theorem touch_peek (s : State) (addr : Word) (k : Access) (b : Word) : (s.touch addr k).peek b = s.peek b :=
  peek_congr (by simp) (by simp) b

end State

/-! ### Cells -/

/-- A cell whose index lies inside its memory. -/
def CpuCell.InRange (cfg : Config) : CpuCell → Prop
  | .ram i => i < 0x800
  | .sram i => i < 0x2000
  | .prg i => i < prgSize cfg
  | _ => True

theorem prgSize_pos (cfg : Config) : 0 < prgSize cfg := by
  unfold prgSize
  split <;> decide

theorem ioCell_inRange (cfg : Config) (k : Nat) : (ioCell k).InRange cfg := by
  unfold ioCell
  split
  · exact True.intro
  split
  · exact True.intro
  split <;> exact True.intro

theorem ioCell_ne_prg (k i : Nat) : ioCell k ≠ .prg i := by
  unfold ioCell
  split
  · simp
  split
  · simp
  split <;> simp

/-- Every CPU address resolves inside its memory (R51 to R56). -/
theorem cpuCell_inRange {cfg : Config} {a : Word} {c : CpuCell} (h : cpuCell cfg a = some c) : c.InRange cfg := by
  have ha := a.isLt
  simp only [cpuCell] at h
  split at h
  · obtain rfl := Option.some.inj h
    exact Nat.mod_lt _ (by decide)
  split at h
  · obtain rfl := Option.some.inj h
    exact True.intro
  split at h
  · rw [← Option.some.inj h]
    exact ioCell_inRange _ _
  split at h
  · split at h
    · exact absurd h (by simp)
    · obtain rfl := Option.some.inj h
      exact True.intro
  split at h
  · obtain rfl := Option.some.inj h
    exact Nat.mod_lt _ (by decide)
  · obtain rfl := Option.some.inj h
    exact Nat.mod_lt _ (prgSize_pos cfg)

/-- An address has no cell exactly when an access there faults (R53). -/
theorem cpuCell_eq_none_iff {cfg : Config} {a : Word} :
    cpuCell cfg a = none ↔ 0x4020 ≤ a.toNat ∧ a.toNat ≤ 0x5FFF ∧ cfg.unmapped = .fault := by
  simp only [cpuCell]
  split
  · simp
    omega
  split
  · simp
    omega
  split
  · simp
    omega
  split
  · split
    · rename_i hu
      simp [hu]
      omega
    · rename_i hu
      simp [hu]
  split
  · simp
    omega
  · simp
    omega

/-- An address resolves to program ROM exactly in `$8000–$FFFF` (R56). -/
theorem cpuCell_prg_iff {cfg : Config} {a : Word} {i : Nat} :
    cpuCell cfg a = some (.prg i) ↔ 0x8000 ≤ a.toNat ∧ i = a.toNat % prgSize cfg := by
  simp only [cpuCell]
  split
  · simp
    omega
  split
  · simp
    omega
  split
  · simp only [Option.some.injEq, ioCell_ne_prg, false_iff]
    omega
  split
  · split <;> simp <;> omega
  split
  · simp
    omega
  · simp
    constructor
    · rintro rfl
      exact ⟨by omega, rfl⟩
    · rintro ⟨-, rfl⟩
      rfl

theorem Unmapped.ne_fault_iff {u : UnmappedPolicy} : u ≠ .fault ↔ u = .dummy := by cases u <;> decide

/-- A readable address has a cell. -/
theorem State.canLoad_iff {s : State} {a : Word} : s.CanLoad a ↔ ∃ c, cpuCell s.cfg a = some c := by
  rw [← Option.ne_none_iff_exists', Ne, cpuCell_eq_none_iff]
  unfold State.CanLoad
  rw [← Unmapped.ne_fault_iff]
  tauto

/-- A readable address reads as a byte. -/
theorem State.canLoad_iff_reads {s : State} {a : Word} : s.CanLoad a ↔ ∃ v, s.Reads a v := by
  rw [State.canLoad_iff]
  unfold State.Reads State.peek
  cases cpuCell s.cfg a <;> simp

@[simp] theorem State.writeCell_mapper_ppu (s : State) (c : CpuCell) (v : Byte) :
    (s.writeCell c v).mapper.chr = s.mapper.chr ∧ (s.writeCell c v).mapper.vram = s.mapper.vram ∧
      (s.writeCell c v).mapper.palette = s.mapper.palette := by
  cases c <;> exact ⟨rfl, rfl, rfl⟩

@[simp] theorem State.writeCell_ack (s : State) (c : CpuCell) (v : Byte) : (s.writeCell c v).io.ack = s.io.ack := by
  cases c <;> rfl

/-- A store leaves every other cell alone. -/
theorem State.readCell_writeCell_other {s : State} {c c' : CpuCell} {v : Byte} (h : c ≠ c') :
    (s.writeCell c v).readCell c' = s.readCell c' := by
  cases c <;> cases c' <;> first
    | rfl
    | (exact Memory.read_write_other (fun hij => h (hij ▸ rfl)))
    | (rename_i k k'
       have hk : k.val ≠ k'.val := fun hkk => h (congrArg _ (Fin.ext hkk))
       simp [State.readCell, State.writeCell, State.setIo, hk])
    | exact absurd rfl h

/-- A store is seen by the next read of the cell. -/
theorem State.readCell_writeCell_same {s : State} {c : CpuCell} {v : Byte} (h : s.mapper.Inv s.cfg) :
    (s.writeCell c v).readCell c = v := by
  cases c
  case ram i => exact Memory.read_write_same h.ram
  case sram i => exact Memory.read_write_same h.sram
  case prg i => exact Memory.read_write_same h.prg
  case ioreg k => simp [State.readCell, State.writeCell, State.setIo]
  all_goals rfl

/-! ### Reads -/

/-- A CPU read answers the byte its address reads as, and records the access (R55, R58). -/
theorem memRead_eq_ok {a : Word} {s t : State} {v : Byte} :
    memRead a s = .ok (v, t) ↔ s.Reads a v ∧ t = s.touch a .read := by
  unfold memRead State.Reads
  cases s.peek a <;> simp [eq_comm]

theorem memRead_of_reads {a : Word} {s : State} {v : Byte} (h : s.Reads a v) :
    memRead a s = .ok (v, s.touch a .read) :=
  memRead_eq_ok.2 ⟨h, rfl⟩

/-- A CPU read faults exactly where there is no cell, and changes nothing (R53, R412). -/
theorem memRead_eq_error {a : Word} {s : State} {f : Fault} :
    memRead a s = .error f ↔ ¬s.CanLoad a ∧ f = .unmappedAccess a s := by
  rw [State.canLoad_iff_reads]
  unfold memRead State.Reads
  cases s.peek a <;> simp [eq_comm]

/-! ### Writes -/

/-- Everything a CPU write can do (R53, R57, R58): fault where there is no cell or the ROM policy says so, leave
program ROM as it is, or record the access and store the byte. -/
theorem memWrite_cases (a : Word) (v : Byte) (s : State) :
    (¬s.CanLoad a ∧ memWrite a v s = .error (.unmappedAccess a s)) ∨
      (0x8000 ≤ a.toNat ∧ s.cfg.romWrite = .fault ∧ memWrite a v s = .error (.romWrite a s)) ∨
      (s.Ignores a ∧ memWrite a v s = .ok s) ∨
      (s.CanStore a ∧ ¬s.Ignores a ∧
        ∃ c, cpuCell s.cfg a = some c ∧ memWrite a v s = .ok ((s.touch a .write).writeCell c v)) := by
  cases hc : cpuCell s.cfg a with
  | none =>
    left
    refine ⟨fun h => ?_, by simp [memWrite, hc]⟩
    obtain ⟨c, hc'⟩ := State.canLoad_iff.1 h
    rw [hc] at hc'
    cases hc'
  | some c =>
    right
    have hl : s.CanLoad a := State.canLoad_iff.2 ⟨c, hc⟩
    by_cases hp : 0x8000 ≤ a.toNat
    · have hcp : c = .prg (a.toNat % prgSize s.cfg) := by
        have := cpuCell_prg_iff.2 ⟨hp, (rfl : a.toNat % prgSize s.cfg = _)⟩
        rw [hc] at this
        exact Option.some.inj this
      subst hcp
      cases hr : s.cfg.romWrite with
      | fault => exact .inl ⟨hp, rfl, by simp [memWrite, hc, hr]⟩
      | ignore => exact .inr (.inl ⟨⟨hp, hr⟩, by simp [memWrite, hc, hr]⟩)
      | store =>
        refine .inr (.inr ⟨⟨hl, fun _ => by simp [hr]⟩, fun h => ?_, _, rfl, ?_⟩)
        · simpa [hr] using h.2
        · have : s.touch a .write = s := by
            have ha : ackSlot a = none := by
              simp only [ackSlot]
              split
              · rfl
              rw [if_neg (by omega), if_neg (by omega)]
            simp [State.touch, ha]
          simp [memWrite, hc, hr, this]
    · refine .inr (.inr ⟨⟨hl, fun h => absurd h hp⟩, fun h => hp h.1, c, rfl, ?_⟩)
      have hnp : ∀ i, c ≠ .prg i := fun i hi => hp (cpuCell_prg_iff.1 (hi ▸ hc)).1
      unfold memWrite
      rw [hc]
      cases c <;> first
        | rfl
        | exact absurd rfl (hnp _)

/-- A CPU write that can be made is made. -/
theorem memWrite_of_canStore {a : Word} {s : State} (v : Byte) (h : s.CanStore a) : ∃ t, memWrite a v s = .ok t := by
  rcases memWrite_cases a v s with h' | h' | h' | ⟨-, -, c, -, h'⟩
  · exact absurd h.1 h'.1
  · exact absurd h'.2.1 (h.2 h'.1)
  · exact ⟨_, h'.2⟩
  · exact ⟨_, h'⟩

/-- What a CPU write that is made can be: nothing, where it is ignored, or the access recorded and the byte stored. -/
theorem memWrite_eq_ok {a : Word} {v : Byte} {s t : State} (h : memWrite a v s = .ok t) :
    (s.Ignores a ∧ t = s) ∨
      (¬s.Ignores a ∧ ∃ c, cpuCell s.cfg a = some c ∧ t = (s.touch a .write).writeCell c v) := by
  rcases memWrite_cases a v s with h' | h' | h' | ⟨-, hi, c, hc, h'⟩
  · rw [h'.2] at h
    cases h
  · rw [h'.2.2] at h
    cases h
  · rw [h'.2] at h
    cases h
    exact .inl ⟨h'.1, rfl⟩
  · rw [h'] at h
    cases h
    exact .inr ⟨hi, c, hc, rfl⟩

theorem State.memKept_writeCell {s : State} {a : Word} {c : CpuCell} {v : Byte} (hc : cpuCell s.cfg a = some c) :
    State.MemKept [a] s (s.writeCell c v) := by
  intro b hb
  have hab : cpuCell s.cfg a ≠ cpuCell s.cfg b := hb a (by simp)
  unfold State.peek
  rw [State.writeCell_cfg]
  cases hcb : cpuCell s.cfg b with
  | none => rfl
  | some c' =>
    have : c ≠ c' := fun h => hab (by rw [hc, hcb, h])
    simp [State.readCell_writeCell_other this]

theorem State.reads_writeCell {s : State} {a : Word} {c : CpuCell} {v : Byte} (hi : s.mapper.Inv s.cfg)
    (hc : cpuCell s.cfg a = some c) : (s.writeCell c v).Reads a v := by
  simp [State.Reads, State.peek, hc, State.readCell_writeCell_same hi]

@[simp] theorem State.touch_ack (s : State) (a : Word) (k : Access) (slot : Fin 40) :
    (s.touch a k).io.ack[slot] = if ackSlot a = some slot then k else s.io.ack[slot] := by
  unfold State.touch
  cases h : ackSlot a with
  | none => simp
  | some j =>
    by_cases hj : j = slot
    · subst hj
      simp
    · have : j.val ≠ slot.val := fun h => hj (Fin.ext h)
      simp [this, hj]

@[simp] theorem State.touch_mapper_eq (s : State) (a : Word) (k : Access) : (s.touch a k).mapper = s.mapper := by simp

/-- The memory effect of a CPU write that is made (R55, R57, R58). -/
theorem memWrite_stored {a : Word} {v : Byte} {s t : State} (hi : s.mapper.Inv s.cfg) (h : memWrite a v s = .ok t) :
    State.Stored a v s t ∧ State.Acknowledged a .write s t ∧ State.SameDevices s t := by
  rcases memWrite_eq_ok h with ⟨hg, rfl⟩ | ⟨hg, c, hc, rfl⟩
  · refine ⟨⟨fun h => absurd hg h, fun _ => rfl, fun _ _ => rfl⟩, fun slot => ?_, ⟨rfl, rfl, rfl, rfl, rfl, rfl, rfl, rfl, rfl, rfl, rfl⟩⟩
    have : ackSlot a = none := by
      have h8 := hg.1
      simp only [ackSlot]
      split
      · rfl
      rw [if_neg (by omega), if_neg (by omega)]
    simp [this]
  · have hi' : (s.touch a .write).mapper.Inv (s.touch a .write).cfg := by simpa using hi
    have hc' : cpuCell (s.touch a .write).cfg a = some c := by simpa using hc
    refine ⟨⟨fun _ => State.reads_writeCell hi' hc', fun h => absurd h hg, ?_⟩, fun slot => ?_, ?_⟩
    · intro b hb
      rw [State.memKept_writeCell hc' b (by simpa [State.SameCell] using hb)]
      simp
    · rw [State.writeCell_ack]
      exact State.touch_ack s a .write slot
    · constructor <;> simp

/-! ### The stack and the vectors -/

theorem stackAddr_toNat (sp : Byte) : (stackAddr sp).toNat = 0x100 + sp.toNat := by
  revert sp
  decide

/-- Every stack location is a byte of RAM (R14, R51). -/
theorem cpuCell_stackAddr (cfg : Config) (sp : Byte) : cpuCell cfg (stackAddr sp) = some (stackCell sp) := by
  have h := stackAddr_toNat sp
  have hs := sp.isLt
  simp only [cpuCell]
  rw [if_pos (by omega), h, Nat.mod_eq_of_lt (by omega)]
  rfl

theorem ackSlot_stackAddr (sp : Byte) : ackSlot (stackAddr sp) = none := by
  have h := stackAddr_toNat sp
  have hs := sp.isLt
  simp only [ackSlot]
  rw [if_pos (by omega)]

/-- A push is the CPU write R14 says it is, and it cannot fault. -/
theorem push_eq_memWrite (s : State) (v : Byte) :
    memWrite (stackAddr s.sp) v s = .ok (s.writeCell (stackCell s.sp) v) ∧
      s.push v = (s.writeCell (stackCell s.sp) v).setSp (s.sp - 1) := by
  refine ⟨?_, rfl⟩
  unfold memWrite
  rw [cpuCell_stackAddr]
  simp [stackCell, State.touch, ackSlot_stackAddr]

/-- A pull is the CPU read R14 says it is, and it cannot fault. -/
theorem pulled_eq_memRead (s : State) :
    memRead (stackAddr (s.sp + 1)) s = .ok (s.pulled, s) := by
  rw [memRead_eq_ok]
  simp [State.Reads, State.peek, cpuCell_stackAddr, State.pulled, State.touch, ackSlot_stackAddr]

/-- A vector's byte is what the CPU reads there (R56, R59). -/
theorem prgByte_eq_peek {s : State} {a : Word} (h : 0x8000 ≤ a.toNat) : s.peek a = some (s.prgByte a) := by
  simp [State.peek, cpuCell_prg_iff.2 ⟨h, rfl⟩, State.prgByte]

/-- A byte of page zero is what the CPU reads there (R51). -/
theorem zeroPage_eq_peek (s : State) (a : Byte) : s.peek (zext16 a) = some (s.zeroPage a) := by
  have ha := a.isLt
  have hz : (zext16 a).toNat = a.toNat := by simp [zext16]; omega
  simp only [State.peek, cpuCell]
  rw [if_pos (by omega), hz, Nat.mod_eq_of_lt (by omega)]
  rfl

end Sys2Proof.Machine
end

