-- ==== Sys2Proof/Laws/Maps.lean ====
section
/-! SUPPORT. The laws of the address maps: which cell and which acknowledgment slot each window's addresses have, and
bytes and words as numbers. -/

namespace Sys2Proof.Machine

theorem zext16_toNat (b : Byte) : (zext16 b).toNat = b.toNat := by
  have := b.isLt
  simp [zext16]
  omega

theorem wordOf_toNat (h l : Byte) : (wordOf h l).toNat = h.toNat * 256 + l.toNat := by
  simp only [wordOf, BitVec.toNat_append]
  have := l.isLt
  rw [← Nat.shiftLeft_add_eq_or_of_lt this, Nat.shiftLeft_eq]

theorem hi_toNat (w : Word) : (hi w).toNat = w.toNat / 256 := by
  have := w.isLt
  simp [hi, Nat.shiftRight_eq_div_pow]
  omega

theorem lo_toNat (w : Word) : (lo w).toNat = w.toNat % 256 := by
  simp [lo]

@[simp] theorem wordOf_hi_lo (w : Word) : wordOf (hi w) (lo w) = w := by
  apply BitVec.eq_of_toNat_eq
  rw [wordOf_toNat, hi_toNat, lo_toNat]
  omega

/-- Two addresses lie on different pages when their high bytes differ. -/
theorem hi_ne_iff (a b : Word) : (hi a != hi b) = true ↔ a.toNat / 256 ≠ b.toNat / 256 := by
  rw [bne_iff_ne, Ne, ← BitVec.toNat_inj, hi_toNat, hi_toNat]

theorem mask14_toNat (a : Word) : (a &&& 0x3FFF).toNat = a.toNat % 0x4000 := by
  have := Nat.and_two_pow_sub_one_eq_mod a.toNat 14
  simpa using this

/-! ### The windows of the CPU address space -/

section Windows

variable {cfg : Config} {a : Word}

theorem cpuCell_ram (h : a.toNat ≤ 0x1FFF) : cpuCell cfg a = some (.ram (a.toNat % 0x800)) := by
  simp [cpuCell, h]

theorem cpuCell_ioreg (h : 0x2000 ≤ a.toNat) (h' : a.toNat ≤ 0x3FFF) :
    cpuCell cfg a = some (.ioreg (Fin.ofNat 8 a.toNat)) := by
  simp only [cpuCell]
  rw [if_neg (by omega), if_pos h']

theorem cpuCell_io (h : 0x4000 ≤ a.toNat) (h' : a.toNat ≤ 0x401F) :
    cpuCell cfg a = some (ioCell (a.toNat - 0x4000)) := by
  simp only [cpuCell]
  rw [if_neg (by omega), if_neg (by omega), if_pos h']

theorem cpuCell_unmapped (h : 0x4020 ≤ a.toNat) (h' : a.toNat ≤ 0x5FFF) (hu : cfg.unmapped = .dummy) :
    cpuCell cfg a = some .dummy := by
  simp only [cpuCell]
  rw [if_neg (by omega), if_neg (by omega), if_neg (by omega), if_pos h', hu]

theorem cpuCell_sram (h : 0x6000 ≤ a.toNat) (h' : a.toNat ≤ 0x7FFF) :
    cpuCell cfg a = some (.sram (a.toNat % 0x2000)) := by
  simp only [cpuCell]
  rw [if_neg (by omega), if_neg (by omega), if_neg (by omega), if_neg (by omega), if_pos h']

theorem cpuCell_prg (h : 0x8000 ≤ a.toNat) : cpuCell cfg a = some (.prg (a.toNat % prgSize cfg)) :=
  cpuCell_prg_iff.2 ⟨h, rfl⟩

/-- Which array a CPU address reaches: RAM, save-RAM and program ROM each by their own range only (R51, R54, R56). -/
theorem cpuCell_kind (cfg : Config) (b : Word) :
    (∃ i, cpuCell cfg b = some (.ram i) ∧ b.toNat ≤ 0x1FFF) ∨
    (∃ i, cpuCell cfg b = some (.sram i) ∧ 0x6000 ≤ b.toNat ∧ b.toNat ≤ 0x7FFF) ∨
    (∃ i, cpuCell cfg b = some (.prg i) ∧ 0x8000 ≤ b.toNat) ∨
    ((∀ i, cpuCell cfg b ≠ some (.ram i) ∧ cpuCell cfg b ≠ some (.sram i) ∧ cpuCell cfg b ≠ some (.prg i)) ∧
      0x2000 ≤ b.toNat ∧ b.toNat < 0x6000) := by
  rcases Nat.lt_or_ge b.toNat 0x2000 with h | h
  · exact .inl ⟨_, cpuCell_ram (by omega), by omega⟩
  rcases Nat.lt_or_ge b.toNat 0x6000 with h' | h'
  · refine .inr (.inr (.inr ⟨fun i => ?_, h, h'⟩))
    unfold cpuCell
    simp only [show ¬b.toNat ≤ 0x1FFF by omega, if_false]
    split
    · simp
    split
    · unfold ioCell
      split
      · simp
      split
      · simp
      split <;> simp
    split
    · cases cfg.unmapped <;> simp
    · omega
  rcases Nat.lt_or_ge b.toNat 0x8000 with h'' | h''
  · exact .inr (.inl ⟨_, cpuCell_sram h' (by omega), h', by omega⟩)
  · exact .inr (.inr (.inl ⟨_, cpuCell_prg h'', h''⟩))

/-- `$4000` is the shared dummy cell (R58). -/
theorem cpuCell_dummy : cpuCell cfg 0x4000 = some .dummy := by
  have h := cpuCell_io (cfg := cfg) (a := 0x4000#16) (by decide) (by decide)
  have e : BitVec.toNat 0x4000#16 - 0x4000 = 0 := by decide
  have e' : ioCell 0 = .dummy := by decide
  rw [e, e'] at h
  exact h

theorem ackSlot_none (h : a.toNat ≤ 0x1FFF ∨ 0x4020 ≤ a.toNat) : ackSlot a = none := by
  simp only [ackSlot]
  split
  · rfl
  rw [if_neg (by omega), if_neg (by omega)]

theorem ackSlot_ioreg (h : 0x2000 ≤ a.toNat) (h' : a.toNat ≤ 0x3FFF) :
    ackSlot a = some (Fin.ofNat 40 (a.toNat % 8)) := by
  simp only [ackSlot]
  rw [if_neg (by omega), if_pos h']

theorem ackSlot_io (h : 0x4000 ≤ a.toNat) (h' : a.toNat ≤ 0x401F) :
    ackSlot a = some (Fin.ofNat 40 (8 + (a.toNat - 0x4000))) := by
  simp only [ackSlot]
  rw [if_neg (by omega), if_neg (by omega), if_pos h']

end Windows

theorem ioCell_eq_iff {j k : Nat} (hj : j < 32) (hk : k < 32) :
    ioCell j = ioCell k ↔ j = k ∨ (j ∉ [0x14, 0x16, 0x17] ∧ k ∉ [0x14, 0x16, 0x17]) := by
  have : ∀ j < 32, ∀ k < 32, (ioCell j = ioCell k ↔ j = k ∨ (j ∉ [0x14, 0x16, 0x17] ∧ k ∉ [0x14, 0x16, 0x17])) := by
    decide
  exact this j hj k hk

theorem ioreg_ne_ioCell (k : Fin 8) (j : Nat) : CpuCell.ioreg k ≠ ioCell j := by
  unfold ioCell
  split
  · simp
  split
  · simp
  split <;> simp

theorem slot_eq_iff {j k : Nat} (hj : j < 40) (hk : k < 40) : Fin.ofNat 40 j = Fin.ofNat 40 k ↔ j = k := by
  simp [Fin.ofNat, Fin.ext_iff]
  omega

/-! ### The windows of the PPU address space -/

/-- Only 14 bits of a PPU address count (R61). -/
theorem ppuCell_mask (cfg : Config) (a : Word) : ppuCell cfg (a &&& 0x3FFF) = ppuCell cfg a := by
  simp only [ppuCell, mask14_toNat, Nat.mod_mod]

section PpuWindows

variable {cfg : Config} {a : Word}

theorem ppuCell_chr (h : a.toNat % 0x4000 ≤ 0x1FFF) : ppuCell cfg a = .chr (a.toNat % 0x4000) := by
  simp [ppuCell, h]

theorem ppuCell_vram (h : 0x2000 ≤ a.toNat) (h' : a.toNat ≤ 0x3EFF) :
    ppuCell cfg a = .vram (vramHalf cfg.mirroring a.toNat * 0x400 + a.toNat % 0x400) := by
  have : a.toNat % 0x4000 = a.toNat := by omega
  simp only [ppuCell, this]
  rw [if_neg (by omega), if_pos h']

theorem ppuCell_palette (h : 0x3F00 ≤ a.toNat) (h' : a.toNat ≤ 0x3FFF) :
    ppuCell cfg a = .palette (paletteIndex (a.toNat % 0x20)) := by
  have : a.toNat % 0x4000 = a.toNat := by omega
  simp only [ppuCell, this]
  rw [if_neg (by omega), if_neg (by omega)]

end PpuWindows

/-- A PPU cell whose index lies inside its memory. -/
def PpuCell.InRange : PpuCell → Prop
  | .chr i => i < 0x2000
  | .vram i => i < 0x800
  | .palette i => i < 32

/-- Every PPU address resolves inside its memory (R62 to R65). -/
theorem ppuCell_inRange (cfg : Config) (a : Word) : (ppuCell cfg a).InRange := by
  simp only [ppuCell]
  split
  · rename_i h
    exact Nat.lt_succ_of_le h
  split
  · have : vramHalf cfg.mirroring (a.toNat % 0x4000) < 2 := by
      unfold vramHalf
      split <;> exact Nat.mod_lt _ (by decide)
    show _ < 0x800
    omega
  · show paletteIndex _ < 32
    unfold paletteIndex
    split <;> omega

/-- Reading a PPU cell after a store in it. -/
theorem ppuRead_writePpuCell_same {cfg : Config} {m : Mapper} {a : Word} {v : Byte} (h : m.Inv cfg) :
    ppuRead cfg (m.writePpuCell (ppuCell cfg a) v) a = v := by
  unfold ppuRead
  cases ppuCell cfg a
  · exact Memory.read_write_same h.chr
  · exact Memory.read_write_same h.vram
  · exact Memory.read_write_same h.palette

/-- Reading a PPU cell after a store in another one. -/
theorem ppuRead_writePpuCell_other {cfg : Config} {m : Mapper} {a : Word} {c : PpuCell} {v : Byte}
    (h : c ≠ ppuCell cfg a) : ppuRead cfg (m.writePpuCell c v) a = ppuRead cfg m a := by
  unfold ppuRead
  cases c <;> cases hc : ppuCell cfg a <;> first
    | rfl
    | exact Memory.read_write_other fun hij => h (by rw [hc, hij])

end Sys2Proof.Machine
end

