-- ==== Sys2Proof/Laws/Ppu.lean ====
section
/-! SUPPORT. The laws of a PPU tick: what the pipelines, the compositor and the start of the vertical blank leave
alone, and the invariant they keep. -/

namespace Sys2Proof.Machine

/-! ### What rendering leaves alone in the PPU -/

/-- `q` has the counters, the registers written by software, `vblank` and OAM of `p`: all but the pipelines, the
evaluation machine, the sprite units, `v`, and the hit and overflow flags. -/
structure Ppu.Kept (p q : Ppu) : Prop where
  ctrl : q.ctrl = p.ctrl
  mask : q.mask = p.mask
  vblank : q.vblank = p.vblank
  oamaddr : q.oamaddr = p.oamaddr
  t : q.t = p.t
  fineX : q.fineX = p.fineX
  w : q.w = p.w
  cycle : q.cycle = p.cycle
  scanline : q.scanline = p.scanline
  oddFrame : q.oddFrame = p.oddFrame
  oam : q.oam = p.oam

theorem Ppu.Kept.refl (p : Ppu) : p.Kept p := by constructor <;> rfl

theorem Ppu.Kept.trans {p q r : Ppu} (h : p.Kept q) (h' : q.Kept r) : p.Kept r where
  ctrl := h'.ctrl.trans h.ctrl
  mask := h'.mask.trans h.mask
  vblank := h'.vblank.trans h.vblank
  oamaddr := h'.oamaddr.trans h.oamaddr
  t := h'.t.trans h.t
  fineX := h'.fineX.trans h.fineX
  w := h'.w.trans h.w
  cycle := h'.cycle.trans h.cycle
  scanline := h'.scanline.trans h.scanline
  oddFrame := h'.oddFrame.trans h.oddFrame
  oam := h'.oam.trans h.oam

theorem Ppu.shiftLoad_kept (p : Ppu) : p.Kept p.shiftLoad := by constructor <;> rfl

theorem Ppu.fetchTile_kept (cfg : Config) (m : Mapper) (p : Ppu) : p.Kept (p.fetchTile cfg m) := by
  unfold Ppu.fetchTile
  split <;> constructor <;> rfl

theorem Ppu.scrollUpdate_kept (p : Ppu) : p.Kept p.scrollUpdate := by
  simp only [Ppu.scrollUpdate]
  split <;> split <;> split <;> constructor <;> rfl

/-- The background pipeline touches its latches, its shift registers and `v` only (R355). -/
theorem Ppu.backgroundPipeline_kept (cfg : Config) (m : Mapper) (p : Ppu) : p.Kept (p.backgroundPipeline cfg m) := by
  simp only [Ppu.backgroundPipeline]
  refine (p.shiftLoad_kept.trans ?_).trans (Ppu.scrollUpdate_kept _)
  split
  · exact Ppu.fetchTile_kept ..
  · exact Ppu.Kept.refl _

/-- The background pipeline leaves the sprites and the flags alone (R355). -/
theorem Ppu.backgroundPipeline_sprites (cfg : Config) (m : Mapper) (p : Ppu) :
    (p.backgroundPipeline cfg m).eval = p.eval ∧ (p.backgroundPipeline cfg m).units = p.units ∧
      (p.backgroundPipeline cfg m).spriteCount = p.spriteCount ∧ (p.backgroundPipeline cfg m).zeroLine = p.zeroLine ∧
      (p.backgroundPipeline cfg m).secOam = p.secOam ∧ (p.backgroundPipeline cfg m).sprite0 = p.sprite0 ∧
      (p.backgroundPipeline cfg m).overflow = p.overflow := by
  have h1 : ∀ q : Ppu, q.scrollUpdate.eval = q.eval ∧ q.scrollUpdate.units = q.units ∧
      q.scrollUpdate.spriteCount = q.spriteCount ∧ q.scrollUpdate.zeroLine = q.zeroLine ∧
      q.scrollUpdate.secOam = q.secOam ∧ q.scrollUpdate.sprite0 = q.sprite0 ∧ q.scrollUpdate.overflow = q.overflow := by
    intro q
    simp only [Ppu.scrollUpdate]
    split <;> split <;> split <;> exact ⟨rfl, rfl, rfl, rfl, rfl, rfl, rfl⟩
  have h2 : ∀ q : Ppu, (q.fetchTile cfg m).eval = q.eval ∧ (q.fetchTile cfg m).units = q.units ∧
      (q.fetchTile cfg m).spriteCount = q.spriteCount ∧ (q.fetchTile cfg m).zeroLine = q.zeroLine ∧
      (q.fetchTile cfg m).secOam = q.secOam ∧ (q.fetchTile cfg m).sprite0 = q.sprite0 ∧
      (q.fetchTile cfg m).overflow = q.overflow := by
    intro q
    unfold Ppu.fetchTile
    split <;> exact ⟨rfl, rfl, rfl, rfl, rfl, rfl, rfl⟩
  simp only [Ppu.backgroundPipeline]
  split
  · obtain ⟨a1, a2, a3, a4, a5, a6, a7⟩ := h1 (p.shiftLoad.fetchTile cfg m)
    obtain ⟨b1, b2, b3, b4, b5, b6, b7⟩ := h2 p.shiftLoad
    exact ⟨a1.trans b1, a2.trans b2, a3.trans b3, a4.trans b4, a5.trans b5, a6.trans b6, a7.trans b7⟩
  · exact h1 p.shiftLoad

theorem Ppu.writeSec_kept (p : Ppu) (i : Nat) (v : Byte) : p.Kept (p.writeSec i v) := by constructor <;> rfl

theorem Ppu.evalStep_kept (p : Ppu) : p.Kept p.evalStep := by
  simp only [Ppu.evalStep]
  split
  · split <;> constructor <;> rfl
  · split <;> constructor <;> rfl
  · split <;> constructor <;> rfl
  · exact Ppu.Kept.refl _

theorem Ppu.handOver_kept (p : Ppu) : p.Kept p.handOver := by constructor <;> rfl

/-- Sprite evaluation leaves OAM, the registers and the counters alone (R369). -/
theorem Ppu.spriteEvaluation_kept (p : Ppu) : p.Kept p.spriteEvaluation := by
  have h3 : ∀ (q : Ppu) (c : Prop) [Decidable c], q.Kept (if c then q.handOver else q) := by
    intro q c _
    split
    · exact q.handOver_kept
    · exact Ppu.Kept.refl _
  have h2 : ∀ (q : Ppu) (c : Prop) [Decidable c], q.Kept (if c then q.evalStep else q) := by
    intro q c _
    split
    · exact q.evalStep_kept
    · exact Ppu.Kept.refl _
  have h1 : ∀ (q : Ppu) (c : Prop) [Decidable c], q.Kept (if c then { q with eval := q.eval.start } else q) := by
    intro q c _
    split <;> constructor <;> rfl
  have h0 : ∀ (q : Ppu) (c : Prop) [Decidable c] (i : Nat), q.Kept (if c then q.writeSec i 0xFF else q) := by
    intro q c _ i
    split
    · exact q.writeSec_kept i 0xFF
    · exact Ppu.Kept.refl _
  exact (((h0 p _ _).trans (h1 _ _)).trans (h2 _ _)).trans (h3 _ _)

/-! ### What a tick leaves alone in the machine -/

/-- `t` is `s` but for the PPU, the picture and the free-value counter. -/
structure State.PpuOnly (s t : State) : Prop where
  a : t.a = s.a
  x : t.x = s.x
  y : t.y = s.y
  sp : t.sp = s.sp
  p : t.p = s.p
  pc : t.pc = s.pc
  context : t.context = s.context
  cyc : t.cyc = s.cyc
  mapper : t.mapper = s.mapper
  io : t.io = s.io
  pads : t.pads = s.pads
  cfg : t.cfg = s.cfg
  keys : t.keys = s.keys
  frames : t.frames = s.frames

theorem State.PpuOnly.refl (s : State) : s.PpuOnly s := by constructor <;> rfl

theorem State.PpuOnly.trans {s t u : State} (h : s.PpuOnly t) (h' : t.PpuOnly u) : s.PpuOnly u where
  a := h'.a.trans h.a
  x := h'.x.trans h.x
  y := h'.y.trans h.y
  sp := h'.sp.trans h.sp
  p := h'.p.trans h.p
  pc := h'.pc.trans h.pc
  context := h'.context.trans h.context
  cyc := h'.cyc.trans h.cyc
  mapper := h'.mapper.trans h.mapper
  io := h'.io.trans h.io
  pads := h'.pads.trans h.pads
  cfg := h'.cfg.trans h.cfg
  keys := h'.keys.trans h.keys
  frames := h'.frames.trans h.frames

theorem State.setPpu_only (s : State) (p : Ppu) : s.PpuOnly (s.setPpu p) := by constructor <;> rfl

/-- Loading a sprite unit changes the unit only, and the free-value counter (R375). -/
theorem State.loadUnit_kept (i : Fin 8) (s : State) :
    s.PpuOnly (s.loadUnit i) ∧ s.ppu.Kept (s.loadUnit i).ppu ∧ (s.loadUnit i).pixels = s.pixels := by
  simp only [State.loadUnit]
  split
  · exact ⟨by constructor <;> rfl, by constructor <;> rfl, rfl⟩
  · exact ⟨by constructor <;> rfl, by constructor <;> rfl, rfl⟩

/-- Loading a sprite unit leaves the rest of the sprite machinery alone (R375). -/
theorem State.loadUnit_rest (i : Fin 8) (s : State) :
    (s.loadUnit i).ppu.eval = s.ppu.eval ∧ (s.loadUnit i).ppu.spriteCount = s.ppu.spriteCount ∧
      (s.loadUnit i).ppu.zeroLine = s.ppu.zeroLine ∧ (s.loadUnit i).ppu.secOam = s.ppu.secOam ∧
      (s.loadUnit i).ppu.bg = s.ppu.bg ∧ (s.loadUnit i).ppu.v = s.ppu.v ∧
      (s.loadUnit i).ppu.sprite0 = s.ppu.sprite0 ∧ (s.loadUnit i).ppu.overflow = s.ppu.overflow := by
  simp only [State.loadUnit]
  split
  · exact ⟨rfl, rfl, rfl, rfl, rfl, rfl, rfl, rfl⟩
  · exact ⟨rfl, rfl, rfl, rfl, rfl, rfl, rfl, rfl⟩

/-- The sprite pipeline leaves everything but the PPU's sprite machinery alone (R369). -/
theorem State.spritePipeline_kept (r : Bool) (s : State) :
    s.PpuOnly (s.spritePipeline r) ∧ s.ppu.Kept (s.spritePipeline r).ppu ∧ (s.spritePipeline r).pixels = s.pixels := by
  simp only [State.spritePipeline]
  split
  · split
    · exact ⟨s.setPpu_only _, by constructor <;> rfl, rfl⟩
    · exact ⟨State.PpuOnly.refl s, Ppu.Kept.refl _, rfl⟩
  · have h0 : s.PpuOnly (s.setPpu s.ppu.spriteEvaluation) := s.setPpu_only _
    have h1 : s.ppu.Kept (s.setPpu s.ppu.spriteEvaluation).ppu := s.ppu.spriteEvaluation_kept
    split
    · split
      · obtain ⟨a, b, c⟩ := State.loadUnit_kept (Fin.ofNat 8 (((s.setPpu s.ppu.spriteEvaluation).ppu.cycle - 264) / 8))
          (s.setPpu s.ppu.spriteEvaluation)
        exact ⟨h0.trans a, h1.trans b, c⟩
      · exact ⟨h0, h1, rfl⟩
    · exact ⟨h0, h1, rfl⟩

/-- The sprite pipeline leaves `v`, the latches and the shift registers alone (R369). -/
theorem State.spritePipeline_background (r : Bool) (s : State) :
    (s.spritePipeline r).ppu.bg = s.ppu.bg ∧ (s.spritePipeline r).ppu.v = s.ppu.v := by
  have he : ∀ p : Ppu, p.evalStep.bg = p.bg ∧ p.evalStep.v = p.v := by
    intro p
    simp only [Ppu.evalStep]
    split
    · split <;> exact ⟨rfl, rfl⟩
    · split <;> exact ⟨rfl, rfl⟩
    · split <;> exact ⟨rfl, rfl⟩
    · exact ⟨rfl, rfl⟩
  have h0 : ∀ p : Ppu, p.spriteEvaluation.bg = p.bg ∧ p.spriteEvaluation.v = p.v := by
    intro p
    simp only [Ppu.spriteEvaluation]
    split <;> split <;> split <;> split <;>
      first
        | exact ⟨rfl, rfl⟩
        | exact he _
  simp only [State.spritePipeline]
  split
  · split <;> exact ⟨rfl, rfl⟩
  · split
    · split
      · obtain ⟨-, -, -, -, hb, hv, -⟩ :=
          State.loadUnit_rest (Fin.ofNat 8 (((s.setPpu s.ppu.spriteEvaluation).ppu.cycle - 264) / 8))
            (s.setPpu s.ppu.spriteEvaluation)
        exact ⟨hb.trans (h0 _).1, hv.trans (h0 _).2⟩
      · exact h0 _
    · exact h0 _

/-- Drawing changes the picture and the hit flag only (R378). -/
theorem State.draw_kept (s : State) :
    s.PpuOnly s.draw ∧ s.ppu.Kept s.draw.ppu ∧ s.draw.ppu.bg = s.ppu.bg ∧ s.draw.ppu.v = s.ppu.v := by
  refine ⟨?_, ?_, rfl, rfl⟩ <;> constructor <;> rfl

/-- The background half of a rendering tick (R350). -/
def State.backgroundTick (s : State) : State :=
  if s.ppu.rendering then s.setPpu (s.ppu.backgroundPipeline s.cfg s.mapper) else s

/-- The compositor's half of a rendering tick: draw on the visible pixels (R350). -/
def State.drawTick (s : State) : State :=
  if 0 ≤ s.ppu.scanline ∧ 1 ≤ s.ppu.cycle ∧ s.ppu.cycle ≤ 256 then s.draw else s

theorem State.renderTick_eq (s : State) :
    s.renderTick = (s.backgroundTick.spritePipeline s.ppu.rendering).drawTick := rfl

theorem State.backgroundTick_kept (s : State) :
    s.PpuOnly s.backgroundTick ∧ s.ppu.Kept s.backgroundTick.ppu ∧ s.backgroundTick.pixels = s.pixels := by
  unfold State.backgroundTick
  split
  · exact ⟨s.setPpu_only _, s.ppu.backgroundPipeline_kept s.cfg s.mapper, rfl⟩
  · exact ⟨State.PpuOnly.refl s, Ppu.Kept.refl _, rfl⟩

theorem State.drawTick_kept (s : State) :
    s.PpuOnly s.drawTick ∧ s.ppu.Kept s.drawTick.ppu ∧ s.drawTick.ppu.bg = s.ppu.bg ∧ s.drawTick.ppu.v = s.ppu.v := by
  unfold State.drawTick
  split
  · exact s.draw_kept
  · exact ⟨State.PpuOnly.refl s, Ppu.Kept.refl _, rfl, rfl⟩

/-- The pipelines and the compositor leave everything but the PPU and the picture alone (R350). -/
theorem State.renderTick_kept (s : State) : s.PpuOnly s.renderTick ∧ s.ppu.Kept s.renderTick.ppu := by
  rw [State.renderTick_eq]
  obtain ⟨a, b, -⟩ := s.backgroundTick_kept
  obtain ⟨c, d, -⟩ := State.spritePipeline_kept s.ppu.rendering s.backgroundTick
  obtain ⟨e, f, -⟩ := State.drawTick_kept (s.backgroundTick.spritePipeline s.ppu.rendering)
  exact ⟨(a.trans c).trans e, (b.trans d).trans f⟩

/-- With rendering disabled the pipelines leave the latches, the shift registers and `v` alone (R314, R350). -/
theorem State.renderTick_disabled (s : State) (h : s.ppu.rendering = false) :
    s.renderTick.ppu.bg = s.ppu.bg ∧ s.renderTick.ppu.v = s.ppu.v := by
  rw [State.renderTick_eq]
  have e : s.backgroundTick = s := by simp [State.backgroundTick, h]
  rw [e]
  obtain ⟨-, -, a, b⟩ := State.drawTick_kept (s.spritePipeline s.ppu.rendering)
  obtain ⟨c, d⟩ := State.spritePipeline_background s.ppu.rendering s
  exact ⟨a.trans c, b.trans d⟩

/-- Advancing changes the counters and the parity only (R351, R352). -/
theorem Ppu.advance_rest (p : Ppu) :
    p.advance.ctrl = p.ctrl ∧ p.advance.mask = p.mask ∧ p.advance.vblank = p.vblank ∧ p.advance.sprite0 = p.sprite0 ∧
      p.advance.overflow = p.overflow ∧ p.advance.oamaddr = p.oamaddr ∧ p.advance.v = p.v ∧ p.advance.t = p.t ∧
      p.advance.fineX = p.fineX ∧ p.advance.w = p.w ∧ p.advance.bg = p.bg ∧ p.advance.eval = p.eval ∧
      p.advance.units = p.units ∧ p.advance.spriteCount = p.spriteCount ∧ p.advance.zeroLine = p.zeroLine ∧
      p.advance.oam = p.oam ∧ p.advance.secOam = p.secOam := by
  unfold Ppu.advance
  split
  · exact ⟨rfl, rfl, rfl, rfl, rfl, rfl, rfl, rfl, rfl, rfl, rfl, rfl, rfl, rfl, rfl, rfl, rfl⟩
  · split
    · split <;> exact ⟨rfl, rfl, rfl, rfl, rfl, rfl, rfl, rfl, rfl, rfl, rfl, rfl, rfl, rfl, rfl, rfl, rfl⟩
    · exact ⟨rfl, rfl, rfl, rfl, rfl, rfl, rfl, rfl, rfl, rfl, rfl, rfl, rfl, rfl, rfl, rfl, rfl⟩

/-- Where the counters go depends on the counters and the parity alone. -/
theorem Ppu.advance_congr {p q : Ppu} (hc : q.cycle = p.cycle) (hs : q.scanline = p.scanline)
    (ho : q.oddFrame = p.oddFrame) :
    q.advance.cycle = p.advance.cycle ∧ q.advance.scanline = p.advance.scanline ∧
      q.advance.oddFrame = p.advance.oddFrame := by
  simp only [Ppu.advance, hc, hs, ho]
  split
  · exact ⟨rfl, rfl, rfl⟩
  · split
    · split <;> exact ⟨rfl, rfl, rfl⟩
    · exact ⟨rfl, rfl, rfl⟩

/-- The first part of a tick: the flags cleared at (−1, 1) (R354). -/
def State.clearTick (s : State) : State :=
  if s.ppu.scanline = -1 ∧ s.ppu.cycle = 1 then s.setPpu s.ppu.clearFlags else s

/-- The second part of a tick: the vertical blank begun at (241, 1) (R350). -/
def State.vblankTick (s : State) : State :=
  if s.ppu.scanline = 241 ∧ s.ppu.cycle = 1 then s.vblankStart else s

/-- The third part of a tick: the pipelines and the compositor on lines −1 to 239 (R350). -/
def State.lineTick (s : State) : State :=
  if -1 ≤ s.ppu.scanline ∧ s.ppu.scanline ≤ 239 then s.renderTick else s

/-- The state just before the counters advance (R350). -/
def State.beforeAdvance (s : State) : State := s.clearTick.vblankTick.lineTick

theorem ppuTick_eq (s : State) : ppuTick s = s.beforeAdvance.setPpu s.beforeAdvance.ppu.advance := rfl

theorem State.clearTick_position (s : State) :
    s.clearTick.ppu.scanline = s.ppu.scanline ∧ s.clearTick.ppu.cycle = s.ppu.cycle := by
  unfold State.clearTick
  split <;> exact ⟨rfl, rfl⟩

theorem State.vblankStart_position (s : State) :
    s.vblankStart.ppu.scanline = s.ppu.scanline ∧ s.vblankStart.ppu.cycle = s.ppu.cycle := by
  simp only [State.vblankStart]
  split <;> exact ⟨rfl, rfl⟩

/-- On lines 240 to 260 but for (241, 1), nothing happens before the counters advance (R350, R353). -/
theorem State.beforeAdvance_idle {s : State} (h : s.ppu.scanline < -1 ∨ 240 ≤ s.ppu.scanline)
    (hv : ¬(s.ppu.scanline = 241 ∧ s.ppu.cycle = 1)) : s.beforeAdvance = s := by
  have h1 : s.clearTick = s := if_neg (by omega)
  have h2 : s.vblankTick = s := if_neg hv
  have h3 : s.lineTick = s := if_neg (by omega)
  rw [State.beforeAdvance, h1, h2, h3]

/-- At (241, 1) the vertical blank begins (R350). -/
theorem State.beforeAdvance_vblank {s : State} (h : s.ppu.scanline = 241) (hc : s.ppu.cycle = 1) :
    s.beforeAdvance = s.vblankStart := by
  have h1 : s.clearTick = s := if_neg (by omega)
  have h2 : s.vblankTick = s.vblankStart := if_pos ⟨h, hc⟩
  have h3 : s.vblankStart.lineTick = s.vblankStart := if_neg (by rw [s.vblankStart_position.1]; omega)
  rw [State.beforeAdvance, h1, h2, h3]

/-- On lines −1 to 239 the pipelines run, after the flags are cleared at (−1, 1) (R350, R354). -/
theorem State.beforeAdvance_render {s : State} (h : -1 ≤ s.ppu.scanline) (h' : s.ppu.scanline ≤ 239) :
    s.beforeAdvance = s.clearTick.renderTick := by
  obtain ⟨hs, -⟩ := s.clearTick_position
  have h2 : s.clearTick.vblankTick = s.clearTick := if_neg (by rw [hs]; omega)
  have h3 : s.clearTick.lineTick = s.clearTick.renderTick := if_pos (by rw [hs]; exact ⟨h, h'⟩)
  rw [State.beforeAdvance, h2, h3]

/-- Every tick is one of four kinds: it begins the vertical blank, it clears the flags and renders, it renders, or it
only moves the counters. -/
theorem State.beforeAdvance_cases (s : State) :
    (s.ppu.scanline = 241 ∧ s.ppu.cycle = 1 ∧ s.beforeAdvance = s.vblankStart) ∨
      (s.ppu.scanline = -1 ∧ s.ppu.cycle = 1 ∧ s.beforeAdvance = (s.setPpu s.ppu.clearFlags).renderTick) ∨
      (-1 ≤ s.ppu.scanline ∧ s.ppu.scanline ≤ 239 ∧ ¬(s.ppu.scanline = -1 ∧ s.ppu.cycle = 1) ∧
        s.beforeAdvance = s.renderTick) ∨
      ((s.ppu.scanline < -1 ∨ 240 ≤ s.ppu.scanline) ∧ ¬(s.ppu.scanline = 241 ∧ s.ppu.cycle = 1) ∧
        s.beforeAdvance = s) := by
  by_cases hv : s.ppu.scanline = 241 ∧ s.ppu.cycle = 1
  · exact .inl ⟨hv.1, hv.2, State.beforeAdvance_vblank hv.1 hv.2⟩
  right
  by_cases hr : -1 ≤ s.ppu.scanline ∧ s.ppu.scanline ≤ 239
  · have h := State.beforeAdvance_render hr.1 hr.2
    by_cases hp : s.ppu.scanline = -1 ∧ s.ppu.cycle = 1
    · rw [show s.clearTick = s.setPpu s.ppu.clearFlags from if_pos hp] at h
      exact .inl ⟨hp.1, hp.2, h⟩
    · rw [show s.clearTick = s from if_neg hp] at h
      exact .inr (.inl ⟨hr.1, hr.2, hp, h⟩)
  · right
    right
    have : s.ppu.scanline < -1 ∨ 240 ≤ s.ppu.scanline := by omega
    exact ⟨this, hv, State.beforeAdvance_idle this hv⟩

end Sys2Proof.Machine
end

