-- ==== Sys2Proof/Laws/Vram.lean ====
section
/-! SUPPORT. The laws of VRAM addresses: replacing fields, and each field as a slice of bits. -/

namespace Sys2Proof.Machine

/-- A bit of an address with some bits replaced. -/
theorem getLsbD_putField (v mask b : VramAddr) (i : Nat) :
    (putField v mask b).getLsbD i = if mask.getLsbD i then b.getLsbD i else v.getLsbD i := by
  rcases Nat.lt_or_ge i 15 with h | h
  · simp only [putField, BitVec.getLsbD_or, BitVec.getLsbD_and, BitVec.getLsbD_not, h, decide_true, Bool.true_and]
    cases mask.getLsbD i <;> simp
  · simp [BitVec.getLsbD_of_ge _ _ h]

theorem coarseX_eq (v : VramAddr) : coarseX v = (v.extractLsb' 0 5).toNat := by
  simp [coarseX, Nat.shiftRight_eq_div_pow]

theorem coarseY_eq (v : VramAddr) : coarseY v = (v.extractLsb' 5 5).toNat := by
  simp [coarseY, Nat.shiftRight_eq_div_pow]

theorem nametableX_eq (v : VramAddr) : nametableX v = (v.extractLsb' 10 1).toNat := by
  simp [nametableX, Nat.shiftRight_eq_div_pow]

theorem nametableY_eq (v : VramAddr) : nametableY v = (v.extractLsb' 11 1).toNat := by
  simp [nametableY, Nat.shiftRight_eq_div_pow]

theorem fineY_eq (v : VramAddr) : fineY v = (v.extractLsb' 12 3).toNat := by
  have := v.isLt
  simp [fineY, Nat.shiftRight_eq_div_pow]
  omega

/-- A slice that a mask does not touch is kept. -/
theorem extract_putField_other {v mask b : VramAddr} {lo n : Nat} (h : mask.extractLsb' lo n = 0) :
    (putField v mask b).extractLsb' lo n = v.extractLsb' lo n := by
  apply BitVec.eq_of_getLsbD_eq
  intro i hi
  have hm : mask.getLsbD (lo + i) = false := by
    have := congrArg (fun x => x.getLsbD i) h
    simpa [hi] using this
  simp only [BitVec.getLsbD_extractLsb', getLsbD_putField, hm]
  rfl

/-- A slice that a mask covers is replaced. -/
theorem extract_putField_same {v mask b : VramAddr} {lo n : Nat} (h : mask.extractLsb' lo n = BitVec.allOnes n) :
    (putField v mask b).extractLsb' lo n = b.extractLsb' lo n := by
  apply BitVec.eq_of_getLsbD_eq
  intro i hi
  have hm : mask.getLsbD (lo + i) = true := by
    have := congrArg (fun x => x.getLsbD i) h
    simpa [hi] using this
  simp only [BitVec.getLsbD_extractLsb', getLsbD_putField, hm, if_true]

/-- The bits of a byte put at a place of an address. -/
theorem extract_shiftLeft (d : Byte) {k lo n : Nat} (hk : k ≤ lo) (h : lo + n ≤ 15) :
    (d.setWidth 15 <<< k : VramAddr).extractLsb' lo n = d.extractLsb' (lo - k) n := by
  apply BitVec.eq_of_getLsbD_eq
  intro i hi
  have h1 : lo + i < 15 := by omega
  have h2 : ¬lo + i < k := by omega
  have h3 : lo + i - k = lo - k + i := by omega
  have h4 : lo - k + i < 15 := by omega
  simp only [BitVec.getLsbD_extractLsb', BitVec.getLsbD_shiftLeft, BitVec.getLsbD_setWidth, hi, h1, h2, h3, h4,
    decide_true, decide_false, Bool.true_and, Bool.not_false]

/-- Adding to a field that does not overflow changes that field only: here coarse X. -/
theorem fields_add_one {v : VramAddr} (h : coarseX v < 31) :
    coarseX (v + 1) = coarseX v + 1 ∧ coarseY (v + 1) = coarseY v ∧ nametableX (v + 1) = nametableX v ∧
      nametableY (v + 1) = nametableY v ∧ fineY (v + 1) = fineY v := by
  have hv := v.isLt
  have e : (v + 1).toNat = (v.toNat + 1) % 32768 := BitVec.toNat_add v 1
  simp only [coarseX, coarseY, nametableX, nametableY, fineY] at h ⊢
  omega

/-- Adding one row changes coarse Y only, when it is below 31. -/
theorem fields_add_row {v : VramAddr} (h : coarseY v < 31) :
    coarseX (v + 0x0020) = coarseX v ∧ coarseY (v + 0x0020) = coarseY v + 1 ∧ nametableX (v + 0x0020) = nametableX v ∧
      nametableY (v + 0x0020) = nametableY v ∧ fineY (v + 0x0020) = fineY v := by
  have hv := v.isLt
  have e : (v + 0x0020).toNat = (v.toNat + 0x20) % 32768 := BitVec.toNat_add v 0x0020
  simp only [coarseX, coarseY, nametableX, nametableY, fineY] at h ⊢
  omega

/-- Adding one fine row changes fine Y only, when it is below 7. -/
theorem fields_add_fine {v : VramAddr} (h : fineY v < 7) :
    coarseX (v + 0x1000) = coarseX v ∧ coarseY (v + 0x1000) = coarseY v ∧ nametableX (v + 0x1000) = nametableX v ∧
      nametableY (v + 0x1000) = nametableY v ∧ fineY (v + 0x1000) = fineY v + 1 := by
  have hv := v.isLt
  have e : (v + 0x1000).toNat = (v.toNat + 0x1000) % 32768 := BitVec.toNat_add v 0x1000
  simp only [coarseX, coarseY, nametableX, nametableY, fineY] at h ⊢
  omega

/-- A slice whose bits are not among those cleared is kept. -/
theorem extract_clear_other {v mask : VramAddr} {lo n : Nat} (h : (~~~mask).extractLsb' lo n = BitVec.allOnes n) :
    (v &&& ~~~mask).extractLsb' lo n = v.extractLsb' lo n := by
  rw [BitVec.extractLsb'_and, h, BitVec.and_allOnes]

/-- A slice whose bits are all cleared is zero. -/
theorem extract_clear_same {v mask : VramAddr} {lo n : Nat} (h : (~~~mask).extractLsb' lo n = 0) :
    (v &&& ~~~mask).extractLsb' lo n = 0 := by
  rw [BitVec.extractLsb'_and, h]
  simp

/-- A slice whose bits are not among those flipped is kept. -/
theorem extract_flip_other {v mask : VramAddr} {lo n : Nat} (h : mask.extractLsb' lo n = 0) :
    (v ^^^ mask).extractLsb' lo n = v.extractLsb' lo n := by
  rw [BitVec.extractLsb'_xor, h]
  simp

/-- A bit that is flipped. -/
theorem extract_flip_same {v mask : VramAddr} {lo : Nat} (h : mask.extractLsb' lo 1 = 1) :
    ((v ^^^ mask).extractLsb' lo 1).toNat = 1 - (v.extractLsb' lo 1).toNat := by
  rw [BitVec.extractLsb'_xor, h]
  generalize v.extractLsb' lo 1 = b
  revert b
  decide

end Sys2Proof.Machine
end

