-- ==== Sys2Proof/Laws/Background.lean ====
section
/-! SUPPORT. The laws of the background in a tick: what the parts of a tick hand to it (R350), the shift registers, the
latches and `v` (R355, R356), and the fetch addresses as numbers (R357 to R359). -/

namespace Sys2Proof.Machine

/-! ### The parts of a tick -/

/-- The state a line's tick draws from: flags cleared at (−1, 1), then the two pipelines (R350). -/
def State.piped (s : State) : State := s.clearTick.backgroundTick.spritePipeline s.ppu.rendering

/-- The pipelines' results survive to the end of the tick: drawing touches the picture and `sprite0`, and advancing the
counters (R350). -/
theorem ppuTick_piped {s : State} (h : -1 ≤ s.ppu.scanline) (h' : s.ppu.scanline ≤ 239) :
    (ppuTick s).ppu.bg = s.piped.ppu.bg ∧ (ppuTick s).ppu.v = s.piped.ppu.v ∧
    (ppuTick s).ppu.eval = s.piped.ppu.eval ∧ (ppuTick s).ppu.units = s.piped.ppu.units ∧
    (ppuTick s).ppu.spriteCount = s.piped.ppu.spriteCount ∧ (ppuTick s).ppu.zeroLine = s.piped.ppu.zeroLine ∧
    (ppuTick s).ppu.secOam = s.piped.ppu.secOam ∧ (ppuTick s).ppu.overflow = s.piped.ppu.overflow := by
  have hr : s.clearTick.ppu.rendering = s.ppu.rendering := by
    unfold State.clearTick
    split <;> rfl
  have hb : s.beforeAdvance = s.piped.drawTick := by
    rw [State.beforeAdvance_render h h', State.renderTick_eq, hr]
    rfl
  rw [ppuTick_eq, hb]
  obtain ⟨-, -, -, -, h1, -, h2, -, -, -, h3, h4, h5, h6, h7, -, h8⟩ := Ppu.advance_rest s.piped.drawTick.ppu
  have hd : ∀ t : State, t.drawTick.ppu.bg = t.ppu.bg ∧ t.drawTick.ppu.v = t.ppu.v ∧ t.drawTick.ppu.eval = t.ppu.eval ∧
      t.drawTick.ppu.units = t.ppu.units ∧ t.drawTick.ppu.spriteCount = t.ppu.spriteCount ∧
      t.drawTick.ppu.zeroLine = t.ppu.zeroLine ∧ t.drawTick.ppu.secOam = t.ppu.secOam ∧
      t.drawTick.ppu.overflow = t.ppu.overflow := by
    intro t
    unfold State.drawTick
    split <;> exact ⟨rfl, rfl, rfl, rfl, rfl, rfl, rfl, rfl⟩
  obtain ⟨g1, g2, g3, g4, g5, g6, g7, g8⟩ := hd s.piped
  exact ⟨h3.trans g1, h2.trans g2, h4.trans g3, h5.trans g4, h6.trans g5, h7.trans g6, h8.trans g7, h1.trans g8⟩

/-- On lines 240 to 260 a tick leaves the pipelines' state alone (R350). -/
theorem ppuTick_idle {s : State} (h : s.ppu.scanline < -1 ∨ 239 < s.ppu.scanline) :
    (ppuTick s).ppu.bg = s.ppu.bg ∧ (ppuTick s).ppu.v = s.ppu.v ∧ (ppuTick s).ppu.eval = s.ppu.eval ∧
    (ppuTick s).ppu.units = s.ppu.units ∧ (ppuTick s).ppu.spriteCount = s.ppu.spriteCount ∧
    (ppuTick s).ppu.zeroLine = s.ppu.zeroLine ∧ (ppuTick s).ppu.secOam = s.ppu.secOam ∧
    (ppuTick s).ppu.sprite0 = s.ppu.sprite0 := by
  rw [ppuTick_eq]
  obtain ⟨-, -, -, h0, -, -, h2, -, -, -, h3, h4, h5, h6, h7, -, h8⟩ := Ppu.advance_rest s.beforeAdvance.ppu
  have hb : s.beforeAdvance = s ∨ s.beforeAdvance = s.vblankStart := by
    rcases s.beforeAdvance_cases with ⟨-, -, e⟩ | ⟨a, -, -⟩ | ⟨a, b, -, -⟩ | ⟨-, -, e⟩
    · exact .inr e
    · omega
    · omega
    · exact .inl e
  have hv : ∀ t : State, t = s ∨ t = s.vblankStart → t.ppu.bg = s.ppu.bg ∧ t.ppu.v = s.ppu.v ∧ t.ppu.eval = s.ppu.eval ∧
      t.ppu.units = s.ppu.units ∧ t.ppu.spriteCount = s.ppu.spriteCount ∧ t.ppu.zeroLine = s.ppu.zeroLine ∧
      t.ppu.secOam = s.ppu.secOam ∧ t.ppu.sprite0 = s.ppu.sprite0 := by
    rintro t (rfl | rfl)
    · exact ⟨rfl, rfl, rfl, rfl, rfl, rfl, rfl, rfl⟩
    · simp only [State.vblankStart]
      split <;> exact ⟨rfl, rfl, rfl, rfl, rfl, rfl, rfl, rfl⟩
  obtain ⟨g1, g2, g3, g4, g5, g6, g7, g8⟩ := hv _ hb
  exact ⟨h3.trans g1, h2.trans g2, h4.trans g3, h5.trans g4, h6.trans g5, h7.trans g6, h8.trans g7, h0.trans g8⟩

/-! ### The background pipeline in a tick -/

/-- The scroll updates change `v` only (R355). -/
theorem Ppu.scrollUpdate_eq (p : Ppu) :
    p.scrollUpdate =
      { p with v :=
          if p.cycle = 256 then incY p.v
          else if p.cycle = 257 then copyX p.v p.t
          else if p.scanline = -1 ∧ 280 ≤ p.cycle ∧ p.cycle ≤ 304 then copyY p.v p.t
          else p.v } := by
  by_cases h1 : p.cycle = 256
  · simp [Ppu.scrollUpdate, h1]
  by_cases h2 : p.cycle = 257
  · simp [Ppu.scrollUpdate, h2]
  by_cases h3 : p.scanline = -1 ∧ 280 ≤ p.cycle ∧ p.cycle ≤ 304
  · simp [Ppu.scrollUpdate, h1, h2, h3]
  · simp [Ppu.scrollUpdate, h1, h2, h3]

/-- The shift registers after a pipeline cycle (R355, R356). -/
theorem Ppu.shiftLoad_eq (p : Ppu) :
    p.shiftLoad =
      { p with bg :=
          if p.Shifts then (if p.Loads then p.bg.shift.load else p.bg.shift)
          else if p.Loads then p.bg.load else p.bg } := by
  by_cases h1 : p.Shifts <;> by_cases h2 : p.Loads <;> simp [Ppu.shiftLoad, h1, h2]

/-- The fetch of a pipeline cycle changes one latch, or `v` (R355). -/
theorem Ppu.fetchTile_eq (cfg : Config) (m : Mapper) (p : Ppu) :
    p.fetchTile cfg m =
      { p with
        bg :=
          { p.bg with
            ntLatch := if (p.cycle - 1) % 8 = 0 then ppuRead cfg m (ntAddr p.v) else p.bg.ntLatch
            atLatch := if (p.cycle - 1) % 8 = 2 then attrBits (ppuRead cfg m (atAddr p.v)) p.v else p.bg.atLatch
            patLoLatch := if (p.cycle - 1) % 8 = 4 then ppuRead cfg m p.patAddr else p.bg.patLoLatch
            patHiLatch := if (p.cycle - 1) % 8 = 6 then ppuRead cfg m (p.patAddr + 8) else p.bg.patHiLatch }
        v := if (p.cycle - 1) % 8 = 7 then incX p.v else p.v } := by
  unfold Ppu.fetchTile
  generalize (p.cycle - 1) % 8 = k
  split <;> simp_all

/-- A shift or a load leaves the latches alone (R356). -/
theorem Ppu.shiftLoad_latches (p : Ppu) :
    p.shiftLoad.bg.ntLatch = p.bg.ntLatch ∧ p.shiftLoad.bg.atLatch = p.bg.atLatch ∧
    p.shiftLoad.bg.patLoLatch = p.bg.patLoLatch ∧ p.shiftLoad.bg.patHiLatch = p.bg.patHiLatch := by
  rw [Ppu.shiftLoad_eq]
  show Background.ntLatch (if _ then _ else _) = _ ∧ Background.atLatch (if _ then _ else _) = _ ∧
    Background.patLoLatch (if _ then _ else _) = _ ∧ Background.patHiLatch (if _ then _ else _) = _
  split <;> split <;> exact ⟨rfl, rfl, rfl, rfl⟩

/-- What the background pipeline changes: its latches by the fetch pattern, its shift registers, and `v` (R355). -/
theorem Ppu.backgroundPipeline_eq (cfg : Config) (m : Mapper) (p : Ppu) :
    p.backgroundPipeline cfg m =
      { p with
        bg :=
          { p.shiftLoad.bg with
            ntLatch := if p.Fetches 0 then ppuRead cfg m (ntAddr p.v) else p.bg.ntLatch
            atLatch := if p.Fetches 2 then attrBits (ppuRead cfg m (atAddr p.v)) p.v else p.bg.atLatch
            patLoLatch := if p.Fetches 4 then ppuRead cfg m p.patAddr else p.bg.patLoLatch
            patHiLatch := if p.Fetches 6 then ppuRead cfg m (p.patAddr + 8) else p.bg.patHiLatch }
        v :=
          if p.cycle = 256 then incY (incX p.v)
          else if p.cycle = 257 then copyX p.v p.t
          else if p.scanline = -1 ∧ 280 ≤ p.cycle ∧ p.cycle ≤ 304 then copyY p.v p.t
          else if p.Fetches 7 then incX p.v
          else p.v } := by
  obtain ⟨l1, l2, l3, l4⟩ := p.shiftLoad_latches
  have ha : p.shiftLoad.patAddr = p.patAddr := by
    rw [Ppu.patAddr, l1]
    rfl
  unfold Ppu.backgroundPipeline
  by_cases hw : (1 ≤ p.cycle ∧ p.cycle ≤ 256) ∨ (321 ≤ p.cycle ∧ p.cycle ≤ 336)
  · have hf : ∀ k, p.Fetches k ↔ (p.cycle - 1) % 8 = k := fun k => and_iff_right hw
    have e : (if (1 ≤ p.shiftLoad.cycle ∧ p.shiftLoad.cycle ≤ 256) ∨ (321 ≤ p.shiftLoad.cycle ∧ p.shiftLoad.cycle ≤ 336)
        then p.shiftLoad.fetchTile cfg m else p.shiftLoad) = p.shiftLoad.fetchTile cfg m := if_pos hw
    simp only [e, hf]
    rw [Ppu.fetchTile_eq, Ppu.scrollUpdate_eq, Ppu.mk.injEq, Background.mk.injEq]
    refine ⟨rfl, rfl, rfl, rfl, rfl, rfl, ?_, rfl, rfl, rfl, rfl, rfl, rfl, ⟨?_, ?_, ?_, ?_, rfl, rfl, rfl, rfl⟩, rfl, rfl,
      rfl, rfl, rfl, rfl⟩
    · show (if p.cycle = 256 then incY (if (p.cycle - 1) % 8 = 7 then incX p.v else p.v)
        else if p.cycle = 257 then copyX (if (p.cycle - 1) % 8 = 7 then incX p.v else p.v) p.t
        else if p.scanline = -1 ∧ 280 ≤ p.cycle ∧ p.cycle ≤ 304 then
          copyY (if (p.cycle - 1) % 8 = 7 then incX p.v else p.v) p.t
        else (if (p.cycle - 1) % 8 = 7 then incX p.v else p.v)) = _
      by_cases h1 : p.cycle = 256
      · simp [h1]
      · have h2 : ¬p.cycle = 257 := by omega
        have h3 : ¬(p.scanline = -1 ∧ 280 ≤ p.cycle ∧ p.cycle ≤ 304) := by omega
        simp only [h1, h2, h3, if_false]
    · exact congrArg (ite _ _) l1
    · exact congrArg (ite _ _) l2
    · rw [ha, l3]
      rfl
    · rw [ha, l4]
      rfl
  · have hf : ∀ k, ¬p.Fetches k := fun k h => hw h.1
    have e : (if (1 ≤ p.shiftLoad.cycle ∧ p.shiftLoad.cycle ≤ 256) ∨ (321 ≤ p.shiftLoad.cycle ∧ p.shiftLoad.cycle ≤ 336)
        then p.shiftLoad.fetchTile cfg m else p.shiftLoad) = p.shiftLoad := if_neg hw
    simp only [e, hf, if_false]
    rw [Ppu.scrollUpdate_eq, Ppu.mk.injEq]
    refine ⟨rfl, rfl, rfl, rfl, rfl, rfl, ?_, rfl, rfl, rfl, rfl, rfl, rfl, ?_, rfl, rfl, rfl, rfl, rfl, rfl⟩
    · have h1 : ¬p.cycle = 256 := by omega
      exact (if_neg h1).trans (if_neg h1).symm
    · rw [Background.mk.injEq]
      exact ⟨l1, l2, l3, l4, rfl, rfl, rfl, rfl⟩

/-- With rendering enabled, a tick of lines −1 to 239 leaves the background state the pipeline makes of it (R355). -/
theorem ppuTick_background {s : State} (hr : s.ppu.rendering = true) (h : -1 ≤ s.ppu.scanline)
    (h' : s.ppu.scanline ≤ 239) :
    (ppuTick s).ppu.bg = (s.ppu.backgroundPipeline s.cfg s.mapper).bg ∧
    (ppuTick s).ppu.v = (s.ppu.backgroundPipeline s.cfg s.mapper).v := by
  obtain ⟨h1, h2, -⟩ := ppuTick_piped h h'
  obtain ⟨g1, g2⟩ := State.spritePipeline_background s.ppu.rendering s.clearTick.backgroundTick
  have key : s.clearTick.backgroundTick.ppu.bg = (s.ppu.backgroundPipeline s.cfg s.mapper).bg ∧
      s.clearTick.backgroundTick.ppu.v = (s.ppu.backgroundPipeline s.cfg s.mapper).v := by
    unfold State.clearTick
    split
    · have hc : (s.setPpu s.ppu.clearFlags).ppu.rendering = true := hr
      rw [State.backgroundTick, if_pos hc, State.setPpu_ppu, Ppu.backgroundPipeline_eq, Ppu.backgroundPipeline_eq]
      exact ⟨rfl, rfl⟩
    · rw [State.backgroundTick, if_pos hr]
      exact ⟨rfl, rfl⟩
  exact ⟨h1.trans (g1.trans key.1), h2.trans (g2.trans key.2)⟩

/-! ### The shift registers as numbers (R356) -/

theorem toNat_shl1 (r : BitVec 16) : (r <<< 1).toNat = 2 * r.toNat % 65536 := by
  simp [Nat.shiftLeft_eq, Nat.mul_comm]

theorem toNat_loadLow (r : BitVec 16) (b : Byte) : (loadLow r b).toNat = r.toNat / 256 * 256 + b.toNat := by
  have e : loadLow r b = r.extractLsb' 8 8 ++ b := by
    apply BitVec.eq_of_getLsbD_eq
    intro i hi
    have hm : (0xFF00 : BitVec 16).getLsbD i = decide (8 ≤ i) := by
      revert i
      decide
    simp only [loadLow, zext16, BitVec.getLsbD_or, BitVec.getLsbD_and, hm, BitVec.getLsbD_setWidth, BitVec.getLsbD_append,
      BitVec.getLsbD_extractLsb']
    by_cases h : i < 8
    · simp [h, Nat.not_le.2 h, hi]
    · have h1 : i - 8 < 8 := by omega
      have h2 : 8 + (i - 8) = i := by omega
      simp [h, Nat.le_of_not_lt h, hi, h1, h2]
  rw [e, BitVec.toNat_append, ← Nat.shiftLeft_add_eq_or_of_lt b.isLt]
  have := r.isLt
  simp [Nat.shiftRight_eq_div_pow, Nat.shiftLeft_eq]
  omega

/-- The moves of a shift register that `shiftLoad` makes (R355, R356). -/
theorem Ppu.movesShifter {p : Ppu} {b : Byte} {r r' : BitVec 16}
    (h : r' = if p.Shifts then (if p.Loads then loadLow (r <<< 1) b else r <<< 1)
      else if p.Loads then loadLow r b else r) : p.MovesShifter b r r' := by
  subst h
  refine ⟨fun h1 h2 => ?_, fun h1 h2 => ?_, fun h1 h2 => ?_, fun h1 h2 => ?_⟩
  · rw [if_pos h1, if_pos h2, toNat_loadLow, toNat_shl1]
  · rw [if_pos h1, if_neg h2, toNat_shl1]
  · rw [if_neg h1, if_pos h2, toNat_loadLow]
  · rw [if_neg h1, if_neg h2]

/-- Each shift register after a pipeline cycle (R355, R356). -/
theorem Ppu.shiftLoad_moves (p : Ppu) :
    p.MovesShifter p.bg.patLoLatch p.bg.patLo p.shiftLoad.bg.patLo ∧
    p.MovesShifter p.bg.patHiLatch p.bg.patHi p.shiftLoad.bg.patHi ∧
    p.MovesShifter (if p.bg.atLatch.getLsbD 0 then 0xFF else 0x00) p.bg.attLo p.shiftLoad.bg.attLo ∧
    p.MovesShifter (if p.bg.atLatch.getLsbD 1 then 0xFF else 0x00) p.bg.attHi p.shiftLoad.bg.attHi := by
  rw [Ppu.shiftLoad_eq]
  refine ⟨Ppu.movesShifter ?_, Ppu.movesShifter ?_, Ppu.movesShifter ?_, Ppu.movesShifter ?_⟩ <;>
    by_cases h1 : p.Shifts <;> by_cases h2 : p.Loads <;>
      first
        | simp only [if_pos h1, if_pos h2]; rfl
        | simp only [if_pos h1, if_neg h2]; rfl
        | simp only [if_neg h1, if_pos h2]; rfl
        | simp only [if_neg h1, if_neg h2]

/-! ### The fetch addresses as numbers (R357 to R359) -/

theorem ntAddr_eq (v : VramAddr) : ntAddr v = BitVec.ofNat 16 (0x2000 + v.toNat % 0x1000) := by
  apply BitVec.eq_of_toNat_eq
  have h1 : (v.setWidth 16 &&& (0x0FFF : Word)).toNat = v.toNat % 0x1000 := by
    have := v.isLt
    have e := Nat.and_two_pow_sub_one_eq_mod v.toNat 12
    simp only [BitVec.toNat_and, BitVec.toNat_setWidth]
    rw [Nat.mod_eq_of_lt (by omega)]
    exact e
  have h2 : 0x2000 + v.toNat % 0x1000 = 0x2000 ||| v.toNat % 0x1000 :=
    Nat.two_pow_add_eq_or_of_lt (i := 13) (by omega) 1
  rw [ntAddr, BitVec.toNat_or, h1, BitVec.toNat_ofNat]
  show 0x2000 ||| v.toNat % 0x1000 = _
  omega

theorem atAddr_eq (v : VramAddr) :
    atAddr v = BitVec.ofNat 16 (0x23C0 + 0x800 * nametableY v + 0x400 * nametableX v + 8 * (coarseY v / 4) +
      coarseX v / 4) := by
  have key : ∀ (n : BitVec 2) (b a : BitVec 3),
      (2#4 ++ n ++ 15#4 ++ b ++ a).toNat = 0x23C0 + 0x400 * n.toNat + 8 * b.toNat + a.toNat := by
    decide
  have bits : ∀ i, i < 16 →
      (atAddr v).getLsbD i = (2#4 ++ v.extractLsb' 10 2 ++ 15#4 ++ v.extractLsb' 7 3 ++ v.extractLsb' 2 3).getLsbD i := by
    intro i hi
    simp only [BitVec.getLsbD_append, BitVec.getLsbD_extractLsb']
    have : i = 0 ∨ i = 1 ∨ i = 2 ∨ i = 3 ∨ i = 4 ∨ i = 5 ∨ i = 6 ∨ i = 7 ∨ i = 8 ∨ i = 9 ∨ i = 10 ∨ i = 11 ∨ i = 12 ∨
        i = 13 ∨ i = 14 ∨ i = 15 := by omega
    rcases this with rfl | rfl | rfl | rfl | rfl | rfl | rfl | rfl | rfl | rfl | rfl | rfl | rfl | rfl | rfl | rfl <;>
      simp [atAddr]
  have e : (atAddr v).toNat = (2#4 ++ v.extractLsb' 10 2 ++ 15#4 ++ v.extractLsb' 7 3 ++ v.extractLsb' 2 3).toNat :=
    congrArg BitVec.toNat (BitVec.eq_of_getLsbD_eq (x := atAddr v) (fun i hi => bits i hi))
  apply BitVec.eq_of_toNat_eq
  rw [e, key, BitVec.toNat_ofNat]
  have h1 : coarseY v / 4 = v.toNat / 128 % 8 := by
    unfold coarseY
    omega
  have h2 : coarseX v / 4 = v.toNat / 4 % 8 := by
    unfold coarseX
    omega
  have h3 : 0x800 * nametableY v + 0x400 * nametableX v = 0x400 * (v.toNat / 0x400 % 4) := by
    unfold nametableX nametableY
    omega
  rw [h1, h2, Nat.add_assoc 0x23C0 (0x800 * nametableY v), h3]
  simp [Nat.shiftRight_eq_div_pow]
  omega

theorem attrBits_toNat (a : Byte) (v : VramAddr) :
    (attrBits a v).toNat = a.toNat / 4 ^ (2 * (coarseY v / 2 % 2) + coarseX v / 2 % 2) % 4 := by
  have hy : coarseY v / 2 % 2 = (v.getLsbD 6).toNat := by
    rw [BitVec.getLsbD, Nat.toNat_testBit, coarseY]
    omega
  have hx : coarseX v / 2 % 2 = (v.getLsbD 1).toNat := by
    rw [BitVec.getLsbD, Nat.toNat_testBit, coarseX]
    omega
  rw [hy, hx]
  unfold attrBits
  cases v.getLsbD 6 <;> cases v.getLsbD 1 <;>
    simp [Nat.shiftRight_eq_div_pow]

theorem Ppu.patAddr_eq (p : Ppu) :
    p.patAddr = BitVec.ofNat 16 (0x1000 * (p.ctrl.getLsbD 4).toNat + 16 * p.bg.ntLatch.toNat + fineY p.v) := by
  apply BitVec.eq_of_toNat_eq
  have hn := p.bg.ntLatch.isLt
  have hv := p.v.isLt
  have hp : p.patAddr = BitVec.ofNat 16 (2 ^ 12 * (p.ctrl.getLsbD 4).toNat) ||| (zext16 p.bg.ntLatch <<< 4) |||
      (p.v.setWidth 16 >>> 12) := by
    unfold Ppu.patAddr
    cases p.ctrl.getLsbD 4 <;> rfl
  have h1 : (BitVec.ofNat 16 (2 ^ 12 * (p.ctrl.getLsbD 4).toNat)).toNat = 2 ^ 12 * (p.ctrl.getLsbD 4).toNat := by
    cases p.ctrl.getLsbD 4 <;> rfl
  have h2 : (zext16 p.bg.ntLatch <<< 4).toNat = 16 * p.bg.ntLatch.toNat := by
    simp [zext16, Nat.shiftLeft_eq]
    omega
  have h3 : (p.v.setWidth 16 >>> 12 : Word).toNat = fineY p.v := by
    simp [fineY, Nat.shiftRight_eq_div_pow]
    omega
  have hf : fineY p.v < 16 := by
    unfold fineY
    omega
  have hc : (p.ctrl.getLsbD 4).toNat ≤ 1 := Bool.toNat_le _
  rw [hp, BitVec.toNat_or, BitVec.toNat_or, h1, h2, h3, ← Nat.two_pow_add_eq_or_of_lt (by omega),
    BitVec.toNat_ofNat]
  have h4 : 2 ^ 12 * (p.ctrl.getLsbD 4).toNat + 16 * p.bg.ntLatch.toNat =
      2 ^ 4 * (256 * (p.ctrl.getLsbD 4).toNat + p.bg.ntLatch.toNat) := by omega
  rw [h4, ← Nat.two_pow_add_eq_or_of_lt (by omega)]
  omega

end Sys2Proof.Machine
end

