-- ==== Sys2Proof/Laws/Decode.lean ====
section
/-! SUPPORT. The laws of the decoder and the encoder: the table's rows are told apart by their opcode, an instruction is
its form and its argument bytes, and a well-formed instruction has a row. -/

namespace Sys2Proof

set_option maxRecDepth 20000 in
/-- Every row of the table is found by its opcode: no two rows share one. -/
theorem rowOf_opcode : ∀ r ∈ opcodeTable, rowOf r.opcode = some r := by decide

set_option maxRecDepth 20000 in
/-- The form of a row is its own instruction with argument bytes zero, is well formed and is no undefined opcode. -/
theorem form_of_row : ∀ r ∈ opcodeTable, rowFor r.form = some r ∧ r.form.wf = true ∧ r.form.mode ≠ .UND := by decide

set_option maxRecDepth 20000 in
/-- The undefined opcodes are exactly those without a row. -/
theorem rowOf_eq_none_iff : ∀ opcode : Byte, rowOf opcode = none ↔ undefinedOpcodes.contains opcode = true := by
  decide

theorem mem_of_rowOf {opcode : Byte} {r : OpcodeRow} (h : rowOf opcode = some r) :
    r ∈ opcodeTable ∧ r.opcode = opcode := by
  refine ⟨List.mem_of_find?_eq_some h, ?_⟩
  simpa using List.find?_some h

theorem mem_of_rowFor {i : Instr} {r : OpcodeRow} (h : rowFor i = some r) :
    r ∈ opcodeTable ∧ r.form = i.fill 0 0 := by
  refine ⟨List.mem_of_find?_eq_some h, ?_⟩
  simpa using List.find?_some h

@[simp] theorem argWord_argLow_argHigh (w : Word) : argWord (argLow w) (argHigh w) = w := by
  apply BitVec.eq_of_getLsbD_eq
  intro k hk
  by_cases h : k < 8
  · simp only [argWord, argLow, argHigh, BitVec.getLsbD_append, BitVec.getLsbD_extractLsb']
    simp [h]
  · have : k - 8 < 8 := by omega
    simp only [argWord, argLow, argHigh, BitVec.getLsbD_append, BitVec.getLsbD_extractLsb']
    simp [h, this]
    congr 1
    omega

@[simp] theorem argLow_argWord (l h : Byte) : argLow (argWord l h) = l := by
  apply BitVec.eq_of_getLsbD_eq
  intro k hk
  simp only [argLow, argWord, BitVec.getLsbD_extractLsb', BitVec.getLsbD_append]
  simp [hk]

@[simp] theorem argHigh_argWord (l h : Byte) : argHigh (argWord l h) = h := by
  apply BitVec.eq_of_getLsbD_eq
  intro k hk
  simp only [argHigh, argWord, BitVec.getLsbD_extractLsb', BitVec.getLsbD_append]
  simp [hk]

/-! ### An instruction is its form and its argument bytes -/

theorem MemOperand.fill_args (m : MemOperand) : m.fill (m.args[0]?.getD 0#8) (m.args[1]?.getD 0#8) = m := by
  cases m <;> simp [MemOperand.fill, MemOperand.args]

theorem MemOperand.args_fill (m : MemOperand) (a b : Byte) : (m.fill a b).args = [a, b].take m.args.length := by
  cases m <;> simp [MemOperand.fill, MemOperand.args]

@[simp] theorem MemOperand.fill_fill (m : MemOperand) (a b a' b' : Byte) : (m.fill a b).fill a' b' = m.fill a' b' := by
  cases m <;> rfl

@[simp] theorem MemOperand.fill_mode (m : MemOperand) (a b : Byte) : (m.fill a b).mode = m.mode := by
  cases m <;> rfl

@[simp] theorem ReadOperand.fill_fill (o : ReadOperand) (a b a' b' : Byte) : (o.fill a b).fill a' b' = o.fill a' b' := by
  cases o <;> simp [ReadOperand.fill]

@[simp] theorem ReadOperand.fill_mode (o : ReadOperand) (a b : Byte) : (o.fill a b).mode = o.mode := by
  cases o <;> simp [ReadOperand.fill, ReadOperand.mode]

@[simp] theorem RmwOperand.fill_fill (o : RmwOperand) (a b a' b' : Byte) : (o.fill a b).fill a' b' = o.fill a' b' := by
  cases o <;> simp [RmwOperand.fill]

@[simp] theorem RmwOperand.fill_mode (o : RmwOperand) (a b : Byte) : (o.fill a b).mode = o.mode := by
  cases o <;> simp [RmwOperand.fill, RmwOperand.mode]

@[simp] theorem JumpOperand.fill_fill (o : JumpOperand) (a b a' b' : Byte) : (o.fill a b).fill a' b' = o.fill a' b' := by
  cases o <;> simp [JumpOperand.fill]

@[simp] theorem JumpOperand.fill_mode (o : JumpOperand) (a b : Byte) : (o.fill a b).mode = o.mode := by
  cases o <;> simp [JumpOperand.fill, JumpOperand.mode]

theorem ReadOperand.fill_args (o : ReadOperand) : o.fill (o.args[0]?.getD 0#8) (o.args[1]?.getD 0#8) = o := by
  cases o <;> simp [ReadOperand.fill, ReadOperand.args, MemOperand.fill_args]

theorem ReadOperand.args_fill (o : ReadOperand) (a b : Byte) : (o.fill a b).args = [a, b].take o.args.length := by
  cases o <;> simp [ReadOperand.fill, ReadOperand.args, MemOperand.args_fill]

theorem RmwOperand.fill_args (o : RmwOperand) : o.fill (o.args[0]?.getD 0#8) (o.args[1]?.getD 0#8) = o := by
  cases o <;> simp [RmwOperand.fill, RmwOperand.args, MemOperand.fill_args]

theorem RmwOperand.args_fill (o : RmwOperand) (a b : Byte) : (o.fill a b).args = [a, b].take o.args.length := by
  cases o <;> simp [RmwOperand.fill, RmwOperand.args, MemOperand.args_fill]

theorem JumpOperand.fill_args (o : JumpOperand) : o.fill (o.args[0]?.getD 0#8) (o.args[1]?.getD 0#8) = o := by
  cases o <;> simp [JumpOperand.fill, JumpOperand.args]

theorem JumpOperand.args_fill (o : JumpOperand) (a b : Byte) : (o.fill a b).args = [a, b].take o.args.length := by
  cases o <;> simp [JumpOperand.fill, JumpOperand.args]

/-- Putting an instruction's own argument bytes into its form gives the instruction back: no argument bit is lost. -/
theorem Instr.fill_args (i : Instr) : i.fill (i.args[0]?.getD 0#8) (i.args[1]?.getD 0#8) = i := by
  cases i <;>
    simp [Instr.fill, Instr.args, ReadOperand.fill_args, MemOperand.fill_args, RmwOperand.fill_args,
      JumpOperand.fill_args]

/-- The argument bytes put into a form are the argument bytes of the result. -/
theorem Instr.args_fill (i : Instr) (a b : Byte) : (i.fill a b).args = [a, b].take i.args.length := by
  cases i <;>
    simp [Instr.fill, Instr.args, ReadOperand.args_fill, MemOperand.args_fill, RmwOperand.args_fill,
      JumpOperand.args_fill]

@[simp] theorem Instr.fill_fill (i : Instr) (a b a' b' : Byte) : (i.fill a b).fill a' b' = i.fill a' b' := by
  cases i <;> simp [Instr.fill]

@[simp] theorem Instr.fill_mode (i : Instr) (a b : Byte) : (i.fill a b).mode = i.mode := by
  cases i <;> simp [Instr.fill, Instr.mode]

@[simp] theorem Instr.fill_wf (i : Instr) (a b : Byte) : (i.fill a b).wf = i.wf := by
  cases i <;> simp [Instr.fill, Instr.wf]

theorem MemOperand.args_length_le (m : MemOperand) : m.args.length ≤ 2 := by
  cases m <;> simp [MemOperand.args]

/-- An instruction has at most two argument bytes (R100). -/
theorem Instr.args_length_le (i : Instr) : i.args.length ≤ 2 := by
  cases i
  case lda o | ldx o | ldy o | adc o | sbc o | and o | ora o | eor o | cmp o | cpx o | cpy o =>
    cases o <;> simp [Instr.args, ReadOperand.args, MemOperand.args_length_le]
  case asl o | lsr o | rol o | ror o =>
    cases o <;> simp [Instr.args, RmwOperand.args, MemOperand.args_length_le]
  case jmp o => cases o <;> simp [Instr.args, JumpOperand.args]
  all_goals simp [Instr.args, MemOperand.args_length_le]

theorem MemOperand.mode_ne_und (m : MemOperand) : m.mode ≠ .UND := by cases m <;> simp [MemOperand.mode]

theorem ReadOperand.mode_ne_und (o : ReadOperand) : o.mode ≠ .UND := by
  cases o with
  | imm v => simp [ReadOperand.mode]
  | mem m => exact m.mode_ne_und

theorem RmwOperand.mode_ne_und (o : RmwOperand) : o.mode ≠ .UND := by
  cases o with
  | acc => simp [RmwOperand.mode]
  | mem m => exact m.mode_ne_und

theorem JumpOperand.mode_ne_und (o : JumpOperand) : o.mode ≠ .UND := by cases o <;> simp [JumpOperand.mode]

/-- Only the undefined opcodes have mode `UND` (R106). -/
theorem Instr.mode_eq_und {i : Instr} (h : i.mode = .UND) : ∃ opcode, i = .und opcode := by
  cases i
  case und op => exact ⟨op, rfl⟩
  case lda o | ldx o | ldy o | adc o | sbc o | and o | ora o | eor o | cmp o | cpx o | cpy o => exact absurd h o.mode_ne_und
  case sta m | stx m | sty m | bit m | inc m | dec m => exact absurd h m.mode_ne_und
  case asl o | lsr o | rol o | ror o => exact absurd h o.mode_ne_und
  case jmp o => exact absurd h o.mode_ne_und
  all_goals cases h

/-- The row of an instruction depends on its form alone. -/
theorem rowFor_fill (i : Instr) (a b : Byte) : rowFor (i.fill a b) = rowFor i := by
  simp [rowFor]

/-- The operands in memory with argument bytes zero. -/
def memForms : List MemOperand := [.zer 0, .zex 0, .zey 0, .inx 0, .iny 0, .abs 0, .abx 0, .aby 0]

/-- The operands that are read, with argument bytes zero. -/
def readForms : List ReadOperand := .imm 0 :: memForms.map .mem

/-- The operands that are read and written, with argument bytes zero. -/
def rmwForms : List RmwOperand := .acc :: memForms.map .mem

theorem MemOperand.fill_mem (m : MemOperand) : m.fill 0 0 ∈ memForms := by
  cases m <;> simp [MemOperand.fill, memForms, argWord]

theorem ReadOperand.fill_mem (o : ReadOperand) : o.fill 0 0 ∈ readForms := by
  cases o with
  | imm v => exact List.mem_cons_self ..
  | mem m => exact List.mem_cons_of_mem _ (List.mem_map_of_mem m.fill_mem)

theorem RmwOperand.fill_mem (o : RmwOperand) : o.fill 0 0 ∈ rmwForms := by
  cases o with
  | acc => exact List.mem_cons_self ..
  | mem m => exact List.mem_cons_of_mem _ (List.mem_map_of_mem m.fill_mem)

set_option maxRecDepth 20000 in
theorem readForms_have_rows :
    ∀ o ∈ readForms, ∀ i ∈ [Instr.lda o, .ldx o, .ldy o, .adc o, .sbc o, .and o, .ora o, .eor o, .cmp o, .cpx o, .cpy o],
      i.wf = true → (rowFor i).isSome = true := by
  decide

set_option maxRecDepth 20000 in
theorem memForms_have_rows :
    ∀ m ∈ memForms, ∀ i ∈ [Instr.sta m, .stx m, .sty m, .bit m, .inc m, .dec m],
      i.wf = true → (rowFor i).isSome = true := by
  decide

set_option maxRecDepth 20000 in
theorem rmwForms_have_rows :
    ∀ o ∈ rmwForms, ∀ i ∈ [Instr.asl o, .lsr o, .rol o, .ror o], i.wf = true → (rowFor i).isSome = true := by
  decide

set_option maxRecDepth 20000 in
theorem plainForms_have_rows :
    ∀ i ∈ [Instr.tax, .tay, .txa, .tya, .tsx, .txs, .inx, .iny, .dex, .dey, .rts, .pha, .php, .pla, .plp, .clc, .sec, .cli,
        .sei, .cld, .sed, .clv, .nop, .brk, .rti, .bcc 0, .bcs 0, .beq 0, .bne 0, .bmi 0, .bpl 0, .bvc 0, .bvs 0, .jsr 0,
        .jmp (.abs 0), .jmp (.abi 0)],
      (rowFor i).isSome = true := by
  decide

/-- A well-formed instruction other than an undefined opcode has a row. -/
theorem exists_row {i : Instr} (h : i.wf = true) (hu : i.mode ≠ .UND) : ∃ r, rowFor i = some r := by
  rw [← Option.isSome_iff_exists, ← rowFor_fill i 0 0]
  rw [← Instr.fill_wf i 0 0] at h
  cases i
  case lda o | ldx o | ldy o | adc o | sbc o | and o | ora o | eor o | cmp o | cpx o | cpy o =>
    exact readForms_have_rows _ o.fill_mem _ (by simp [Instr.fill]) h
  case sta m | stx m | sty m | bit m | inc m | dec m =>
    exact memForms_have_rows _ m.fill_mem _ (by simp [Instr.fill]) h
  case asl o | lsr o | rol o | ror o =>
    exact rmwForms_have_rows _ o.fill_mem _ (by simp [Instr.fill]) h
  case jmp o => cases o <;> exact plainForms_have_rows _ (by simp [Instr.fill, JumpOperand.fill, argWord])
  case und op => exact absurd rfl hu
  all_goals exact plainForms_have_rows _ (by simp [Instr.fill, argWord])

/-- The bytes of an instruction that has a row: its opcode, then its argument bytes (R101). -/
theorem encode_of_row {i : Instr} {r : OpcodeRow} (h : rowFor i = some r) : encode i = r.opcode :: i.args := by
  have hu : i.mode ≠ .UND := by
    have hm := mem_of_rowFor h
    have := (form_of_row r hm.1).2.2
    rwa [hm.2, Instr.fill_mode] at this
  cases i
  case und op => exact absurd rfl hu
  all_goals simp only [encode, h]

/-- The instruction of a row's opcode and argument bytes. -/
theorem instrOf_of_row {r : OpcodeRow} (h : r ∈ opcodeTable) (a b : Byte) :
    instrOf r.opcode a b = r.form.fill a b ∧ argCount r.opcode = r.form.args.length := by
  simp [instrOf, argCount, rowOf_opcode r h]

theorem instrOf_of_none {opcode : Byte} (h : rowOf opcode = none) (a b : Byte) :
    instrOf opcode a b = .und opcode ∧ argCount opcode = 0 := by
  simp [instrOf, argCount, h]

/-- Decoding from an opcode byte and the argument bytes that follow it. -/
theorem decode_cons {opcode : Byte} {args rest : List Byte} (hl : args.length = argCount opcode) (h2 : args.length ≤ 2) :
    decode (opcode :: (args ++ rest)) = .ok (instrOf opcode (args[0]?.getD 0#8) (args[1]?.getD 0#8), rest) := by
  match args, h2 with
  | [], _ =>
    simp only [List.length_nil] at hl
    simp [decode, ← hl]
  | [a], _ =>
    simp only [List.length_cons, List.length_nil] at hl
    simp [decode, ← hl]
  | [a, b], _ =>
    simp only [List.length_cons, List.length_nil] at hl
    simp [decode, ← hl]

end Sys2Proof
end

