-- ==== Sys2Proof/Laws/Operands.lean ====
section
/-! SUPPORT. The laws of the operand helpers and of the shapes of instructions: where each completes, what it leaves,
and where it faults. -/

namespace Sys2Proof

open Machine

/-! ### Operands that are read -/

/-- The state once an operand has been read: its access recorded. -/
def ReadOperand.loaded (o : ReadOperand) (s : State) : State :=
  match o with
  | .imm _ => s
  | .mem m => s.touch (m.ea s) .read

/-- The state once an operand has been read: its access recorded. -/
def RmwOperand.loaded (o : RmwOperand) (s : State) : State :=
  match o with
  | .acc => s
  | .mem m => s.touch (m.ea s) .read

/-- Reading an operand answers the byte it is, and records the access (R55, R136). -/
theorem ReadOperand.load_eq_ok {o : ReadOperand} {s t : State} {v : Byte} :
    o.load s = .ok (v, t) ↔ o.Is s v ∧ t = o.loaded s := by
  cases o with
  | imm w => simp [ReadOperand.load, ReadOperand.Is, ReadOperand.loaded, eq_comm]
  | mem m => exact memRead_eq_ok

/-- Reading an operand faults exactly where its address has no cell (R53). -/
theorem ReadOperand.load_eq_error {o : ReadOperand} {s : State} {f : Fault} :
    o.load s = .error f ↔ ∃ a ∈ o.addrs s, ¬s.CanLoad a ∧ f = .unmappedAccess a s := by
  cases o with
  | imm w => simp [ReadOperand.load, ReadOperand.addrs]
  | mem m => simp [ReadOperand.load, ReadOperand.addrs, memRead_eq_error]

/-- Reading an operand answers the byte it is, and records the access (R55, R136). -/
theorem RmwOperand.load_eq_ok {o : RmwOperand} {s t : State} {v : Byte} :
    o.load s = .ok (v, t) ↔ o.Is s v ∧ t = o.loaded s := by
  cases o with
  | acc => simp [RmwOperand.load, RmwOperand.Is, RmwOperand.loaded, eq_comm]
  | mem m => exact memRead_eq_ok

/-- Reading an operand faults exactly where its address has no cell (R53). -/
theorem RmwOperand.load_eq_error {o : RmwOperand} {s : State} {f : Fault} :
    o.load s = .error f ↔ ∃ a ∈ o.addrs s, ¬s.CanLoad a ∧ f = .unmappedAccess a s := by
  cases o with
  | acc => simp [RmwOperand.load, RmwOperand.addrs]
  | mem m => simp [RmwOperand.load, RmwOperand.addrs, memRead_eq_error]

section Loaded

variable (o : ReadOperand) (r : RmwOperand) (s : State)

@[simp] theorem ReadOperand.loaded_a : (o.loaded s).a = s.a := by cases o <;> simp [loaded]
@[simp] theorem ReadOperand.loaded_x : (o.loaded s).x = s.x := by cases o <;> simp [loaded]
@[simp] theorem ReadOperand.loaded_y : (o.loaded s).y = s.y := by cases o <;> simp [loaded]
@[simp] theorem ReadOperand.loaded_sp : (o.loaded s).sp = s.sp := by cases o <;> simp [loaded]
@[simp] theorem ReadOperand.loaded_p : (o.loaded s).p = s.p := by cases o <;> simp [loaded]
@[simp] theorem ReadOperand.loaded_pc : (o.loaded s).pc = s.pc := by cases o <;> simp [loaded]
@[simp] theorem ReadOperand.loaded_cyc : (o.loaded s).cyc = s.cyc := by cases o <;> simp [loaded]
@[simp] theorem ReadOperand.loaded_context : (o.loaded s).context = s.context := by cases o <;> simp [loaded]
@[simp] theorem ReadOperand.loaded_mapper : (o.loaded s).mapper = s.mapper := by cases o <;> simp [loaded]
@[simp] theorem ReadOperand.loaded_pads : (o.loaded s).pads = s.pads := by cases o <;> simp [loaded]
@[simp] theorem ReadOperand.loaded_ppu : (o.loaded s).ppu = s.ppu := by cases o <;> simp [loaded]
@[simp] theorem ReadOperand.loaded_pixels : (o.loaded s).pixels = s.pixels := by cases o <;> simp [loaded]
@[simp] theorem ReadOperand.loaded_cfg : (o.loaded s).cfg = s.cfg := by cases o <;> simp [loaded]
@[simp] theorem ReadOperand.loaded_keys : (o.loaded s).keys = s.keys := by cases o <;> simp [loaded]
@[simp] theorem ReadOperand.loaded_frames : (o.loaded s).frames = s.frames := by cases o <;> simp [loaded]
@[simp] theorem ReadOperand.loaded_fresh : (o.loaded s).fresh = s.fresh := by cases o <;> simp [loaded]
@[simp] theorem ReadOperand.loaded_peek (b : Word) : (o.loaded s).peek b = s.peek b := by cases o <;> simp [loaded]

@[simp] theorem RmwOperand.loaded_a : (r.loaded s).a = s.a := by cases r <;> simp [loaded]
@[simp] theorem RmwOperand.loaded_x : (r.loaded s).x = s.x := by cases r <;> simp [loaded]
@[simp] theorem RmwOperand.loaded_y : (r.loaded s).y = s.y := by cases r <;> simp [loaded]
@[simp] theorem RmwOperand.loaded_sp : (r.loaded s).sp = s.sp := by cases r <;> simp [loaded]
@[simp] theorem RmwOperand.loaded_p : (r.loaded s).p = s.p := by cases r <;> simp [loaded]
@[simp] theorem RmwOperand.loaded_pc : (r.loaded s).pc = s.pc := by cases r <;> simp [loaded]
@[simp] theorem RmwOperand.loaded_cyc : (r.loaded s).cyc = s.cyc := by cases r <;> simp [loaded]
@[simp] theorem RmwOperand.loaded_context : (r.loaded s).context = s.context := by cases r <;> simp [loaded]
@[simp] theorem RmwOperand.loaded_mapper : (r.loaded s).mapper = s.mapper := by cases r <;> simp [loaded]
@[simp] theorem RmwOperand.loaded_pads : (r.loaded s).pads = s.pads := by cases r <;> simp [loaded]
@[simp] theorem RmwOperand.loaded_ppu : (r.loaded s).ppu = s.ppu := by cases r <;> simp [loaded]
@[simp] theorem RmwOperand.loaded_pixels : (r.loaded s).pixels = s.pixels := by cases r <;> simp [loaded]
@[simp] theorem RmwOperand.loaded_cfg : (r.loaded s).cfg = s.cfg := by cases r <;> simp [loaded]
@[simp] theorem RmwOperand.loaded_keys : (r.loaded s).keys = s.keys := by cases r <;> simp [loaded]
@[simp] theorem RmwOperand.loaded_frames : (r.loaded s).frames = s.frames := by cases r <;> simp [loaded]
@[simp] theorem RmwOperand.loaded_fresh : (r.loaded s).fresh = s.fresh := by cases r <;> simp [loaded]
@[simp] theorem RmwOperand.loaded_peek (b : Word) : (r.loaded s).peek b = s.peek b := by cases r <;> simp [loaded]

end Loaded

/-- Reading an operand records a read of its address and of no other (R55). -/
theorem ReadOperand.loaded_ack {o : ReadOperand} {s : State} :
    ∀ a ∈ o.addrs s, State.Acknowledged a .read s (o.loaded s) := by
  cases o with
  | imm v => simp [ReadOperand.addrs]
  | mem m =>
    simp only [ReadOperand.addrs, List.mem_singleton, forall_eq, ReadOperand.loaded]
    exact fun slot => State.touch_ack s (m.ea s) .read slot

/-- Reading an operand touches no slot but that of its address. -/
theorem ReadOperand.loaded_ack_other {o : ReadOperand} {s : State} {slot : Fin 40}
    (h : ∀ a ∈ o.addrs s, ackSlot a ≠ some slot) : (o.loaded s).io.ack[slot] = s.io.ack[slot] := by
  cases o with
  | imm v => rfl
  | mem m =>
    have := State.touch_ack s (m.ea s) .read slot
    rwa [if_neg (h _ (by simp [ReadOperand.addrs]))] at this

theorem RmwOperand.loaded_ack_other {o : RmwOperand} {s : State} {slot : Fin 40}
    (h : ∀ a ∈ o.addrs s, ackSlot a ≠ some slot) : (o.loaded s).io.ack[slot] = s.io.ack[slot] := by
  cases o with
  | acc => rfl
  | mem m =>
    have := State.touch_ack s (m.ea s) .read slot
    rwa [if_neg (h _ (by simp [RmwOperand.addrs]))] at this

theorem ReadOperand.loaded_sameDevices (o : ReadOperand) (s : State) : State.SameDevices s (o.loaded s) := by
  constructor <;> simp

theorem RmwOperand.loaded_sameDevices (o : RmwOperand) (s : State) : State.SameDevices s (o.loaded s) := by
  constructor <;> simp

/-! ### The shapes of instructions -/

namespace Machine

/-- An instruction that reads its operand completes on every operand that can be read. -/
theorem readInstr_of_is {i : Instr} {o : ReadOperand} {s : State} {v : Byte} (k : Byte → State → State)
    (h : o.Is s v) : readInstr i o s k = .next ((k v (o.loaded s)).charge (i.cost (o.crossed s))) := by
  simp [readInstr, ReadOperand.load_eq_ok.2 ⟨h, rfl⟩]

/-- Everything an instruction that reads its operand can do: complete, or fault where its address has no cell. -/
theorem readInstr_cases (i : Instr) (o : ReadOperand) (s : State) (k : Byte → State → State) :
    (∃ v, o.Is s v ∧ readInstr i o s k = .next ((k v (o.loaded s)).charge (i.cost (o.crossed s)))) ∨
      ∃ a ∈ o.addrs s, ¬s.CanLoad a ∧ readInstr i o s k = .fault (.unmappedAccess a s) := by
  cases h : o.load s with
  | ok p =>
    obtain ⟨v, t⟩ := p
    have hv := (ReadOperand.load_eq_ok.1 h).1
    exact .inl ⟨v, hv, readInstr_of_is k hv⟩
  | error f =>
    obtain ⟨a, ha, hl, rfl⟩ := ReadOperand.load_eq_error.1 h
    exact .inr ⟨a, ha, hl, by simp [readInstr, h]⟩

/-- A store that is made leaves every register but the memory and the acknowledgments alone. -/
theorem memWrite_registers {a : Word} {v : Byte} {s t : State} (h : memWrite a v s = .ok t) :
    State.SameRegisters s t ∧ t.cyc = s.cyc := by
  rcases memWrite_eq_ok h with ⟨-, rfl⟩ | ⟨-, c, -, rfl⟩
  · exact ⟨⟨rfl, rfl, rfl, rfl, rfl, rfl⟩, rfl⟩
  · exact ⟨by constructor <;> simp, by simp⟩

/-- A store that is made leaves every device alone, and every cell but the one stored to. -/
theorem memWrite_frame {a : Word} {v : Byte} {s t : State} (h : memWrite a v s = .ok t) :
    State.SameDevices s t ∧ State.MemKept [a] s t ∧
      ∀ slot, ackSlot a ≠ some slot → t.io.ack[slot] = s.io.ack[slot] := by
  rcases memWrite_eq_ok h with ⟨-, rfl⟩ | ⟨-, c, hc, rfl⟩
  · exact ⟨by constructor <;> rfl, fun _ _ => rfl, fun _ _ => rfl⟩
  · refine ⟨by constructor <;> simp, fun b hb => ?_, fun slot hs => ?_⟩
    · rw [State.memKept_writeCell (by simpa using hc) b (by simpa [State.SameCell] using hb)]
      simp
    · rw [State.writeCell_ack]
      have := State.touch_ack s a .write slot
      rwa [if_neg hs] at this

/-- Everything an instruction that only stores can do. -/
theorem storeInstr_cases (i : Instr) (m : MemOperand) (v : Byte) (s : State) :
    (∃ t, memWrite (m.ea s) v s = .ok t ∧ storeInstr i m v s = .next (t.charge (i.cost (m.crossed s)))) ∨
      (¬s.CanLoad (m.ea s) ∧ storeInstr i m v s = .fault (.unmappedAccess (m.ea s) s)) ∨
      (0x8000 ≤ (m.ea s).toNat ∧ s.cfg.romWrite = .fault ∧ storeInstr i m v s = .fault (.romWrite (m.ea s) s)) := by
  rcases memWrite_cases (m.ea s) v s with ⟨hl, h⟩ | ⟨h8, hr, h⟩ | ⟨-, h⟩ | ⟨-, -, c, -, h⟩
  · exact .inr (.inl ⟨hl, by simp [storeInstr, h]⟩)
  · exact .inr (.inr ⟨h8, hr, by simp [storeInstr, h]⟩)
  · exact .inl ⟨_, h, by simp [storeInstr, h]⟩
  · exact .inl ⟨_, h, by simp [storeInstr, h]⟩

/-- The state of a read-modify-write instruction between its read and its write: the access recorded and the carry
in P. -/
def rmwMiddle (o : RmwOperand) (s : State) (carry : Option (Byte → Bool)) (v : Byte) : State :=
  match carry with
  | some c => (o.loaded s).setFlag .carry (c v)
  | none => o.loaded s

section Middle

variable (o : RmwOperand) (s : State) (c : Option (Byte → Bool)) (v : Byte)

@[simp] theorem rmwMiddle_a : (rmwMiddle o s c v).a = s.a := by cases c <;> simp [rmwMiddle]
@[simp] theorem rmwMiddle_x : (rmwMiddle o s c v).x = s.x := by cases c <;> simp [rmwMiddle]
@[simp] theorem rmwMiddle_y : (rmwMiddle o s c v).y = s.y := by cases c <;> simp [rmwMiddle]
@[simp] theorem rmwMiddle_sp : (rmwMiddle o s c v).sp = s.sp := by cases c <;> simp [rmwMiddle]
@[simp] theorem rmwMiddle_pc : (rmwMiddle o s c v).pc = s.pc := by cases c <;> simp [rmwMiddle]
@[simp] theorem rmwMiddle_cyc : (rmwMiddle o s c v).cyc = s.cyc := by cases c <;> simp [rmwMiddle]
@[simp] theorem rmwMiddle_mapper : (rmwMiddle o s c v).mapper = s.mapper := by cases c <;> simp [rmwMiddle]
@[simp] theorem rmwMiddle_cfg : (rmwMiddle o s c v).cfg = s.cfg := by cases c <;> simp [rmwMiddle]
@[simp] theorem rmwMiddle_io : (rmwMiddle o s c v).io = (o.loaded s).io := by cases c <;> simp [rmwMiddle]
@[simp] theorem rmwMiddle_context : (rmwMiddle o s c v).context = s.context := by cases c <;> simp [rmwMiddle]
@[simp] theorem rmwMiddle_pads : (rmwMiddle o s c v).pads = s.pads := by cases c <;> simp [rmwMiddle]
@[simp] theorem rmwMiddle_ppu : (rmwMiddle o s c v).ppu = s.ppu := by cases c <;> simp [rmwMiddle]
@[simp] theorem rmwMiddle_pixels : (rmwMiddle o s c v).pixels = s.pixels := by cases c <;> simp [rmwMiddle]
@[simp] theorem rmwMiddle_keys : (rmwMiddle o s c v).keys = s.keys := by cases c <;> simp [rmwMiddle]
@[simp] theorem rmwMiddle_frames : (rmwMiddle o s c v).frames = s.frames := by cases c <;> simp [rmwMiddle]
@[simp] theorem rmwMiddle_fresh : (rmwMiddle o s c v).fresh = s.fresh := by cases c <;> simp [rmwMiddle]
@[simp] theorem rmwMiddle_peek (b : Word) : (rmwMiddle o s c v).peek b = s.peek b := by cases c <;> simp [rmwMiddle]

end Middle

/-- The effective address depends on X, Y and page zero alone. -/
theorem ea_congr {m : MemOperand} {s t : State} (hx : t.x = s.x) (hy : t.y = s.y) (hm : t.mapper = s.mapper) :
    m.ea t = m.ea s := by
  cases m <;> simp [MemOperand.ea, MemOperand.base, State.zeroPageWord, State.zeroPage, State.readCell, hx, hy, hm]

/-- Everything a read-modify-write instruction can do: complete, with its operand written and N and Z of the result;
fault at its read; or fault at its write, the carry already in P. -/
theorem rmwInstr_cases (i : Instr) (o : RmwOperand) (s : State) (c : Option (Byte → Bool)) (r : Byte → Byte) :
    (∃ v t, o.Is s v ∧ o.store (r v) (rmwMiddle o s c v) = .ok t ∧
        rmwInstr i o s c r = .next ((t.setNZ (r v)).charge (i.cost false))) ∨
      (∃ a ∈ o.addrs s, ¬s.CanLoad a ∧ rmwInstr i o s c r = .fault (.unmappedAccess a s)) ∨
      (∃ v, ∃ a ∈ o.addrs s, o.Is s v ∧ 0x8000 ≤ a.toNat ∧ s.cfg.romWrite = .fault ∧
        rmwInstr i o s c r = .fault (.romWrite a (rmwMiddle o s c v))) := by
  cases h : o.load s with
  | error f =>
    obtain ⟨a, ha, hl, rfl⟩ := RmwOperand.load_eq_error.1 h
    exact .inr (.inl ⟨a, ha, hl, by simp [rmwInstr, h]⟩)
  | ok p =>
    obtain ⟨v, t⟩ := p
    obtain ⟨hv, rfl⟩ := RmwOperand.load_eq_ok.1 h
    have hr : rmwInstr i o s c r =
        match o.store (r v) (rmwMiddle o s c v) with
        | .error f => .fault f
        | .ok s3 => .next ((s3.setNZ (r v)).charge (i.cost false)) := by
      cases c <;> (unfold rmwInstr; rw [h]; rfl)
    cases hs : o.store (r v) (rmwMiddle o s c v) with
    | ok t => exact .inl ⟨v, t, hv, hs, by rw [hr, hs]⟩
    | error f =>
      rw [hs] at hr
      cases o with
      | acc => simp [RmwOperand.store] at hs
      | mem m =>
        have he : m.ea (rmwMiddle (.mem m) s c v) = m.ea s := ea_congr (by simp) (by simp) (by simp)
        simp only [RmwOperand.store, he] at hs
        rcases memWrite_cases (m.ea s) (r v) (rmwMiddle (.mem m) s c v) with ⟨hl, h'⟩ | ⟨h8, hw, h'⟩ | ⟨-, h'⟩ | ⟨-, -, _, -, h'⟩
        · refine absurd (State.canLoad_iff_reads.2 ⟨v, ?_⟩) hl
          simpa [RmwOperand.Is, State.Reads] using hv
        · rw [hs] at h'
          obtain rfl := Except.error.inj h'
          exact .inr (.inr ⟨v, m.ea s, by simp [RmwOperand.addrs], hv, h8, by simpa using hw, hr⟩)
        · rw [hs] at h'
          cases h'
        · rw [hs] at h'
          cases h'

/-- What the write of a read-modify-write instruction leaves. -/
theorem rmwStore_becomes {o : RmwOperand} {s t : State} {c : Option (Byte → Bool)} {v r : Byte}
    (hi : s.mapper.Inv s.cfg) (h : o.store r (rmwMiddle o s c v) = .ok t) :
    o.Becomes r s t ∧ t.p = (rmwMiddle o s c v).p ∧ t.cyc = s.cyc := by
  cases o with
  | acc =>
    obtain rfl := Except.ok.inj h
    exact ⟨rfl, rfl, by simp⟩
  | mem m =>
    have he : m.ea (rmwMiddle (.mem m) s c v) = m.ea s := ea_congr (by simp) (by simp) (by simp)
    simp only [RmwOperand.store, he] at h
    have hm := memWrite_stored (by simpa using hi) h
    have hr := memWrite_registers h
    refine ⟨⟨⟨fun hg => hm.1.1 (by simpa [State.Ignores] using hg), fun hg => ?_, fun b hb => ?_⟩, fun slot => ?_⟩, hr.1.p, by
      simpa using hr.2⟩
    · rw [hm.1.2.1 (by simpa [State.Ignores] using hg)]
      simp
    · rw [hm.1.2.2 b (by simpa [State.SameCell] using hb)]
      simp
    · rw [hm.2.1 slot]
      by_cases ha : ackSlot (m.ea s) = some slot
      · simp [ha]
      · rw [if_neg ha, if_neg ha, rmwMiddle_io]
        exact RmwOperand.loaded_ack_other (by simpa [RmwOperand.addrs] using ha)

/-- A read-modify-write instruction completes wherever its operand can be read and written. -/
theorem rmwInstr_of_is {i : Instr} {o : RmwOperand} {s : State} {v : Byte} (c : Option (Byte → Bool)) (r : Byte → Byte)
    (hi : s.mapper.Inv s.cfg) (h : o.Is s v) (hw : o.CanStore s) :
    ∃ t, rmwInstr i o s c r = .next ((t.setNZ (r v)).charge (i.cost false)) ∧ o.Becomes (r v) s t ∧
      t.p = (rmwMiddle o s c v).p ∧ t.cyc = s.cyc := by
  rcases rmwInstr_cases i o s c r with ⟨v', t, hv, hs, ht⟩ | ⟨a, ha, hl, -⟩ | ⟨v', a, ha, -, h8, hf, -⟩
  · have : v' = v := by
      cases o with
      | acc => exact hv.symm.trans h
      | mem m =>
        have h1 : s.peek (m.ea s) = some v' := hv
        have h2 : s.peek (m.ea s) = some v := h
        rw [h1] at h2
        exact Option.some.inj h2
    subst this
    exact ⟨t, ht, rmwStore_becomes hi hs⟩
  · cases o with
    | acc => simp [RmwOperand.addrs] at ha
    | mem m =>
      simp only [RmwOperand.addrs, List.mem_singleton] at ha
      exact absurd hw.1 (ha ▸ hl)
  · cases o with
    | acc => simp [RmwOperand.addrs] at ha
    | mem m =>
      simp only [RmwOperand.addrs, List.mem_singleton] at ha
      exact absurd hf (hw.2 (ha ▸ h8))

end Machine

end Sys2Proof
end

