-- ==== Sys2Proof/Laws/Fetch.lean ====
section
/-! SUPPORT. The laws of fetching: what a fetch reads, where PC is afterwards, and when it faults. -/

namespace Sys2Proof.Machine

theorem argCount_le (opcode : Byte) : argCount opcode ≤ 2 := by
  unfold argCount
  split
  · exact Instr.args_length_le _
  · exact Nat.zero_le _

section Touches

@[simp] theorem State.touches_cfg (a : Word) (n : Nat) (s : State) : (State.touches a n s).cfg = s.cfg := by
  induction n generalizing a s with
  | zero => rfl
  | succ n ih => simp [State.touches, ih]

@[simp] theorem State.touches_peek (a : Word) (n : Nat) (s : State) (b : Word) :
    (State.touches a n s).peek b = s.peek b := by
  induction n generalizing a s with
  | zero => rfl
  | succ n ih => simp [State.touches, ih]

end Touches

/-- A fetch reads the opcode byte and the argument bytes after it, each an ordinary read, and advances PC past them
(R252); past no byte for an undefined opcode (R253). -/
theorem fetch_of_holds {s : State} {opcode : Byte} {args : List Byte} (hl : args.length = argCount opcode)
    (h : s.HoldsBytes s.pc (opcode :: args)) :
    fetch s = .ok (instrOf opcode (args[0]?.getD 0#8) (args[1]?.getD 0#8),
      (State.touches s.pc (1 + args.length) s).setPc
        (s.pc + BitVec.ofNat 16 (instrOf opcode (args[0]?.getD 0#8) (args[1]?.getD 0#8)).length)) := by
  have ha := argCount_le opcode
  obtain ⟨h0, h⟩ := h
  match args, hl, h with
  | [], hl, h =>
    simp only [List.length_nil] at hl
    have h1 : argCount opcode < 2 := by omega
    simp only [fetch, memRead_of_reads h0, bind, Except.bind]
    rw [if_pos hl.symm]
    simp only [if_pos h1]
    rfl
  | [a], hl, h =>
    simp only [List.length_cons, List.length_nil] at hl
    have n0 : ¬argCount opcode = 0 := by omega
    have h1 : argCount opcode < 2 := by omega
    have ha : (s.touch s.pc .read).Reads (s.pc + 1) a := by simpa [State.Reads] using h.1
    simp only [fetch, memRead_of_reads h0, bind, Except.bind]
    rw [if_neg n0, memRead_of_reads ha]
    simp only [if_pos h1]
    rfl
  | [a, b], hl, h =>
    simp only [List.length_cons, List.length_nil] at hl
    have n0 : ¬argCount opcode = 0 := by omega
    have n1 : ¬argCount opcode < 2 := by omega
    have ha : (s.touch s.pc .read).Reads (s.pc + 1) a := by simpa [State.Reads] using h.1
    have e : s.pc + 1 + 1 = s.pc + 2 := by rw [BitVec.add_assoc]; rfl
    have hb : ((s.touch s.pc .read).touch (s.pc + 1) .read).Reads (s.pc + 2) b := by
      have := h.2.1
      rw [e] at this
      simpa [State.Reads] using this
    simp only [fetch, memRead_of_reads h0, bind, Except.bind]
    rw [if_neg n0, memRead_of_reads ha]
    simp only
    rw [if_neg n1, memRead_of_reads hb, ← e]
    rfl
  | _ :: _ :: _ :: _, hl, h =>
    simp only [List.length_cons] at hl
    omega

end Sys2Proof.Machine
end

