-- ==== Sys2Proof/Laws/Frames.lean ====
section
/-! SUPPORT. The frames of the shared shapes of instructions: register only, reading, storing, read-modify-write. -/

namespace Sys2Proof.Machine

/-- An instruction that only touches registers and flags has its frame when they do. -/
theorem frame_of_registers {i : Instr} {s t : State} (hr : ∀ r, r ∉ i.regsWritten → t.reg r = s.reg r)
    (hf : ∀ f, f ∉ i.flagsWritten → t.flag f = s.flag f) (hp : ∀ b, t.peek b = s.peek b) (hi : t.io = s.io)
    (hd : State.SameDevices s t) : i.Frame s t :=
  ⟨hr, hf, fun b _ => hp b, fun _ _ => by rw [hi], hd⟩

/-- An instruction that reads an operand and stores nothing has its frame when what follows the load only touches
registers and flags. -/
theorem frame_of_read {i : Instr} {o : ReadOperand} {s u : State} (n : Nat)
    (ha : i.accesses s = o.addrs s)
    (hr : ∀ r, r ∉ i.regsWritten → u.reg r = (o.loaded s).reg r)
    (hf : ∀ f, f ∉ i.flagsWritten → u.flag f = (o.loaded s).flag f)
    (hp : ∀ b, u.peek b = (o.loaded s).peek b) (hi : u.io = (o.loaded s).io)
    (hd : State.SameDevices (o.loaded s) u) : i.Frame s (u.charge n) := by
  refine ⟨fun r h => (hr r h).trans ?_, fun f h => (hf f h).trans ?_, fun b _ => ?_, fun sl h => ?_, ?_⟩
  · cases r <;> simp [State.reg]
  · simp [State.flag]
  · rw [State.charge_peek, hp]
    simp
  · rw [State.charge_io, hi]
    exact ReadOperand.loaded_ack_other (ha ▸ h)
  · have := ReadOperand.loaded_sameDevices o s
    constructor
    · exact hd.context.trans this.context
    · exact hd.ppu.trans this.ppu
    · exact hd.chr.trans this.chr
    · exact hd.vram.trans this.vram
    · exact hd.palette.trans this.palette
    · exact hd.pads.trans this.pads
    · exact hd.pixels.trans this.pixels
    · exact hd.cfg.trans this.cfg
    · exact hd.keys.trans this.keys
    · exact hd.frames.trans this.frames
    · exact hd.fresh.trans this.fresh

/-- A store has its frame. -/
theorem frame_of_store {i : Instr} {a : Word} {v : Byte} {s t : State} {n : Nat} (hs : i.stores s = [a])
    (ha : i.accesses s = [a]) (h : memWrite a v s = .ok t) : i.Frame s (t.charge n) ∧ t.pc = s.pc := by
  have h1 := memWrite_frame h
  have h2 := (memWrite_registers h).1
  refine ⟨⟨fun r _ => ?_, fun f _ => ?_, fun b hb => ?_, fun sl h => ?_,
    ⟨h1.1.1, h1.1.2, h1.1.3, h1.1.4, h1.1.5, h1.1.6, h1.1.7, h1.1.8, h1.1.9, h1.1.10, h1.1.11⟩⟩, h2.pc⟩
  · cases r
    · exact h2.a
    · exact h2.x
    · exact h2.y
    · exact h2.sp
  · simp [State.flag, h2.p]
  · rw [State.charge_peek]
    exact h1.2.1 b (hs ▸ hb)
  · exact h1.2.2 sl (by simpa [ha] using h)

/-- A read-modify-write instruction has its frame. -/
theorem frame_of_rmw {i : Instr} {o : RmwOperand} {s t : State} {c : Option (Byte → Bool)} {r : Byte → Byte}
    (hs : i.stores s = o.addrs s) (ha : i.accesses s = o.addrs s) (hreg : i.regsWritten = o.regs)
    (hf : ∀ f, f ∉ i.flagsWritten → f ≠ .negative ∧ f ≠ .zero ∧ (f ≠ .carry ∨ c = none))
    (h : rmwInstr i o s c r = .next t) : i.Frame s t ∧ t.pc = s.pc := by
  rcases rmwInstr_cases i o s c r with ⟨v, u, hv, hst, h'⟩ | ⟨a, -, -, h'⟩ | ⟨v, a, -, -, -, -, h'⟩
  · rw [h'] at h
    obtain rfl := Host.Outcome.next.inj h
    have hfl : ∀ f, f ∉ i.flagsWritten → (rmwMiddle o s c v).flag f = s.flag f := by
      intro f hf'
      obtain ⟨h1, h2, h3⟩ := hf f hf'
      cases c with
      | none => simp [rmwMiddle, State.flag]
      | some c =>
        simp only [reduceCtorEq, or_false] at h3
        simp [rmwMiddle, State.flag, h3.symm]
    have hfl2 : ∀ (x : State) f, f ∉ i.flagsWritten → (x.setNZ (r v)).flag f = x.flag f := by
      intro x f hf'
      obtain ⟨h1, h2, h3⟩ := hf f hf'
      simp [State.flag, h1, h2]
    cases o with
    | acc =>
      obtain rfl := Except.ok.inj hst
      refine ⟨⟨fun q hq => ?_, fun f hf' => ?_, fun b _ => ?_, fun sl _ => ?_, ?_⟩, by simp⟩
      · cases q
        · simp [hreg, RmwOperand.regs] at hq
        all_goals simp [State.reg]
      · exact (hfl2 _ f hf').trans (hfl f hf')
      · simp
      · simp [RmwOperand.loaded]
      · constructor <;> simp
    | mem m =>
      have he : m.ea (rmwMiddle (.mem m) s c v) = m.ea s := ea_congr (by simp) (by simp) (by simp)
      simp only [RmwOperand.store, he] at hst
      have h1 := memWrite_frame hst
      have h2 := (memWrite_registers hst).1
      refine ⟨⟨fun q _ => ?_, fun f hf' => ?_, fun b hb => ?_, fun sl hsl => ?_, ?_⟩, by simpa using h2.pc⟩
      · cases q
        · simpa [State.reg] using h2.a
        · simpa [State.reg] using h2.x
        · simpa [State.reg] using h2.y
        · simpa [State.reg] using h2.sp
      · refine (hfl2 _ f hf').trans (Eq.trans ?_ (hfl f hf'))
        simp [State.flag, h2.p]
      · rw [State.charge_peek, State.setNZ_peek, h1.2.1 b (by simpa [State.SameCell, hs, RmwOperand.addrs] using hb)]
        simp
      · simp only [ha] at hsl
        have := h1.2.2 sl (by simpa [RmwOperand.addrs] using hsl)
        simp only [State.charge_io, State.setNZ_io]
        rw [this, rmwMiddle_io]
        exact RmwOperand.loaded_ack_other hsl
      · have h3 := h1.1
        constructor
        · simpa using h3.context
        · simpa using h3.ppu
        · simpa using h3.chr
        · simpa using h3.vram
        · simpa using h3.palette
        · simpa using h3.pads
        · simpa using h3.pixels
        · simpa using h3.cfg
        · simpa using h3.keys
        · simpa using h3.frames
        · simpa using h3.fresh
  · rw [h'] at h
    cases h
  · rw [h'] at h
    cases h

end Sys2Proof.Machine
end

