-- ==== Sys2Proof/Laws/Stack.lean ====
section
/-! SUPPORT. The laws of the stack and of interrupt entry: what a push stores and leaves, what a pull reads, what an
entry leaves in every register and in memory. -/

namespace Sys2Proof.Machine

/-- A store in a cell inside its memory keeps every memory canonical. -/
theorem Mapper.Inv.writeCell {s : State} {c : CpuCell} (h : s.mapper.Inv s.cfg) (hc : c.InRange s.cfg) (v : Byte) :
    (s.writeCell c v).mapper.Inv s.cfg := by
  cases c
  case ram i => exact { h with ram := Memory.wf_write h.ram hc }
  case sram i => exact { h with sram := Memory.wf_write h.sram hc }
  case prg i => exact { h with prg := Memory.wf_write h.prg hc }
  all_goals exact h

theorem stackCell_inRange (cfg : Config) (sp : Byte) : (stackCell sp).InRange cfg := by
  have := sp.isLt
  show 0x100 + sp.toNat < 0x800
  omega

theorem stackCell_inj {a b : Byte} : stackCell a = stackCell b ↔ a = b := by
  rw [← BitVec.toNat_inj]
  simp [stackCell]

theorem stackAddr_peek (s : State) (sp : Byte) : s.peek (stackAddr sp) = some (s.readCell (stackCell sp)) := by
  simp [State.peek, cpuCell_stackAddr]

/-- Two stack locations are one cell exactly when they are one location (R14). -/
theorem sameCell_stackAddr {s : State} {a b : Byte} : s.SameCell (stackAddr a) (stackAddr b) ↔ a = b := by
  rw [State.SameCell, cpuCell_stackAddr, cpuCell_stackAddr, Option.some.injEq, stackCell_inj]

/-! ### Push -/

section Push

variable (s : State) (v : Byte)

@[simp] theorem State.push_a : (s.push v).a = s.a := rfl
@[simp] theorem State.push_x : (s.push v).x = s.x := rfl
@[simp] theorem State.push_y : (s.push v).y = s.y := rfl
@[simp] theorem State.push_sp : (s.push v).sp = s.sp - 1 := rfl
@[simp] theorem State.push_p : (s.push v).p = s.p := rfl
@[simp] theorem State.push_pc : (s.push v).pc = s.pc := rfl
@[simp] theorem State.push_context : (s.push v).context = s.context := rfl
@[simp] theorem State.push_cyc : (s.push v).cyc = s.cyc := rfl
@[simp] theorem State.push_io : (s.push v).io = s.io := rfl
@[simp] theorem State.push_pads : (s.push v).pads = s.pads := rfl
@[simp] theorem State.push_ppu : (s.push v).ppu = s.ppu := rfl
@[simp] theorem State.push_pixels : (s.push v).pixels = s.pixels := rfl
@[simp] theorem State.push_cfg : (s.push v).cfg = s.cfg := rfl
@[simp] theorem State.push_keys : (s.push v).keys = s.keys := rfl
@[simp] theorem State.push_frames : (s.push v).frames = s.frames := rfl
@[simp] theorem State.push_fresh : (s.push v).fresh = s.fresh := rfl
@[simp] theorem State.push_prg : (s.push v).mapper.prg = s.mapper.prg := rfl
@[simp] theorem State.push_chr : (s.push v).mapper.chr = s.mapper.chr := rfl
@[simp] theorem State.push_vram : (s.push v).mapper.vram = s.mapper.vram := rfl
@[simp] theorem State.push_palette : (s.push v).mapper.palette = s.mapper.palette := rfl

@[simp] theorem State.push_prgByte (a : Word) : (s.push v).prgByte a = s.prgByte a := rfl

end Push

/-- A push keeps every memory canonical. -/
theorem State.push_mapper_inv {s : State} (h : s.mapper.Inv s.cfg) (v : Byte) : (s.push v).mapper.Inv (s.push v).cfg :=
  Mapper.Inv.writeCell h (stackCell_inRange _ _) v

/-- The location pushed to reads as the byte pushed (R14). -/
theorem State.push_reads {s : State} (h : s.mapper.Inv s.cfg) (v : Byte) : (s.push v).Reads (stackAddr s.sp) v := by
  rw [State.Reads, State.push, State.setSp_peek]
  exact State.reads_writeCell h (cpuCell_stackAddr _ _)

/-- A push leaves every cell but that of the location pushed to. -/
theorem State.push_memKept (s : State) (v : Byte) : State.MemKept [stackAddr s.sp] s (s.push v) := by
  intro b hb
  rw [State.push, State.setSp_peek]
  exact State.memKept_writeCell (cpuCell_stackAddr _ _) b hb

/-- A push leaves the other stack locations. -/
theorem State.push_peek_other {s : State} {v sp : Byte} (h : s.sp ≠ sp) :
    (s.push v).peek (stackAddr sp) = s.peek (stackAddr sp) :=
  State.push_memKept s v _ (by simpa [sameCell_stackAddr] using h)

theorem State.MemKept.trans {l l' : List Word} {s t u : State} (hc : t.cfg = s.cfg) (h : State.MemKept l s t)
    (h' : State.MemKept l' t u) : State.MemKept (l ++ l') s u := by
  intro b hb
  rw [h' b fun a ha => ?_, h b fun a ha => hb a (by simp [ha])]
  have := hb a (by simp [ha])
  rwa [State.SameCell, hc]

/-! ### Pull -/

/-- The byte a pull answers is the one its location reads as (R14). -/
theorem State.pulled_of_reads {s : State} {v : Byte} (h : s.Reads (stackAddr (s.sp + 1)) v) : s.pulled = v := by
  rw [State.Reads, stackAddr_peek] at h
  exact Option.some.inj h

section Pop

variable (s : State)

@[simp] theorem State.pop_a : s.pop.a = s.a := rfl
@[simp] theorem State.pop_x : s.pop.x = s.x := rfl
@[simp] theorem State.pop_y : s.pop.y = s.y := rfl
@[simp] theorem State.pop_sp : s.pop.sp = s.sp + 1 := rfl
@[simp] theorem State.pop_p : s.pop.p = s.p := rfl
@[simp] theorem State.pop_pc : s.pop.pc = s.pc := rfl
@[simp] theorem State.pop_cyc : s.pop.cyc = s.cyc := rfl
@[simp] theorem State.pop_context : s.pop.context = s.context := rfl
@[simp] theorem State.pop_mapper : s.pop.mapper = s.mapper := rfl
@[simp] theorem State.pop_io : s.pop.io = s.io := rfl
@[simp] theorem State.pop_ppu : s.pop.ppu = s.ppu := rfl
@[simp] theorem State.pop_pads : s.pop.pads = s.pads := rfl
@[simp] theorem State.pop_cfg : s.pop.cfg = s.cfg := rfl
@[simp] theorem State.pop_peek (a : Word) : s.pop.peek a = s.peek a := State.setSp_peek s _ a

end Pop

/-- The word two pulls answer, low byte first (R67). -/
theorem State.pulledWord_of_reads {s : State} {l h : Byte} (hl : s.Reads (stackAddr (s.sp + 1)) l)
    (hh : s.Reads (stackAddr (s.sp + 2)) h) : s.pulledWord = wordOf h l := by
  have e : s.sp + 1 + 1 = s.sp + 2 := by rw [BitVec.add_assoc]; rfl
  rw [State.pulledWord, State.pulled_of_reads hl]
  congr 1
  refine State.pulled_of_reads ?_
  rw [State.pop_sp, e, State.Reads, State.pop_peek]
  exact hh

/-! ### Return -/

section Return

variable (s : State)

@[simp] theorem State.rti_a : s.returnFromInterrupt.a = s.a := by
  simp [State.returnFromInterrupt, State.pop]

@[simp] theorem State.rti_x : s.returnFromInterrupt.x = s.x := by
  simp [State.returnFromInterrupt, State.pop]

@[simp] theorem State.rti_y : s.returnFromInterrupt.y = s.y := by
  simp [State.returnFromInterrupt, State.pop]

@[simp] theorem State.rti_context : s.returnFromInterrupt.context = s.context := by
  simp [State.returnFromInterrupt, State.pop]

@[simp] theorem State.rti_cyc : s.returnFromInterrupt.cyc = s.cyc := by
  simp [State.returnFromInterrupt, State.pop]

@[simp] theorem State.rti_mapper : s.returnFromInterrupt.mapper = s.mapper := by
  simp [State.returnFromInterrupt, State.pop]

@[simp] theorem State.rti_io : s.returnFromInterrupt.io = s.io := by
  simp [State.returnFromInterrupt, State.pop]

@[simp] theorem State.rti_pads : s.returnFromInterrupt.pads = s.pads := by
  simp [State.returnFromInterrupt, State.pop]

@[simp] theorem State.rti_ppu : s.returnFromInterrupt.ppu = s.ppu := by
  simp [State.returnFromInterrupt, State.pop]

@[simp] theorem State.rti_pixels : s.returnFromInterrupt.pixels = s.pixels := by
  simp [State.returnFromInterrupt, State.pop]

@[simp] theorem State.rti_cfg : s.returnFromInterrupt.cfg = s.cfg := by
  simp [State.returnFromInterrupt, State.pop]

@[simp] theorem State.rti_keys : s.returnFromInterrupt.keys = s.keys := by
  simp [State.returnFromInterrupt, State.pop]

@[simp] theorem State.rti_frames : s.returnFromInterrupt.frames = s.frames := by
  simp [State.returnFromInterrupt, State.pop]

@[simp] theorem State.rti_fresh : s.returnFromInterrupt.fresh = s.fresh := by
  simp [State.returnFromInterrupt, State.pop]

@[simp] theorem State.rti_p : s.returnFromInterrupt.p = pulledStatus s.pulled := by
  simp [State.returnFromInterrupt]

@[simp] theorem State.rti_sp : s.returnFromInterrupt.sp = s.sp + 3 := by
  simp only [State.returnFromInterrupt, State.setPc_sp, State.pop_sp, State.setP_sp]
  rw [BitVec.add_assoc, BitVec.add_assoc]
  rfl

@[simp] theorem State.rti_peek (b : Word) : s.returnFromInterrupt.peek b = s.peek b := by
  simp [State.returnFromInterrupt]

end Return

/-- Where a return from interrupt goes: to the word above the status byte, low byte first (R236). -/
theorem State.rti_pc_of_reads {s : State} {l h : Byte} (hl : s.Reads (stackAddr (s.sp + 2)) l)
    (hh : s.Reads (stackAddr (s.sp + 3)) h) : s.returnFromInterrupt.pc = wordOf h l := by
  have e2 : s.sp + 1 + 1 = s.sp + 2 := by rw [BitVec.add_assoc]; rfl
  have e3 : s.sp + 1 + 2 = s.sp + 3 := by rw [BitVec.add_assoc]; rfl
  show (s.pop.setP (pulledStatus s.pulled)).pulledWord = _
  apply State.pulledWord_of_reads
  · rw [State.setP_sp, State.pop_sp, e2]
    simpa [State.Reads] using hl
  · rw [State.setP_sp, State.pop_sp, e3]
    simpa [State.Reads] using hh

/-! ### Vectors and entries -/

/-- The word a vector gives, from what its two bytes read as (R59). -/
theorem State.vectorTarget_of_reads {s : State} {vector : Word} {l h : Byte} (h8 : 0x8000 ≤ vector.toNat)
    (h8' : 0x8000 ≤ (vector + 1).toNat) (hl : s.Reads vector l) (hh : s.Reads (vector + 1) h) :
    s.vectorTarget vector = wordOf h l := by
  rw [State.Reads, prgByte_eq_peek h8] at hl
  rw [State.Reads, prgByte_eq_peek h8'] at hh
  rw [State.vectorTarget, Option.some.inj hl, Option.some.inj hh]

section Enter

variable (s : State) (ret : Word) (status : Byte) (vector : Word)

@[simp] theorem State.enter_a : (s.enter ret status vector).a = s.a := by simp [State.enter, State.pushWord]
@[simp] theorem State.enter_x : (s.enter ret status vector).x = s.x := by simp [State.enter, State.pushWord]
@[simp] theorem State.enter_y : (s.enter ret status vector).y = s.y := by simp [State.enter, State.pushWord]
@[simp] theorem State.enter_p : (s.enter ret status vector).p = putFlag s.p .interrupt true := by
  simp [State.enter, State.pushWord]
@[simp] theorem State.enter_cyc : (s.enter ret status vector).cyc = s.cyc := by simp [State.enter, State.pushWord]
@[simp] theorem State.enter_context : (s.enter ret status vector).context = s.context := by simp [State.enter, State.pushWord]
@[simp] theorem State.enter_io : (s.enter ret status vector).io = s.io := by simp [State.enter, State.pushWord]
@[simp] theorem State.enter_ppu : (s.enter ret status vector).ppu = s.ppu := by simp [State.enter, State.pushWord]
@[simp] theorem State.enter_pads : (s.enter ret status vector).pads = s.pads := by simp [State.enter, State.pushWord]
@[simp] theorem State.enter_pixels : (s.enter ret status vector).pixels = s.pixels := by simp [State.enter, State.pushWord]
@[simp] theorem State.enter_cfg : (s.enter ret status vector).cfg = s.cfg := by simp [State.enter, State.pushWord]
@[simp] theorem State.enter_keys : (s.enter ret status vector).keys = s.keys := by simp [State.enter, State.pushWord]
@[simp] theorem State.enter_frames : (s.enter ret status vector).frames = s.frames := by simp [State.enter, State.pushWord]
@[simp] theorem State.enter_fresh : (s.enter ret status vector).fresh = s.fresh := by simp [State.enter, State.pushWord]
@[simp] theorem State.enter_prg : (s.enter ret status vector).mapper.prg = s.mapper.prg := by simp [State.enter, State.pushWord]
@[simp] theorem State.enter_chr : (s.enter ret status vector).mapper.chr = s.mapper.chr := by simp [State.enter, State.pushWord]
@[simp] theorem State.enter_vram : (s.enter ret status vector).mapper.vram = s.mapper.vram := by simp [State.enter, State.pushWord]
@[simp] theorem State.enter_palette : (s.enter ret status vector).mapper.palette = s.mapper.palette := by simp [State.enter, State.pushWord]
@[simp] theorem State.enter_pc : (s.enter ret status vector).pc = s.vectorTarget vector := by
  simp [State.enter, State.pushWord, State.vectorTarget]

@[simp] theorem State.enter_sp : (s.enter ret status vector).sp = s.sp - 3 := by
  simp only [State.enter, State.pushWord, State.setFlag_sp, State.setPc_sp, State.push_sp]
  rw [BitVec.sub_sub, BitVec.sub_sub]
  rfl

theorem State.enter_peek (b : Word) :
    (s.enter ret status vector).peek b = (((s.push (hi ret)).push (lo ret)).push status).peek b := by
  simp [State.enter, State.pushWord]

end Enter

theorem sub_one_sub_one (b : Byte) : b - 1 - 1 = b - 2 := by rw [BitVec.sub_sub]; rfl

/-- The three bytes an entry pushes, where it pushes them (R407, R408). -/
theorem State.enter_reads {s : State} (hi' : s.mapper.Inv s.cfg) (ret : Word) (status : Byte) (vector : Word) :
    (s.enter ret status vector).Reads (stackAddr s.sp) (hi ret) ∧
      (s.enter ret status vector).Reads (stackAddr (s.sp - 1)) (lo ret) ∧
      (s.enter ret status vector).Reads (stackAddr (s.sp - 2)) status := by
  have h1 := State.push_mapper_inv hi' (hi ret)
  have h2 := State.push_mapper_inv h1 (lo ret)
  have e2 : ((s.push (hi ret)).push (lo ret)).sp = s.sp - 2 := sub_one_sub_one s.sp
  have n1 : s.sp - 2 ≠ s.sp := by bv_omega
  have n2 : s.sp - 2 ≠ s.sp - 1 := by bv_omega
  simp only [State.Reads, State.enter_peek]
  refine ⟨?_, ?_, ?_⟩
  · rw [State.push_peek_other (by rwa [e2]), State.push_peek_other (by simp)]
    exact State.push_reads hi' _
  · rw [State.push_peek_other (by rwa [e2])]
    exact State.push_reads h1 _
  · have := State.push_reads h2 status
    rwa [e2] at this

/-- An entry leaves every cell but those of the three stack locations (R14). -/
theorem State.enter_memKept (s : State) (ret : Word) (status : Byte) (vector : Word) :
    State.MemKept [stackAddr s.sp, stackAddr (s.sp - 1), stackAddr (s.sp - 2)] s (s.enter ret status vector) := by
  intro b hb
  have key : ∀ (t : State) (v : Byte), t.cfg = s.cfg → ¬s.SameCell (stackAddr t.sp) b → (t.push v).peek b = t.peek b := by
    intro t v hc hn
    refine State.push_memKept t v b fun a ha => ?_
    rw [List.mem_singleton] at ha
    rwa [ha, State.SameCell, hc]
  rw [State.enter_peek, key _ _ (by simp), key _ _ (by simp), key _ _ rfl]
  · exact hb _ (by simp)
  · rw [State.push_sp]
    exact hb _ (by simp)
  · rw [State.push_sp, State.push_sp, sub_one_sub_one]
    exact hb _ (by simp)

end Sys2Proof.Machine
end

