-- ==== Sys2Proof/Laws/Invariant.lean ====
section
/-! SUPPORT. What every part of a step keeps: the configuration, the inputs, the ROMs where `ROM_WRITE` is not `store`,
and the invariant. -/

namespace Sys2Proof.Machine

/-- `t` has the configuration and the inputs of `s`, its ROMs unless stores into them are allowed, and the invariant if
`s` has it. -/
structure State.Sound (s t : State) : Prop where
  cfg : t.cfg = s.cfg
  keys : t.keys = s.keys
  prg : s.cfg.romWrite ≠ .store → t.mapper.prg = s.mapper.prg
  chr : s.cfg.romWrite ≠ .store → s.cfg.chrBanks = .one → t.mapper.chr = s.mapper.chr
  inv : s.Inv → t.Inv

namespace State.Sound

theorem refl (s : State) : s.Sound s := ⟨rfl, rfl, fun _ => rfl, fun _ _ => rfl, id⟩

theorem trans {s t u : State} (h : s.Sound t) (h' : t.Sound u) : s.Sound u where
  cfg := h'.cfg.trans h.cfg
  keys := h'.keys.trans h.keys
  prg hr := (h'.prg (by rwa [h.cfg])).trans (h.prg hr)
  chr hr hc := (h'.chr (by rwa [h.cfg]) (by rwa [h.cfg])).trans (h.chr hr hc)
  inv hi := h'.inv (h.inv hi)

/-- Changing registers, cells, acknowledgments or counters outside the invariant. -/
theorem of_same {s t : State} (hc : t.cfg = s.cfg) (hk : t.keys = s.keys) (hm : t.mapper = s.mapper)
    (hp : t.pads = s.pads) (hu : t.ppu = s.ppu) (hx : t.pixels = s.pixels) (ht : t.context = s.context) : s.Sound t where
  cfg := hc
  keys := hk
  prg _ := by rw [hm]
  chr _ _ := by rw [hm]
  inv h :=
    { mapper := by
        rw [hm, hc]
        exact h.mapper
      pad1 := hp ▸ h.pad1
      pad2 := hp ▸ h.pad2
      ppu := hu ▸ h.ppu
      pixels := hx ▸ h.pixels
      context := ht ▸ h.context }

/-- Replacing the PPU by one that has the invariant. -/
theorem of_ppu {s t : State} (hc : t.cfg = s.cfg) (hk : t.keys = s.keys) (hm : t.mapper = s.mapper)
    (hp : t.pads = s.pads) (hx : t.pixels = s.pixels) (ht : t.context = s.context) (hu : s.ppu.Inv → t.ppu.Inv) :
    s.Sound t where
  cfg := hc
  keys := hk
  prg _ := by rw [hm]
  chr _ _ := by rw [hm]
  inv h :=
    { mapper := by
        rw [hm, hc]
        exact h.mapper
      pad1 := hp ▸ h.pad1
      pad2 := hp ▸ h.pad2
      ppu := hu h.ppu
      pixels := hx ▸ h.pixels
      context := ht ▸ h.context }

/-- Replacing the interrupt context by one with its bits 3 to 7 zero. -/
theorem of_context (s : State) {c : Byte} (h : s.context &&& 0xF8 = 0 → c &&& 0xF8 = 0) : s.Sound (s.setContext c) :=
  ⟨rfl, rfl, fun _ => rfl, fun _ _ => rfl, fun hi =>
    { mapper := hi.mapper, pad1 := hi.pad1, pad2 := hi.pad2, ppu := hi.ppu, pixels := hi.pixels, context := h hi.context }⟩

theorem setA (s : State) (v : Byte) : s.Sound (s.setA v) := of_same rfl rfl rfl rfl rfl rfl rfl
theorem setX (s : State) (v : Byte) : s.Sound (s.setX v) := of_same rfl rfl rfl rfl rfl rfl rfl
theorem setY (s : State) (v : Byte) : s.Sound (s.setY v) := of_same rfl rfl rfl rfl rfl rfl rfl
theorem setSp (s : State) (v : Byte) : s.Sound (s.setSp v) := of_same rfl rfl rfl rfl rfl rfl rfl
theorem setP (s : State) (v : Byte) : s.Sound (s.setP v) := of_same rfl rfl rfl rfl rfl rfl rfl
theorem setPc (s : State) (v : Word) : s.Sound (s.setPc v) := of_same rfl rfl rfl rfl rfl rfl rfl
theorem charge (s : State) (n : Nat) : s.Sound (s.charge n) := of_same rfl rfl rfl rfl rfl rfl rfl
theorem setIo (s : State) (v : IoBank) : s.Sound (s.setIo v) := of_same rfl rfl rfl rfl rfl rfl rfl
theorem setAck (s : State) (k : Fin 40) (v : Access) : s.Sound (s.setAck k v) := of_same rfl rfl rfl rfl rfl rfl rfl
theorem setNZ (s : State) (v : Byte) : s.Sound (s.setNZ v) := of_same rfl rfl rfl rfl rfl rfl rfl
theorem setFlag (s : State) (f : Flag) (v : Bool) : s.Sound (s.setFlag f v) := of_same rfl rfl rfl rfl rfl rfl rfl

theorem touch (s : State) (a : Word) (k : Access) : s.Sound (s.touch a k) := by
  apply of_same <;> simp

/-- A store in a cell inside its memory that is not program ROM, unless the policy allows it. -/
theorem writeCell {s : State} {c : CpuCell} (v : Byte) (hr : c.InRange s.cfg)
    (hp : s.cfg.romWrite ≠ .store → ∀ i, c ≠ .prg i) : s.Sound (s.writeCell c v) where
  cfg := by simp
  keys := by simp
  prg h := by
    cases c
    case prg i => exact absurd rfl (hp h i)
    all_goals rfl
  chr _ _ := by simp
  inv h :=
    { mapper := by
        rw [State.writeCell_cfg]
        exact Mapper.Inv.writeCell h.mapper hr v
      pad1 := by simpa using h.pad1
      pad2 := by simpa using h.pad2
      ppu := by simpa using h.ppu
      pixels := by simpa using h.pixels
      context := by simpa using h.context }

theorem memRead {s t : State} {a : Word} {v : Byte} (h : memRead a s = .ok (v, t)) : s.Sound t := by
  obtain ⟨-, rfl⟩ := memRead_eq_ok.1 h
  exact touch s a .read

theorem memWrite {s t : State} {a : Word} {v : Byte} (h : memWrite a v s = .ok t) : s.Sound t := by
  have hm := h
  rcases memWrite_eq_ok h with ⟨-, rfl⟩ | ⟨hg, c, hc, rfl⟩
  · exact refl _
  · refine (touch s a .write).trans (writeCell v ?_ ?_)
    · simpa using cpuCell_inRange hc
    · intro hr i hi
      rw [State.touch_cfg] at hr
      subst hi
      have h8 := (cpuCell_prg_iff.1 hc).1
      cases hw : s.cfg.romWrite with
      | fault =>
        unfold Machine.memWrite at hm
        rw [hc] at hm
        simp [hw] at hm
      | ignore => exact hg ⟨h8, hw⟩
      | store => exact hr hw

theorem push (s : State) (v : Byte) : s.Sound (s.push v) :=
  (writeCell v (stackCell_inRange _ _) (fun _ i h => by cases h)).trans (setSp _ _)

theorem enter (s : State) (ret : Word) (status : Byte) (vector : Word) : s.Sound (s.enter ret status vector) :=
  ((((push s _).trans (push _ _)).trans (push _ _)).trans (setPc _ _)).trans (setFlag _ _ _)

theorem returnFromInterrupt (s : State) : s.Sound s.returnFromInterrupt := by
  apply of_same <;> simp

/-! ### Instructions -/

theorem readLoaded (o : ReadOperand) (s : State) : s.Sound (o.loaded s) := by
  apply of_same <;> simp

theorem rmwMiddle (o : RmwOperand) (s : State) (c : Option (Byte → Bool)) (v : Byte) : s.Sound (rmwMiddle o s c v) := by
  apply of_same <;> simp

theorem readInstr {i : Instr} {o : ReadOperand} {s t : State} {k : Byte → State → State}
    (h : readInstr i o s k = .next t) (hk : ∀ v u, State.Sound u (k v u)) : s.Sound t := by
  rcases readInstr_cases i o s k with ⟨v, -, h'⟩ | ⟨a, -, -, h'⟩
  · rw [h'] at h
    obtain rfl := Host.Outcome.next.inj h
    exact ((readLoaded o s).trans (hk v _)).trans (charge _ _)
  · rw [h'] at h
    cases h

theorem storeInstr {i : Instr} {m : MemOperand} {v : Byte} {s t : State} (h : storeInstr i m v s = .next t) :
    s.Sound t := by
  rcases storeInstr_cases i m v s with ⟨u, hw, h'⟩ | ⟨-, h'⟩ | ⟨-, -, h'⟩
  · rw [h'] at h
    obtain rfl := Host.Outcome.next.inj h
    exact (memWrite hw).trans (charge _ _)
  · rw [h'] at h
    cases h
  · rw [h'] at h
    cases h

theorem rmwInstr {i : Instr} {o : RmwOperand} {s t : State} {c : Option (Byte → Bool)} {r : Byte → Byte}
    (h : rmwInstr i o s c r = .next t) : s.Sound t := by
  rcases rmwInstr_cases i o s c r with ⟨v, u, -, hw, h'⟩ | ⟨a, -, -, h'⟩ | ⟨v, a, -, -, -, -, h'⟩
  · rw [h'] at h
    obtain rfl := Host.Outcome.next.inj h
    refine (((rmwMiddle o s c v).trans ?_).trans (setNZ _ _)).trans (charge _ _)
    cases o with
    | acc =>
      obtain rfl := Except.ok.inj hw
      exact setA _ _
    | mem m => exact memWrite hw
  · rw [h'] at h
    cases h
  · rw [h'] at h
    cases h

theorem branchInstr {c : Bool} {d : Byte} {s t : State} (h : branchInstr c d s = .next t) : s.Sound t := by
  cases c
  · obtain rfl := Host.Outcome.next.inj h
    exact charge _ _
  · obtain rfl := Host.Outcome.next.inj h
    exact (setPc _ _).trans (charge _ _)

theorem jumpTarget {o : JumpOperand} {s t : State} {w : Word} (h : o.target s = .ok (w, t)) : s.Sound t := by
  cases o with
  | abs w =>
    obtain rfl := (Prod.mk.inj (Except.ok.inj h)).2
    exact refl _
  | abi p =>
    simp only [JumpOperand.target, bind, Except.bind] at h
    cases h1 : Machine.memRead p s with
    | error f =>
      rw [h1] at h
      cases h
    | ok q =>
      obtain ⟨l, u⟩ := q
      rw [h1] at h
      simp only at h
      cases h2 : Machine.memRead (abiHighAddr p) u with
      | error f =>
        rw [h2] at h
        cases h
      | ok q =>
        obtain ⟨m, u'⟩ := q
        rw [h2] at h
        obtain rfl := (Prod.mk.inj (Except.ok.inj h)).2
        exact (memRead h1).trans (memRead h2)

/-- Every instruction that completes keeps the invariant, the configuration and the ROMs. -/
theorem exec {i : Instr} {s t : State} (h : exec i s = .next t) : s.Sound t := by
  cases i
  case und => cases h
  case lda | ldx | ldy =>
    exact readInstr h fun v u => of_same rfl rfl rfl rfl rfl rfl rfl
  case adc | sbc | and | ora | eor | cmp | cpx | cpy =>
    exact readInstr h fun v u => of_same rfl rfl rfl rfl rfl rfl rfl
  case bit => exact readInstr h fun v u => of_same rfl rfl rfl rfl rfl rfl rfl
  case sta | stx | sty => exact storeInstr h
  case inc m => exact rmwInstr (i := .inc m) (o := .mem m) (c := none) h
  case dec m => exact rmwInstr (i := .dec m) (o := .mem m) (c := none) h
  case asl o => exact rmwInstr (i := .asl o) (c := some _) h
  case lsr o => exact rmwInstr (i := .lsr o) (c := some _) h
  case rol o => exact rmwInstr (i := .rol o) (c := some _) h
  case ror o => exact rmwInstr (i := .ror o) (c := some _) h
  case bcc | bcs | beq | bne | bmi | bpl | bvc | bvs => exact branchInstr h
  case jmp o =>
    simp only [Machine.exec, execJmp] at h
    cases hj : o.target s with
    | error f =>
      rw [hj] at h
      cases h
    | ok q =>
      obtain ⟨w, u⟩ := q
      rw [hj] at h
      obtain rfl := Host.Outcome.next.inj h
      exact ((jumpTarget hj).trans (setPc _ _)).trans (charge _ _)
  case jsr w =>
    obtain rfl := Host.Outcome.next.inj h
    exact (((push s _).trans (push _ _)).trans (setPc _ _)).trans (charge _ _)
  case pha | php =>
    obtain rfl := Host.Outcome.next.inj h
    exact (push _ _).trans (charge _ _)
  case brk =>
    simp only [Machine.exec, execBrk, plainInstr] at h
    obtain rfl := Host.Outcome.next.inj h
    exact (enter _ _ _ _).trans (charge _ _)
  case rti =>
    simp only [Machine.exec, execRti, plainInstr] at h
    obtain rfl := Host.Outcome.next.inj h
    exact (returnFromInterrupt s).trans (charge _ _)
  all_goals
    obtain rfl := Host.Outcome.next.inj h
    exact of_same rfl rfl rfl rfl rfl rfl rfl

/-! ### The rest of a CPU step -/

theorem fetch {s t : State} {i : Instr} (h : fetch s = .ok (i, t)) : s.Sound t := by
  simp only [Machine.fetch, bind, Except.bind] at h
  cases h1 : Machine.memRead s.pc s with
  | error f =>
    rw [h1] at h
    cases h
  | ok q =>
    obtain ⟨op, u⟩ := q
    rw [h1] at h
    simp only at h
    refine (memRead h1).trans ?_
    have fin : ∀ {u t : State} {i j : Instr} {w : Word},
        (Except.ok (j, u.setPc w) : Except Fault (Instr × State)) = .ok (i, t) → u.Sound t := by
      intro u t i j w h
      obtain ⟨-, rfl⟩ := Prod.mk.inj (Except.ok.inj h)
      exact setPc _ _
    by_cases c0 : argCount op = 0
    · rw [if_pos c0, if_pos (by omega)] at h
      exact fin h
    rw [if_neg c0] at h
    cases h2 : Machine.memRead (s.pc + 1) u with
    | error f =>
      rw [h2] at h
      cases h
    | ok q =>
      obtain ⟨a0, u0⟩ := q
      rw [h2] at h
      simp only at h
      refine (memRead h2).trans ?_
      by_cases c1 : argCount op < 2
      · rw [if_pos c1] at h
        exact fin h
      rw [if_neg c1] at h
      cases h3 : Machine.memRead (s.pc + 2) u0 with
      | error f =>
        rw [h3] at h
        cases h
      | ok q =>
        obtain ⟨a1, u1⟩ := q
        rw [h3] at h
        exact (memRead h3).trans (fin h)

/-- Servicing an interrupt keeps the invariant: each service clears its bit (R405). -/
theorem interruptCheck (s : State) : s.Sound s.interruptCheck := by
  have hc : ∀ b : Byte, b &&& 0xF8 = 0 → (b &&& ~~~0x01) &&& 0xF8 = 0 ∧ (b &&& ~~~0x02) &&& 0xF8 = 0 ∧
      (b &&& ~~~0x04) &&& 0xF8 = 0 := by decide
  unfold State.interruptCheck
  split
  · refine State.Sound.trans ?_ (charge _ 7)
    refine (((setSp s _).trans (setPc _ _)).trans (setFlag _ _ _)).trans (of_context _ fun h => (hc _ h).1)
  · refine State.Sound.trans ?_ (charge _ 7)
    refine (enter s _ _ _).trans (of_context _ fun h => ?_)
    rw [State.enter_context] at h
    exact (hc _ h).2.1
  · refine State.Sound.trans ?_ (charge _ 7)
    refine (enter s _ _ _).trans (of_context _ fun h => ?_)
    rw [State.enter_context] at h
    exact (hc _ h).2.2
  · exact refl _

theorem writeOam (s : State) {i : Nat} (v : Byte) (hi : i < 256) : s.Sound (s.writeOam i v) := by
  refine of_ppu rfl rfl rfl rfl rfl rfl fun h => ?_
  exact { h with oam := Memory.wf_write h.oam hi }

theorem dmaCopy {page : Byte} {n i : Nat} {s t : State} (h : dmaCopy page n i s = .ok t) : s.Sound t := by
  induction n generalizing i s with
  | zero =>
    obtain rfl := Except.ok.inj h
    exact refl _
  | succ n ih =>
    simp only [Machine.dmaCopy] at h
    split at h
    · rename_i b u hr
      exact ((memRead hr).trans (writeOam u b (Nat.mod_lt _ (by decide)))).trans (ih h)
    · cases h

theorem dmaTransfer {s t : State} (h : dmaTransfer s = .ok t) : s.Sound t := by
  unfold Machine.dmaTransfer at h
  split at h
  · rename_i u hu
    obtain rfl := Except.ok.inj h
    exact (dmaCopy hu).trans (charge _ _)
  · cases h

/-! ### The Controller -/

theorem of_pads {s t : State} (hc : t.cfg = s.cfg) (hk : t.keys = s.keys) (hm : t.mapper = s.mapper)
    (hu : t.ppu = s.ppu) (hx : t.pixels = s.pixels) (ht : t.context = s.context)
    (h1 : s.pads.pad1.Inv → t.pads.pad1.Inv) (h2 : s.pads.pad2.Inv → t.pads.pad2.Inv) : s.Sound t where
  cfg := hc
  keys := hk
  prg _ := by rw [hm]
  chr _ _ := by rw [hm]
  inv h :=
    { mapper := by
        rw [hm, hc]
        exact h.mapper
      pad1 := h1 h.pad1
      pad2 := h2 h.pad2
      ppu := hu ▸ h.ppu
      pixels := hx ▸ h.pixels
      context := ht ▸ h.context }

end State.Sound

theorem Joypad.Inv.latch (pad : Joypad) (k : Byte) : (pad.latch k).Inv :=
  ⟨Nat.le_refl 1, Nat.le_add_left 1 9⟩

theorem Joypad.Inv.advance {pad : Joypad} (h : pad.Inv) (cell : Byte) : (pad.advance cell).1.Inv := by
  have hl := h.low
  have hh := h.high
  unfold Joypad.advance
  split
  · exact h
  split
  · exact ⟨Nat.le_add_left 1 _, by show pad.pos + 1 ≤ 10; omega⟩
  split
  · exact ⟨Nat.le_add_left 1 8, Nat.le_add_left 9 1⟩
  split
  · exact ⟨Nat.le_add_left 1 9, Nat.le_refl 10⟩
  · exact ⟨Nat.le_refl 1, Nat.le_add_left 1 9⟩

theorem State.Sound.controllerStep (s : State) : s.Sound (controllerStep s) := by
  have hs : ∀ u : State, u.Sound u.strobe := by
    intro u
    unfold State.strobe
    split
    · exact State.Sound.of_pads rfl rfl rfl rfl rfl rfl id id
    · split
      · exact State.Sound.of_pads rfl rfl rfl rfl rfl rfl (fun _ => Joypad.Inv.latch u.pads.pad1 _)
          (fun _ => Joypad.Inv.latch u.pads.pad2 _)
      · exact State.Sound.refl _
  have h1 : ∀ u : State, u.Sound u.shiftPad1 := fun u =>
    State.Sound.of_pads rfl rfl rfl rfl rfl rfl (fun h => h.advance _) id
  have h2 : ∀ u : State, u.Sound u.shiftPad2 := fun u =>
    State.Sound.of_pads rfl rfl rfl rfl rfl rfl id (fun h => h.advance _)
  have h0 : s.Sound ((s.setAck joy1Slot .none).setAck joy2Slot .none) :=
    (State.Sound.setAck _ _ _).trans (State.Sound.setAck _ _ _)
  simp only [Machine.controllerStep, State.takeAck]
  split <;> split
  · exact (h0.trans (hs _)).trans (h2 _)
  · exact (h0.trans (h1 _)).trans (h2 _)
  · exact h0.trans (h2 _)
  · exact h0.trans (hs _)
  · exact h0.trans (h1 _)
  · exact h0
  · exact h0.trans (hs _)
  · exact h0.trans (h1 _)
  · exact h0

/-! ### The PPU's registers -/

/-- Changing the PPU's registers, flags, pipelines or units, but not its counters, evaluation or memories. -/
theorem Ppu.Inv.of_same {p q : Ppu} (h : p.Inv) (h1 : q.cycle = p.cycle) (h2 : q.scanline = p.scanline)
    (h3 : q.oddFrame = p.oddFrame) (h4 : q.eval = p.eval) (h5 : q.spriteCount = p.spriteCount) (h6 : q.oam = p.oam)
    (h7 : q.secOam = p.secOam) : q.Inv where
  cycle := h1 ▸ h.cycle
  first := h2 ▸ h.first
  last := h2 ▸ h.last
  skipped := by
    rw [h1, h2, h3]
    exact h.skipped
  eval := h4 ▸ h.eval
  spriteCount := h5 ▸ h.spriteCount
  oam := h6 ▸ h.oam
  secOam := h7 ▸ h.secOam

theorem Ppu.Inv.writeScroll {p : Ppu} (h : p.Inv) (d : Byte) : (p.writeScroll d).Inv := by
  unfold Ppu.writeScroll
  split <;> exact h.of_same rfl rfl rfl rfl rfl rfl rfl

theorem Ppu.Inv.writeAddr {p : Ppu} (h : p.Inv) (d : Byte) : (p.writeAddr d).Inv := by
  unfold Ppu.writeAddr
  split <;> exact h.of_same rfl rfl rfl rfl rfl rfl rfl

theorem State.Sound.ppuWrite {s t : State} {a : Word} {v : Byte} (h : ppuWrite a v s = .ok t) : s.Sound t := by
  have hw : ∀ c : PpuCell, c.InRange → (s.cfg.romWrite ≠ .store → s.cfg.chrBanks = .one → ∀ i, c ≠ .chr i) →
      s.Sound (s.setMapper (s.mapper.writePpuCell c v)) := by
    intro c hr hc
    refine ⟨rfl, rfl, fun _ => ?_, fun h1 h2 => ?_, fun hi => ?_⟩
    · cases c <;> rfl
    · cases c
      case chr i => exact absurd rfl (hc h1 h2 i)
      all_goals rfl
    · refine { hi with mapper := ?_ }
      have hm := hi.mapper
      cases c
      case chr i => exact { hm with chr := Memory.wf_write hm.chr hr }
      case vram i => exact { hm with vram := Memory.wf_write hm.vram hr }
      case palette i => exact { hm with palette := Memory.wf_write hm.palette hr }
  have hr := ppuCell_inRange s.cfg a
  unfold Machine.ppuWrite at h
  split at h
  · rename_i i hc hb
    rw [hc] at hr
    split at h
    · cases h
    · obtain rfl := Except.ok.inj h
      exact State.Sound.refl _
    · rename_i hs
      obtain rfl := Except.ok.inj h
      exact hw _ hr fun h1 => absurd hs h1
  · rename_i hn
    obtain rfl := Except.ok.inj h
    exact hw _ hr fun _ h2 i hi => hn i hi h2

theorem State.Sound.manageRegister {s t : State} {k : Fin 8} (h : manageRegister k s = .ok t) : s.Sound t := by
  have hp : ∀ (u : State) (p : Ppu), (u.ppu.Inv → p.Inv) → u.Sound (u.setPpu p) := fun u p hi =>
    State.Sound.of_ppu rfl rfl rfl rfl rfl rfl hi
  simp only [Machine.manageRegister, State.takeAck] at h
  refine (State.Sound.setAck s (ppuSlot k) .none).trans ?_
  generalize (s.setAck (ppuSlot k) .none).io.ioreg[k] = d at h
  generalize s.setAck (ppuSlot k) .none = u at h ⊢
  unfold State.registerEffect at h
  split at h
  case h_8 =>
    unfold State.writeData at h
    split at h
    · rename_i w hw
      obtain rfl := Except.ok.inj h
      exact (State.Sound.ppuWrite hw).trans (hp _ _ fun hi => hi.of_same rfl rfl rfl rfl rfl rfl rfl)
    · cases h
  case h_9 =>
    obtain rfl := Except.ok.inj h
    exact (State.Sound.setIo u _).trans (hp _ _ fun hi => hi.of_same rfl rfl rfl rfl rfl rfl rfl)
  case h_5 =>
    obtain rfl := Except.ok.inj h
    exact hp _ _ fun hi => { hi with oam := Memory.wf_write hi.oam (BitVec.isLt _) }
  case h_6 =>
    obtain rfl := Except.ok.inj h
    exact hp _ _ fun hi => hi.writeScroll _
  case h_7 =>
    obtain rfl := Except.ok.inj h
    exact hp _ _ fun hi => hi.writeAddr _
  case h_10 =>
    obtain rfl := Except.ok.inj h
    exact State.Sound.refl _
  all_goals
    obtain rfl := Except.ok.inj h
    exact hp _ _ fun hi => hi.of_same rfl rfl rfl rfl rfl rfl rfl

theorem State.Sound.manageRegisters {s t : State} (h : manageRegisters s = .ok t) : s.Sound t := by
  simp only [Machine.manageRegisters, bind, Except.bind] at h
  split at h
  · cases h
  rename_i u0 h0
  split at h
  · cases h
  rename_i u1 h1
  split at h
  · cases h
  rename_i u2 h2
  split at h
  · cases h
  rename_i u3 h3
  split at h
  · cases h
  rename_i u4 h4
  split at h
  · cases h
  rename_i u5 h5
  split at h
  · cases h
  rename_i u6 h6
  exact (((((((manageRegister h0).trans (manageRegister h1)).trans (manageRegister h2)).trans (manageRegister h3)).trans
    (manageRegister h4)).trans (manageRegister h5)).trans (manageRegister h6)).trans (manageRegister h)

theorem State.Sound.refreshCells (s : State) : s.Sound (refreshCells s) := State.Sound.setIo _ _

/-! ### A PPU tick -/

theorem Ppu.Inv.backgroundPipeline {p : Ppu} (h : p.Inv) (cfg : Config) (m : Mapper) :
    (p.backgroundPipeline cfg m).Inv := by
  have k := p.backgroundPipeline_kept cfg m
  obtain ⟨h1, -, h2, -, h3, -⟩ := p.backgroundPipeline_sprites cfg m
  exact h.of_same k.cycle k.scanline k.oddFrame h1 h2 k.oam h3

theorem Ppu.Inv.writeSec {p : Ppu} (h : p.Inv) {i : Nat} (v : Byte) (hi : i < 32) : (p.writeSec i v).Inv :=
  { h with secOam := Memory.wf_write h.secOam hi }

/-- Moving to the next entry keeps the evaluation's counters in range (R370). -/
theorem Evaluation.Inv.next {e : Evaluation} (h1 : e.n ≤ 63) (h2 : e.m ≤ 3) (h3 : e.found ≤ 8) : e.next.Inv := by
  unfold Evaluation.next
  split
  · exact ⟨h1, h2, h3, fun h => by rcases h with h | h <;> exact absurd h (by simp), fun h => absurd h (by simp)⟩
  · refine ⟨?_, h2, h3, fun h => ?_, fun h => ?_⟩
    · show e.n + 1 ≤ 63
      omega
    · show e.found < 8
      by_cases hf : e.found = 8
      · simp [hf] at h
      · omega
    · by_cases hf : e.found = 8
      · simp [hf] at h
      · simp [hf] at h

/-- A step of sprite evaluation keeps the invariant: no write leaves secondary OAM (R370, R371). -/
theorem Ppu.Inv.evalStep {p : Ppu} (h : p.Inv) : p.evalStep.Inv := by
  have he := h.eval
  have with_eval : ∀ {q : Ppu}, q.Inv → ∀ {e : Evaluation}, e.Inv → ({ q with eval := e } : Ppu).Inv := by
    intro q hq e he
    exact { hq with eval := he }
  simp only [Ppu.evalStep]
  split
  · rename_i hs
    have hf := he.room (.inl hs)
    split
    · exact with_eval (h.writeSec _ (by omega))
        ⟨he.n, Nat.le_add_left 1 2, he.found, fun _ => hf, fun _ => Nat.le_refl 1⟩
    · exact with_eval h (Evaluation.Inv.next he.n he.m he.found)
  · rename_i hs
    have hf := he.room (.inr hs)
    have hm := he.m
    split
    · exact with_eval (h.writeSec _ (by omega)) (Evaluation.Inv.next he.n (Nat.zero_le _) hf)
    · refine with_eval (h.writeSec _ (by omega)) ⟨he.n, ?_, he.found, fun _ => hf, fun _ => Nat.le_add_left 1 _⟩
      show p.eval.m + 1 ≤ 3
      omega
  · split
    · refine { h with eval := ⟨he.n, he.m, he.found, fun hx => ?_, fun hx => ?_⟩ }
      · rcases hx with hx | hx <;> cases hx
      · cases hx
    · exact with_eval h (Evaluation.Inv.next he.n he.m he.found)
  · exact h

theorem Ppu.Inv.spriteEvaluation {p : Ppu} (h : p.Inv) : p.spriteEvaluation.Inv := by
  have h3 : ∀ (q : Ppu) (c : Prop) [Decidable c], q.Inv → (if c then q.handOver else q).Inv := by
    intro q c _ hq
    split
    · exact { hq with spriteCount := hq.eval.found }
    · exact hq
  have h2 : ∀ (q : Ppu) (c : Prop) [Decidable c], q.Inv → (if c then q.evalStep else q).Inv := by
    intro q c _ hq
    split
    · exact hq.evalStep
    · exact hq
  have h1 : ∀ (q : Ppu) (c : Prop) [Decidable c], q.Inv → (if c then { q with eval := q.eval.start } else q).Inv := by
    intro q c _ hq
    split
    · exact { hq with
        eval := ⟨Nat.zero_le 63, Nat.zero_le 3, Nat.zero_le 8, fun _ => Nat.zero_lt_succ 7, fun hx => absurd hx (by simp [Evaluation.start])⟩ }
    · exact hq
  have h0 : ∀ (q : Ppu) (c : Prop) [Decidable c] (i : Nat), q.Inv → (c → i < 32) → (if c then q.writeSec i 0xFF else q).Inv := by
    intro q c _ i hq hi
    split
    · exact hq.writeSec _ (hi ‹_›)
    · exact hq
  exact h3 _ _ (h2 _ _ (h1 _ _ (h0 p _ _ h fun hc => by omega)))

theorem State.Sound.spritePipeline (r : Bool) (s : State) : s.Sound (s.spritePipeline r) := by
  have hp : ∀ (u : State) (p : Ppu), (u.ppu.Inv → p.Inv) → u.Sound (u.setPpu p) := fun u p hi =>
    State.Sound.of_ppu rfl rfl rfl rfl rfl rfl hi
  simp only [State.spritePipeline]
  split
  · split
    · exact hp _ _ fun hi => { hi with spriteCount := Nat.zero_le _ }
    · exact State.Sound.refl _
  · have h0 : s.Sound (s.setPpu s.ppu.spriteEvaluation) := hp _ _ fun hi => hi.spriteEvaluation
    have h1 : ∀ (u : State) (i : Fin 8), u.Sound (u.loadUnit i) := by
      intro u i
      obtain ⟨a, b, c⟩ := State.loadUnit_kept i u
      obtain ⟨d, e, -, f, -⟩ := State.loadUnit_rest i u
      exact State.Sound.of_ppu a.cfg a.keys a.mapper a.pads c a.context fun hi =>
        hi.of_same b.cycle b.scanline b.oddFrame d e b.oam f
    split
    · split
      · exact h0.trans (h1 _ _)
      · exact h0
    · exact h0

theorem State.Sound.drawTick (s : State) (h : s.ppu.scanline ≤ 239) : s.Sound s.drawTick := by
  unfold State.drawTick
  split
  · rename_i hc
    refine ⟨rfl, rfl, fun _ => rfl, fun _ _ => rfl, fun hi => ?_⟩
    refine { hi with ppu := hi.ppu.of_same rfl rfl rfl rfl rfl rfl rfl, pixels := ?_ }
    exact Memory.wf_write hi.pixels (by omega)
  · exact State.Sound.refl _

theorem State.Sound.renderTick (s : State) (h : s.ppu.scanline ≤ 239) : s.Sound s.renderTick := by
  rw [State.renderTick_eq]
  have hb : s.Sound s.backgroundTick := by
    unfold State.backgroundTick
    split
    · exact State.Sound.of_ppu rfl rfl rfl rfl rfl rfl fun hi => hi.backgroundPipeline _ _
    · exact State.Sound.refl _
  have k1 := s.backgroundTick_kept.2.1.scanline
  have k2 := (State.spritePipeline_kept s.ppu.rendering s.backgroundTick).2.1.scanline
  exact (hb.trans (State.Sound.spritePipeline _ _)).trans (State.Sound.drawTick _ (by rw [k2, k1]; exact h))

theorem State.Sound.vblankStart (s : State) : s.Sound s.vblankStart := by
  have h0 : s.Sound { s.setPpu { s.ppu with vblank := true } with frames := s.frames + 1 } :=
    State.Sound.of_ppu rfl rfl rfl rfl rfl rfl fun hi => hi.of_same rfl rfl rfl rfl rfl rfl rfl
  have hc : ∀ b : Byte, b &&& 0xF8 = 0 → (b ||| 0x02) &&& 0xF8 = 0 := by decide
  simp only [State.vblankStart]
  split
  · exact h0.trans (State.Sound.of_context _ fun h => hc _ h)
  · exact h0

/-- Advancing keeps the counters in range and never reaches the skipped position (R351, R352). -/
theorem Ppu.Inv.advance {p : Ppu} (h : p.Inv) : p.advance.Inv := by
  have h1 := h.cycle
  have h2 := h.first
  have h3 := h.last
  unfold Ppu.advance
  split
  · exact { h with
      cycle := Nat.zero_le _, first := by show (-1 : Int) ≤ 0; decide, last := by show (0 : Int) ≤ 260; decide
      skipped := fun hx => by cases hx.1 }
  · rename_i hn
    split
    · split
      · exact { h with
          cycle := Nat.zero_le _, first := by show (-1 : Int) ≤ -1; decide, last := by show (-1 : Int) ≤ 260; decide
          skipped := fun hx => by cases hx.2.1 }
      · exact { h with
          cycle := Nat.zero_le _, first := by show -1 ≤ p.scanline + 1; omega
          last := by show p.scanline + 1 ≤ 260; omega, skipped := fun hx => by cases hx.2.1 }
    · refine { h with cycle := ?_, skipped := ?_ }
      · show p.cycle + 1 ≤ 340
        omega
      · rintro ⟨ha, hb, hc⟩
        have hb' : p.cycle + 1 = 340 := hb
        exact hn ⟨ha, by omega, hc⟩

theorem State.Sound.beforeAdvance (s : State) : s.Sound s.beforeAdvance := by
  rcases s.beforeAdvance_cases with ⟨-, -, h⟩ | ⟨h1, -, h⟩ | ⟨-, h2, -, h⟩ | ⟨-, -, h⟩ <;> rw [h]
  · exact State.Sound.vblankStart s
  · have h0 : s.Sound (s.setPpu s.ppu.clearFlags) :=
      State.Sound.of_ppu rfl rfl rfl rfl rfl rfl fun hi => hi.of_same rfl rfl rfl rfl rfl rfl rfl
    refine h0.trans (State.Sound.renderTick _ ?_)
    show s.ppu.scanline ≤ 239
    omega
  · exact State.Sound.renderTick s h2
  · exact State.Sound.refl _

theorem State.Sound.ppuTick (s : State) : s.Sound (ppuTick s) := by
  rw [ppuTick_eq]
  exact (State.Sound.beforeAdvance s).trans (State.Sound.of_ppu rfl rfl rfl rfl rfl rfl fun hi => hi.advance)

theorem State.Sound.ppuTicks (n : Nat) (s : State) : s.Sound (ppuTicks n s) := by
  induction n generalizing s with
  | zero => exact State.Sound.refl _
  | succ n ih => exact (State.Sound.ppuTick s).trans (ih _)

end Sys2Proof.Machine
end

