-- ==== Sys2Proof/Laws/PerInstr.lean ====
section
/-! SUPPORT. The laws stated for every instruction as syntax, one lemma per constructor. -/

namespace Sys2Proof

/-- The instruction length of a mode in bytes (R102); an undefined opcode is its one byte (R106). -/
def Mode.bytes : Mode → Nat
  | .IMP | .ACC | .UND => 1
  | .IMM | .ZER | .ZEX | .ZEY | .INX | .INY | .REL => 2
  | .ABS | .ABX | .ABY | .ABI => 3

theorem MemOperand.args_bytes (m : MemOperand) : m.args.length + 1 = m.mode.bytes := by
  cases m <;> rfl

theorem ReadOperand.args_bytes (o : ReadOperand) : o.args.length + 1 = o.mode.bytes := by
  cases o with
  | imm v => rfl
  | mem m => exact m.args_bytes

theorem RmwOperand.args_bytes (o : RmwOperand) : o.args.length + 1 = o.mode.bytes := by
  cases o with
  | acc => rfl
  | mem m => exact m.args_bytes

theorem JumpOperand.args_bytes (o : JumpOperand) : o.args.length + 1 = o.mode.bytes := by
  cases o <;> rfl

/-- The bytes of a well-formed instruction are its opcode and its argument bytes. -/
theorem encode_length {i : Instr} (h : i.wf = true) (hu : i.mode ≠ .UND) (hb : i.args.length + 1 = i.mode.bytes) :
    (encode i).length = i.mode.bytes := by
  obtain ⟨r, hr⟩ := exists_row h hu
  rw [encode_of_row hr, ← hb, List.length_cons]

namespace Laws.EncodedLength

/-- A well-formed instruction has as many bytes as its mode says (R102). -/
def Statement (i : Instr) : Prop := i.wf = true → (encode i).length = i.mode.bytes

theorem lda (o : ReadOperand) : Statement (.lda o) := fun h => encode_length h o.mode_ne_und o.args_bytes

theorem ldx (o : ReadOperand) : Statement (.ldx o) := fun h => encode_length h o.mode_ne_und o.args_bytes

theorem ldy (o : ReadOperand) : Statement (.ldy o) := fun h => encode_length h o.mode_ne_und o.args_bytes

theorem sta (m : MemOperand) : Statement (.sta m) := fun h => encode_length h m.mode_ne_und m.args_bytes

theorem stx (m : MemOperand) : Statement (.stx m) := fun h => encode_length h m.mode_ne_und m.args_bytes

theorem sty (m : MemOperand) : Statement (.sty m) := fun h => encode_length h m.mode_ne_und m.args_bytes

theorem tax : Statement .tax := fun h => encode_length h (by decide) rfl

theorem tay : Statement .tay := fun h => encode_length h (by decide) rfl

theorem txa : Statement .txa := fun h => encode_length h (by decide) rfl

theorem tya : Statement .tya := fun h => encode_length h (by decide) rfl

theorem tsx : Statement .tsx := fun h => encode_length h (by decide) rfl

theorem txs : Statement .txs := fun h => encode_length h (by decide) rfl

theorem adc (o : ReadOperand) : Statement (.adc o) := fun h => encode_length h o.mode_ne_und o.args_bytes

theorem sbc (o : ReadOperand) : Statement (.sbc o) := fun h => encode_length h o.mode_ne_und o.args_bytes

theorem and (o : ReadOperand) : Statement (.and o) := fun h => encode_length h o.mode_ne_und o.args_bytes

theorem ora (o : ReadOperand) : Statement (.ora o) := fun h => encode_length h o.mode_ne_und o.args_bytes

theorem eor (o : ReadOperand) : Statement (.eor o) := fun h => encode_length h o.mode_ne_und o.args_bytes

theorem cmp (o : ReadOperand) : Statement (.cmp o) := fun h => encode_length h o.mode_ne_und o.args_bytes

theorem cpx (o : ReadOperand) : Statement (.cpx o) := fun h => encode_length h o.mode_ne_und o.args_bytes

theorem cpy (o : ReadOperand) : Statement (.cpy o) := fun h => encode_length h o.mode_ne_und o.args_bytes

theorem bit (m : MemOperand) : Statement (.bit m) := fun h => encode_length h m.mode_ne_und m.args_bytes

theorem inc (m : MemOperand) : Statement (.inc m) := fun h => encode_length h m.mode_ne_und m.args_bytes

theorem dec (m : MemOperand) : Statement (.dec m) := fun h => encode_length h m.mode_ne_und m.args_bytes

theorem inx : Statement .inx := fun h => encode_length h (by decide) rfl

theorem iny : Statement .iny := fun h => encode_length h (by decide) rfl

theorem dex : Statement .dex := fun h => encode_length h (by decide) rfl

theorem dey : Statement .dey := fun h => encode_length h (by decide) rfl

theorem asl (o : RmwOperand) : Statement (.asl o) := fun h => encode_length h o.mode_ne_und o.args_bytes

theorem lsr (o : RmwOperand) : Statement (.lsr o) := fun h => encode_length h o.mode_ne_und o.args_bytes

theorem rol (o : RmwOperand) : Statement (.rol o) := fun h => encode_length h o.mode_ne_und o.args_bytes

theorem ror (o : RmwOperand) : Statement (.ror o) := fun h => encode_length h o.mode_ne_und o.args_bytes

theorem jmp (o : JumpOperand) : Statement (.jmp o) := fun h => encode_length h o.mode_ne_und o.args_bytes

theorem jsr (w : Word) : Statement (.jsr w) := fun h => encode_length h (by simp [Instr.mode]) rfl

theorem rts : Statement .rts := fun h => encode_length h (by decide) rfl

theorem bcc (b : Byte) : Statement (.bcc b) := fun h => encode_length h (by simp [Instr.mode]) rfl

theorem bcs (b : Byte) : Statement (.bcs b) := fun h => encode_length h (by simp [Instr.mode]) rfl

theorem beq (b : Byte) : Statement (.beq b) := fun h => encode_length h (by simp [Instr.mode]) rfl

theorem bne (b : Byte) : Statement (.bne b) := fun h => encode_length h (by simp [Instr.mode]) rfl

theorem bmi (b : Byte) : Statement (.bmi b) := fun h => encode_length h (by simp [Instr.mode]) rfl

theorem bpl (b : Byte) : Statement (.bpl b) := fun h => encode_length h (by simp [Instr.mode]) rfl

theorem bvc (b : Byte) : Statement (.bvc b) := fun h => encode_length h (by simp [Instr.mode]) rfl

theorem bvs (b : Byte) : Statement (.bvs b) := fun h => encode_length h (by simp [Instr.mode]) rfl

theorem pha : Statement .pha := fun h => encode_length h (by decide) rfl

theorem php : Statement .php := fun h => encode_length h (by decide) rfl

theorem pla : Statement .pla := fun h => encode_length h (by decide) rfl

theorem plp : Statement .plp := fun h => encode_length h (by decide) rfl

theorem clc : Statement .clc := fun h => encode_length h (by decide) rfl

theorem sec : Statement .sec := fun h => encode_length h (by decide) rfl

theorem cli : Statement .cli := fun h => encode_length h (by decide) rfl

theorem sei : Statement .sei := fun h => encode_length h (by decide) rfl

theorem cld : Statement .cld := fun h => encode_length h (by decide) rfl

theorem sed : Statement .sed := fun h => encode_length h (by decide) rfl

theorem clv : Statement .clv := fun h => encode_length h (by decide) rfl

theorem nop : Statement .nop := fun h => encode_length h (by decide) rfl

theorem brk : Statement .brk := fun h => encode_length h (by decide) rfl

theorem rti : Statement .rti := fun h => encode_length h (by decide) rfl

theorem und (b : Byte) : Statement (.und b) := fun _ => rfl

end Laws.EncodedLength

end Sys2Proof
end

