-- ==== Sys2Proof/Laws/PpuRegs.lean ====
section
/-! SUPPORT. The laws of the PPU's register step: what polling a slot leaves alone (R310), and what the data port does
where it can store and where it cannot (R57, R326, R327). -/

namespace Sys2Proof.Machine

/-- Clearing a slot polls it. -/
theorem State.polled_setAck (slot : Fin 40) (s : State) : State.Polled slot s (s.setAck slot .none) := by
  refine ⟨fun j => ?_, by constructor <;> rfl, rfl, rfl, rfl, rfl, rfl, rfl, rfl, rfl, rfl, rfl, rfl, rfl, rfl, rfl, rfl⟩
  show (s.io.ack.set slot.val .none slot.isLt)[j.val] = _
  rw [Vector.getElem_set]
  by_cases h : slot.val = j.val
  · rw [if_pos h, if_pos (Fin.ext h.symm)]
  · rw [if_neg h, if_neg (fun e => h (congrArg Fin.val e).symm)]
    rfl

/-- A side effect on the PPU, the PPU's memories and the cells leaves alone what polling does. -/
theorem State.Polled.of_effect {slot : Fin 40} {s t u : State} (h : State.Polled slot s t) (hr : u.SameRegisters t)
    (hx : u.context = t.context) (hc : u.cyc = t.cyc) (h1 : u.mapper.ram = t.mapper.ram) (h2 : u.mapper.sram = t.mapper.sram)
    (h3 : u.mapper.prg = t.mapper.prg) (hi : u.io = { t.io with ioreg := u.io.ioreg }) (hp : u.pads = t.pads)
    (hq : u.pixels = t.pixels) (hg : u.cfg = t.cfg) (hk : u.keys = t.keys) (hf : u.frames = t.frames)
    (hn : u.fresh = t.fresh) : State.Polled slot s u where
  acks j := by
    rw [hi]
    exact h.acks j
  registers := ⟨h.registers.a.trans hr.a, h.registers.x.trans hr.x, h.registers.y.trans hr.y, h.registers.sp.trans hr.sp,
    h.registers.p.trans hr.p, h.registers.pc.trans hr.pc⟩
  context := hx.trans h.context
  cyc := hc.trans h.cyc
  ram := h1.trans h.ram
  sram := h2.trans h.sram
  prg := h3.trans h.prg
  dmareg := by
    rw [hi]
    exact h.dmareg
  joy1 := by
    rw [hi]
    exact h.joy1
  joy2 := by
    rw [hi]
    exact h.joy2
  dummy := by
    rw [hi]
    exact h.dummy
  pads := hp.trans h.pads
  pixels := hq.trans h.pixels
  cfg := hg.trans h.cfg
  keys := hk.trans h.keys
  frames := hf.trans h.frames
  fresh := hn.trans h.fresh

/-- An effect on the PPU alone. -/
theorem State.Polled.setPpu {slot : Fin 40} {s t : State} (h : State.Polled slot s t) (p : Ppu) :
    State.Polled slot s (t.setPpu p) :=
  h.of_effect (by constructor <;> rfl) rfl rfl rfl rfl rfl rfl rfl rfl rfl rfl rfl rfl

/-- A store in a PPU cell. -/
theorem State.Polled.writePpuCell {slot : Fin 40} {s t : State} (h : State.Polled slot s t) (c : PpuCell) (v : Byte) :
    State.Polled slot s (t.setMapper (t.mapper.writePpuCell c v)) := by
  refine h.of_effect (by constructor <;> rfl) rfl rfl ?_ ?_ ?_ rfl rfl rfl rfl rfl rfl rfl <;> cases c <;> rfl

/-- The address the data port uses is the low 14 bits of `v` (R326). -/
theorem Ppu.dataAddr_toNat (p : Ppu) : p.dataAddr.toNat = p.v.toNat % 0x4000 := by
  have := p.v.isLt
  rw [Ppu.dataAddr, mask14_toNat]
  simp

/-- `v` after a data port access (R310, R326). -/
theorem Ppu.bumpV_toNat (p : Ppu) : p.bumpV.v.toNat = (p.v.toNat + if p.ctrl.getLsbD 2 then 32 else 1) % 0x8000 := by
  simp only [Ppu.bumpV, Ppu.increment, BitVec.toNat_add]
  split <;> simp

/-- The data port's cell is in character memory exactly when the low 14 bits of `v` are below 0x2000 (R62). -/
theorem ppuCell_chr_iff (cfg : Config) (a : Word) : (∃ i, ppuCell cfg a = .chr i) ↔ a.toNat % 0x4000 ≤ 0x1FFF := by
  unfold ppuCell
  dsimp only
  by_cases h : a.toNat % 0x4000 ≤ 0x1FFF
  · simp only [h, if_true, iff_true]
    exact ⟨_, rfl⟩
  · simp only [h, if_false, iff_false]
    rintro ⟨i, hi⟩
    split at hi <;> cases hi

/-- A PPU-side store: where `ROM_WRITE` plays no part or is `store` it is made; otherwise it is ignored or faults (R57,
R62). -/
theorem ppuWrite_eq (a : Word) (v : Byte) (s : State) :
    ppuWrite a v s =
      if a.toNat % 0x4000 ≤ 0x1FFF ∧ s.cfg.chrBanks = .one ∧ s.cfg.romWrite = .fault then
        .error (.romWrite (a &&& 0x3FFF) s)
      else if a.toNat % 0x4000 ≤ 0x1FFF ∧ s.cfg.chrBanks = .one ∧ s.cfg.romWrite = .ignore then .ok s
      else .ok (s.setMapper (s.mapper.writePpuCell (ppuCell s.cfg a) v)) := by
  have hk := ppuCell_chr_iff s.cfg a
  unfold ppuWrite
  split
  · rename_i i hc hb
    have h : a.toNat % 0x4000 ≤ 0x1FFF := hk.1 ⟨i, hc⟩
    cases s.cfg.romWrite <;> simp [h, hb, hc]
  · rename_i hn
    have h : ¬(a.toNat % 0x4000 ≤ 0x1FFF ∧ s.cfg.chrBanks = .one) := by
      rintro ⟨h1, h2⟩
      obtain ⟨i, hi⟩ := hk.2 h1
      exact hn i hi h2
    rw [if_neg (fun x => h ⟨x.1, x.2.1⟩), if_neg (fun x => h ⟨x.1, x.2.1⟩)]

/-- A write of `$2007`, once polled (R326). -/
theorem manageRegister_data_write {s : State} (h : s.io.ack[ppuSlot 7] = .write) :
    manageRegister 7 s = (s.setAck (ppuSlot 7) .none).writeData s.io.ioreg[7] := by
  simp only [manageRegister, State.takeAck, h, State.registerEffect]
  rfl

/-- The eight registers are polled in ascending order (R310). -/
theorem manageRegisters_eq (s : State) :
    manageRegisters s = [0, 1, 2, 3, 4, 5, 6, 7].foldlM (fun t k => manageRegister k t) s := by
  simp only [List.foldlM_cons, List.foldlM_nil, bind_pure, manageRegisters]

end Sys2Proof.Machine
end

