-- ==== Sys2Proof/Laws/Results.lean ====
section
/-! SUPPORT. What the shared operations of the instructions come to as numbers and flags: results, costs, targets. -/

namespace Sys2Proof.Machine

/-! ### Flags and numbers -/

/-- Setting N and Z from a byte makes them say it. -/
theorem flagsOf_of_setNZ (s : State) (v : Byte) : (s.setNZ v).FlagsOf v := by
  constructor
  · simp [State.flag]
  · simp [State.flag]
    rfl

@[simp] theorem flagsOf_charge (s : State) (n : Nat) (v : Byte) : (s.charge n).FlagsOf v ↔ s.FlagsOf v := Iff.rfl

theorem not_toInt (v : Byte) : (v ^^^ 0xFF).toInt = -1 - v.toInt := by
  revert v
  decide

theorem not_toNat (v : Byte) : (v ^^^ 0xFF).toNat = 255 - v.toNat := by
  revert v
  decide

theorem rolResult_toNat (v : Byte) (c : Bool) : (rolResult v c).toNat = (2 * v.toNat + c.toNat) % 256 := by
  revert v c
  decide

theorem rorResult_toNat (v : Byte) (c : Bool) : (rorResult v c).toNat = v.toNat / 2 + 128 * c.toNat := by
  revert v c
  decide

/-- Clearing one of the low three bits of a byte, bit by bit (R405). -/
theorem getLsbD_clear (b : Byte) (k : Nat) :
    ((b &&& ~~~0x01).getLsbD k = if k = 0 then false else b.getLsbD k) ∧
    ((b &&& ~~~0x02).getLsbD k = if k = 1 then false else b.getLsbD k) ∧
    ((b &&& ~~~0x04).getLsbD k = if k = 2 then false else b.getLsbD k) := by
  rcases Nat.lt_or_ge k 8 with hk | hk
  · have : ∀ b : Byte, ∀ k < 8, ((b &&& ~~~0x01).getLsbD k = if k = 0 then false else b.getLsbD k) ∧
        ((b &&& ~~~0x02).getLsbD k = if k = 1 then false else b.getLsbD k) ∧
        ((b &&& ~~~0x04).getLsbD k = if k = 2 then false else b.getLsbD k) := by decide
    exact this b k hk
  · simp [BitVec.getLsbD_of_ge _ _ hk]

/-- What an operand has become stays so when N, Z and the cycle counter are written. -/
theorem becomes_mono {o : RmwOperand} {r v : Byte} {s t : State} {n : Nat} (h : o.Becomes r s t) :
    o.Becomes r s ((t.setNZ v).charge n) := by
  cases o with
  | acc => simpa [RmwOperand.Becomes] using h
  | mem m =>
    exact ⟨⟨fun hg => by simpa [State.Reads] using h.1.1 hg, fun hg => by simpa using h.1.2.1 hg,
      fun b hb => by simpa using h.1.2.2 b hb⟩, fun sl => by simpa using h.2 sl⟩

/-! ### Costs (R254 to R257) -/

/-- The cost depends on the form of the instruction only, not on its argument bytes. -/
theorem cost_form (i : Instr) (c : Bool) : i.cost c = (i.fill 0 0).cost c := by
  unfold Instr.cost
  rw [rowFor_fill]

/-- The instructions that cost 2 cycles in their only form. -/
def twoCycles : List Instr :=
  [.tax, .tay, .txa, .tya, .tsx, .txs, .inx, .iny, .dex, .dey, .clc, .sec, .cli, .sei, .cld, .sed, .clv, .nop]

set_option maxRecDepth 20000 in
theorem cost_two : ∀ i ∈ twoCycles, i.cost false = 2 := by decide

theorem plainInstr_two {i : Instr} (hi : i ∈ twoCycles) (t : State) : plainInstr i t = .next (t.charge 2) := by
  rw [plainInstr, cost_two i hi]

set_option maxRecDepth 20000 in
theorem cost_stack :
    Instr.cost .pha false = 3 ∧ Instr.cost .php false = 3 ∧ Instr.cost .pla false = 4 ∧ Instr.cost .plp false = 4 ∧
    Instr.cost .rts false = 6 ∧ Instr.cost .rti false = 6 ∧ Instr.cost .brk false = 7 := by decide

set_option maxRecDepth 20000 in
theorem cost_jmp (w : Word) : (Instr.jmp (.abs w)).cost false = 3 := by
  have : Instr.cost (.jmp (.abs 0)) false = 3 := by decide
  rw [cost_form]
  exact this

set_option maxRecDepth 20000 in
theorem cost_jmp_indirect (w : Word) : (Instr.jmp (.abi w)).cost false = 5 := by
  have : Instr.cost (.jmp (.abi 0)) false = 5 := by decide
  rw [cost_form]
  exact this

set_option maxRecDepth 20000 in
theorem cost_jsr (w : Word) : (Instr.jsr w).cost false = 6 := by
  have : Instr.cost (.jsr 0) false = 6 := by decide
  rw [cost_form]
  exact this

/-! ### Targets -/

/-- The second byte of a jump's pointer is taken from the page of the first (R130). -/
theorem abiHighAddr_eq (p : Word) : abiHighAddr p = wordOf (hi p) (lo p + 1) := by
  have hlo : (p + 1) &&& 0x00FF = zext16 (lo p + 1) := by
    apply BitVec.eq_of_toNat_eq
    rw [zext16_toNat, BitVec.toNat_add, lo_toNat, BitVec.toNat_and, BitVec.toNat_add]
    have := Nat.and_two_pow_sub_one_eq_mod ((p.toNat + (1#16).toNat) % 2 ^ 16) 8
    simp at this ⊢
    rw [this]
  have hhi : p &&& (0xFF00 : Word) = zext16 (hi p) <<< 8 := by
    apply BitVec.eq_of_getLsbD_eq
    intro i hi'
    have : ∀ i < 16, (0xFF00 : Word).getLsbD i = decide (8 ≤ i) := by decide
    simp only [BitVec.getLsbD_and, this i hi', zext16, hi, BitVec.getLsbD_shiftLeft, BitVec.getLsbD_setWidth,
      BitVec.getLsbD_extractLsb']
    by_cases h8 : i < 8
    · simp [h8]
    · have e : 8 + (i - 8) = i := by omega
      have a1 : i - 8 < 16 := by omega
      have a2 : i - 8 < 8 := by omega
      have a3 : 8 ≤ i := by omega
      simp [hi', e, a1, a2, a3, h8]
  rw [abiHighAddr, hlo, hhi]
  apply BitVec.eq_of_getLsbD_eq
  intro i hi'
  simp only [wordOf, zext16, BitVec.getLsbD_or, BitVec.getLsbD_shiftLeft, BitVec.getLsbD_setWidth, BitVec.getLsbD_append]
  by_cases h8 : i < 8
  · simp [h8, hi']
  · have a1 : i - 8 < 16 := by omega
    rw [BitVec.getLsbD_of_ge (lo p + 1) i (by omega)]
    simp [h8, hi', a1]

/-- A branch's target is PC plus the signed offset, modulo 65536 (R208). -/
theorem add_sext8_toNat (d : Byte) (pc : Word) : ((pc + sext8 d).toNat : Int) = (pc.toNat + d.toInt) % 65536 := by
  have hd : ((sext8 d).toNat : Int) = d.toInt % 65536 := by
    revert d
    decide
  have := pc.isLt
  rw [BitVec.toNat_add]
  push_cast
  rw [hd]
  omega

/-- Everything a branch can do: PC and the cycle counter change, by 2 to 4 cycles. -/
theorem branchInstr_cases (c : Bool) (d : Byte) (s : State) :
    ∃ w n, n ≤ 2 ∧ branchInstr c d s = .next ((s.setPc w).charge (2 + n)) := by
  cases c
  · exact ⟨s.pc, 0, by omega, rfl⟩
  · refine ⟨branchTarget d s, 1 + (if hi (branchTarget d s) != hi s.pc then 1 else 0), ?_, ?_⟩
    · split <;> omega
    · simp only [branchInstr, if_true]
      rw [← Nat.add_assoc]

/-- Everything finding a jump's target can do: it touches the pointer's acknowledgments, or faults at a byte that cannot
be read. -/
theorem jumpTarget_cases (j : JumpOperand) (s : State) :
    (∃ w u, j.target s = .ok (w, u) ∧ u.mapper = s.mapper ∧ (∀ r, u.reg r = s.reg r) ∧ u.p = s.p ∧ u.cyc = s.cyc ∧
      (∀ b, u.peek b = s.peek b) ∧ State.SameDevices s u ∧
      ∀ sl, (∀ a ∈ j.addrs, ackSlot a ≠ some sl) → u.io.ack[sl] = s.io.ack[sl]) ∨
    (∃ a ∈ j.addrs, ¬s.CanLoad a ∧ ∃ left, j.target s = .error (.unmappedAccess a left) ∧ left.mapper = s.mapper ∧
      left.pc = s.pc ∧ left.cyc = s.cyc) := by
  cases j with
  | abs w =>
    exact .inl ⟨w, s, rfl, rfl, fun _ => rfl, rfl, rfl, fun _ => rfl, by constructor <;> rfl, fun _ _ => rfl⟩
  | abi p =>
    simp only [JumpOperand.target, bind, Except.bind]
    cases h1 : memRead p s with
    | error f =>
      obtain ⟨hl, rfl⟩ := memRead_eq_error.1 h1
      exact .inr ⟨p, by simp [JumpOperand.addrs], hl, s, rfl, rfl, rfl, rfl⟩
    | ok q =>
      obtain ⟨l, t⟩ := q
      obtain ⟨hr, rfl⟩ := memRead_eq_ok.1 h1
      simp only
      cases h2 : memRead (abiHighAddr p) (s.touch p .read) with
      | error f =>
        obtain ⟨hl, rfl⟩ := memRead_eq_error.1 h2
        exact .inr ⟨abiHighAddr p, by simp [JumpOperand.addrs], by simpa [State.CanLoad] using hl, _, rfl, by simp,
          by simp, by simp⟩
      | ok q =>
        obtain ⟨h, t⟩ := q
        obtain ⟨hr, rfl⟩ := memRead_eq_ok.1 h2
        refine .inl ⟨_, _, rfl, by simp, fun r => by cases r <;> simp [State.reg], by simp, by simp, fun b => by simp,
          by constructor <;> simp, fun sl hs => ?_⟩
        have e1 := State.touch_ack (s.touch p .read) (abiHighAddr p) .read sl
        have e2 := State.touch_ack s p .read sl
        rw [if_neg (hs _ (by simp [JumpOperand.addrs]))] at e1 e2
        exact e1.trans e2

/-- The word a vector gives, from the two bytes it reads. -/
theorem vectorTarget_toNat {s : State} {l h : Byte} {v w : Word} (e : w = v + 1) (h8 : 0x8000 ≤ v.toNat)
    (h8' : 0x8000 ≤ w.toNat) (hl : s.Reads v l) (hh : s.Reads w h) :
    (s.vectorTarget v).toNat = h.toNat * 256 + l.toNat := by
  subst e
  rw [State.vectorTarget_of_reads h8 h8' hl hh, wordOf_toNat]

end Sys2Proof.Machine
end

