-- ==== Sys2Proof/Laws/Runs.lean ====
section
/-! SUPPORT. Runs of PPU ticks inside a line and over lines (R351, R352), what a DMA transfer writes (R291), and runs of
steps and their end (R259). -/

namespace Sys2Proof.Machine

/-! ### Ticks -/

/-- A tick moves the counters as `advance` does, whatever it draws (R351). -/
theorem ppuTick_counters (s : State) :
    (ppuTick s).ppu.scanline = s.ppu.advance.scanline ∧ (ppuTick s).ppu.cycle = s.ppu.advance.cycle ∧
    (ppuTick s).ppu.oddFrame = s.ppu.advance.oddFrame := by
  have key : ∀ t : State, t.ppu.cycle = s.ppu.cycle → t.ppu.scanline = s.ppu.scanline → t.ppu.oddFrame = s.ppu.oddFrame →
      s.beforeAdvance = t →
      (ppuTick s).ppu.scanline = s.ppu.advance.scanline ∧ (ppuTick s).ppu.cycle = s.ppu.advance.cycle ∧
      (ppuTick s).ppu.oddFrame = s.ppu.advance.oddFrame := by
    intro t h1 h2 h3 h4
    rw [ppuTick_eq, h4]
    obtain ⟨a, b, c⟩ := Ppu.advance_congr h1 h2 h3
    exact ⟨b, a, c⟩
  rcases s.beforeAdvance_cases with ⟨-, -, h⟩ | ⟨-, -, h⟩ | ⟨-, -, -, h⟩ | ⟨-, -, h⟩
  · refine key _ s.vblankStart_position.2 s.vblankStart_position.1 ?_ h
    simp only [State.vblankStart]
    split <;> rfl
  · have := (State.renderTick_kept (s.setPpu s.ppu.clearFlags)).2
    exact key _ this.cycle this.scanline this.oddFrame h
  · have := (State.renderTick_kept s).2
    exact key _ this.cycle this.scanline this.oddFrame h
  · exact key _ rfl rfl rfl h

/-- Ticks compose. -/
theorem ppuTicks_add (m n : Nat) (s : State) : ppuTicks (m + n) s = ppuTicks n (ppuTicks m s) := by
  induction m generalizing s with
  | zero => simp [ppuTicks]
  | succ m ih => rw [Nat.add_right_comm, ppuTicks, ih, ppuTicks]

theorem ppuTicks_succ (n : Nat) (s : State) : ppuTicks (n + 1) s = ppuTick (ppuTicks n s) := ppuTicks_add n 1 s

/-- A tick inside a line moves to the next cycle. -/
theorem ppuTick_next (s : State) (h : s.ppu.cycle < 340)
    (hn : ¬(s.ppu.scanline = -1 ∧ s.ppu.cycle = 339 ∧ s.ppu.oddFrame = true)) :
    (ppuTick s).ppu.scanline = s.ppu.scanline ∧ (ppuTick s).ppu.cycle = s.ppu.cycle + 1 ∧
    (ppuTick s).ppu.oddFrame = s.ppu.oddFrame := by
  obtain ⟨h1, h2, h3⟩ := ppuTick_counters s
  rw [h1, h2, h3, Ppu.advance, if_neg hn, if_neg (by omega)]
  exact ⟨rfl, rfl, rfl⟩

/-- From the start of a line, `n` ticks inside it reach cycle `n`. -/
theorem ppuTicks_line (s : State) (n : Nat) (h0 : s.ppu.cycle = 0) (hn : n ≤ 340)
    (hs : s.ppu.scanline = -1 → s.ppu.oddFrame = true → n ≤ 339) :
    (ppuTicks n s).ppu.scanline = s.ppu.scanline ∧ (ppuTicks n s).ppu.cycle = n ∧
    (ppuTicks n s).ppu.oddFrame = s.ppu.oddFrame := by
  induction n with
  | zero => exact ⟨rfl, h0, rfl⟩
  | succ n ih =>
    obtain ⟨h1, h2, h3⟩ := ih (by omega) (fun a b => by have := hs a b; omega)
    rw [ppuTicks_add n 1]
    simp only [ppuTicks]
    obtain ⟨g1, g2, g3⟩ := ppuTick_next (ppuTicks n s) (by omega) (by
      rintro ⟨a, b, c⟩
      have := hs (h1 ▸ a) (h3 ▸ c)
      omega)
    exact ⟨by omega, by omega, by rw [g3, h3]⟩

/-- The tick that ends a line. -/
theorem ppuTick_end {s u : State} (h2 : s.ppu.scanline ≠ 260) (hs : ¬(s.ppu.scanline = -1 ∧ s.ppu.oddFrame = true))
    (h1 : u.ppu.scanline = s.ppu.scanline) (h3 : u.ppu.cycle = 340) (h4 : u.ppu.oddFrame = s.ppu.oddFrame) :
    (ppuTick u).ppu.scanline = s.ppu.scanline + 1 ∧ (ppuTick u).ppu.cycle = 0 ∧
    (ppuTick u).ppu.oddFrame = s.ppu.oddFrame := by
  obtain ⟨g1, g2, g3⟩ := ppuTick_counters u
  rw [g1, g2, g3, Ppu.advance, if_neg (by omega), if_pos h3, if_neg (by omega)]
  exact ⟨by rw [← h1], rfl, h4⟩

/-- The tick that ends the last line. -/
theorem ppuTick_end_last {s u : State} (h2 : s.ppu.scanline = 260)
    (h1 : u.ppu.scanline = s.ppu.scanline) (h3 : u.ppu.cycle = 340) (h4 : u.ppu.oddFrame = s.ppu.oddFrame) :
    (ppuTick u).ppu.scanline = -1 ∧ (ppuTick u).ppu.cycle = 0 ∧
    (ppuTick u).ppu.oddFrame = !s.ppu.oddFrame := by
  obtain ⟨g1, g2, g3⟩ := ppuTick_counters u
  rw [g1, g2, g3, Ppu.advance, if_neg (by omega), if_pos h3, if_pos (by omega)]
  exact ⟨rfl, rfl, by simp [h4]⟩

/-- The tick that ends an odd frame's pre-render line. -/
theorem ppuTick_end_odd {s u : State} (h2 : s.ppu.scanline = -1) (ho : s.ppu.oddFrame = true)
    (h1 : u.ppu.scanline = s.ppu.scanline) (h3 : u.ppu.cycle = 339) (h4 : u.ppu.oddFrame = s.ppu.oddFrame) :
    (ppuTick u).ppu.scanline = 0 ∧ (ppuTick u).ppu.cycle = 0 ∧
    (ppuTick u).ppu.oddFrame = true := by
  obtain ⟨g1, g2, g3⟩ := ppuTick_counters u
  rw [g1, g2, g3, Ppu.advance, if_pos ⟨by omega, by omega, by rw [h4, ho]⟩]
  exact ⟨rfl, rfl, by rw [h4, ho]⟩

/-- A whole line is 341 ticks. -/
theorem ppuTicks_full_line (s : State) (h0 : s.ppu.cycle = 0) (hs : ¬(s.ppu.scanline = -1 ∧ s.ppu.oddFrame = true))
    (h2 : s.ppu.scanline ≠ 260) :
    (ppuTicks 341 s).ppu.scanline = s.ppu.scanline + 1 ∧ (ppuTicks 341 s).ppu.cycle = 0 ∧
    (ppuTicks 341 s).ppu.oddFrame = s.ppu.oddFrame := by
  obtain ⟨h1, h3, h4⟩ := ppuTicks_line s 340 h0 (by omega) (fun a b => absurd ⟨a, b⟩ hs)
  rw [show (341 : Nat) = 340 + 1 from rfl, ppuTicks_succ]
  exact ppuTick_end h2 hs h1 h3 h4

/-- The last line is 341 ticks, and toggles the parity. -/
theorem ppuTicks_last_line (s : State) (h0 : s.ppu.cycle = 0) (h2 : s.ppu.scanline = 260) :
    (ppuTicks 341 s).ppu.scanline = -1 ∧ (ppuTicks 341 s).ppu.cycle = 0 ∧
    (ppuTicks 341 s).ppu.oddFrame = !s.ppu.oddFrame := by
  obtain ⟨h1, h3, h4⟩ := ppuTicks_line s 340 h0 (by omega) (fun a b => by omega)
  rw [show (341 : Nat) = 340 + 1 from rfl, ppuTicks_succ]
  exact ppuTick_end_last h2 h1 h3 h4

/-- The pre-render line of an odd frame is 340 ticks (R352). -/
theorem ppuTicks_odd_line (s : State) (h0 : s.ppu.cycle = 0) (h2 : s.ppu.scanline = -1) (ho : s.ppu.oddFrame = true) :
    (ppuTicks 340 s).ppu.scanline = 0 ∧ (ppuTicks 340 s).ppu.cycle = 0 ∧
    (ppuTicks 340 s).ppu.oddFrame = true := by
  obtain ⟨h1, h3, h4⟩ := ppuTicks_line s 339 h0 (by omega) (fun a b => by omega)
  rw [show (340 : Nat) = 339 + 1 from rfl, ppuTicks_succ]
  exact ppuTick_end_odd h2 ho h1 h3 h4

/-- From (0, 0), `341·k` ticks reach the start of line `k`. -/
theorem ppuTicks_lines (s : State) (k : Nat) (h0 : s.ppu.cycle = 0) (hs : s.ppu.scanline = 0) (hk : k ≤ 260) :
    (ppuTicks (341 * k) s).ppu.scanline = k ∧ (ppuTicks (341 * k) s).ppu.cycle = 0 ∧
    (ppuTicks (341 * k) s).ppu.oddFrame = s.ppu.oddFrame := by
  induction k with
  | zero => exact ⟨by simpa [ppuTicks] using hs, h0, rfl⟩
  | succ k ih =>
    obtain ⟨h1, h2, h3⟩ := ih (by omega)
    rw [Nat.mul_succ, ppuTicks_add]
    obtain ⟨g1, g2, g3⟩ := ppuTicks_full_line _ h2 (by rintro ⟨a, -⟩; omega) (by omega)
    exact ⟨by rw [g1, h1]; push_cast; rfl, g2, g3.trans h3⟩

/-- From (0, 0), before line −1, the position after `n` ticks. -/
theorem ppuTicks_position (s : State) (n : Nat) (h0 : s.ppu.cycle = 0) (hs : s.ppu.scanline = 0) (hn : n < 341 * 261) :
    (ppuTicks n s).ppu.scanline = (n / 341 : Nat) ∧ (ppuTicks n s).ppu.cycle = n % 341 := by
  have e : n = 341 * (n / 341) + n % 341 := (Nat.div_add_mod n 341).symm
  obtain ⟨h1, h2, h3⟩ := ppuTicks_lines s (n / 341) h0 hs (by omega)
  obtain ⟨g1, g2, g3⟩ := ppuTicks_line (ppuTicks (341 * (n / 341)) s) (n % 341) h2 (by omega) (fun a => by omega)
  rw [← ppuTicks_add, ← e] at g1 g2
  exact ⟨g1.trans h1, g2⟩

/-! ### Fetching and DMA -/

/-- States that read alike hold the same bytes. -/
theorem holdsBytes_congr {s t : State} (h : ∀ b, t.peek b = s.peek b) (a : Word)
    (l : List Byte) : t.HoldsBytes a l ↔ s.HoldsBytes a l := by
  induction l generalizing a with
  | nil => rfl
  | cons b l ih => simp [State.HoldsBytes, State.Reads, h, ih]

/-- What the transfer's loop does: it completes where every source byte can be read, writes the `n` OAM bytes from
`oamaddr + i` on, modulo 256, and leaves the registers and CPU memory alone (R291). -/
theorem dmaCopy_writes (page : Byte) (n i : Nat) (s : State) (hn : i + n ≤ 256)
    (hi : Memory.wf Bank.oam.unlisted 256 s.ppu.oam)
    (hl : ∀ j : Byte, s.CanLoad (wordOf page j)) :
    ∃ t, dmaCopy page n i s = .ok t ∧ t.SameRegisters s ∧ t.context = s.context ∧ t.cyc = s.cyc ∧ t.mapper = s.mapper ∧
      t.cfg = s.cfg ∧ (∀ b, t.peek b = s.peek b) ∧ t.ppu.oamaddr = s.ppu.oamaddr ∧
      (s.io.ack[dmaSlot] ≠ .write → t.io.ack[dmaSlot] ≠ .write) ∧
      (∀ k, (∀ j, i ≤ j → j < i + n → k ≠ (s.ppu.oamaddr.toNat + j) % 256) →
        Memory.read Bank.oam.unlisted t.ppu.oam k = Memory.read Bank.oam.unlisted s.ppu.oam k) ∧
      ∀ j, i ≤ j → j < i + n → ∀ v, s.Reads (wordOf page (BitVec.ofNat 8 j)) v →
        Memory.read Bank.oam.unlisted t.ppu.oam ((s.ppu.oamaddr.toNat + j) % 256) = v := by
  induction n generalizing i s with
  | zero =>
    exact ⟨s, rfl, by constructor <;> rfl, rfl, rfl, rfl, rfl, fun _ => rfl, rfl, id, fun _ _ => rfl, fun j h1 h2 => by omega⟩
  | succ n ih =>
    obtain ⟨v, hv⟩ := State.canLoad_iff_reads.1 (hl (BitVec.ofNat 8 i))
    let a := wordOf page (BitVec.ofNat 8 i)
    let u := (s.touch a .read).writeOam ((s.ppu.oamaddr.toNat + i) % 256) v
    have hub : ∀ b, u.peek b = s.peek b := by
      intro b
      simp [u, State.writeOam]
    have huw : Memory.wf Bank.oam.unlisted 256 u.ppu.oam := by
      simp only [u, State.writeOam, State.setPpu_ppu, State.touch_ppu]
      exact Memory.wf_write hi (Nat.mod_lt _ (by decide))
    obtain ⟨t, h1, h2, hx, h3, h4, h5, h6, h7, h8, h9, h10⟩ := ih (i + 1) u (by omega) huw
      (by simpa [State.CanLoad, u, State.writeOam] using hl)
    have hoa : u.ppu.oamaddr = s.ppu.oamaddr := by simp [u, State.writeOam]
    have huk : ∀ k, Memory.read Bank.oam.unlisted u.ppu.oam k =
        if (s.ppu.oamaddr.toNat + i) % 256 = k then v else Memory.read Bank.oam.unlisted s.ppu.oam k := by
      intro k
      simp only [u, State.writeOam, State.setPpu_ppu, State.touch_ppu]
      exact Memory.read_write hi
    refine ⟨t, ?_, ?_, ?_, ?_, ?_, ?_, ?_, ?_, ?_, ?_, ?_⟩
    · simp only [dmaCopy, memRead_of_reads hv]
      exact h1
    · have : u.SameRegisters s := by constructor <;> simp [u, State.writeOam]
      exact ⟨this.a.trans h2.a, this.x.trans h2.x, this.y.trans h2.y, this.sp.trans h2.sp, this.p.trans h2.p,
        this.pc.trans h2.pc⟩
    · rw [hx]
      simp [u, State.writeOam]
    · rw [h3]
      simp [u, State.writeOam]
    · rw [h4]
      simp [u, State.writeOam]
    · rw [h5]
      simp [u, State.writeOam]
    · intro b
      rw [h6, hub]
    · rw [h7, hoa]
    · intro h
      apply h8
      have := State.touch_ack s a .read dmaSlot
      simp only [u, State.writeOam, State.setPpu_io]
      rw [this]
      split
      · simp
      · exact h
    · intro k hk
      rw [h9 k (fun j h1 h2 => by rw [hoa]; exact hk j (by omega) (by omega)), huk,
        if_neg (Ne.symm (hk i (by omega) (by omega)))]
    · intro j hj1 hj2 w hw
      by_cases hji : j = i
      · subst hji
        rw [h9 _ (fun j' h1 h2 => by rw [hoa]; omega), huk, if_pos rfl]
        have h1 : s.peek (wordOf page (BitVec.ofNat 8 j)) = some v := hv
        have h2 : s.peek (wordOf page (BitVec.ofNat 8 j)) = some w := hw
        rw [h1] at h2
        exact Option.some.inj h2
      · rw [← hoa]
        exact h10 j (by omega) (by omega) w (by simpa [State.Reads, hub] using hw)

/-! ### Runs of steps -/

/-- A run that ends has kept what every step keeps, and its end condition holds where it ends (R259). -/
theorem runUntil_induction {done : State → Bool} {P : State → Prop} (hs : ∀ s t, P s → step s = .next t → P t)
    (n : Nat) (s : State) {u : State} (hp : P s) (h : runUntil done n s = .ended u) : P u ∧ done u = true := by
  induction n generalizing s with
  | zero =>
    rw [runUntil] at h
    split at h
    · rename_i hd
      obtain rfl := RunResult.ended.inj h
      exact ⟨hp, hd⟩
    · cases h
  | succ n ih =>
    rw [runUntil] at h
    split at h
    · rename_i hd
      obtain rfl := RunResult.ended.inj h
      exact ⟨hp, hd⟩
    · split at h
      · rename_i t ht
        exact ih t (hs s t hp ht) h
      · cases h
      · cases h

/-- A run that has ended ends in the same state whatever more steps it is allowed (R259). -/
theorem runUntil_more {done : State → Bool} (k n : Nat) (s : State) {u : State} (h : runUntil done n s = .ended u) :
    runUntil done (n + k) s = .ended u := by
  induction n generalizing s with
  | zero =>
    rw [runUntil] at h
    split at h
    · rename_i hd
      rw [← h, Nat.zero_add]
      cases k <;> rw [runUntil, if_pos hd]
    · cases h
  | succ n ih =>
    rw [runUntil] at h
    rw [Nat.add_right_comm, runUntil]
    split at h
    · rename_i hd
      rw [if_pos hd]
      exact h
    · rename_i hd
      rw [if_neg hd]
      split at h
      · rename_i t ht
        exact ih t h
      · cases h
      · cases h

end Sys2Proof.Machine
end

