-- ==== Sys2Proof/Laws/Sprites.lean ====
section
/-! SUPPORT. The laws of the sprites: evaluation step by step and over a whole line (R370, R371), and what a tick does to
secondary OAM, the evaluation machine, the units and the picture (R369, R372, R373, R375, R378). -/

namespace Sys2Proof.Machine

/-! ### One evaluation step -/

/-- The in-range test of the machine is the one of R370. -/
theorem Ppu.inRange_eq_shows (p : Ppu) (k : Nat) :
    inRange p.scanline (p.oamByte (4 * k)) p.spriteHeight = p.shows k := by
  have hh : (p.spriteHeight : Int) = if p.ctrl.getLsbD 5 then 16 else 8 := by
    unfold Ppu.spriteHeight
    split <;> rfl
  rw [inRange, Ppu.shows, hh, ← Bool.decide_and]
  congr 1
  rw [eq_iff_iff]
  constructor <;> intro h <;> omega

/-- Moving on (R370). -/
theorem Evaluation.next_movedOn {e : Evaluation} (_ : e.n ≤ 63) : e.MovedOn e.found e.next := by
  unfold Evaluation.next
  split
  · exact ⟨rfl, fun _ => ⟨rfl, by assumption⟩, fun _ => by omega⟩
  · exact ⟨rfl, fun _ => by omega, fun _ => ⟨rfl, rfl⟩⟩

theorem Ppu.evalStep_copyY {p : Ppu} (h : p.eval.sev = .copyY) (hs : p.shows p.eval.n = true) :
    p.evalStep =
      { p.writeSec (4 * p.eval.found) (p.oamByte (4 * p.eval.n)) with
        eval :=
          { sev := .copyRest, n := p.eval.n, m := 1, found := p.eval.found
            zeroNext := p.eval.zeroNext || decide (p.eval.n = 0) } } := by
  rw [← Ppu.inRange_eq_shows] at hs
  simp only [Ppu.evalStep, h, hs, if_true]

theorem Ppu.evalStep_copyY_skip {p : Ppu} (h : p.eval.sev = .copyY) (hs : p.shows p.eval.n = false) :
    p.evalStep = { p with eval := p.eval.next } := by
  rw [← Ppu.inRange_eq_shows] at hs
  simp only [Ppu.evalStep, h, hs, if_false, Bool.false_eq_true]

theorem Ppu.evalStep_copyRest {p : Ppu} (h : p.eval.sev = .copyRest) (hm : p.eval.m < 3) :
    p.evalStep =
      { p.writeSec (4 * p.eval.found + p.eval.m) (p.oamByte (4 * p.eval.n + p.eval.m)) with
        eval := { p.eval with m := p.eval.m + 1 } } := by
  have h3 : ¬p.eval.m + 1 = 4 := by omega
  simp only [Ppu.evalStep, h, h3, if_false]

theorem Ppu.evalStep_copyRest_last {p : Ppu} (h : p.eval.sev = .copyRest) (hm : p.eval.m = 3) :
    p.evalStep =
      { p.writeSec (4 * p.eval.found + 3) (p.oamByte (4 * p.eval.n + 3)) with
        eval := Evaluation.next { p.eval with m := 0, found := p.eval.found + 1 } } := by
  have h3 : p.eval.m + 1 = 4 := by omega
  simp only [Ppu.evalStep, h, h3, if_true]
  rw [hm]

theorem Ppu.evalStep_overflow {p : Ppu} (h : p.eval.sev = .overflowDetect) (hs : p.shows p.eval.n = true) :
    p.evalStep = { p with overflow := true, eval := { p.eval with sev := .wait } } := by
  rw [← Ppu.inRange_eq_shows] at hs
  simp only [Ppu.evalStep, h, hs, if_true]

theorem Ppu.evalStep_overflow_skip {p : Ppu} (h : p.eval.sev = .overflowDetect) (hs : p.shows p.eval.n = false) :
    p.evalStep = { p with eval := p.eval.next } := by
  rw [← Ppu.inRange_eq_shows] at hs
  simp only [Ppu.evalStep, h, hs, if_false, Bool.false_eq_true]

theorem Ppu.evalStep_wait {p : Ppu} (h : p.eval.sev = .wait) : p.evalStep = p := by
  simp only [Ppu.evalStep, h]

/-! ### Evaluation over a line -/

/-- A number of evaluation steps. -/
def Ppu.evalSteps : Nat → Ppu → Ppu
  | 0, p => p
  | n + 1, p => Ppu.evalSteps n p.evalStep

theorem Ppu.evalSteps_add (m n : Nat) (p : Ppu) : Ppu.evalSteps (m + n) p = Ppu.evalSteps n (Ppu.evalSteps m p) := by
  induction m generalizing p with
  | zero => simp [Ppu.evalSteps]
  | succ m ih => rw [Nat.add_right_comm, Ppu.evalSteps, ih, Ppu.evalSteps]

theorem Ppu.evalSteps_succ (n : Nat) (p : Ppu) : Ppu.evalSteps (n + 1) p = (Ppu.evalSteps n p).evalStep :=
  Ppu.evalSteps_add n 1 p

/-- A machine that waits goes on waiting (R370). -/
theorem Ppu.evalSteps_wait {p : Ppu} (h : p.eval.sev = .wait) (n : Nat) : Ppu.evalSteps n p = p := by
  induction n with
  | zero => rfl
  | succ n ih => rw [Ppu.evalSteps, Ppu.evalStep_wait h, ih]

/-- The entries from `n` on that are in range, in index order. -/
def Ppu.shownFrom (p : Ppu) (n : Nat) : List Nat := (List.range' n (64 - n)).filter p.shows

theorem Ppu.shown_eq (p : Ppu) : p.shown = p.shownFrom 0 := by
  rw [Ppu.shown, Ppu.shownFrom, List.range_eq_range']

theorem Ppu.shownFrom_end (p : Ppu) : p.shownFrom 64 = [] := rfl

theorem Ppu.shownFrom_next {p : Ppu} {n : Nat} (h : n ≤ 63) :
    p.shownFrom n = if p.shows n then n :: p.shownFrom (n + 1) else p.shownFrom (n + 1) := by
  have e : 64 - n = (64 - (n + 1)) + 1 := by omega
  rw [Ppu.shownFrom, e, List.range'_succ, List.filter_cons]
  rfl

/-- Which entries are in range depends on OAM, the sprite height and the line. -/
theorem Ppu.shows_congr {p q : Ppu} (h1 : q.oam = p.oam) (h2 : q.ctrl = p.ctrl) (h3 : q.scanline = p.scanline) :
    q.shows = p.shows := by
  funext k
  unfold Ppu.shows Ppu.oamByte
  rw [h1, h2, h3]

/-- What evaluation leaves when it is done: it waits, has kept `found` entries, has seen entry 0 as `zero` says, and has
touched only secondary OAM and the overflow flag (R370, R371). -/
structure Ppu.Evaluated (p q : Ppu) (found : Nat) (zero overflow : Bool) : Prop where
  sev : q.eval.sev = .wait
  found : q.eval.found = found
  zeroNext : q.eval.zeroNext = zero
  overflow : q.overflow = overflow
  kept : p.Kept q

/-- Looking for a ninth sprite, from entry `n` on (R371). -/
theorem Ppu.evaluate_overflow (d : Nat) : ∀ p : Ppu, p.eval.sev = .overflowDetect → p.eval.n + d = 63 → p.eval.found = 8 →
    ∃ k, k ≤ d + 1 ∧
      p.Evaluated (Ppu.evalSteps k p) 8 p.eval.zeroNext (p.overflow || decide (p.shownFrom p.eval.n ≠ [])) ∧
      (Ppu.evalSteps k p).secOam = p.secOam := by
  induction d with
  | zero =>
    intro p h hn hf
    have h63 : p.eval.n = 63 := by omega
    refine ⟨1, Nat.le_refl _, ?_⟩
    rw [Ppu.shownFrom_next (by omega)]
    cases hs : p.shows p.eval.n with
    | true =>
      rw [Ppu.evalSteps, Ppu.evalSteps, Ppu.evalStep_overflow h hs]
      exact ⟨⟨rfl, hf, rfl, by simp, by constructor <;> rfl⟩, rfl⟩
    | false =>
      rw [Ppu.evalSteps, Ppu.evalSteps, Ppu.evalStep_overflow_skip h hs, Evaluation.next, if_pos h63, h63]
      exact ⟨⟨rfl, hf, rfl, by simp [Ppu.shownFrom_end], by constructor <;> rfl⟩, rfl⟩
  | succ d ih =>
    intro p h hn hf
    rw [Ppu.shownFrom_next (by omega)]
    cases hs : p.shows p.eval.n with
    | true =>
      refine ⟨1, by omega, ?_⟩
      rw [Ppu.evalSteps, Ppu.evalSteps, Ppu.evalStep_overflow h hs]
      exact ⟨⟨rfl, hf, rfl, by simp, by constructor <;> rfl⟩, rfl⟩
    | false =>
      have e : p.evalStep = { p with eval := { p.eval with n := p.eval.n + 1, sev := .overflowDetect } } := by
        rw [Ppu.evalStep_overflow_skip h hs, Evaluation.next, if_neg (by omega), if_pos hf]
      obtain ⟨k, hk, ⟨a1, a2, a3, a4, a5⟩, a6⟩ := ih p.evalStep (by rw [e]) (by rw [e]; show p.eval.n + 1 + d = 63; omega)
        (by rw [e]; exact hf)
      refine ⟨k + 1, by omega, ⟨a1, a2, ?_, ?_, p.evalStep_kept.trans a5⟩, ?_⟩
      · rw [Ppu.evalSteps, a3, e]
      · have hq : p.evalStep.shownFrom (p.eval.n + 1) = p.shownFrom (p.eval.n + 1) := by rw [e]; rfl
        have hn' : p.evalStep.eval.n = p.eval.n + 1 := by rw [e]
        have ho : p.evalStep.overflow = p.overflow := by rw [e]
        rw [Ppu.evalSteps, a4, hn', hq, ho]
        rfl
      · rw [Ppu.evalSteps, a6, e]

/-- Four steps copy an entry in range (R370). -/
theorem Ppu.evaluate_copy {p : Ppu} (h : p.eval.sev = .copyY) (hs : p.shows p.eval.n = true) (hf : p.eval.found < 8)
    (hw : Memory.wf Bank.secOam.unlisted 32 p.secOam) :
    (Ppu.evalSteps 4 p).eval =
      Evaluation.next
        { sev := .copyRest, n := p.eval.n, m := 0, found := p.eval.found + 1
          zeroNext := p.eval.zeroNext || decide (p.eval.n = 0) } ∧
    (Ppu.evalSteps 4 p).overflow = p.overflow ∧ p.Kept (Ppu.evalSteps 4 p) ∧
    Memory.wf Bank.secOam.unlisted 32 (Ppu.evalSteps 4 p).secOam ∧
    (∀ b, b < 4 → (Ppu.evalSteps 4 p).secByte (4 * p.eval.found + b) = p.oamByte (4 * p.eval.n + b)) ∧
    ∀ j, j < 4 * p.eval.found → (Ppu.evalSteps 4 p).secByte j = p.secByte j := by
  generalize hz : (p.eval.zeroNext || decide (p.eval.n = 0)) = z
  have e1 := Ppu.evalStep_copyY h hs
  rw [hz] at e1
  have e2 := Ppu.evalStep_copyRest (p := p.evalStep) (by rw [e1]) (by rw [e1]; show (1 : Nat) < 3; omega)
  have e3 := Ppu.evalStep_copyRest (p := p.evalStep.evalStep) (by rw [e2, e1]) (by rw [e2, e1]; show (2 : Nat) < 3; omega)
  have e4 := Ppu.evalStep_copyRest_last (p := p.evalStep.evalStep.evalStep) (by rw [e3, e2, e1]) (by rw [e3, e2, e1])
  have hm : (Ppu.evalSteps 4 p).secOam =
      Memory.write Bank.secOam.unlisted (Memory.write Bank.secOam.unlisted (Memory.write Bank.secOam.unlisted
        (Memory.write Bank.secOam.unlisted p.secOam (4 * p.eval.found) (p.oamByte (4 * p.eval.n)))
        (4 * p.eval.found + 1) (p.oamByte (4 * p.eval.n + 1))) (4 * p.eval.found + 2) (p.oamByte (4 * p.eval.n + 2)))
        (4 * p.eval.found + 3) (p.oamByte (4 * p.eval.n + 3)) := by
    show p.evalStep.evalStep.evalStep.evalStep.secOam = _
    rw [e4, e3, e2, e1]
    rfl
  have w1 := Memory.wf_write (v := p.oamByte (4 * p.eval.n)) hw (i := 4 * p.eval.found) (by omega)
  have w2 := Memory.wf_write (v := p.oamByte (4 * p.eval.n + 1)) w1 (i := 4 * p.eval.found + 1) (by omega)
  have w3 := Memory.wf_write (v := p.oamByte (4 * p.eval.n + 2)) w2 (i := 4 * p.eval.found + 2) (by omega)
  have w4 := Memory.wf_write (v := p.oamByte (4 * p.eval.n + 3)) w3 (i := 4 * p.eval.found + 3) (by omega)
  refine ⟨?_, ?_, ?_, by rw [hm]; exact w4, fun b hb => ?_, fun j hj => ?_⟩
  · show p.evalStep.evalStep.evalStep.evalStep.eval = _
    rw [e4, e3, e2, e1]
  · show p.evalStep.evalStep.evalStep.evalStep.overflow = _
    rw [e4, e3, e2, e1]
    rfl
  · exact ((p.evalStep_kept.trans (Ppu.evalStep_kept _)).trans (Ppu.evalStep_kept _)).trans (Ppu.evalStep_kept _)
  · rw [Ppu.secByte, hm]
    have : b = 0 ∨ b = 1 ∨ b = 2 ∨ b = 3 := by omega
    rcases this with rfl | rfl | rfl | rfl
    · rw [Memory.read_write_other (by omega), Memory.read_write_other (by omega), Memory.read_write_other (by omega)]
      exact Memory.read_write_same hw
    · rw [Memory.read_write_other (by omega), Memory.read_write_other (by omega), Memory.read_write_same w1]
    · rw [Memory.read_write_other (by omega), Memory.read_write_same w2]
    · rw [Memory.read_write_same w3]
  · rw [Ppu.secByte, hm, Memory.read_write_other (by omega), Memory.read_write_other (by omega),
      Memory.read_write_other (by omega), Memory.read_write_other (by omega)]
    rfl

/-- Looking at an entry leaves the evaluation machine's rules on what is in range alone. -/
theorem Ppu.Kept.shownFrom {p q : Ppu} (h : p.Kept q) : q.shownFrom = p.shownFrom := by
  funext n
  rw [Ppu.shownFrom, Ppu.shownFrom, Ppu.shows_congr h.oam h.ctrl h.scanline]

theorem Ppu.Kept.oamByte {p q : Ppu} (h : p.Kept q) (i : Nat) : q.oamByte i = p.oamByte i := by
  rw [Ppu.oamByte, h.oam]
  rfl

theorem Ppu.evalSteps_kept (n : Nat) (p : Ppu) : p.Kept (Ppu.evalSteps n p) := by
  induction n generalizing p with
  | zero => exact Ppu.Kept.refl p
  | succ n ih => exact p.evalStep_kept.trans (ih _)

/-- Evaluation from entry `n` on, fewer than 8 being kept: within one step an entry and three more for each kept, the
machine waits; the entries in range have been kept in index order up to 8, and a ninth has set the overflow flag (R370,
R371). -/
theorem Ppu.evaluate (d : Nat) : ∀ p : Ppu, p.eval.sev = .copyY → p.eval.n + d = 63 → p.eval.found < 8 →
    Memory.wf Bank.secOam.unlisted 32 p.secOam →
    ∃ k, k ≤ d + 1 + 3 * (8 - p.eval.found) ∧
      p.Evaluated (Ppu.evalSteps k p) (min 8 (p.eval.found + (p.shownFrom p.eval.n).length))
        (p.eval.zeroNext || (decide (p.eval.n = 0) && p.shows 0))
        (p.overflow || decide (9 ≤ p.eval.found + (p.shownFrom p.eval.n).length)) ∧
      (∀ i e, p.eval.found + i < 8 → (p.shownFrom p.eval.n)[i]? = some e → ∀ b, b < 4 →
        (Ppu.evalSteps k p).secByte (4 * (p.eval.found + i) + b) = p.oamByte (4 * e + b)) ∧
      ∀ j, j < 4 * p.eval.found → (Ppu.evalSteps k p).secByte j = p.secByte j := by
  induction d with
  | zero =>
    intro p h hn hf hw
    have h63 : p.eval.n = 63 := by omega
    rw [Ppu.shownFrom_next (by omega), h63, Ppu.shownFrom_end]
    cases hs : p.shows 63 with
    | false =>
      refine ⟨1, by omega, ?_, fun i e _ he => by simp at he, fun j _ => ?_⟩
      · rw [Ppu.evalSteps, Ppu.evalSteps, Ppu.evalStep_copyY_skip h (by rw [h63]; exact hs), Evaluation.next, if_pos h63]
        refine ⟨rfl, ?_, by simp, ?_, by constructor <;> rfl⟩
        · simp
          omega
        · simp
          omega
      · rw [Ppu.evalSteps, Ppu.evalSteps, Ppu.evalStep_copyY_skip h (by rw [h63]; exact hs)]
        rfl
    | true =>
      obtain ⟨c1, c2, c3, -, c5, c6⟩ := Ppu.evaluate_copy h (by rw [h63]; exact hs) hf hw
      rw [Evaluation.next, if_pos h63] at c1
      refine ⟨4, by omega, ⟨by rw [c1], ?_, ?_, ?_, c3⟩, fun i e _ he => ?_, c6⟩
      · rw [c1]
        simp
        omega
      · rw [c1, h63]
        rfl
      · rw [c2]
        simp
        omega
      · cases i with
        | zero =>
          obtain rfl : 63 = e := by simpa using he
          rw [h63] at c5
          exact c5
        | succ i => simp at he
  | succ d ih =>
    intro p h hn hf hw
    rw [Ppu.shownFrom_next (by omega)]
    cases hs : p.shows p.eval.n with
    | false =>
      have e : p.evalStep = { p with eval := { p.eval with n := p.eval.n + 1, sev := .copyY } } := by
        rw [Ppu.evalStep_copyY_skip h hs, Evaluation.next, if_neg (by omega), if_neg (by omega)]
      have hk := p.evalStep_kept
      have hn' : p.evalStep.eval.n = p.eval.n + 1 := by rw [e]
      have hf' : p.evalStep.eval.found = p.eval.found := by rw [e]
      have hz' : p.evalStep.eval.zeroNext = p.eval.zeroNext := by rw [e]
      have ho' : p.evalStep.overflow = p.overflow := by rw [e]
      have hb' : ∀ j, p.evalStep.secByte j = p.secByte j := by intro j; rw [e]; rfl
      obtain ⟨k, g1, ⟨a1, a2, a3, a4, a5⟩, g2, g3⟩ := ih p.evalStep (by rw [e]) (by omega) (by omega) (by rw [e]; exact hw)
      rw [hn', hf', hk.shownFrom] at a2 a4 g2
      rw [hf'] at g1
      rw [hf'] at g3
      refine ⟨k + 1, by omega, ⟨a1, a2, ?_, a4.trans (by rw [ho']; rfl), hk.trans a5⟩, fun i e' hi he b hb => ?_, fun j hj => ?_⟩
      · rw [Ppu.evalSteps, a3, hz', hn']
        cases h0 : decide (p.eval.n = 0) with
        | false => simp
        | true =>
          rw [of_decide_eq_true h0] at hs
          simp [hs]
      · exact (g2 i e' hi he b hb).trans (hk.oamByte _)
      · exact (g3 j hj).trans (hb' j)
    | true =>
      obtain ⟨c1, c2, c3, c4, c5, c6⟩ := Ppu.evaluate_copy h hs hf hw
      rw [Evaluation.next, if_neg (by show ¬p.eval.n = 63; omega)] at c1
      have hn' : (Ppu.evalSteps 4 p).eval.n = p.eval.n + 1 := by rw [c1]
      have hf' : (Ppu.evalSteps 4 p).eval.found = p.eval.found + 1 := by rw [c1]
      have hz' : (Ppu.evalSteps 4 p).eval.zeroNext = (p.eval.zeroNext || decide (p.eval.n = 0)) := by rw [c1]
      have hz : (p.eval.zeroNext || decide (p.eval.n = 0)) =
          (p.eval.zeroNext || (decide (p.eval.n = 0) && p.shows 0)) := by
        cases h0 : decide (p.eval.n = 0) with
        | false => simp
        | true =>
          rw [of_decide_eq_true h0] at hs
          simp [hs]
      have hs' : (Ppu.evalSteps 4 p).eval.sev = if p.eval.found + 1 = 8 then .overflowDetect else .copyY := by rw [c1]
      by_cases h8 : p.eval.found + 1 = 8
      · rw [if_pos h8] at hs'
        obtain ⟨k, g1, ⟨a1, a2, a3, a4, a5⟩, g2⟩ :=
          Ppu.evaluate_overflow d (Ppu.evalSteps 4 p) hs' (by omega) (by omega)
        rw [hn', c3.shownFrom, c2] at a4
        refine ⟨4 + k, by omega, ?_, fun i e' hi he b hb => ?_, fun j hj => ?_⟩
        · rw [Ppu.evalSteps_add]
          refine ⟨a1, ?_, ?_, ?_, c3.trans a5⟩
          · rw [a2]
            simp
            omega
          · rw [a3, hz', hz]
          · rw [a4]
            cases hl : p.shownFrom (p.eval.n + 1) with
            | nil =>
              have : ¬9 ≤ p.eval.found + 1 := by omega
              simp [this]
            | cons => simp; omega
        · have i0 : i = 0 := by omega
          subst i0
          obtain rfl : p.eval.n = e' := by simpa using he
          rw [Ppu.evalSteps_add, Ppu.secByte, g2]
          exact c5 b hb
        · rw [Ppu.evalSteps_add, Ppu.secByte, g2]
          exact c6 j hj
      · rw [if_neg h8] at hs'
        obtain ⟨k, g1, ⟨a1, a2, a3, a4, a5⟩, g2, g3⟩ := ih (Ppu.evalSteps 4 p) hs' (by omega) (by omega) c4
        rw [hn', hf', c3.shownFrom] at a2 a4 g2
        rw [hf'] at g1 g3
        refine ⟨4 + k, by omega, ?_, fun i e' hi he b hb => ?_, fun j hj => ?_⟩
        · rw [Ppu.evalSteps_add]
          refine ⟨a1, ?_, ?_, ?_, c3.trans a5⟩
          · rw [a2]
            simp [Nat.add_assoc, Nat.add_comm]
          · rw [a3, hz', hn', hz]
            simp
          · rw [a4, c2]
            simp [Nat.add_assoc, Nat.add_comm]
        · rw [Ppu.evalSteps_add]
          cases i with
          | zero =>
            obtain rfl : p.eval.n = e' := by simpa using he
            exact (g3 _ (by omega)).trans (c5 b hb)
          | succ i =>
            have := g2 i e' (by omega) (by simpa using he) b hb
            rw [show p.eval.found + (i + 1) = p.eval.found + 1 + i from by omega]
            exact this.trans (c3.oamByte _)
        · rw [Ppu.evalSteps_add]
          exact (g3 j (by omega)).trans (c6 j hj)

/-- Two PPUs alike in what evaluation looks at and changes (R370). -/
structure Ppu.SameEvaluation (p q : Ppu) : Prop where
  ctrl : q.ctrl = p.ctrl
  scanline : q.scanline = p.scanline
  oam : q.oam = p.oam
  eval : q.eval = p.eval
  secOam : q.secOam = p.secOam
  overflow : q.overflow = p.overflow

/-- Evaluating keeps PPUs alike (R370). -/
theorem Ppu.SameEvaluation.evalStep {p q : Ppu} (h : p.SameEvaluation q) : p.evalStep.SameEvaluation q.evalStep := by
  have hh : q.spriteHeight = p.spriteHeight := by
    unfold Ppu.spriteHeight
    rw [h.ctrl]
  have ho : ∀ i, q.oamByte i = p.oamByte i := by
    intro i
    rw [Ppu.oamByte, h.oam]
    rfl
  have hp := p.evalStep_kept
  have hq := q.evalStep_kept
  suffices hs : q.evalStep.eval = p.evalStep.eval ∧ q.evalStep.secOam = p.evalStep.secOam ∧
      q.evalStep.overflow = p.evalStep.overflow from
    ⟨by rw [hp.ctrl, hq.ctrl, h.ctrl], by rw [hp.scanline, hq.scanline, h.scanline], by rw [hp.oam, hq.oam, h.oam],
      hs.1, hs.2.1, hs.2.2⟩
  simp only [Ppu.evalStep, h.eval, h.scanline, hh, ho]
  split
  · split
    · exact ⟨rfl, by simp only [Ppu.writeSec, h.secOam], h.overflow⟩
    · exact ⟨rfl, h.secOam, h.overflow⟩
  · split
    · exact ⟨rfl, by simp only [Ppu.writeSec, h.secOam], h.overflow⟩
    · exact ⟨rfl, by simp only [Ppu.writeSec, h.secOam], h.overflow⟩
  · split
    · exact ⟨rfl, h.secOam, rfl⟩
    · exact ⟨rfl, h.secOam, h.overflow⟩
  · exact ⟨h.eval, h.secOam, h.overflow⟩

theorem Ppu.evalStep_units (p : Ppu) :
    p.evalStep.units = p.units ∧ p.evalStep.spriteCount = p.spriteCount ∧ p.evalStep.zeroLine = p.zeroLine := by
  simp only [Ppu.evalStep]
  split
  · split <;> exact ⟨rfl, rfl, rfl⟩
  · split <;> exact ⟨rfl, rfl, rfl⟩
  · split <;> exact ⟨rfl, rfl, rfl⟩
  · exact ⟨rfl, rfl, rfl⟩

/-! ### The sprite pipeline in a tick -/

/-- The tick clears a byte of secondary OAM (R372). -/
abbrev Ppu.Clears (p : Ppu) : Prop := 1 ≤ p.cycle ∧ p.cycle ≤ 64 ∧ p.cycle % 2 = 0

/-- The tick takes an evaluation step (R369). -/
abbrev Ppu.Evaluates (p : Ppu) : Prop := 66 ≤ p.cycle ∧ p.cycle ≤ 256 ∧ p.cycle % 2 = 0

/-- Each tick of the sprite pipeline does one thing (R369). -/
theorem Ppu.spriteEvaluation_eq (p : Ppu) :
    p.spriteEvaluation =
      if p.Clears then p.writeSec (p.cycle / 2 - 1) 0xFF
      else if p.cycle = 65 then { p with eval := p.eval.start }
      else if p.Evaluates then p.evalStep
      else if p.cycle = 257 then p.handOver
      else p := by
  unfold Ppu.spriteEvaluation
  dsimp only
  by_cases h1 : p.Clears
  · rw [if_pos h1, if_pos h1, if_neg (by omega), if_neg (by omega), if_neg (by omega)]
  by_cases h2 : p.cycle = 65
  · rw [if_neg h1, if_neg h1, if_pos h2, if_pos h2, if_neg (by omega), if_neg (by omega)]
  by_cases h3 : p.Evaluates
  · rw [if_neg h1, if_neg h1, if_neg h2, if_neg h2, if_pos h3, if_pos h3, if_neg (by omega)]
  · rw [if_neg h1, if_neg h1, if_neg h2, if_neg h2, if_neg h3, if_neg h3]

/-- The PPU of a rendering tick of a visible line as the sprite pipeline finds it. -/
def State.backgroundPpu (s : State) : Ppu := s.ppu.backgroundPipeline s.cfg s.mapper

/-- The sprite pipeline of a rendering tick of a visible line (R369). -/
theorem State.piped_visible {s : State} (h : 0 ≤ s.ppu.scanline) (hr : s.ppu.rendering = true) :
    s.piped =
      if 264 ≤ s.ppu.cycle ∧ s.ppu.cycle ≤ 320 ∧ s.ppu.cycle % 8 = 0 ∧
          (s.ppu.cycle - 264) / 8 < s.backgroundPpu.spriteEvaluation.eval.found then
        (s.setPpu s.backgroundPpu.spriteEvaluation).loadUnit (Fin.ofNat 8 ((s.ppu.cycle - 264) / 8))
      else s.setPpu s.backgroundPpu.spriteEvaluation := by
  have h1 : s.clearTick = s := if_neg (by omega)
  have h2 : s.backgroundTick = s.setPpu s.backgroundPpu := if_pos hr
  have hk : s.ppu.Kept s.backgroundPpu := s.ppu.backgroundPipeline_kept s.cfg s.mapper
  have hc : s.backgroundPpu.spriteEvaluation.cycle = s.ppu.cycle :=
    (s.backgroundPpu.spriteEvaluation_kept).cycle.trans hk.cycle
  have hn : ¬(s.backgroundPpu.scanline = -1 ∨ s.ppu.rendering = false) := by
    rw [hk.scanline, hr]
    simp
    omega
  rw [State.piped, h1, h2]
  show State.spritePipeline s.ppu.rendering (s.setPpu s.backgroundPpu) = _
  unfold State.spritePipeline
  rw [if_neg (by exact hn)]
  show (if 264 ≤ s.backgroundPpu.spriteEvaluation.cycle ∧ s.backgroundPpu.spriteEvaluation.cycle ≤ 320 ∧
      s.backgroundPpu.spriteEvaluation.cycle % 8 = 0 then
      if (s.backgroundPpu.spriteEvaluation.cycle - 264) / 8 < s.backgroundPpu.spriteEvaluation.eval.found then
        (s.setPpu s.backgroundPpu.spriteEvaluation).loadUnit
          (Fin.ofNat 8 ((s.backgroundPpu.spriteEvaluation.cycle - 264) / 8))
      else s.setPpu s.backgroundPpu.spriteEvaluation
    else s.setPpu s.backgroundPpu.spriteEvaluation) = _
  rw [hc]
  by_cases g1 : 264 ≤ s.ppu.cycle ∧ s.ppu.cycle ≤ 320 ∧ s.ppu.cycle % 8 = 0
  · by_cases g2 : (s.ppu.cycle - 264) / 8 < s.backgroundPpu.spriteEvaluation.eval.found
    · rw [if_pos g1, if_pos g2, if_pos ⟨g1.1, g1.2.1, g1.2.2, g2⟩]
    · rw [if_pos g1, if_neg g2, if_neg (fun h => g2 h.2.2.2)]
  · rw [if_neg g1, if_neg (fun h => g1 ⟨h.1, h.2.1, h.2.2.1⟩)]

/-- What a rendering tick of a visible line does to the sprites, but for the units (R369, R372, R373). -/
theorem ppuTick_sprites {s : State} (h : 0 ≤ s.ppu.scanline) (h' : s.ppu.scanline ≤ 239) (hr : s.ppu.rendering = true) :
    (ppuTick s).ppu.secOam =
      (if s.ppu.Clears then Memory.write Bank.secOam.unlisted s.ppu.secOam (s.ppu.cycle / 2 - 1) 0xFF
      else if s.ppu.Evaluates then s.ppu.evalStep.secOam else s.ppu.secOam) ∧
    (ppuTick s).ppu.eval =
      (if s.ppu.cycle = 65 then { sev := .copyY, n := 0, m := 0, found := 0, zeroNext := false }
      else if s.ppu.Evaluates then s.ppu.evalStep.eval else s.ppu.eval) ∧
    (ppuTick s).ppu.overflow = (if s.ppu.Evaluates then s.ppu.evalStep.overflow else s.ppu.overflow) ∧
    (ppuTick s).ppu.spriteCount = (if s.ppu.cycle = 257 then s.ppu.eval.found else s.ppu.spriteCount) ∧
    (ppuTick s).ppu.zeroLine = (if s.ppu.cycle = 257 then s.ppu.eval.zeroNext else s.ppu.zeroLine) := by
  obtain ⟨-, -, t1, -, t2, t3, t4, t5⟩ := ppuTick_piped (s := s) (by omega) h'
  have hp : s.piped.ppu.eval = s.backgroundPpu.spriteEvaluation.eval ∧
      s.piped.ppu.spriteCount = s.backgroundPpu.spriteEvaluation.spriteCount ∧
      s.piped.ppu.zeroLine = s.backgroundPpu.spriteEvaluation.zeroLine ∧
      s.piped.ppu.secOam = s.backgroundPpu.spriteEvaluation.secOam ∧
      s.piped.ppu.overflow = s.backgroundPpu.spriteEvaluation.overflow := by
    rw [State.piped_visible h hr]
    split
    · obtain ⟨a, b, c, d, -, -, -, e⟩ := State.loadUnit_rest (Fin.ofNat 8 ((s.ppu.cycle - 264) / 8))
        (s.setPpu s.backgroundPpu.spriteEvaluation)
      exact ⟨a, b, c, d, e⟩
    · exact ⟨rfl, rfl, rfl, rfl, rfl⟩
  obtain ⟨q1, q2, q3, q4, q5⟩ := hp
  have hk : s.ppu.Kept s.backgroundPpu := s.ppu.backgroundPipeline_kept s.cfg s.mapper
  obtain ⟨b1, -, b3, b4, b5, -, b7⟩ := s.ppu.backgroundPipeline_sprites s.cfg s.mapper
  obtain ⟨-, -, -, c1, c2, c3⟩ := Ppu.SameEvaluation.evalStep (p := s.ppu) (q := s.backgroundPpu)
    ⟨hk.ctrl, hk.scanline, hk.oam, b1, b5, b7⟩
  obtain ⟨-, u2, u3⟩ := s.backgroundPpu.evalStep_units
  rw [t1, t2, t3, t4, t5, q1, q2, q3, q4, q5, Ppu.spriteEvaluation_eq]
  simp only [Ppu.Clears, Ppu.Evaluates, hk.cycle]
  by_cases h1 : s.ppu.Clears
  · have h2 : ¬s.ppu.cycle = 65 := by omega
    have h3 : ¬s.ppu.Evaluates := by omega
    have h4 : ¬s.ppu.cycle = 257 := by omega
    simp only [if_pos h1, if_neg h2, if_neg h3, if_neg h4]
    refine ⟨?_, b1, b7, b3, b4⟩
    show Memory.write _ s.backgroundPpu.secOam _ _ = _
    rw [show s.backgroundPpu.secOam = s.ppu.secOam from b5]
  by_cases h2 : s.ppu.cycle = 65
  · have h3 : ¬s.ppu.Evaluates := by omega
    have h4 : ¬s.ppu.cycle = 257 := by omega
    simp only [if_neg h1, if_pos h2, if_neg h3, if_neg h4]
    exact ⟨b5, rfl, b7, b3, b4⟩
  by_cases h3 : s.ppu.Evaluates
  · have h4 : ¬s.ppu.cycle = 257 := by omega
    simp only [if_neg h1, if_neg h2, if_pos h3, if_neg h4]
    exact ⟨c2, c1, c3, u2.trans b3, u3.trans b4⟩
  by_cases h4 : s.ppu.cycle = 257
  · simp only [if_neg h1, if_neg h2, if_neg h3, if_pos h4]
    refine ⟨b5, b1, b7, ?_, ?_⟩
    · show s.backgroundPpu.eval.found = _
      rw [show s.backgroundPpu.eval = s.ppu.eval from b1]
    · show s.backgroundPpu.eval.zeroNext = _
      rw [show s.backgroundPpu.eval = s.ppu.eval from b1]
  · simp only [if_neg h1, if_neg h2, if_neg h3, if_neg h4]
    exact ⟨b5, b1, b7, b3, b4⟩

/-! ### Loading a unit (R375) -/

theorem rev8_getLsbD (b : Byte) (k : Nat) (h : k < 8) : (rev8 b).getLsbD k = b.getLsbD (7 - k) := by
  have : k = 0 ∨ k = 1 ∨ k = 2 ∨ k = 3 ∨ k = 4 ∨ k = 5 ∨ k = 6 ∨ k = 7 := by omega
  rcases this with rfl | rfl | rfl | rfl | rfl | rfl | rfl | rfl <;>
    (revert b; decide)

/-- The machine's address of a sprite's row is the one of R375. -/
theorem spriteAddr_eq (p : Ppu) (tile : Byte) (row : Nat) (h : row < p.spriteHeight) :
    spriteAddr p.ctrl tile p.spriteHeight row = BitVec.ofNat 16 (p.spriteRowAddr tile row) := by
  have hb := tile.isLt
  have key : ∀ (c : Bool) (n r : Nat), n < 256 → r < 16 →
      (if c then (0x1000 : Word) else 0) ||| BitVec.ofNat 16 (16 * n) ||| BitVec.ofNat 16 r =
        BitVec.ofNat 16 (0x1000 * c.toNat + 16 * n + r) := by
    intro c n r hn hr
    apply BitVec.eq_of_toNat_eq
    have h1 : (if c then (0x1000 : Word) else 0).toNat = 2 ^ 12 * c.toNat := by cases c <;> rfl
    have hc := Bool.toNat_le c
    rw [BitVec.toNat_or, BitVec.toNat_or, h1, BitVec.toNat_ofNat, BitVec.toNat_ofNat, BitVec.toNat_ofNat,
      Nat.mod_eq_of_lt (by omega : 16 * n < 2 ^ 16), Nat.mod_eq_of_lt (by omega : r < 2 ^ 16),
      ← Nat.two_pow_add_eq_or_of_lt (by omega)]
    rw [show 2 ^ 12 * c.toNat + 16 * n = 2 ^ 4 * (256 * c.toNat + n) from by omega,
      ← Nat.two_pow_add_eq_or_of_lt (by omega)]
    omega
  have hz : ∀ b : Byte, zext16 b <<< 4 = BitVec.ofNat 16 (16 * b.toNat) := by
    intro b
    apply BitVec.eq_of_toNat_eq
    have := b.isLt
    simp [zext16, Nat.shiftLeft_eq]
    omega
  have hm : (tile &&& 0xFE).toNat = tile.toNat / 2 * 2 := by
    revert tile
    decide
  have ho : (tile.getLsbD 0).toNat = tile.toNat % 2 := by
    rw [BitVec.getLsbD, Nat.toNat_testBit]
    omega
  unfold Ppu.spriteHeight at h ⊢
  unfold Ppu.spriteRowAddr spriteAddr
  cases hc : p.ctrl.getLsbD 5 with
  | false =>
    simp only [hc, Bool.false_eq_true, if_false] at h
    simp only [Bool.false_eq_true, if_false, if_true]
    rw [hz, key _ _ row hb (by omega)]
  | true =>
    rw [hc, if_pos rfl] at h
    simp only [if_true]
    rw [if_neg (by decide), hz, hm]
    by_cases hr : row ≥ 8
    · rw [if_pos hr]
      have h0 := key (tile.getLsbD 0) (tile.toNat / 2 * 2) 0 (by omega) (by omega)
      have e0 : ∀ w : Word, w ||| BitVec.ofNat 16 0 = w := fun w => BitVec.or_zero
      rw [e0] at h0
      rw [h0]
      have h1 := key (tile.getLsbD 0) (tile.toNat / 2 * 2 + 1) (row - 8) (by omega) (by omega)
      have h2 := key (tile.getLsbD 0) (tile.toNat / 2 * 2 + 1) 0 (by omega) (by omega)
      rw [e0] at h2
      have h3 : BitVec.ofNat 16 (0x1000 * (tile.getLsbD 0).toNat + 16 * (tile.toNat / 2 * 2) + 0) + 16 =
          BitVec.ofNat 16 (0x1000 * (tile.getLsbD 0).toNat + 16 * (tile.toNat / 2 * 2 + 1) + 0) := by
        apply BitVec.eq_of_toNat_eq
        simp [BitVec.toNat_add]
        omega
      rw [h3, ← h2, h1, ho]
      congr 1
      omega
    · rw [if_neg hr, key _ _ _ (by omega) (by omega), ho]
      congr 1
      omega

/-- What a unit is loaded with (R375). -/
theorem State.loadUnit_units (i : Fin 8) (s : State) :
    ∃ u, s.LoadedUnit i.val u ∧ (s.loadUnit i).ppu.units = s.ppu.units.set i.val u := by
  have hrow : ∀ row : Nat, row < (if s.ppu.ctrl.getLsbD 5 then 16 else 8) →
      s.ppu.scanline - (s.ppu.secByte (4 * i.val)).toNat =
        (if (s.ppu.secByte (4 * i.val + 2)).getLsbD 7 then (if s.ppu.ctrl.getLsbD 5 then 15 else 7) - (row : Int)
          else row) →
      spriteRow s.ppu.scanline (s.ppu.secByte (4 * i.val)) (s.ppu.secByte (4 * i.val + 2)) s.ppu.spriteHeight = row := by
    intro row hr he
    rw [spriteRow, he, Ppu.spriteHeight]
    cases (s.ppu.secByte (4 * i.val + 2)).getLsbD 7 <;> cases s.ppu.ctrl.getLsbD 5 <;> simp
  unfold State.loadUnit
  dsimp only
  split
  · refine ⟨_, ⟨rfl, rfl, fun row hr he b hb => ?_⟩, rfl⟩
    have e := hrow row hr he
    have ha : spriteAddr s.ppu.ctrl (s.ppu.secByte (4 * i.val + 1)) s.ppu.spriteHeight
        (spriteRow s.ppu.scanline (s.ppu.secByte (4 * i.val)) (s.ppu.secByte (4 * i.val + 2))
          s.ppu.spriteHeight).toNat = BitVec.ofNat 16 (s.ppu.spriteRowAddr (s.ppu.secByte (4 * i.val + 1)) row) := by
      rw [e]
      exact spriteAddr_eq _ _ _ hr
    have ha8 : BitVec.ofNat 16 (s.ppu.spriteRowAddr (s.ppu.secByte (4 * i.val + 1)) row) + 8 =
        BitVec.ofNat 16 (s.ppu.spriteRowAddr (s.ppu.secByte (4 * i.val + 1)) row + 8) := by
      rw [BitVec.ofNat_add]
      rfl
    dsimp only
    rw [ha, spritePattern, ha8]
    cases (s.ppu.secByte (4 * i.val + 2)).getLsbD 6 with
    | false => exact ⟨rfl, rfl⟩
    | true => exact ⟨rev8_getLsbD _ _ hb, rev8_getLsbD _ _ hb⟩
  · rename_i hn
    refine ⟨_, ⟨rfl, rfl, fun row hr he => ?_⟩, rfl⟩
    rw [hrow row hr he] at hn
    omega

/-- What a unit is loaded with depends on the sprite height, the line, secondary OAM, the configuration and the PPU's
memories. -/
theorem State.LoadedUnit.congr {s t : State} {i : Nat} {u : SpriteUnit} (h : t.LoadedUnit i u)
    (hc : t.ppu.ctrl = s.ppu.ctrl) (hl : t.ppu.scanline = s.ppu.scanline) (hs : t.ppu.secOam = s.ppu.secOam)
    (hm : t.mapper = s.mapper) (hg : t.cfg = s.cfg) : s.LoadedUnit i u := by
  obtain ⟨h1, h2, h3⟩ := h
  simp only [Ppu.secByte, Ppu.spriteRowAddr, hc, hl, hs, hm, hg] at h1 h2 h3
  exact ⟨h1, h2, h3⟩

/-- What a rendering tick of a visible line does to the sprite units (R369, R373, R375). -/
theorem ppuTick_units {s : State} (hi : s.Inv) (h : 0 ≤ s.ppu.scanline) (h' : s.ppu.scanline ≤ 239)
    (hr : s.ppu.rendering = true) (i : Fin 8) :
    (s.ppu.cycle = 257 →
      (ppuTick s).ppu.units[i] = { lo := 0, hi := 0, attr := s.ppu.units[i].attr, x := s.ppu.units[i].x }) ∧
    (s.ppu.cycle = 264 + 8 * i.val ∧ i.val < s.ppu.eval.found → s.LoadedUnit i.val (ppuTick s).ppu.units[i]) ∧
    (s.ppu.cycle ≠ 257 → ¬(s.ppu.cycle = 264 + 8 * i.val ∧ i.val < s.ppu.eval.found) →
      (ppuTick s).ppu.units[i] = s.ppu.units[i]) := by
  obtain ⟨-, -, -, t, -, -, -, -⟩ := ppuTick_piped (s := s) (by omega) h'
  have hk : s.ppu.Kept s.backgroundPpu := s.ppu.backgroundPipeline_kept s.cfg s.mapper
  obtain ⟨b1, b2, -, -, b5, -, -⟩ := s.ppu.backgroundPipeline_sprites s.cfg s.mapper
  have b1' : s.backgroundPpu.eval = s.ppu.eval := b1
  have b2' : s.backgroundPpu.units = s.ppu.units := b2
  have b5' : s.backgroundPpu.secOam = s.ppu.secOam := b5
  rw [t]
  by_cases h4 : s.ppu.cycle = 257
  · have e : s.piped = s.setPpu s.backgroundPpu.handOver := by
      rw [State.piped_visible h hr, if_neg (by omega), Ppu.spriteEvaluation_eq]
      simp only [Ppu.Clears, Ppu.Evaluates, hk.cycle, h4]
      simp
    rw [e]
    refine ⟨fun _ => ?_, fun hx => absurd hx.1 (by omega), fun hx => absurd h4 hx⟩
    show (s.backgroundPpu.units.map fun u => { u with lo := 0, hi := 0 })[i.val] = _
    rw [Vector.getElem_map, b2']
    rfl
  refine ⟨fun hx => absurd hx h4, ?_⟩
  by_cases hl : 264 ≤ s.ppu.cycle
  · have e0 : s.backgroundPpu.spriteEvaluation = s.backgroundPpu := by
      have g1 : ¬(1 ≤ s.ppu.cycle ∧ s.ppu.cycle ≤ 64 ∧ s.ppu.cycle % 2 = 0) := by omega
      have g2 : ¬s.ppu.cycle = 65 := by omega
      have g3 : ¬(66 ≤ s.ppu.cycle ∧ s.ppu.cycle ≤ 256 ∧ s.ppu.cycle % 2 = 0) := by omega
      rw [Ppu.spriteEvaluation_eq]
      simp only [Ppu.Clears, Ppu.Evaluates, hk.cycle, if_neg g1, if_neg g2, if_neg g3, if_neg h4]
    have e := State.piped_visible h hr
    rw [e0, b1'] at e
    by_cases hg : 264 ≤ s.ppu.cycle ∧ s.ppu.cycle ≤ 320 ∧ s.ppu.cycle % 8 = 0 ∧ (s.ppu.cycle - 264) / 8 < s.ppu.eval.found
    · rw [if_pos hg] at e
      obtain ⟨u, hu, hs⟩ := State.loadUnit_units (Fin.ofNat 8 ((s.ppu.cycle - 264) / 8)) (s.setPpu s.backgroundPpu)
      have hv : (Fin.ofNat 8 ((s.ppu.cycle - 264) / 8)).val = (s.ppu.cycle - 264) / 8 := Nat.mod_eq_of_lt (by omega)
      have hu' : s.LoadedUnit ((s.ppu.cycle - 264) / 8) u := by
        rw [hv] at hu
        exact hu.congr hk.ctrl hk.scanline b5' rfl rfl
      rw [e, hs]
      show (_ → s.LoadedUnit i.val ((s.backgroundPpu.units.set _ u)[i.val])) ∧
        (_ → _ → (s.backgroundPpu.units.set _ u)[i.val] = s.ppu.units[i.val])
      rw [Vector.getElem_set, b2']
      by_cases hi' : (s.ppu.cycle - 264) / 8 = i.val
      · rw [if_pos (hv.trans hi')]
        exact ⟨fun _ => hi' ▸ hu', fun _ hx => absurd ⟨by omega, by omega⟩ hx⟩
      · rw [if_neg (fun hx => hi' (hv.symm.trans hx))]
        exact ⟨fun hx => absurd hx.1 (by omega), fun _ _ => rfl⟩
    · rw [if_neg hg] at e
      rw [e]
      have := hi.ppu.eval.found
      refine ⟨fun hx => absurd ⟨hl, by omega, by omega, by omega⟩ hg, fun _ _ => ?_⟩
      show s.backgroundPpu.units[i.val] = _
      rw [b2']
      rfl
  · have e := State.piped_visible h hr
    rw [if_neg (fun hx => hl hx.1)] at e
    rw [e]
    refine ⟨fun hx => absurd hx.1 (by omega), fun _ _ => ?_⟩
    show s.backgroundPpu.spriteEvaluation.units[i.val] = s.ppu.units[i.val]
    have : s.backgroundPpu.spriteEvaluation.units = s.ppu.units := by
      rw [Ppu.spriteEvaluation_eq]
      split
      · exact b2
      · split
        · exact b2
        · split
          · exact (Ppu.evalStep_units _).1.trans b2
          · rw [if_neg (by rw [hk.cycle]; exact h4)]
            exact b2
    rw [this]

/-- Lines that are not rendered, the pre-render line among them, leave the sprite machinery alone and end with no sprite
to show (R369). -/
theorem ppuTick_sprites_off {s : State} (hf : -1 ≤ s.ppu.scanline)
    (h : s.ppu.scanline = -1 ∨ 239 < s.ppu.scanline ∨ s.ppu.rendering = false) :
    (ppuTick s).ppu.secOam = s.ppu.secOam ∧ (ppuTick s).ppu.eval = s.ppu.eval ∧ (ppuTick s).ppu.units = s.ppu.units ∧
    (ppuTick s).ppu.spriteCount = (if s.ppu.cycle = 257 ∧ s.ppu.scanline ≤ 239 then 0 else s.ppu.spriteCount) ∧
    (ppuTick s).ppu.zeroLine = (if s.ppu.cycle = 257 ∧ s.ppu.scanline ≤ 239 then false else s.ppu.zeroLine) := by
  by_cases hl : s.ppu.scanline ≤ 239
  · obtain ⟨-, -, t1, t2, t3, t4, t5, -⟩ := ppuTick_piped hf hl
    rw [t1, t2, t3, t4, t5]
    have hc : s.clearTick.ppu.eval = s.ppu.eval ∧ s.clearTick.ppu.units = s.ppu.units ∧
        s.clearTick.ppu.spriteCount = s.ppu.spriteCount ∧ s.clearTick.ppu.zeroLine = s.ppu.zeroLine ∧
        s.clearTick.ppu.secOam = s.ppu.secOam := by
      unfold State.clearTick
      split <;> exact ⟨rfl, rfl, rfl, rfl, rfl⟩
    have hb : ∀ u : State, u.backgroundTick.ppu.eval = u.ppu.eval ∧ u.backgroundTick.ppu.units = u.ppu.units ∧
        u.backgroundTick.ppu.spriteCount = u.ppu.spriteCount ∧ u.backgroundTick.ppu.zeroLine = u.ppu.zeroLine ∧
        u.backgroundTick.ppu.secOam = u.ppu.secOam := by
      intro u
      unfold State.backgroundTick
      split
      · obtain ⟨a, b, c, d, e, -, -⟩ := u.ppu.backgroundPipeline_sprites u.cfg u.mapper
        exact ⟨a, b, c, d, e⟩
      · exact ⟨rfl, rfl, rfl, rfl, rfl⟩
    obtain ⟨c1, c2, c3, c4, c5⟩ := hc
    obtain ⟨d1, d2, d3, d4, d5⟩ := hb s.clearTick
    have hp := s.clearTick.backgroundTick_kept.2.1
    obtain ⟨p1, p2⟩ := s.clearTick_position
    have hs : s.clearTick.backgroundTick.ppu.scanline = -1 ∨ s.ppu.rendering = false := by
      rw [hp.scanline, p1]
      rcases h with h | h | h
      · exact .inl h
      · omega
      · exact .inr h
    rw [State.piped, State.spritePipeline, if_pos hs, hp.cycle, p2]
    by_cases h4 : s.ppu.cycle = 257
    · rw [if_pos h4, if_pos ⟨h4, hl⟩, if_pos ⟨h4, hl⟩]
      exact ⟨d5.trans c5, d1.trans c1, d2.trans c2, rfl, rfl⟩
    · rw [if_neg h4, if_neg (fun hx => h4 hx.1), if_neg (fun hx => h4 hx.1)]
      exact ⟨d5.trans c5, d1.trans c1, d2.trans c2, d3.trans c3, d4.trans c4⟩
  · obtain ⟨-, -, t1, t2, t3, t4, t5, -⟩ := ppuTick_idle (s := s) (.inr (by omega))
    rw [if_neg (fun hx => hl hx.2), if_neg (fun hx => hl hx.2)]
    exact ⟨t5, t1, t2, t3, t4⟩

/-- What a tick does to the overflow flag: the clear at (−1, 1), the evaluation steps, and nothing else (R315, R354,
R371). -/
theorem ppuTick_overflow {s : State} (hf : -1 ≤ s.ppu.scanline) :
    (ppuTick s).ppu.overflow =
      if s.ppu.scanline = -1 ∧ s.ppu.cycle = 1 then false
      else if 0 ≤ s.ppu.scanline ∧ s.ppu.scanline ≤ 239 ∧ s.ppu.rendering = true ∧ s.ppu.Evaluates then
        s.ppu.evalStep.overflow
      else s.ppu.overflow := by
  by_cases hl : s.ppu.scanline ≤ 239
  · by_cases hv : 0 ≤ s.ppu.scanline ∧ s.ppu.rendering = true
    · rw [(ppuTick_sprites hv.1 hl hv.2).2.2.1, if_neg (by omega : ¬(s.ppu.scanline = -1 ∧ s.ppu.cycle = 1))]
      by_cases he : s.ppu.Evaluates
      · rw [if_pos he, if_pos ⟨hv.1, hl, hv.2, he⟩]
      · rw [if_neg he, if_neg (fun hx => he hx.2.2.2)]
    · obtain ⟨-, -, -, -, -, -, -, t⟩ := ppuTick_piped hf hl
      have hb : ∀ u : State, u.backgroundTick.ppu.overflow = u.ppu.overflow := by
        intro u
        unfold State.backgroundTick
        split
        · exact (u.ppu.backgroundPipeline_sprites u.cfg u.mapper).2.2.2.2.2.2
        · rfl
      have hs : s.clearTick.backgroundTick.ppu.scanline = -1 ∨ s.ppu.rendering = false := by
        rw [s.clearTick.backgroundTick_kept.2.1.scanline, s.clearTick_position.1]
        by_cases hr : s.ppu.rendering = true
        · exact .inl (by have : ¬0 ≤ s.ppu.scanline := fun hx => hv ⟨hx, hr⟩; omega)
        · exact .inr (Bool.eq_false_iff.2 hr)
      have hp : s.piped.ppu.overflow = s.clearTick.ppu.overflow := by
        rw [State.piped, State.spritePipeline, if_pos hs]
        split <;> exact hb _
      have he : ¬(0 ≤ s.ppu.scanline ∧ s.ppu.scanline ≤ 239 ∧ s.ppu.rendering = true ∧ s.ppu.Evaluates) :=
        fun hx => hv ⟨hx.1, hx.2.2.1⟩
      rw [t, hp, State.clearTick, if_neg he]
      split <;> rfl
  · have ho : (ppuTick s).ppu.overflow = s.beforeAdvance.ppu.overflow := (Ppu.advance_rest _).2.2.2.2.1
    rw [if_neg (by omega), if_neg (fun hx => hl hx.2.1), ho]
    rcases s.beforeAdvance_cases with ⟨-, -, h⟩ | ⟨h1, -, -⟩ | ⟨-, h2, -, -⟩ | ⟨-, -, h⟩
    · rw [h]
      simp only [State.vblankStart]
      split <;> rfl
    · omega
    · exact absurd h2 hl
    · rw [h]

/-! ### A line of evaluation -/

/-- A tick leaves what software set alone but for `vblank`: the control registers and OAM (R350). -/
theorem ppuTick_registers (s : State) :
    (ppuTick s).ppu.ctrl = s.ppu.ctrl ∧ (ppuTick s).ppu.mask = s.ppu.mask ∧ (ppuTick s).ppu.oam = s.ppu.oam := by
  obtain ⟨a1, a2, -, -, -, -, -, -, -, -, -, -, -, -, -, a3, -⟩ := Ppu.advance_rest s.beforeAdvance.ppu
  have hb : s.beforeAdvance.ppu.ctrl = s.ppu.ctrl ∧ s.beforeAdvance.ppu.mask = s.ppu.mask ∧
      s.beforeAdvance.ppu.oam = s.ppu.oam := by
    rcases s.beforeAdvance_cases with ⟨-, -, h⟩ | ⟨-, -, h⟩ | ⟨-, -, -, h⟩ | ⟨-, -, h⟩ <;> rw [h]
    · simp only [State.vblankStart]
      split <;> exact ⟨rfl, rfl, rfl⟩
    · have := (State.renderTick_kept (s.setPpu s.ppu.clearFlags)).2
      exact ⟨this.ctrl, this.mask, this.oam⟩
    · have := s.renderTick_kept.2
      exact ⟨this.ctrl, this.mask, this.oam⟩
    · exact ⟨rfl, rfl, rfl⟩
  exact ⟨a1.trans hb.1, a2.trans hb.2.1, a3.trans hb.2.2⟩

/-- The PPU that evaluation starts from (R369). -/
def Ppu.started (p : Ppu) : Ppu :=
  { p with eval := { sev := .copyY, n := 0, m := 0, found := 0, zeroNext := false } }

/-- From cycle 65 on, `2k + 2` ticks have taken `k + 1` evaluation steps (R369). -/
theorem ppuTicks_evaluate {s : State} (h : 0 ≤ s.ppu.scanline) (h' : s.ppu.scanline ≤ 239)
    (hr : s.ppu.rendering = true) (hc : s.ppu.cycle = 65) (k : Nat) (hk : k ≤ 95) :
    (ppuTicks (2 * k + 2) s).ppu.cycle = 67 + 2 * k ∧ (ppuTicks (2 * k + 2) s).ppu.mask = s.ppu.mask ∧
    (Ppu.evalSteps (k + 1) s.ppu.started).SameEvaluation (ppuTicks (2 * k + 2) s).ppu := by
  -- one tick, whatever it does to the sprites
  have tick : ∀ (u : State) (p : Ppu), u.ppu.scanline = s.ppu.scanline → u.ppu.mask = s.ppu.mask → 65 ≤ u.ppu.cycle →
      u.ppu.cycle ≤ 256 → p.SameEvaluation u.ppu →
      (ppuTick u).ppu.scanline = s.ppu.scanline ∧ (ppuTick u).ppu.mask = s.ppu.mask ∧
      (ppuTick u).ppu.cycle = u.ppu.cycle + 1 ∧
      Ppu.SameEvaluation (if u.ppu.cycle = 65 then p.started else if u.ppu.Evaluates then p.evalStep else p)
        (ppuTick u).ppu := by
    intro u p hl hm h65 h256 hp
    obtain ⟨n1, n2, -⟩ := ppuTick_next u (by omega) (by omega)
    obtain ⟨r1, r2, r3⟩ := ppuTick_registers u
    have hr' : u.ppu.rendering = true := by rw [Ppu.rendering, hm]; exact hr
    obtain ⟨t1, t2, t3, -, -⟩ := ppuTick_sprites (s := u) (by omega) (by omega) hr'
    have hcl : ¬u.ppu.Clears := by omega
    rw [if_neg hcl] at t1
    refine ⟨n1.trans hl, r2.trans hm, n2, ?_⟩
    by_cases e1 : u.ppu.cycle = 65
    · have hev : ¬u.ppu.Evaluates := by omega
      rw [if_neg hev] at t1 t3
      rw [if_pos e1] at t2
      rw [if_pos e1]
      exact ⟨r1.trans hp.ctrl, n1.trans hp.scanline, r3.trans hp.oam, t2, t1.trans hp.secOam, t3.trans hp.overflow⟩
    · rw [if_neg e1] at t2
      rw [if_neg e1]
      by_cases e2 : u.ppu.Evaluates
      · rw [if_pos e2] at t1 t2 t3
        rw [if_pos e2]
        have hq := hp.evalStep
        have hu := u.ppu.evalStep_kept
        exact ⟨(r1.trans hu.ctrl.symm).trans hq.ctrl, (n1.trans hu.scanline.symm).trans hq.scanline,
          (r3.trans hu.oam.symm).trans hq.oam, t2.trans hq.eval, t1.trans hq.secOam, t3.trans hq.overflow⟩
      · rw [if_neg e2] at t1 t2 t3
        rw [if_neg e2]
        exact ⟨r1.trans hp.ctrl, n1.trans hp.scanline, r3.trans hp.oam, t2.trans hp.eval, t1.trans hp.secOam,
          t3.trans hp.overflow⟩
  suffices hs : (ppuTicks (2 * k + 2) s).ppu.scanline = s.ppu.scanline ∧
      (ppuTicks (2 * k + 2) s).ppu.cycle = 67 + 2 * k ∧ (ppuTicks (2 * k + 2) s).ppu.mask = s.ppu.mask ∧
      (Ppu.evalSteps (k + 1) s.ppu.started).SameEvaluation (ppuTicks (2 * k + 2) s).ppu from hs.2
  induction k with
  | zero =>
    obtain ⟨a1, a2, a3, a4⟩ := tick s s.ppu rfl rfl (by omega) (by omega) ⟨rfl, rfl, rfl, rfl, rfl, rfl⟩
    obtain ⟨b1, b2, b3, b4⟩ := tick (ppuTick s) _ a1 a2 (by omega) (by omega) a4
    have e2 : (ppuTick s).ppu.Evaluates := by omega
    rw [if_pos hc, if_neg (by omega), if_pos e2] at b4
    exact ⟨b1, by show (ppuTick (ppuTick s)).ppu.cycle = _; omega, b2, b4⟩
  | succ k ih =>
    obtain ⟨i1, i2, i3, i4⟩ := ih (by omega)
    obtain ⟨a1, a2, a3, a4⟩ := tick _ _ i1 i3 (by omega) (by omega) i4
    have e1 : ¬(ppuTicks (2 * k + 2) s).ppu.Evaluates := by omega
    rw [if_neg (by omega), if_neg e1] at a4
    obtain ⟨b1, b2, b3, b4⟩ := tick (ppuTick (ppuTicks (2 * k + 2) s)) _ a1 a2 (by omega) (by omega) a4
    have e2 : (ppuTick (ppuTicks (2 * k + 2) s)).ppu.Evaluates := by omega
    rw [if_neg (by omega), if_pos e2, ← Ppu.evalSteps_succ] at b4
    rw [show 2 * (k + 1) + 2 = 2 * k + 2 + 1 + 1 from by omega, ppuTicks_succ, ppuTicks_succ]
    exact ⟨b1, by omega, b2, b4⟩

/-- A line of evaluation, and its hand-over: cycles 65 to 257 of a visible line while rendering is enabled (R369 to R371,
R373). -/
theorem ppuTicks_line_sprites {s : State} (hi : s.Inv) (h : 0 ≤ s.ppu.scanline) (h' : s.ppu.scanline ≤ 239)
    (hr : s.ppu.rendering = true) (hc : s.ppu.cycle = 65) :
    (ppuTicks 193 s).ppu.spriteCount = min 8 s.ppu.shown.length ∧
    (ppuTicks 193 s).ppu.zeroLine = s.ppu.shows 0 ∧
    (ppuTicks 193 s).ppu.overflow = (s.ppu.overflow || decide (9 ≤ s.ppu.shown.length)) ∧
    ∀ i k, i < 8 → s.ppu.shown[i]? = some k → ∀ b, b < 4 →
      (ppuTicks 193 s).ppu.secByte (4 * i + b) = s.ppu.oamByte (4 * k + b) := by
  obtain ⟨c1, c2, c3⟩ := ppuTicks_evaluate h h' hr hc 95 (by omega)
  have hsh : s.ppu.started.shownFrom 0 = s.ppu.shown := (s.ppu.shown_eq).symm
  obtain ⟨k, k1, k2, k3, -⟩ := Ppu.evaluate 63 s.ppu.started rfl rfl (by show 0 < 8; omega) hi.ppu.secOam
  have hf : s.ppu.started.eval.found = 0 := rfl
  have hn : s.ppu.started.eval.n = 0 := rfl
  have hz : s.ppu.started.eval.zeroNext = false := rfl
  have ho : s.ppu.started.overflow = s.ppu.overflow := rfl
  have h0 : s.ppu.started.shows 0 = s.ppu.shows 0 := rfl
  rw [hf] at k1 k2 k3
  rw [hn, hsh, hz, ho, h0] at k2
  rw [hn, hsh] at k3
  have he : Ppu.evalSteps 96 s.ppu.started = Ppu.evalSteps k s.ppu.started := by
    rw [show (96 : Nat) = k + (96 - k) from by omega, Ppu.evalSteps_add, Ppu.evalSteps_wait k2.sev]
  have c3' : (Ppu.evalSteps k s.ppu.started).SameEvaluation (ppuTicks 192 s).ppu := by
    rw [← he]
    exact c3
  have c1' : (ppuTicks 192 s).ppu.cycle = 257 := c1
  have c2' : (ppuTicks 192 s).ppu.mask = s.ppu.mask := c2
  have hl : (ppuTicks 192 s).ppu.scanline = s.ppu.scanline := c3'.scanline.trans k2.kept.scanline
  have hr' : (ppuTicks 192 s).ppu.rendering = true := by rw [Ppu.rendering, c2']; exact hr
  obtain ⟨t1, -, t3, t4, t5⟩ := ppuTick_sprites (s := ppuTicks 192 s) (by omega) (by omega) hr'
  have g1 : ¬(ppuTicks 192 s).ppu.Clears := by omega
  have g2 : ¬(ppuTicks 192 s).ppu.Evaluates := by omega
  rw [if_neg g1, if_neg g2] at t1
  rw [if_neg g2] at t3
  rw [if_pos c1'] at t4 t5
  rw [show (193 : Nat) = 192 + 1 from rfl, ppuTicks_succ, t3, t4, t5]
  refine ⟨?_, ?_, ?_, fun i e hi8 he' b hb => ?_⟩
  · rw [c3'.eval, k2.found, Nat.zero_add]
  · rw [c3'.eval, k2.zeroNext]
    simp
  · rw [c3'.overflow, k2.overflow, Nat.zero_add]
  · have := k3 i e (by omega) he' b hb
    rw [Nat.zero_add] at this
    rw [Ppu.secByte, t1, c3'.secOam]
    exact this

/-! ### What the compositor finds -/

/-- The sprite pipeline leaves the hit flag alone, and up to cycle 256 what a line shows too (R369). -/
theorem State.spritePipeline_shown (r : Bool) (s : State) :
    (s.spritePipeline r).ppu.sprite0 = s.ppu.sprite0 ∧
    (s.ppu.cycle ≤ 256 → (s.spritePipeline r).ppu.units = s.ppu.units ∧
      (s.spritePipeline r).ppu.spriteCount = s.ppu.spriteCount ∧ (s.spritePipeline r).ppu.zeroLine = s.ppu.zeroLine) := by
  have he : ∀ p : Ppu, p.evalStep.sprite0 = p.sprite0 := by
    intro p
    simp only [Ppu.evalStep]
    split
    · split <;> rfl
    · split <;> rfl
    · split <;> rfl
    · rfl
  have hs : s.ppu.spriteEvaluation.sprite0 = s.ppu.sprite0 ∧ (s.ppu.cycle ≤ 256 →
      s.ppu.spriteEvaluation.units = s.ppu.units ∧ s.ppu.spriteEvaluation.spriteCount = s.ppu.spriteCount ∧
      s.ppu.spriteEvaluation.zeroLine = s.ppu.zeroLine) := by
    rw [Ppu.spriteEvaluation_eq]
    split
    · exact ⟨rfl, fun _ => ⟨rfl, rfl, rfl⟩⟩
    · split
      · exact ⟨rfl, fun _ => ⟨rfl, rfl, rfl⟩⟩
      · split
        · exact ⟨he _, fun _ => Ppu.evalStep_units _⟩
        · split
          · exact ⟨rfl, fun hc => by omega⟩
          · exact ⟨rfl, fun _ => ⟨rfl, rfl, rfl⟩⟩
  have hc : s.ppu.spriteEvaluation.cycle = s.ppu.cycle := s.ppu.spriteEvaluation_kept.cycle
  unfold State.spritePipeline
  dsimp only
  split
  · split
    · exact ⟨rfl, fun hx => by omega⟩
    · exact ⟨rfl, fun _ => ⟨rfl, rfl, rfl⟩⟩
  · split
    · rename_i hl
      have hl' : 264 ≤ s.ppu.spriteEvaluation.cycle := hl.1
      refine ⟨?_, fun hx => by omega⟩
      split
      · exact (State.loadUnit_rest _ _).2.2.2.2.2.2.1.trans hs.1
      · exact hs.1
    · exact hs

/-- What drawing starts from: the picture, the layers' enables and the memories of before the tick, the hit flag after the
clear at (−1, 1), and up to cycle 256 the sprites of before the tick (R350). -/
theorem State.piped_draw (s : State) :
    s.piped.pixels = s.pixels ∧ s.piped.cfg = s.cfg ∧ s.piped.mapper = s.mapper ∧
    s.piped.ppu.scanline = s.ppu.scanline ∧ s.piped.ppu.cycle = s.ppu.cycle ∧ s.piped.ppu.mask = s.ppu.mask ∧
    s.piped.ppu.fineX = s.ppu.fineX ∧
    (¬(s.ppu.scanline = -1 ∧ s.ppu.cycle = 1) → s.piped.ppu.sprite0 = s.ppu.sprite0) ∧
    (s.ppu.cycle ≤ 256 → s.piped.ppu.units = s.ppu.units ∧ s.piped.ppu.spriteCount = s.ppu.spriteCount ∧
      s.piped.ppu.zeroLine = s.ppu.zeroLine) := by
  have hc : s.clearTick.pixels = s.pixels ∧ s.clearTick.cfg = s.cfg ∧ s.clearTick.mapper = s.mapper ∧
      s.clearTick.ppu.scanline = s.ppu.scanline ∧ s.clearTick.ppu.cycle = s.ppu.cycle ∧
      s.clearTick.ppu.mask = s.ppu.mask ∧ s.clearTick.ppu.fineX = s.ppu.fineX ∧ s.clearTick.ppu.units = s.ppu.units ∧
      s.clearTick.ppu.spriteCount = s.ppu.spriteCount ∧ s.clearTick.ppu.zeroLine = s.ppu.zeroLine := by
    unfold State.clearTick
    split <;> exact ⟨rfl, rfl, rfl, rfl, rfl, rfl, rfl, rfl, rfl, rfl⟩
  have hb : ∀ u : State, u.backgroundTick.ppu.units = u.ppu.units ∧ u.backgroundTick.ppu.spriteCount = u.ppu.spriteCount ∧
      u.backgroundTick.ppu.zeroLine = u.ppu.zeroLine ∧ u.backgroundTick.ppu.sprite0 = u.ppu.sprite0 := by
    intro u
    unfold State.backgroundTick
    split
    · obtain ⟨-, b, c, d, -, f, -⟩ := u.ppu.backgroundPipeline_sprites u.cfg u.mapper
      exact ⟨b, c, d, f⟩
    · exact ⟨rfl, rfl, rfl, rfl⟩
  obtain ⟨c1, c2, c3, c4, c5, c6, c7, c8, c9, c10⟩ := hc
  obtain ⟨b1, b2, b3, b4⟩ := hb s.clearTick
  obtain ⟨k1, k2, k3⟩ := s.clearTick.backgroundTick_kept
  obtain ⟨p1, p2, p3⟩ := State.spritePipeline_kept s.ppu.rendering s.clearTick.backgroundTick
  obtain ⟨q1, q2⟩ := State.spritePipeline_shown s.ppu.rendering s.clearTick.backgroundTick
  refine ⟨(p3.trans k3).trans c1, ((k1.trans p1).cfg).trans c2, ((k1.trans p1).mapper).trans c3,
    ((k2.trans p2).scanline).trans c4, ((k2.trans p2).cycle).trans c5, ((k2.trans p2).mask).trans c6,
    ((k2.trans p2).fineX).trans c7, fun hn => ?_, fun hx => ?_⟩
  · have e : s.clearTick = s := if_neg hn
    rw [e] at q1 b4
    rw [State.piped, e]
    exact q1.trans b4
  · obtain ⟨r1, r2, r3⟩ := q2 (by rw [k2.cycle, c5]; exact hx)
    exact ⟨(r1.trans b1).trans c8, (r2.trans b2).trans c9, (r3.trans b3).trans c10⟩

/-- The background pixel depends on the mask, fine X and the shift registers (R378). -/
theorem Ppu.bgPixel_congr {p q : Ppu} (h1 : q.mask = p.mask) (h2 : q.fineX = p.fineX) (h3 : q.bg = p.bg) (x : Nat) :
    q.bgPixel x = p.bgPixel x := by
  unfold Ppu.bgPixel
  rw [h1, h2, h3]

/-- The sprite pixel depends on the mask and the units shown (R378). -/
theorem Ppu.spritePixel_congr {p q : Ppu} (h1 : q.mask = p.mask) (h2 : q.units = p.units)
    (h3 : q.spriteCount = p.spriteCount) (h4 : q.zeroLine = p.zeroLine) (x : Nat) :
    q.spritePixel x = p.spritePixel x := by
  unfold Ppu.spritePixel
  rw [h1, h2, h3, h4]

/-- A tick draws on the visible pixels, from the layers as its pipelines leave them, and nothing else touches the picture
or, but for the clear at (−1, 1), the hit flag (R350, R378, R380). -/
theorem ppuTick_draw (s : State) :
    (0 ≤ s.ppu.scanline ∧ s.ppu.scanline ≤ 239 ∧ 1 ≤ s.ppu.cycle ∧ s.ppu.cycle ≤ 256 →
      (ppuTick s).pixels = Memory.write Bank.pixels.unlisted s.pixels (256 * s.ppu.scanline.toNat + (s.ppu.cycle - 1))
        (paletteEntry s.cfg s.mapper (composite ((ppuTick s).ppu.bgPixel (s.ppu.cycle - 1))
          (s.ppu.spritePixel (s.ppu.cycle - 1)))) ∧
      (ppuTick s).ppu.sprite0 = (s.ppu.sprite0 || spriteZeroHit (s.ppu.cycle - 1)
        ((ppuTick s).ppu.bgPixel (s.ppu.cycle - 1)) (s.ppu.spritePixel (s.ppu.cycle - 1)))) ∧
    (¬(0 ≤ s.ppu.scanline ∧ s.ppu.scanline ≤ 239 ∧ 1 ≤ s.ppu.cycle ∧ s.ppu.cycle ≤ 256) →
      (ppuTick s).pixels = s.pixels ∧
      (¬(s.ppu.scanline = -1 ∧ s.ppu.cycle = 1) → (ppuTick s).ppu.sprite0 = s.ppu.sprite0)) := by
  have hs0 : (ppuTick s).ppu.sprite0 = s.beforeAdvance.ppu.sprite0 := (Ppu.advance_rest _).2.2.2.1
  have hpx : (ppuTick s).pixels = s.beforeAdvance.pixels := rfl
  by_cases hv : -1 ≤ s.ppu.scanline ∧ s.ppu.scanline ≤ 239
  · obtain ⟨e1, e2, e3, e4, e5, e6, e7, e8, e9⟩ := s.piped_draw
    have hb : s.beforeAdvance = s.piped.drawTick := by
      have hr : s.clearTick.ppu.rendering = s.ppu.rendering := by
        unfold State.clearTick
        split <;> rfl
      rw [State.beforeAdvance_render hv.1 hv.2, State.renderTick_eq, hr]
      rfl
    by_cases hd : 0 ≤ s.ppu.scanline ∧ 1 ≤ s.ppu.cycle ∧ s.ppu.cycle ≤ 256
    · have hdraw : s.piped.drawTick = s.piped.draw := if_pos (by rw [e4, e5]; exact hd)
      have hm : (ppuTick s).ppu.mask = s.piped.ppu.mask := by
        rw [ppuTick_eq, hb, hdraw]
        exact (Ppu.advance_rest _).2.1
      have hx : (ppuTick s).ppu.fineX = s.piped.ppu.fineX := by
        rw [ppuTick_eq, hb, hdraw]
        exact (Ppu.advance_rest _).2.2.2.2.2.2.2.2.1
      have hbg : s.piped.ppu.bgPixel (s.ppu.cycle - 1) = (ppuTick s).ppu.bgPixel (s.ppu.cycle - 1) :=
        (Ppu.bgPixel_congr hm hx (ppuTick_piped hv.1 hv.2).1 _).symm
      obtain ⟨u1, u2, u3⟩ := e9 hd.2.2
      have hsp : s.piped.ppu.spritePixel (s.ppu.cycle - 1) = s.ppu.spritePixel (s.ppu.cycle - 1) :=
        Ppu.spritePixel_congr e6 u1 u2 u3 _
      refine ⟨fun _ => ?_, fun hn => absurd ⟨hd.1, hv.2, hd.2⟩ hn⟩
      rw [← hbg, ← hsp, hpx, hs0, hb, hdraw, ← e8 (by omega), ← e1, ← e2, ← e3, ← e4, ← e5]
      exact ⟨rfl, rfl⟩
    · have hdraw : s.piped.drawTick = s.piped := if_neg (by rw [e4, e5]; exact hd)
      rw [hpx, hs0, hb, hdraw]
      exact ⟨fun hx => absurd ⟨hx.1, hx.2.2⟩ hd, fun _ => ⟨e1, e8⟩⟩
  · rw [hpx]
    refine ⟨fun hx => absurd ⟨by omega, hx.2.1⟩ hv, fun _ => ⟨?_, fun _ => (ppuTick_idle (by omega)).2.2.2.2.2.2.2⟩⟩
    rcases s.beforeAdvance_cases with ⟨-, -, h⟩ | ⟨h1, -, -⟩ | ⟨h1, h2, -, -⟩ | ⟨-, -, h⟩
    · rw [h]
      simp only [State.vblankStart]
      split <;> rfl
    · omega
    · exact absurd ⟨h1, h2⟩ hv
    · rw [h]

end Sys2Proof.Machine
end

