-- ==== Sys2Proof/Tests/Slice0.lean ====
section
/-! SUPPORT. The model's own tests: ill-formed terms the check refuses, bytes written out from spec/30_encoding.md R104
that decode to the instructions they stand for, the vectors of spec/95_test_vectors.md, and for every statement with
hypotheses a state and operands that meet them. Expected results come from the spec's tables, not from the model. -/

namespace Sys2Proof.Tests

open Sys2Proof.Machine

set_option maxRecDepth 20000

/-! ### Helpers -/

/-- The starting state of spec/95_test_vectors.md: no interrupt pending, SP = `FD`, P = `24`, the code at PC, and the
cells listed. -/
def vector (pc : Word) (code : List Byte) (cells : List (Word × Byte)) : State :=
  let s := { State.reset with context := 0, sp := 0xFD, p := 0x24, pc := pc }
  cells.foldl (fun s c => s.poke c.1 c.2) (s.pokes pc code)

/-- The registers after a step and the cycles it consumed. -/
structure Registers where
  a : Byte
  x : Byte
  y : Byte
  sp : Byte
  p : Byte
  pc : Word
  cycles : Nat
  deriving DecidableEq, Repr

/-- What a CPU step leaves: the registers, the cycles, and the bytes at the addresses listed. -/
def after (cells : List Word) (s : State) : Option (Registers × List Byte) :=
  match cpuStep s with
  | .next t => some (⟨t.a, t.x, t.y, t.sp, t.p, t.pc, t.cyc - s.cyc⟩, cells.map fun a => (t.peek a).getD 0)
  | .fault _ => none
  | .refused _ => none

/-- Whether an outcome is a next state. -/
def answersNext : Result → Bool
  | .next _ => true
  | .fault _ => false
  | .refused _ => false

/-- Whether every list of bytes decodes to the instruction beside it, with nothing left over. -/
def allDecode (rows : List (List Byte × Instr)) : Bool :=
  rows.all fun r =>
    match decode r.1 with
    | .ok (i, []) => i == r.2
    | .ok (_, _ :: _) => false
    | .error _ => false

/-! ### Well-formedness: a form the table does not have is refused -/

theorem test_wf_lda_refuses_zey : Instr.wf (.lda (.mem (.zey 0x10))) = false := by decide
theorem test_wf_ldx_refuses_zex : Instr.wf (.ldx (.mem (.zex 0x10))) = false := by decide
theorem test_wf_ldy_refuses_aby : Instr.wf (.ldy (.mem (.aby 0x1234))) = false := by decide
theorem test_wf_sta_refuses_zey : Instr.wf (.sta (.zey 0x10)) = false := by decide
theorem test_wf_stx_refuses_zex : Instr.wf (.stx (.zex 0x10)) = false := by decide
theorem test_wf_sty_refuses_abx : Instr.wf (.sty (.abx 0x1234)) = false := by decide
theorem test_wf_cpx_refuses_zex : Instr.wf (.cpx (.mem (.zex 0x10))) = false := by decide
theorem test_wf_bit_refuses_abx : Instr.wf (.bit (.abx 0x1234)) = false := by decide
theorem test_wf_inc_refuses_iny : Instr.wf (.inc (.iny 0x10)) = false := by decide
theorem test_wf_asl_refuses_aby : Instr.wf (.asl (.mem (.aby 0x1234))) = false := by decide
theorem test_wf_und_refuses_defined : Instr.wf (.und 0xEA) = false := by decide
theorem test_wf_accepts : Instr.wf (.ldx (.mem (.zey 0x10))) = true ∧ Instr.wf (.ror .acc) = true ∧
    Instr.wf (.und 0x02) = true := by decide

/-! ### Decoding: the 151 opcodes of R104, each with its argument bytes `C7` and `3A` -/

theorem test_decode_loads_and_stores_a : allDecode [
    ([0xA9, 0xC7], .lda (.imm 0xC7)), ([0xA5, 0xC7], .lda (.mem (.zer 0xC7))),
    ([0xB5, 0xC7], .lda (.mem (.zex 0xC7))), ([0xAD, 0xC7, 0x3A], .lda (.mem (.abs 0x3AC7))),
    ([0xBD, 0xC7, 0x3A], .lda (.mem (.abx 0x3AC7))), ([0xB9, 0xC7, 0x3A], .lda (.mem (.aby 0x3AC7))),
    ([0xA1, 0xC7], .lda (.mem (.inx 0xC7))), ([0xB1, 0xC7], .lda (.mem (.iny 0xC7))),
    ([0xA2, 0xC7], .ldx (.imm 0xC7)), ([0xA6, 0xC7], .ldx (.mem (.zer 0xC7))),
    ([0xB6, 0xC7], .ldx (.mem (.zey 0xC7))), ([0xAE, 0xC7, 0x3A], .ldx (.mem (.abs 0x3AC7))),
    ([0xBE, 0xC7, 0x3A], .ldx (.mem (.aby 0x3AC7))), ([0xA0, 0xC7], .ldy (.imm 0xC7)),
    ([0xA4, 0xC7], .ldy (.mem (.zer 0xC7))), ([0xB4, 0xC7], .ldy (.mem (.zex 0xC7))),
    ([0xAC, 0xC7, 0x3A], .ldy (.mem (.abs 0x3AC7))), ([0xBC, 0xC7, 0x3A], .ldy (.mem (.abx 0x3AC7))),
    ([0x85, 0xC7], .sta (.zer 0xC7)), ([0x95, 0xC7], .sta (.zex 0xC7))] = true := by decide

theorem test_decode_loads_and_stores_b : allDecode [
    ([0x8D, 0xC7, 0x3A], .sta (.abs 0x3AC7)), ([0x9D, 0xC7, 0x3A], .sta (.abx 0x3AC7)),
    ([0x99, 0xC7, 0x3A], .sta (.aby 0x3AC7)), ([0x81, 0xC7], .sta (.inx 0xC7)),
    ([0x91, 0xC7], .sta (.iny 0xC7)), ([0x86, 0xC7], .stx (.zer 0xC7)), ([0x96, 0xC7], .stx (.zey 0xC7)),
    ([0x8E, 0xC7, 0x3A], .stx (.abs 0x3AC7)), ([0x84, 0xC7], .sty (.zer 0xC7)),
    ([0x94, 0xC7], .sty (.zex 0xC7)), ([0x8C, 0xC7, 0x3A], .sty (.abs 0x3AC7))] = true := by decide

theorem test_decode_transfers : allDecode [
    ([0xAA], .tax), ([0xA8], .tay), ([0x8A], .txa), ([0x98], .tya), ([0xBA], .tsx), ([0x9A], .txs)] = true := by decide

theorem test_decode_addition : allDecode [
    ([0x69, 0xC7], .adc (.imm 0xC7)), ([0x65, 0xC7], .adc (.mem (.zer 0xC7))),
    ([0x75, 0xC7], .adc (.mem (.zex 0xC7))), ([0x6D, 0xC7, 0x3A], .adc (.mem (.abs 0x3AC7))),
    ([0x7D, 0xC7, 0x3A], .adc (.mem (.abx 0x3AC7))), ([0x79, 0xC7, 0x3A], .adc (.mem (.aby 0x3AC7))),
    ([0x61, 0xC7], .adc (.mem (.inx 0xC7))), ([0x71, 0xC7], .adc (.mem (.iny 0xC7))),
    ([0xE9, 0xC7], .sbc (.imm 0xC7)), ([0xE5, 0xC7], .sbc (.mem (.zer 0xC7))),
    ([0xF5, 0xC7], .sbc (.mem (.zex 0xC7))), ([0xED, 0xC7, 0x3A], .sbc (.mem (.abs 0x3AC7))),
    ([0xFD, 0xC7, 0x3A], .sbc (.mem (.abx 0x3AC7))), ([0xF9, 0xC7, 0x3A], .sbc (.mem (.aby 0x3AC7))),
    ([0xE1, 0xC7], .sbc (.mem (.inx 0xC7))), ([0xF1, 0xC7], .sbc (.mem (.iny 0xC7)))] = true := by decide

theorem test_decode_logic_a : allDecode [
    ([0x29, 0xC7], .and (.imm 0xC7)), ([0x25, 0xC7], .and (.mem (.zer 0xC7))),
    ([0x35, 0xC7], .and (.mem (.zex 0xC7))), ([0x2D, 0xC7, 0x3A], .and (.mem (.abs 0x3AC7))),
    ([0x3D, 0xC7, 0x3A], .and (.mem (.abx 0x3AC7))), ([0x39, 0xC7, 0x3A], .and (.mem (.aby 0x3AC7))),
    ([0x21, 0xC7], .and (.mem (.inx 0xC7))), ([0x31, 0xC7], .and (.mem (.iny 0xC7))),
    ([0x09, 0xC7], .ora (.imm 0xC7)), ([0x05, 0xC7], .ora (.mem (.zer 0xC7))),
    ([0x15, 0xC7], .ora (.mem (.zex 0xC7))), ([0x0D, 0xC7, 0x3A], .ora (.mem (.abs 0x3AC7))),
    ([0x1D, 0xC7, 0x3A], .ora (.mem (.abx 0x3AC7))), ([0x19, 0xC7, 0x3A], .ora (.mem (.aby 0x3AC7))),
    ([0x01, 0xC7], .ora (.mem (.inx 0xC7))), ([0x11, 0xC7], .ora (.mem (.iny 0xC7))),
    ([0x49, 0xC7], .eor (.imm 0xC7)), ([0x45, 0xC7], .eor (.mem (.zer 0xC7))),
    ([0x55, 0xC7], .eor (.mem (.zex 0xC7))), ([0x4D, 0xC7, 0x3A], .eor (.mem (.abs 0x3AC7)))] = true := by decide

theorem test_decode_logic_b : allDecode [
    ([0x5D, 0xC7, 0x3A], .eor (.mem (.abx 0x3AC7))), ([0x59, 0xC7, 0x3A], .eor (.mem (.aby 0x3AC7))),
    ([0x41, 0xC7], .eor (.mem (.inx 0xC7))), ([0x51, 0xC7], .eor (.mem (.iny 0xC7)))] = true := by decide

theorem test_decode_compares : allDecode [
    ([0xC9, 0xC7], .cmp (.imm 0xC7)), ([0xC5, 0xC7], .cmp (.mem (.zer 0xC7))),
    ([0xD5, 0xC7], .cmp (.mem (.zex 0xC7))), ([0xCD, 0xC7, 0x3A], .cmp (.mem (.abs 0x3AC7))),
    ([0xDD, 0xC7, 0x3A], .cmp (.mem (.abx 0x3AC7))), ([0xD9, 0xC7, 0x3A], .cmp (.mem (.aby 0x3AC7))),
    ([0xC1, 0xC7], .cmp (.mem (.inx 0xC7))), ([0xD1, 0xC7], .cmp (.mem (.iny 0xC7))),
    ([0xE0, 0xC7], .cpx (.imm 0xC7)), ([0xE4, 0xC7], .cpx (.mem (.zer 0xC7))),
    ([0xEC, 0xC7, 0x3A], .cpx (.mem (.abs 0x3AC7))), ([0xC0, 0xC7], .cpy (.imm 0xC7)),
    ([0xC4, 0xC7], .cpy (.mem (.zer 0xC7))), ([0xCC, 0xC7, 0x3A], .cpy (.mem (.abs 0x3AC7))),
    ([0x24, 0xC7], .bit (.zer 0xC7)), ([0x2C, 0xC7, 0x3A], .bit (.abs 0x3AC7))] = true := by decide

theorem test_decode_increments : allDecode [
    ([0xE6, 0xC7], .inc (.zer 0xC7)), ([0xF6, 0xC7], .inc (.zex 0xC7)),
    ([0xEE, 0xC7, 0x3A], .inc (.abs 0x3AC7)), ([0xFE, 0xC7, 0x3A], .inc (.abx 0x3AC7)),
    ([0xC6, 0xC7], .dec (.zer 0xC7)), ([0xD6, 0xC7], .dec (.zex 0xC7)),
    ([0xCE, 0xC7, 0x3A], .dec (.abs 0x3AC7)), ([0xDE, 0xC7, 0x3A], .dec (.abx 0x3AC7)), ([0xE8], .inx),
    ([0xC8], .iny), ([0xCA], .dex), ([0x88], .dey)] = true := by decide

theorem test_decode_shifts : allDecode [
    ([0x0A], .asl .acc), ([0x06, 0xC7], .asl (.mem (.zer 0xC7))), ([0x16, 0xC7], .asl (.mem (.zex 0xC7))),
    ([0x0E, 0xC7, 0x3A], .asl (.mem (.abs 0x3AC7))), ([0x1E, 0xC7, 0x3A], .asl (.mem (.abx 0x3AC7))),
    ([0x4A], .lsr .acc), ([0x46, 0xC7], .lsr (.mem (.zer 0xC7))), ([0x56, 0xC7], .lsr (.mem (.zex 0xC7))),
    ([0x4E, 0xC7, 0x3A], .lsr (.mem (.abs 0x3AC7))), ([0x5E, 0xC7, 0x3A], .lsr (.mem (.abx 0x3AC7))),
    ([0x2A], .rol .acc), ([0x26, 0xC7], .rol (.mem (.zer 0xC7))), ([0x36, 0xC7], .rol (.mem (.zex 0xC7))),
    ([0x2E, 0xC7, 0x3A], .rol (.mem (.abs 0x3AC7))), ([0x3E, 0xC7, 0x3A], .rol (.mem (.abx 0x3AC7))),
    ([0x6A], .ror .acc), ([0x66, 0xC7], .ror (.mem (.zer 0xC7))), ([0x76, 0xC7], .ror (.mem (.zex 0xC7))),
    ([0x6E, 0xC7, 0x3A], .ror (.mem (.abs 0x3AC7))), ([0x7E, 0xC7, 0x3A], .ror (.mem (.abx 0x3AC7)))] = true := by decide

theorem test_decode_control_flow : allDecode [
    ([0x4C, 0xC7, 0x3A], .jmp (.abs 0x3AC7)), ([0x6C, 0xC7, 0x3A], .jmp (.abi 0x3AC7)),
    ([0x20, 0xC7, 0x3A], .jsr 0x3AC7), ([0x60], .rts), ([0x90, 0xC7], .bcc 0xC7), ([0xB0, 0xC7], .bcs 0xC7),
    ([0xF0, 0xC7], .beq 0xC7), ([0xD0, 0xC7], .bne 0xC7), ([0x30, 0xC7], .bmi 0xC7), ([0x10, 0xC7], .bpl 0xC7),
    ([0x50, 0xC7], .bvc 0xC7), ([0x70, 0xC7], .bvs 0xC7)] = true := by decide

theorem test_decode_stack_flags_system : allDecode [
    ([0x48], .pha), ([0x08], .php), ([0x68], .pla), ([0x28], .plp), ([0x18], .clc), ([0x38], .sec),
    ([0x58], .cli), ([0x78], .sei), ([0xD8], .cld), ([0xF8], .sed), ([0xB8], .clv), ([0xEA], .nop),
    ([0x00], .brk), ([0x40], .rti)] = true := by decide

/-- The table has 151 rows and the undefined opcodes are the other 105 bytes, each once: together they are 256 bytes
and set all of 256 bits (R104, R106). -/
theorem test_opcodes_are_partitioned :
    opcodeTable.length = 151 ∧ undefinedOpcodes.length = 105 ∧
    (opcodeTable.map (·.opcode) ++ undefinedOpcodes).foldl (fun m b => m ||| (1 <<< b.toNat)) 0 = 2 ^ 256 - 1 := by decide

theorem test_decode_undefined : allDecode [
    ([0x02], .und 0x02), ([0x1A], .und 0x1A), ([0x80], .und 0x80), ([0x9C], .und 0x9C), ([0xEB], .und 0xEB),
    ([0xFF], .und 0xFF)] = true := by decide

/-- An argument byte that is missing is reported, not invented. -/
theorem test_decode_truncated :
    (match decode [0xAD, 0x00] with | .error (.truncated op) => op == 0xAD | _ => false) = true ∧
    (match decode [] with | .error .noBytes => true | _ => false) = true := by decide

/-- A word as the host numbers it: the opcode in bits 7 to 0, then the argument bytes. -/
theorem test_decodeTableWord :
    decodeTableWord 24 0x123402 = some (.und 0x02) ∧ decodeTableWord 24 0x1234AD = some (.lda (.mem (.abs 0x1234))) ∧
    decodeTableWord 8 0xA9 = some (.lda (.imm 0x00)) := by decide

/-! ### One step: the vectors of spec/95_test_vectors.md -/

/-! #### Loads and stores (spec/95_test_vectors.md V1, V2) -/

/-- LDA ($FF,X) ptr wrap: V1. -/
theorem test_lda_a :
    after [] (vector 0x8000 [0xA1, 0xFF] [(0x00FF, 0x34), (0x0000, 0x02), (0x0100, 0x07), (0x0234, 0x5E)]) =
      some (⟨0x5E, 0x00, 0x00, 0xFD, 0x24, 0x8002, 6⟩, []) := by decide

/-- LDA ($86),Y cross: V1. -/
theorem test_lda_b :
    after [] { vector 0x8000 [0xB1, 0x86] [(0x0086, 0xF8), (0x0087, 0x02), (0x0308, 0x3C)] with y := 0x10 } =
      some (⟨0x3C, 0x00, 0x10, 0xFD, 0x24, 0x8002, 6⟩, []) := by decide

/-- LDX $10,Y: V1. -/
theorem test_ldx :
    after [] { vector 0x8000 [0xB6, 0x10] [(0x0008, 0x80)] with y := 0xF8 } =
      some (⟨0x00, 0x80, 0xF8, 0xFD, 0xA4, 0x8002, 4⟩, []) := by decide

/-- LDY $0280,X cross: V1. -/
theorem test_ldy :
    after [] { vector 0x8000 [0xBC, 0x80, 0x02] [(0x0300, 0x01)] with x := 0x80 } =
      some (⟨0x00, 0x80, 0x01, 0xFD, 0x24, 0x8003, 5⟩, []) := by decide

/-- STA $02F0,X cross (5): V2. -/
theorem test_sta_a :
    after [0x0310] { vector 0x8000 [0x9D, 0xF0, 0x02] [] with a := 0x5A, x := 0x20 } =
      some (⟨0x5A, 0x20, 0x00, 0xFD, 0x24, 0x8003, 5⟩, [0x5A]) := by decide

/-- STA ($20,X): V2. -/
theorem test_sta_b :
    after [0x0374] { vector 0x8000 [0x81, 0x20] [(0x0024, 0x74), (0x0025, 0x03)] with a := 0x5D, x := 0x04 } =
      some (⟨0x5D, 0x04, 0x00, 0xFD, 0x24, 0x8002, 6⟩, [0x5D]) := by decide

/-- STX $10,Y: V2. -/
theorem test_stx :
    after [0x000F] { vector 0x8000 [0x96, 0x10] [] with x := 0x33, y := 0xFF } =
      some (⟨0x00, 0x33, 0xFF, 0xFD, 0x24, 0x8002, 4⟩, [0x33]) := by decide

/-- STY $10,X: V2. -/
theorem test_sty :
    after [0x0011] { vector 0x8000 [0x94, 0x10] [] with x := 0x01, y := 0x44 } =
      some (⟨0x00, 0x01, 0x44, 0xFD, 0x24, 0x8002, 4⟩, [0x44]) := by decide

/-! #### Transfers (spec/95_test_vectors.md V3) -/

/-- TAX: V3. -/
theorem test_tax :
    after [] { vector 0x8000 [0xAA] [] with a := 0x80, x := 0x01 } =
      some (⟨0x80, 0x80, 0x00, 0xFD, 0xA4, 0x8001, 2⟩, []) := by decide

/-- TAY: V3. -/
theorem test_tay :
    after [] { vector 0x8000 [0xA8] [] with y := 0x01 } =
      some (⟨0x00, 0x00, 0x00, 0xFD, 0x26, 0x8001, 2⟩, []) := by decide

/-- TXA: V3. -/
theorem test_txa :
    after [] { vector 0x8000 [0x8A] [] with a := 0x80, x := 0x7F, p := 0xA4 } =
      some (⟨0x7F, 0x7F, 0x00, 0xFD, 0x24, 0x8001, 2⟩, []) := by decide

/-- TYA: V3. -/
theorem test_tya :
    after [] { vector 0x8000 [0x98] [] with y := 0xFF } =
      some (⟨0xFF, 0x00, 0xFF, 0xFD, 0xA4, 0x8001, 2⟩, []) := by decide

/-- TSX: V3. -/
theorem test_tsx :
    after [] { vector 0x8000 [0xBA] [] with x := 0x05, sp := 0x00 } =
      some (⟨0x00, 0x00, 0x00, 0x00, 0x26, 0x8001, 2⟩, []) := by decide

/-- TXS (no flags): V3. -/
theorem test_txs :
    after [] { vector 0x8000 [0x9A] [] with p := 0xA4 } =
      some (⟨0x00, 0x00, 0x00, 0x00, 0xA4, 0x8001, 2⟩, []) := by decide

/-! #### Addition (spec/95_test_vectors.md V4) -/

/-- ADC #$50: V4. -/
theorem test_adc_a :
    after [] { vector 0x8000 [0x69, 0x50] [] with a := 0x50 } =
      some (⟨0xA0, 0x00, 0x00, 0xFD, 0xE4, 0x8002, 2⟩, []) := by decide

/-- ADC #$19 with D=1 (binary): V4. -/
theorem test_adc_b :
    after [] { vector 0x8000 [0x69, 0x19] [] with a := 0x19, p := 0x2C } =
      some (⟨0x32, 0x00, 0x00, 0xFD, 0x2C, 0x8002, 2⟩, []) := by decide

/-- SBC #$B0: V4. -/
theorem test_sbc_a :
    after [] { vector 0x8000 [0xE9, 0xB0] [] with a := 0x50, p := 0x25 } =
      some (⟨0xA0, 0x00, 0x00, 0xFD, 0xE4, 0x8002, 2⟩, []) := by decide

/-- SBC #$40: V4. -/
theorem test_sbc_b :
    after [] { vector 0x8000 [0xE9, 0x40] [] with a := 0x40 } =
      some (⟨0xFF, 0x00, 0x00, 0xFD, 0xA4, 0x8002, 2⟩, []) := by decide

/-! #### Logic (spec/95_test_vectors.md V5) -/

/-- AND #$F0: V5. -/
theorem test_and :
    after [] { vector 0x8000 [0x29, 0xF0] [] with a := 0x9C } =
      some (⟨0x90, 0x00, 0x00, 0xFD, 0xA4, 0x8002, 2⟩, []) := by decide

/-- ORA #$80: V5. -/
theorem test_ora :
    after [] { vector 0x8000 [0x09, 0x80] [] with a := 0x01 } =
      some (⟨0x81, 0x00, 0x00, 0xFD, 0xA4, 0x8002, 2⟩, []) := by decide

/-- EOR #$AA: V5. -/
theorem test_eor :
    after [] { vector 0x8000 [0x49, 0xAA] [] with a := 0x55 } =
      some (⟨0xFF, 0x00, 0x00, 0xFD, 0xA4, 0x8002, 2⟩, []) := by decide

/-! #### Compares (spec/95_test_vectors.md V6) -/

/-- CMP #$60 (A<m): V6. -/
theorem test_cmp_a :
    after [] { vector 0x8000 [0xC9, 0x60] [] with a := 0x50 } =
      some (⟨0x50, 0x00, 0x00, 0xFD, 0xA4, 0x8002, 2⟩, []) := by decide

/-- CMP #$00 (A=80): V6. -/
theorem test_cmp_b :
    after [] { vector 0x8000 [0xC9, 0x00] [] with a := 0x80, p := 0x64 } =
      some (⟨0x80, 0x00, 0x00, 0xFD, 0xE5, 0x8002, 2⟩, []) := by decide

/-- CPX #$10: V6. -/
theorem test_cpx :
    after [] { vector 0x8000 [0xE0, 0x10] [] with x := 0x0F } =
      some (⟨0x00, 0x0F, 0x00, 0xFD, 0xA4, 0x8002, 2⟩, []) := by decide

/-- CPY $10: V6. -/
theorem test_cpy :
    after [] { vector 0x8000 [0xC4, 0x10] [(0x0010, 0x7F)] with y := 0x80 } =
      some (⟨0x00, 0x00, 0x80, 0xFD, 0x25, 0x8002, 3⟩, []) := by decide

/-- BIT $10 (m=C0,A=3F): V6. -/
theorem test_bit_a :
    after [] { vector 0x8000 [0x24, 0x10] [(0x0010, 0xC0)] with a := 0x3F } =
      some (⟨0x3F, 0x00, 0x00, 0xFD, 0xE6, 0x8002, 3⟩, []) := by decide

/-- BIT $0300 (m=00): V6. -/
theorem test_bit_b :
    after [] { vector 0x8000 [0x2C, 0x00, 0x03] [(0x0300, 0x00)] with a := 0xFF, p := 0xE4 } =
      some (⟨0xFF, 0x00, 0x00, 0xFD, 0x26, 0x8003, 4⟩, []) := by decide

/-! #### Increments (spec/95_test_vectors.md V7) -/

/-- INC $10 (FFto00): V7. -/
theorem test_inc_a :
    after [0x0010] (vector 0x8000 [0xE6, 0x10] [(0x0010, 0xFF)]) =
      some (⟨0x00, 0x00, 0x00, 0xFD, 0x26, 0x8002, 5⟩, [0x00]) := by decide

/-- INC $02F0,X (always 7): V7. -/
theorem test_inc_b :
    after [0x0310] { vector 0x8000 [0xFE, 0xF0, 0x02] [(0x0310, 0x01)] with x := 0x20 } =
      some (⟨0x00, 0x20, 0x00, 0xFD, 0x24, 0x8003, 7⟩, [0x02]) := by decide

/-- DEC $10 (00toFF): V7. -/
theorem test_dec :
    after [0x0010] (vector 0x8000 [0xC6, 0x10] [(0x0010, 0x00)]) =
      some (⟨0x00, 0x00, 0x00, 0xFD, 0xA4, 0x8002, 5⟩, [0xFF]) := by decide

/-- INX FF: V7. -/
theorem test_inx :
    after [] { vector 0x8000 [0xE8] [] with x := 0xFF } =
      some (⟨0x00, 0x00, 0x00, 0xFD, 0x26, 0x8001, 2⟩, []) := by decide

/-- INY 7F: V7. -/
theorem test_iny :
    after [] { vector 0x8000 [0xC8] [] with y := 0x7F } =
      some (⟨0x00, 0x00, 0x80, 0xFD, 0xA4, 0x8001, 2⟩, []) := by decide

/-- DEX 00: V7. -/
theorem test_dex :
    after [] (vector 0x8000 [0xCA] []) =
      some (⟨0x00, 0xFF, 0x00, 0xFD, 0xA4, 0x8001, 2⟩, []) := by decide

/-- DEY 01: V7. -/
theorem test_dey :
    after [] { vector 0x8000 [0x88] [] with y := 0x01 } =
      some (⟨0x00, 0x00, 0x00, 0xFD, 0x26, 0x8001, 2⟩, []) := by decide

/-! #### Shifts (spec/95_test_vectors.md V8) -/

/-- ASL A (81): V8. -/
theorem test_asl_a :
    after [] { vector 0x8000 [0x0A] [] with a := 0x81 } =
      some (⟨0x02, 0x00, 0x00, 0xFD, 0x25, 0x8001, 2⟩, []) := by decide

/-- ASL $10: V8. -/
theorem test_asl_b :
    after [0x0010] (vector 0x8000 [0x06, 0x10] [(0x0010, 0x55)]) =
      some (⟨0x00, 0x00, 0x00, 0xFD, 0xA4, 0x8002, 5⟩, [0xAA]) := by decide

/-- LSR A (01): V8. -/
theorem test_lsr_a :
    after [] { vector 0x8000 [0x4A] [] with a := 0x01, p := 0xA4 } =
      some (⟨0x00, 0x00, 0x00, 0xFD, 0x27, 0x8001, 2⟩, []) := by decide

/-- LSR $0300,X: V8. -/
theorem test_lsr_b :
    after [0x0302] { vector 0x8000 [0x5E, 0x00, 0x03] [(0x0302, 0x02)] with x := 0x02 } =
      some (⟨0x00, 0x02, 0x00, 0xFD, 0x24, 0x8003, 7⟩, [0x01]) := by decide

/-- ROL A (80,C=1): V8. -/
theorem test_rol_a :
    after [] { vector 0x8000 [0x2A] [] with a := 0x80, p := 0x25 } =
      some (⟨0x01, 0x00, 0x00, 0xFD, 0x25, 0x8001, 2⟩, []) := by decide

/-- ROL $10 (40,C=0): V8. -/
theorem test_rol_b :
    after [0x0010] (vector 0x8000 [0x26, 0x10] [(0x0010, 0x40)]) =
      some (⟨0x00, 0x00, 0x00, 0xFD, 0xA4, 0x8002, 5⟩, [0x80]) := by decide

/-- ROR A (01,C=1): V8. -/
theorem test_ror_a :
    after [] { vector 0x8000 [0x6A] [] with a := 0x01, p := 0x25 } =
      some (⟨0x80, 0x00, 0x00, 0xFD, 0xA5, 0x8001, 2⟩, []) := by decide

/-- ROR $10,X (00,C=1): V8. -/
theorem test_ror_b :
    after [0x0011] { vector 0x8000 [0x76, 0x10] [(0x0011, 0x00)] with x := 0x01, p := 0x25 } =
      some (⟨0x00, 0x01, 0x00, 0xFD, 0xA4, 0x8002, 6⟩, [0x80]) := by decide

/-! #### Control flow (spec/95_test_vectors.md V9) -/

/-- JMP $9000: V9. -/
theorem test_jmp_a :
    after [] (vector 0x8000 [0x4C, 0x00, 0x90] []) =
      some (⟨0x00, 0x00, 0x00, 0xFD, 0x24, 0x9000, 3⟩, []) := by decide

/-- JMP ($03FF) page defect: V9. -/
theorem test_jmp_b :
    after [] (vector 0x8000 [0x6C, 0xFF, 0x03] [(0x03FF, 0x34), (0x0400, 0x55), (0x0300, 0x92)]) =
      some (⟨0x00, 0x00, 0x00, 0xFD, 0x24, 0x9234, 5⟩, []) := by decide

/-- JSR SP=00 wrap: V9. -/
theorem test_jsr :
    after [0x0100, 0x01FF] { vector 0x8000 [0x20, 0x00, 0x90] [] with sp := 0x00 } =
      some (⟨0x00, 0x00, 0x00, 0xFE, 0x24, 0x9000, 6⟩, [0x80, 0x02]) := by decide

/-- RTS ret=$80FF: V9. -/
theorem test_rts :
    after [] { vector 0x8000 [0x60] [(0x01FC, 0xFF), (0x01FD, 0x80)] with sp := 0xFB } =
      some (⟨0x00, 0x00, 0x00, 0xFD, 0x24, 0x8100, 6⟩, []) := by decide

/-- BCC at $80FE (PC after=$8100, -1 to $80FF): V9. -/
theorem test_bcc :
    after [] (vector 0x80FE [0x90, 0xFF] []) =
      some (⟨0x00, 0x00, 0x00, 0xFD, 0x24, 0x80FF, 4⟩, []) := by decide

/-- BCS taken: V9. -/
theorem test_bcs :
    after [] { vector 0x8000 [0xB0, 0x10] [] with p := 0x25 } =
      some (⟨0x00, 0x00, 0x00, 0xFD, 0x25, 0x8012, 3⟩, []) := by decide

/-- BEQ -128 at $8080: V9. -/
theorem test_beq :
    after [] { vector 0x8080 [0xF0, 0x80] [] with p := 0x26 } =
      some (⟨0x00, 0x00, 0x00, 0xFD, 0x26, 0x8002, 3⟩, []) := by decide

/-- BNE +5 not taken: V9. -/
theorem test_bne_a :
    after [] { vector 0x8000 [0xD0, 0x05] [] with p := 0x26 } =
      some (⟨0x00, 0x00, 0x00, 0xFD, 0x26, 0x8002, 2⟩, []) := by decide

/-- BNE -5 taken cross: V9. -/
theorem test_bne_b :
    after [] (vector 0x8000 [0xD0, 0xFB] []) =
      some (⟨0x00, 0x00, 0x00, 0xFD, 0x24, 0x7FFD, 4⟩, []) := by decide

/-- BMI taken: V9. -/
theorem test_bmi :
    after [] { vector 0x8000 [0x30, 0x10] [] with p := 0xA4 } =
      some (⟨0x00, 0x00, 0x00, 0xFD, 0xA4, 0x8012, 3⟩, []) := by decide

/-- BPL taken: V9. -/
theorem test_bpl :
    after [] (vector 0x8000 [0x10, 0x10] []) =
      some (⟨0x00, 0x00, 0x00, 0xFD, 0x24, 0x8012, 3⟩, []) := by decide

/-- BVC taken: V9. -/
theorem test_bvc :
    after [] (vector 0x8000 [0x50, 0x10] []) =
      some (⟨0x00, 0x00, 0x00, 0xFD, 0x24, 0x8012, 3⟩, []) := by decide

/-- BVS taken: V9. -/
theorem test_bvs :
    after [] { vector 0x8000 [0x70, 0x10] [] with p := 0x64 } =
      some (⟨0x00, 0x00, 0x00, 0xFD, 0x64, 0x8012, 3⟩, []) := by decide

/-! #### Stack flags system (spec/95_test_vectors.md V11) -/

/-- PHA SP=00: V11. -/
theorem test_pha :
    after [0x0100] { vector 0x8000 [0x48] [] with a := 0x99, sp := 0x00 } =
      some (⟨0x99, 0x00, 0x00, 0xFF, 0x24, 0x8001, 3⟩, [0x99]) := by decide

/-- PHP P=24: V11. -/
theorem test_php :
    after [0x01FD] (vector 0x8000 [0x08] []) =
      some (⟨0x00, 0x00, 0x00, 0xFC, 0x24, 0x8001, 3⟩, [0x34]) := by decide

/-- PLA SP=FF wrap: V11. -/
theorem test_pla :
    after [] { vector 0x8000 [0x68] [(0x0100, 0x80)] with sp := 0xFF } =
      some (⟨0x80, 0x00, 0x00, 0x00, 0xA4, 0x8001, 4⟩, []) := by decide

/-- PLP m=00: V11. -/
theorem test_plp_a :
    after [] { vector 0x8000 [0x28] [(0x01FD, 0x00)] with sp := 0xFC, p := 0xFF } =
      some (⟨0x00, 0x00, 0x00, 0xFD, 0x20, 0x8001, 4⟩, []) := by decide

/-- PLP m=C3: V11. -/
theorem test_plp_b :
    after [] { vector 0x8000 [0x28] [(0x01FD, 0xC3)] with sp := 0xFC } =
      some (⟨0x00, 0x00, 0x00, 0xFD, 0xE3, 0x8001, 4⟩, []) := by decide

/-- CLC: V11. -/
theorem test_clc :
    after [] { vector 0x8000 [0x18] [] with p := 0xFF } =
      some (⟨0x00, 0x00, 0x00, 0xFD, 0xFE, 0x8001, 2⟩, []) := by decide

/-- SEC: V11. -/
theorem test_sec :
    after [] { vector 0x8000 [0x38] [] with p := 0x20 } =
      some (⟨0x00, 0x00, 0x00, 0xFD, 0x21, 0x8001, 2⟩, []) := by decide

/-- CLI: V11. -/
theorem test_cli :
    after [] { vector 0x8000 [0x58] [] with p := 0xFF } =
      some (⟨0x00, 0x00, 0x00, 0xFD, 0xFB, 0x8001, 2⟩, []) := by decide

/-- SEI: V11. -/
theorem test_sei :
    after [] { vector 0x8000 [0x78] [] with p := 0x20 } =
      some (⟨0x00, 0x00, 0x00, 0xFD, 0x24, 0x8001, 2⟩, []) := by decide

/-- CLD: V11. -/
theorem test_cld :
    after [] { vector 0x8000 [0xD8] [] with p := 0xFF } =
      some (⟨0x00, 0x00, 0x00, 0xFD, 0xF7, 0x8001, 2⟩, []) := by decide

/-- SED: V11. -/
theorem test_sed :
    after [] { vector 0x8000 [0xF8] [] with p := 0x20 } =
      some (⟨0x00, 0x00, 0x00, 0xFD, 0x28, 0x8001, 2⟩, []) := by decide

/-- CLV: V11. -/
theorem test_clv :
    after [] { vector 0x8000 [0xB8] [] with p := 0xFF } =
      some (⟨0x00, 0x00, 0x00, 0xFD, 0xBF, 0x8001, 2⟩, []) := by decide

/-- NOP: V11. -/
theorem test_nop :
    after [] { vector 0x8000 [0xEA] [] with p := 0xFF } =
      some (⟨0x00, 0x00, 0x00, 0xFD, 0xFF, 0x8001, 2⟩, []) := by decide

/-- BRK: V11. -/
theorem test_brk_a :
    after [0x01FD, 0x01FC, 0x01FB] { vector 0x8000 [0x00, 0xEA] [(0xFFFE, 0x00), (0xFFFF, 0x90)] with p := 0x20 } =
      some (⟨0x00, 0x00, 0x00, 0xFA, 0x24, 0x9000, 7⟩, [0x80, 0x02, 0x30]) := by decide

/-- BRK I=1: V11. -/
theorem test_brk_b :
    after [0x01FD, 0x01FC, 0x01FB] { vector 0x8000 [0x00, 0xEA] [(0xFFFE, 0x00), (0xFFFF, 0x90)] with p := 0xE5 } =
      some (⟨0x00, 0x00, 0x00, 0xFA, 0xE5, 0x9000, 7⟩, [0x80, 0x02, 0xF5]) := by decide

/-- RTI: V11. -/
theorem test_rti :
    after [] { vector 0x8000 [0x40] [(0x01FB, 0xC3), (0x01FC, 0x0A), (0x01FD, 0x80)] with sp := 0xFA } =
      some (⟨0x00, 0x00, 0x00, 0xFD, 0xE3, 0x800A, 6⟩, []) := by decide

/-- A taken branch inside its page: BNE −5 at `$8010` (V9). -/
theorem test_branch_same_page :
    after [] (vector 0x8010 [0xD0, 0xFB] []) = some (⟨0x00, 0x00, 0x00, 0xFD, 0x24, 0x800D, 3⟩, []) := by decide

/-- LDA `$5000` faults: V1, last row. -/
theorem test_lda_unmapped_faults :
    (match cpuStep (vector 0x8000 [0xAD, 0x00, 0x50] []) with
      | .fault (.unmappedAccess a left) => a == 0x5000 && left.a == 0x00 && left.cyc == 0
      | _ => false) = true := by decide

/-- STA `$8000` faults: V2. -/
theorem test_sta_rom_faults :
    (match cpuStep (vector 0x8000 [0x8D, 0x00, 0x80] []) with
      | .fault (.romWrite a left) => a == 0x8000 && left.cyc == 0
      | _ => false) = true := by decide

/-- An undefined opcode faults with PC at the opcode and `cyc` unchanged: V13. -/
theorem test_undefined_opcode_faults :
    (match cpuStep (vector 0x8000 [0x9C, 0x00, 0x00] []) with
      | .fault (.decodeFault op left) => op == 0x9C && left.pc == 0x8000 && left.cyc == 0 && left.p == 0x24
      | _ => false) = true := by decide

/-! #### Addressing (V10) -/

theorem test_ea_inx_pointer_wraps :
    (MemOperand.inx 0xFE).ea { vector 0x8000 [] [(0x0001, 0x00), (0x0002, 0x03)] with x := 0x03 } = 0x0300 := by decide

theorem test_ea_abx_wraps :
    (MemOperand.abx 0xFFFF).ea { vector 0x8000 [] [] with x := 0x01 } = 0x0000 ∧
    (MemOperand.abx 0xFFFF).crossed { vector 0x8000 [] [] with x := 0x01 } = true := by decide

theorem test_crossed_at_the_page_end :
    (MemOperand.abx 0x02F0).crossed { vector 0x8000 [] [] with x := 0x0F } = false ∧
    (MemOperand.abx 0x02F0).crossed { vector 0x8000 [] [] with x := 0x10 } = true := by decide

/-! #### Interrupts (S1 to S3, V12) -/

theorem test_reset_service :
    let s : State := { vector 0xFEDC [] [(0xFFFC, 0xC9), (0xFFFD, 0x5D)] with p := 0xFB, sp := 0xA3, context := 0x01 }
    let t := s.interruptCheck
    (t.pc, t.p, t.sp, t.context, t.cyc - s.cyc) = (0x5DC9, 0xFF, 0xA0, 0x00, 7) ∧ t.mapper = s.mapper := by decide

theorem test_nmi_service :
    let s : State := { vector 0xFEDC [] [(0xFFFA, 0xC9), (0xFFFB, 0x5D)] with p := 0xFB, sp := 0xA3, context := 0x02 }
    let t := s.interruptCheck
    (t.pc, t.p, t.sp, t.context, t.cyc - s.cyc) = (0x5DC9, 0xFF, 0xA0, 0x00, 7) ∧
    (t.peek 0x01A3, t.peek 0x01A2, t.peek 0x01A1) = (some 0xFE, some 0xDC, some 0xEB) := by decide

theorem test_masked_irq :
    let s : State := { vector 0xFEDC [] [] with p := 0xFF, sp := 0xA3, context := 0x04 }
    s.interruptCheck = s := by decide

theorem test_nmi_before_irq :
    after [0x01FD, 0x01FC, 0x01FB]
      { vector 0x8000 [0xEA] [(0xFFFA, 0x00), (0xFFFB, 0xA0), (0xFFFE, 0x00), (0xFFFF, 0x90), (0xA000, 0xA9), (0xA001, 0x02)]
        with p := 0x20, context := 0x06 } =
      some (⟨0x02, 0x00, 0x00, 0xFA, 0x24, 0xA002, 9⟩, [0x80, 0x00, 0x20]) := by decide

theorem test_reset_before_nmi :
    (match cpuStep { vector 0x8000 [0xEA] [(0xFFFC, 0x00), (0xFFFD, 0x90), (0x9000, 0xA9), (0x9001, 0x01)]
        with p := 0x20, context := 0x03 } with
      | .next t => (t.a, t.sp, t.p, t.pc, t.context, t.cyc) == (0x01, 0xFA, 0x24, 0x9002, 0x02, 9)
      | _ => false) = true := by decide

/-! #### Memory maps and acknowledgments (S7, S8, V14, V17) -/

theorem test_cpu_map :
    [0x0800, 0x1FFF, 0x3FF8, 0x3FFF, 0x4014, 0x4016, 0x4017, 0x4015, 0x6000, 0x7FFF, 0xC000, 0xFFFA].map
        (cpuCell Config.reference) =
      [some (.ram 0), some (.ram 0x7FF), some (.ioreg 0), some (.ioreg 7), some .dmareg, some .joy1, some .joy2,
        some .dummy, some (.sram 0), some (.sram 0x1FFF), some (.prg 0), some (.prg 0x3FFA)] := by decide

theorem test_cpu_map_two_banks :
    [0x8000, 0xC000, 0xFFFC].map (cpuCell { Config.reference with prgBanks := .two }) =
      [some (.prg 0), some (.prg 0x4000), some (.prg 0x7FFC)] := by decide

theorem test_slots :
    [0x2000, 0x3FFA, 0x4000, 0x4014, 0x4016, 0x4017, 0x401F, 0x4020].map ackSlot =
      [some 0, some 2, some 8, some 28, some 30, some 31, some 39, none] := by decide

/-- INC `$2000` leaves the later record, a write; the first query clears it (S8). -/
theorem test_acknowledgment_is_one_shot :
    (match cpuStep (vector 0x8000 [0xEE, 0x00, 0x20] []) with
      | .next t => (t.takeAck 0).1 == .write && ((t.takeAck 0).2.takeAck 0).1 == .none
      | _ => false) = true := by decide

theorem test_ppu_map :
    let h : Config := { Config.reference with mirroring := .horizontal }
    let v : Config := { Config.reference with mirroring := .vertical }
    [0x2400, 0x2800, 0x2BFF, 0x3EFF, 0x3F10, 0x3F1C, 0x3FFF, 0x4000, 0x7F10].map (ppuCell h) =
      [.vram 0x000, .vram 0x400, .vram 0x7FF, .vram 0x6FF, .palette 0x00, .palette 0x0C, .palette 0x1F, .chr 0,
        .palette 0x00] ∧
    [0x2400, 0x2800, 0x2BFF, 0x27FF, 0x3EFF].map (ppuCell v) =
      [.vram 0x400, .vram 0x000, .vram 0x3FF, .vram 0x7FF, .vram 0x6FF] := by decide

/-! #### DMA and the joypads (V15, S6) -/

theorem test_dma_cost : dmaCost 6 = 513 ∧ dmaCost 9 = 514 := by decide

/-- The first two bytes of a transfer whose `oamaddr` is `FF`: the second wraps to `OAM[00]` (R291). -/
theorem test_dma_wraps :
    let s := vector 0x8000 [] [(0x0200, 0x11), (0x0201, 0x22)]
    (match dmaCopy 0x02 2 0 (s.setPpu { s.ppu with oamaddr := 0xFF }) with
      | .ok t => (t.ppu.oamByte 0xFF, t.ppu.oamByte 0x00, t.ppu.oamaddr) == (0x11, 0x22, 0xFF)
      | .error _ => false) = true := by decide

/-- The twelve reads of S6, from the latched byte `1B`. -/
theorem test_joypad_reads :
    let pad := Joypad.powerOn.latch 0x1B
    (List.range 12).map (fun n => (pad.afterReads pad.bit0 n).2) =
      [0x01, 0x01, 0x00, 0x01, 0x01, 0x00, 0x00, 0x00, 0x01, 0x01, 0x01, 0x01] ∧
    (pad.afterReads pad.bit0 9).1 = { shift := 0x00, pos := 10, polling := true } ∧
    (pad.afterReads pad.bit0 10).1 = { shift := 0x00, pos := 1, polling := false } := by decide

/-- A joypad as before any latch: not polling (R303). -/
theorem witness_JoypadServesTheKeysInOrder : (Joypad.mk 0 0 false).polling = false := rfl

/-! #### The PPU's registers and counters (V16, V18, V19) -/

theorem test_scroll_writes :
    let p := (Ppu.powerOn []).writeCtrl 0x03
    p.t = 0x0C00 ∧ (p.writeScroll 0x7D).t = 0x0C0F ∧ (p.writeScroll 0x7D).fineX = 5 ∧
    ((p.writeScroll 0x7D).writeScroll 0x5E).t = 0x6D6F ∧ ((p.writeScroll 0x7D).writeScroll 0x5E).w = false := by decide

theorem test_address_writes :
    let p : Ppu := { Ppu.powerOn [] with t := 0x7FFF }
    (p.writeAddr 0xFF).t = 0x3FFF ∧ ((p.writeAddr 0x3F).writeAddr 0x10).v = 0x3F10 := by decide

theorem test_data_increment :
    ({ Ppu.powerOn [] with v := 0x3F10, ctrl := 0x04 } : Ppu).bumpV.v = 0x3F30 ∧
    ({ Ppu.powerOn [] with v := 0x7FFF } : Ppu).bumpV.v = 0x0000 := by decide

theorem test_oam_data_wraps :
    let p : Ppu := { Ppu.powerOn [] with oamaddr := 0xFE }
    let q := ((p.writeOamData 0x11).writeOamData 0x22).writeOamData 0x33
    (q.oamByte 0xFE, q.oamByte 0xFF, q.oamByte 0x00, q.oamaddr) = (0x11, 0x22, 0x33, 0x01) := by decide

theorem test_incX : [0x0000, 0x001F, 0x041F, 0x7FFF].map incX = [0x0001, 0x0400, 0x0000, 0x7BE0] := by decide

theorem test_incY :
    [0x0000, 0x7000, 0x73A0, 0x7BA0, 0x73E0, 0x7FFF].map incY = [0x1000, 0x0020, 0x0800, 0x0000, 0x0000, 0x0C1F] := by
  decide

theorem test_copies : copyX 0x7FFF 0x0000 = 0x7BE0 ∧ copyY 0x7FFF 0x0000 = 0x041F := by decide

/-- The vertical blank begins at (241, 1), with the NMI request when `ctrl[7]` is set. -/
theorem test_vblank_start :
    let p : Ppu := { Ppu.powerOn [] with scanline := 241, cycle := 1, ctrl := 0x80 }
    let t := ppuTick ((vector 0x8000 [] []).setPpu p)
    (t.ppu.vblank, t.context, t.frames, t.ppu.cycle) = (true, 0x02, 1, 2) := by decide

/-- Cycle 340 of an odd frame's pre-render line is skipped. -/
theorem test_odd_frame_skip :
    let p : Ppu := { Ppu.powerOn [] with scanline := -1, cycle := 339, oddFrame := true }
    let t := ppuTick ((vector 0x8000 [] []).setPpu p)
    (t.ppu.scanline, t.ppu.cycle, t.ppu.oddFrame) = (0, 0, true) := by decide

/-- Rendering off: the pixel at (2, 3) is the backdrop, its 6 low bits (V20). -/
theorem test_backdrop_pixel :
    let s := vector 0x8000 [] []
    let s := (s.setMapper { s.mapper with palette := [(0, 0x6C)] }).setPpu { s.ppu with scanline := 3, cycle := 3 }
    Memory.read Bank.pixels.unlisted (ppuTick s).pixels (256 * 3 + 2) = 0x2C := by decide

/-- The pattern rows of V20: an 8×16 sprite's tile byte 05 is tiles 04 and 05 of table 1; horizontal flip reverses. -/
theorem test_sprite_rows :
    spriteAddr 0x20 0x05 16 0 = 0x1040 ∧ spriteAddr 0x20 0x05 16 8 = 0x1050 ∧ rev8 0x80 = 0x01 ∧
    spriteRow 0x13 0x13 0x80 8 = 7 := by decide

/-! #### A program's first instruction (log entry 4) -/

/-- The step after `withFetchWord` runs the word's instruction, first after reset: LDA #$5A in 7 + 2 cycles (R431). -/
theorem test_withFetchWord_runs :
    (match cpuStep (State.reset.withFetchWord 16 0x5AA9) with
      | .next t => (t.a, t.sp, t.p, t.cyc) == (0x5A, 0xFD, 0x34, 9)
      | _ => false) = true := by decide

/-! ### Witnesses: each statement's hypotheses are met -/

/-- The state most witnesses use: a NOP at PC; vectors, a pointer that wraps in page zero, a jump pointer at the end of a
page, and three bytes to pull across the stack's wrap. -/
def sample : State :=
  vector 0x8000 [0xEA]
    [(0x0000, 0x92), (0x00FF, 0x34), (0x0100, 0x80), (0x01FE, 0xC3), (0x01FF, 0x0A), (0x0300, 0x92), (0x03FF, 0x34),
      (0xFFFA, 0x00), (0xFFFB, 0x90), (0xFFFC, 0x00), (0xFFFD, 0x80), (0xFFFE, 0x20), (0xFFFF, 0x80)]

/-- `sample` with other parameters. -/
def sampleWith (unmapped : UnmappedPolicy) (romWrite : RomWritePolicy) (chrBanks : ChrBanks) : State :=
  { sample with cfg := { Config.reference with unmapped, romWrite, chrBanks } }

/-- A run of `sample` to `$8001`: the NOP, in 2 cycles (R232, R259). -/
theorem test_run_to_address :
    (match runToAddress 0x8001 1 sample with
      | .ended t => (t.pc, t.cyc - sample.cyc) == (0x8001, 2)
      | _ => false) = true := by decide

/-- A run ends before its first step where its end condition holds at the start (log entry 17). -/
theorem test_run_ends_at_once : runToAddress 0x8000 0 sample = .ended sample := rfl

theorem inv_sample : sample.Inv where
  mapper := ⟨by decide, by decide, by decide, by decide, by decide, by decide⟩
  pad1 := ⟨by decide, by decide⟩
  pad2 := ⟨by decide, by decide⟩
  ppu := ⟨by decide, by decide, by decide, by decide, ⟨by decide, by decide, by decide, by decide, by decide⟩, by decide,
    by decide, by decide⟩
  pixels := by decide
  context := by decide

theorem inv_sampleWith (u : UnmappedPolicy) (r : RomWritePolicy) (c : ChrBanks) : (sampleWith u r c).Inv :=
  { inv_sample with mapper := { inv_sample.mapper with } }

/-- Changing registers keeps the invariant. -/
theorem inv_of_registers {s t : State} (h : s.Inv) (hc : t.cfg = s.cfg) (hk : t.keys = s.keys) (hm : t.mapper = s.mapper)
    (hp : t.pads = s.pads) (hu : t.ppu = s.ppu) (hx : t.pixels = s.pixels) (ht : t.context = s.context) : t.Inv :=
  (State.Sound.of_same hc hk hm hp hu hx ht).inv h

theorem witness_DecodeOfEncodeIsTheInstruction :
    Instr.wf (.jmp (.abi 0x02FF)) = true ∧ Instr.wf (.ldx (.mem (.zey 0xFF))) = true ∧ Instr.wf (.und 0xFF) = true := by
  decide

theorem witness_EncodeOfDecodeIsTheBytes : decode [0x6C, 0xFF, 0x02, 0xEA] = .ok (.jmp (.abi 0x02FF), [0xEA]) := rfl

/-- The argument bytes `C7` and `3A` are the word `$3AC7`. -/
theorem witness_WordsOfTheSpecDecode : (0x3AC7 : Word).toNat = (0x3A : Byte).toNat * 256 + (0xC7 : Byte).toNat := rfl

/-- The pointers of `($FF,X)` with X = 0 and of `($FF),Y`: both read `$00FF` and `$0000`. -/
theorem witness_EffectiveAddresses :
    sample.Reads (BitVec.ofNat 16 ((0xFF + sample.x.toNat) % 256)) 0x34 ∧
    sample.Reads (BitVec.ofNat 16 ((0xFF + sample.x.toNat + 1) % 256)) 0x92 ∧
    sample.Reads (BitVec.ofNat 16 0xFF) 0x34 ∧ sample.Reads (BitVec.ofNat 16 ((0xFF + 1) % 256)) 0x92 :=
  ⟨rfl, rfl, rfl, rfl⟩

theorem witness_PageCrossedExactlyWhenHighBytesDiffer :
    (MemOperand.abx 0x02FF).mode = .ABX ∧ (MemOperand.aby 0x02FF).mode = .ABY ∧ (MemOperand.iny 0xFF).mode = .INY := by
  decide

/-- The boundaries of the three mirrored ranges, with one bank and with two. -/
theorem witness_CpuMirrors :
    (0x1FFF : Word).toNat ≤ 0x1FFF ∧ 0x6000 ≤ (0x6000 : Word).toNat ∧ (0x7FFF : Word).toNat ≤ 0x7FFF ∧
    0x8000 ≤ (0x8000 : Word).toNat ∧ 0x8000 ≤ (0xFFFF : Word).toNat ∧ sample.cfg.prgBanks = .one ∧
    ({ sample with cfg := { sample.cfg with prgBanks := .two } } : State).cfg.prgBanks = .two := by decide

theorem witness_RegisterWindow :
    0x2000 ≤ (0x2000 : Word).toNat ∧ (0x3FFF : Word).toNat ≤ 0x3FFF ∧ 0x4000 ≤ (0x4000 : Word).toNat ∧
    (0x401F : Word).toNat ≤ 0x401F ∧ (0x3FFF : Word).toNat % 8 = (7 : Fin 8).val := by decide

theorem witness_UnmappedWindow :
    0x4020 ≤ (0x4020 : Word).toNat ∧ (0x5FFF : Word).toNat ≤ 0x5FFF ∧ sample.cfg.unmapped = .fault ∧
    (sample.setPc 0x5FFF).pc = 0x5FFF ∧ (sampleWith .dummy .fault .zero).cfg.unmapped = .dummy := by decide

theorem witness_RomStoresFollowRomWrite :
    (∀ r c, (sampleWith .fault r c).Inv ∧ (sampleWith .fault r c).cfg.romWrite = r ∧
      (sampleWith .fault r c).cfg.chrBanks = c) ∧
    0x8000 ≤ (0x8000 : Word).toNat ∧ (0x1FFF : Word).toNat % 0x4000 ≤ 0x1FFF :=
  ⟨fun r c => ⟨inv_sampleWith _ r c, rfl, rfl⟩, by decide, by decide⟩

theorem witness_AcknowledgmentIsOneShot :
    ackSlot 0x401F = some 39 ∧ sample.Reads 0x401F 0x00 ∧
    memRead 0x401F sample = .ok (0x00, sample.touch 0x401F .read) ∧
    (match memWrite 0x401F 0x55 sample with | .ok _ => true | .error _ => false) = true :=
  have hc : cpuCell sample.cfg 0x401F = some .dummy := by decide
  have h : sample.Reads 0x401F 0x00 := by
    show (cpuCell sample.cfg 0x401F).map sample.readCell = _
    rw [hc]
    rfl
  ⟨by decide, h, memRead_of_reads h, by decide⟩

theorem witness_PpuMirrors :
    (0x1FFF : Word).toNat ≤ 0x1FFF ∧ 0x2000 ≤ (0x2000 : Word).toNat ∧ (0x3EFF : Word).toNat ≤ 0x3EFF ∧
    0x3F00 ≤ (0x3F00 : Word).toNat ∧ (0x3FFF : Word).toNat ≤ 0x3FFF ∧ Config.reference.mirroring = .horizontal ∧
    ({ Config.reference with mirroring := .vertical } : Config).mirroring = .vertical := by decide

/-- The step that runs the NOP of `sample` completes, and so does one before which all three inputs arrive. -/
theorem witness_StepKeepsTheInvariant :
    sample.Inv ∧ answersNext (step sample) = true ∧
    answersNext (stepWith [.irqRequest, .keys 0x8001, .resetRequest] sample) = true := ⟨inv_sample, by decide, by decide⟩

theorem witness_ConfigurationAndRomNeverChange :
    answersNext (step (sampleWith .fault .fault .one)) = true ∧ (sampleWith .fault .fault .one).cfg.romWrite ≠ .store ∧
    (sampleWith .fault .fault .one).cfg.chrBanks = .one := by decide

theorem witness_LoadsComplete :
    (ReadOperand.imm 0x80).Is sample 0x80 ∧ (ReadOperand.mem (.zer 0xFF)).Is sample 0x34 := ⟨rfl, rfl⟩

theorem witness_StoresComplete :
    sample.Inv ∧ sample.CanStore ((MemOperand.abs 0x2007).ea sample) ∧
    (sampleWith .fault .ignore .zero).CanStore ((MemOperand.abs 0x8000).ea (sampleWith .fault .ignore .zero)) :=
  ⟨inv_sample, ⟨fun h h' => absurd h (by decide), fun h => absurd h (by decide)⟩,
    ⟨fun h h' => absurd h' (by decide), fun _ => by decide⟩⟩

theorem witness_AddAndSubtractComplete :
    (ReadOperand.imm 0x80).Is sample 0x80 ∧ (ReadOperand.mem (.abs 0x03FF)).Is sample 0x34 := ⟨rfl, rfl⟩

theorem witness_LogicCompletes : (ReadOperand.mem (.iny 0xFF)).Is sample 0x00 := rfl

theorem witness_ComparesComplete :
    (ReadOperand.imm 0xFF).Is sample 0xFF ∧ sample.Reads ((MemOperand.zer 0xFF).ea sample) 0x34 := ⟨rfl, rfl⟩

theorem witness_IncrementsOfMemoryComplete :
    sample.Inv ∧ sample.Reads ((MemOperand.zer 0xFF).ea sample) 0x34 ∧ sample.CanStore ((MemOperand.zer 0xFF).ea sample) :=
  ⟨inv_sample, rfl, ⟨fun h h' => absurd h (by decide), fun h => absurd h (by decide)⟩⟩

theorem witness_ShiftsComplete :
    sample.Inv ∧ RmwOperand.acc.Is sample 0x00 ∧ RmwOperand.acc.CanStore sample ∧
    (RmwOperand.mem (.zer 0xFF)).Is sample 0x34 ∧ (RmwOperand.mem (.zer 0xFF)).CanStore sample :=
  ⟨inv_sample, rfl, trivial, rfl, ⟨fun h h' => absurd h (by decide), fun h => absurd h (by decide)⟩⟩

/-- A pointer at the end of its page: its second byte is at `$0300`. -/
theorem witness_JumpsComplete :
    sample.Reads 0x03FF 0x34 ∧
    (0x0300 : Word).toNat = (0x03FF : Word).toNat / 256 * 256 + ((0x03FF : Word).toNat + 1) % 256 ∧
    sample.Reads 0x0300 0x92 := ⟨rfl, by decide, rfl⟩

theorem witness_CallsComplete :
    sample.Inv ∧ sample.Reads (stackAddr (sample.sp + 1)) 0xC3 ∧ sample.Reads (stackAddr (sample.sp + 2)) 0x0A :=
  ⟨inv_sample, rfl, rfl⟩

/-- Each branch's condition holds in one state and fails in the other: P = `00` and P = `FF`. -/
theorem witness_BranchesComplete :
    (∀ f, (sample.setP 0x00).flag f = false) ∧ ∀ f, (sample.setP 0xFF).flag f = true := by
  constructor <;> intro f <;> cases f <;> decide

theorem witness_StackOperationsComplete : sample.Inv ∧ sample.Reads (stackAddr (sample.sp + 1)) 0xC3 := ⟨inv_sample, rfl⟩

theorem witness_BreakCompletes : sample.Inv ∧ sample.Reads 0xFFFE 0x20 ∧ sample.Reads 0xFFFF 0x80 := ⟨inv_sample, rfl, rfl⟩

/-- The three bytes pulled lie at `$01FE`, `$01FF` and, across the wrap, `$0100`. -/
theorem witness_ReturnFromInterruptCompletes :
    sample.Reads (stackAddr (sample.sp + 1)) 0xC3 ∧ sample.Reads (stackAddr (sample.sp + 2)) 0x0A ∧
    sample.Reads (stackAddr (sample.sp + 3)) 0x80 := ⟨rfl, rfl, rfl⟩

/-- An NMI pending, with a byte at its handler. -/
def interrupted (opcode : Byte) : State :=
  { vector 0x8000 [0xEA] [(0xFFFA, 0x00), (0xFFFB, 0x90), (0x9000, opcode)] with context := 0x02 }

/-- An undefined opcode at PC with nothing due, and one at the handler of an NMI. -/
theorem witness_UndefinedOpcodesFault :
    ((vector 0x8000 [0xFF] []).dueInterrupt = none ∧ (vector 0x8000 [0xFF] []).interruptCheck.Reads 0x8000 0xFF ∧
      0xFF ∈ undefinedOpcodes ∧ (vector 0x8000 [0xFF] []).interruptCheck.dmaActive = false) ∧
    ((interrupted 0xFF).interruptCheck.pc = 0x9000 ∧ (interrupted 0xFF).interruptCheck.Reads 0x9000 0xFF ∧
      (interrupted 0xFF).interruptCheck.dmaActive = false) :=
  ⟨⟨by decide, rfl, by decide, by decide⟩, by decide, rfl, by decide⟩

theorem witness_RegisterInstructionsFrame :
    [Instr.tax, .tay, .txa, .tya, .tsx, .txs, .inx, .iny, .dex, .dey, .clc, .sec, .cli, .sei, .cld, .sed, .clv, .nop].all
      (fun i => answersNext (exec i sample)) = true := by decide

theorem witness_ReadingInstructionsFrame :
    let o : ReadOperand := .mem (.abs 0x2002)
    [Instr.lda o, .ldx o, .ldy o, .adc o, .sbc o, .and o, .ora o, .eor o, .cmp o, .cpx o, .cpy o, .bit (.abs 0x2002)].all
      (fun i => answersNext (exec i sample)) = true := by decide

theorem witness_StoringInstructionsFrame :
    let m : MemOperand := .abs 0x2007
    [Instr.sta m, .stx m, .sty m, .inc m, .dec m, .asl (.mem m), .lsr (.mem m), .rol (.mem m), .ror (.mem m), .asl .acc,
      .lsr .acc, .rol .acc, .ror .acc].all (fun i => answersNext (exec i sample)) = true := by decide

theorem witness_StackAndControlInstructionsFrame :
    [Instr.jmp (.abs 0x9000), .jmp (.abi 0x03FF), .jsr 0x9000, .rts, .bcc 0x80, .bcs 0x80, .beq 0x80, .bne 0x80, .bmi 0x80,
      .bpl 0x80, .bvc 0x80, .bvs 0x80, .pha, .php, .pla, .plp, .brk, .rti].all
      (fun i => answersNext (exec i sample)) = true := by decide

theorem witness_InstructionCosts :
    Instr.wf (.lda (.mem (.abx 0x02FF))) = true ∧ answersNext (exec (.lda (.mem (.abx 0x02FF))) sample) = true ∧
    Instr.wf (.bne 0x80) = true ∧ answersNext (exec (.bne 0x80) sample) = true := by decide

/-- One form of each count of R104 completes on `sample`: reads, stores, BIT, read-modify-write, implied, control flow
and stack, branches. -/
theorem witness_InstructionCosts_counts :
    ([Instr.lda (.imm 0x10), .ldx (.mem (.zey 0x10)), .cmp (.mem (.inx 0x10)), .ora (.mem (.iny 0x10)), .sta (.iny 0x10),
        .sty (.zex 0x10), .bit (.abs 0x0300), .inc (.abx 0x0300), .ror (.mem (.zer 0x10)), .asl .acc, .nop].all fun i =>
      i.wf && answersNext (exec i sample)) = true ∧
    ([Instr.jmp (.abi 0x0300), .jsr 0x9000, .rts, .brk, .rti, .pha, .plp, .bcc 0x10].all fun i =>
      i.wf && answersNext (exec i sample)) = true := by
  refine ⟨?_, ?_⟩ <;> decide

/-- `sample` with NMI pending, and with IRQ pending and unmasked. -/
def pending (context : Byte) : State := { sample with context := context, p := 0x20 }

theorem inv_pending_nmi : (pending 0x02).Inv :=
  { inv_sample with mapper := { inv_sample.mapper with }, context := by decide }

theorem inv_pending_irq : (pending 0x04).Inv :=
  { inv_sample with mapper := { inv_sample.mapper with }, context := by decide }

theorem witness_ReturnsUndoEntries :
    sample.Inv ∧ (∃ t, exec (.jsr 0x9000) sample = .next t ∧ answersNext (exec .rts (t.setPc 0x9000)) = true) ∧
    (pending 0x02).Inv ∧ (pending 0x02).dueInterrupt = some .nmi ∧ (pending 0x04).dueInterrupt = some .irq ∧
    answersNext (exec .rti ((pending 0x02).interruptCheck.setPc 0x9000)) = true ∧
    ∃ t, exec .brk sample = .next t ∧ answersNext (exec .rti (t.setPc 0x9000)) = true :=
  ⟨inv_sample, ⟨_, rfl, rfl⟩, inv_pending_nmi, by decide, by decide, rfl, ⟨_, rfl, rfl⟩⟩

/-- The NOP of `sample` with nothing due, and the NOP at the handler of an NMI that is serviced in the same step. -/
theorem witness_StepRunsTheDecodedInstruction :
    sample.dueInterrupt = none ∧ sample.interruptCheck.dmaActive = false ∧ Instr.nop.wf = true ∧ Instr.nop.mode ≠ .UND ∧
    sample.interruptCheck.HoldsBytes sample.interruptCheck.pc (encode .nop) ∧ (interrupted 0xEA).dueInterrupt = some .nmi ∧
    (interrupted 0xEA).interruptCheck.dmaActive = false ∧
    (interrupted 0xEA).interruptCheck.HoldsBytes (interrupted 0xEA).interruptCheck.pc (encode .nop) :=
  ⟨by decide, by decide, by decide, by decide, ⟨rfl, trivial⟩, by decide, by decide, ⟨rfl, trivial⟩⟩

/-- The handler's first instruction runs in the step that services its NMI: 7 + 2 cycles (R251). -/
theorem test_service_and_instruction :
    (match cpuStep (interrupted 0xEA) with
      | .next t => (t.pc, t.cyc - (interrupted 0xEA).cyc, t.context) == (0x9001, 9, 0x00)
      | _ => false) = true := by decide

/-- DMA active with nothing due, and with an NMI due. -/
theorem witness_DmaCopiesThePage :
    ∀ s ∈ [sample.setAck dmaSlot .write, (pending 0x02).setAck dmaSlot .write],
      s.Inv ∧ s.interruptCheck.dmaActive = true ∧
      ∀ i : Byte, s.interruptCheck.CanLoad (wordOf s.interruptCheck.io.dmareg i) := by
  have hw : ∀ i : Byte, ¬0x4020 ≤ (wordOf 0x00 i).toNat := by decide
  simp only [List.forall_mem_cons, List.not_mem_nil, false_implies, implies_true, and_true]
  exact ⟨⟨inv_of_registers inv_sample rfl rfl rfl rfl rfl rfl rfl, by decide, fun i h _ => absurd h (hw i)⟩,
    inv_of_registers inv_pending_nmi rfl rfl rfl rfl rfl rfl rfl, by decide, fun i h _ => absurd h (hw i)⟩

theorem witness_ResetService :
    (pending 0x01).context.getLsbD 0 = true ∧ (pending 0x01).Reads 0xFFFC 0x00 ∧ (pending 0x01).Reads 0xFFFD 0x80 :=
  ⟨by decide, rfl, rfl⟩

theorem witness_NmiService :
    (pending 0x02).Inv ∧ (pending 0x02).context.getLsbD 0 = false ∧ (pending 0x02).context.getLsbD 1 = true ∧
    (pending 0x02).Reads 0xFFFA 0x00 ∧ (pending 0x02).Reads 0xFFFB 0x90 := ⟨inv_pending_nmi, by decide, by decide, rfl, rfl⟩

theorem witness_IrqService :
    (pending 0x04).Inv ∧ (pending 0x04).context.getLsbD 0 = false ∧ (pending 0x04).context.getLsbD 1 = false ∧
    (pending 0x04).context.getLsbD 2 = true ∧ (pending 0x04).flag .interrupt = false ∧ (pending 0x04).Reads 0xFFFE 0x20 ∧
    (pending 0x04).Reads 0xFFFF 0x80 ∧ sample.flag .interrupt = true ∧ sample.context.getLsbD 2 = false :=
  ⟨inv_pending_irq, by decide, by decide, by decide, by decide, rfl, rfl, by decide, by decide⟩

theorem witness_FirstStepAfterPowerOn :
    (State.powerOn PowerOn.reference).Reads 0xFFFC 0x00 ∧ (State.powerOn PowerOn.reference).Reads 0xFFFD 0x00 := ⟨rfl, rfl⟩

/-- `sample` in which the Controller's step latches the joypads. -/
def latching : State := (sample.setAck joy1Slot .write).setPads { sample.pads with lastStrobe := true }

theorem latches_latching : latching.LatchesJoypads := ⟨rfl, by decide, rfl⟩

theorem not_latches_sample : ¬(sample.setAck joy2Slot .read).LatchesJoypads := fun h => by
  have := h.1
  revert this
  decide

/-- The cases of the Controller's step, a read of both joypads and a read of the second beside a latch among them. -/
theorem witness_ControllerStepFollowsTheStrobe :
    sample.io.ack[joy2Slot] ≠ .read ∧ sample.io.ack[joy1Slot] = .none ∧
    (sample.setAck joy1Slot .write).io.ack[joy1Slot] = .write ∧ (sample.setAck joy1Slot .write).io.joy1.getLsbD 0 = false ∧
    (sample.setAck joy1Slot .write).pads.lastStrobe = false ∧
    (sample.setIo { sample.io with joy1 := 0x01 }).io.joy1.getLsbD 0 = true ∧
    (sample.setPads { sample.pads with lastStrobe := true }).pads.lastStrobe = true ∧
    (sample.setAck joy1Slot .read).io.ack[joy1Slot] = .read ∧
    (sample.setAck joy2Slot .read).io.ack[joy2Slot] = .read ∧ ¬(sample.setAck joy2Slot .read).LatchesJoypads ∧
    ((sample.setAck joy1Slot .read).setAck joy2Slot .read).io.ack[joy1Slot] = .read ∧
    ((sample.setAck joy1Slot .read).setAck joy2Slot .read).io.ack[joy2Slot] = .read ∧
    latching.LatchesJoypads ∧ latching.io.ack[joy2Slot] ≠ .read ∧ (latching.setAck joy2Slot .read).LatchesJoypads ∧
    (latching.setAck joy2Slot .read).io.ack[joy2Slot] = .read :=
  ⟨by decide, by decide, by decide, by decide, by decide, by decide, by decide, by decide, by decide, not_latches_sample,
    by decide, by decide, latches_latching, by decide, ⟨rfl, by decide, rfl⟩, by decide⟩

theorem witness_ScrollAndAddressWrites :
    (Ppu.powerOn []).w = false ∧ ({ Ppu.powerOn [] with w := true } : Ppu).w = true := by decide

theorem witness_RegisterAccessesTakeEffect :
    (sample.setAck (ppuSlot 6) .write).io.ack[ppuSlot 6] = .write ∧ (sample.setAck (ppuSlot 2) .read).io.ack[ppuSlot 2] = .read ∧
    sample.io.ack[ppuSlot 7] = .none := by decide

/-- `sampleWith` with `$2007` written. -/
def dataWritten (romWrite : RomWritePolicy) (chrBanks : ChrBanks) : State :=
  (sampleWith .fault romWrite chrBanks).setAck (ppuSlot 7) .write

theorem inv_dataWritten (r : RomWritePolicy) (c : ChrBanks) : (dataWritten r c).Inv :=
  inv_of_registers (inv_sampleWith .fault r c) rfl rfl rfl rfl rfl rfl rfl

/-- Every policy for a store into character ROM, a store into character RAM, another cell, and a read. -/
theorem witness_DataPort :
    (∀ r c, (dataWritten r c).Inv ∧ (dataWritten r c).cfg.romWrite = r ∧ (dataWritten r c).cfg.chrBanks = c) ∧
    (dataWritten .fault .one).io.ack[ppuSlot 7] = .write ∧ (dataWritten .fault .one).ppu.v.toNat % 0x4000 ≤ 0x1FFF ∧
    ppuCell (dataWritten .store .one).cfg 0x1FFF ≠
      ppuCell (dataWritten .store .one).cfg (dataWritten .store .one).ppu.dataAddr ∧
    (sample.setAck (ppuSlot 7) .read).Inv ∧ (sample.setAck (ppuSlot 7) .read).io.ack[ppuSlot 7] = .read :=
  ⟨fun r c => ⟨inv_dataWritten r c, rfl, rfl⟩, by decide, by decide, by decide,
    inv_of_registers inv_sample rfl rfl rfl rfl rfl rfl rfl, by decide⟩

theorem witness_DrivenCellsAreRefreshed : answersNext (step sample) = true := by decide

/-- `sample` with the PPU at a position. -/
def positioned (scanline : Int) (cycle : Nat) (oddFrame : Bool) : State :=
  sample.setPpu { sample.ppu with scanline, cycle, oddFrame }

/-- The five kinds of position: the skip, an ordinary tick, the end of a line, of the last line, and of an even frame's
pre-render line. -/
theorem witness_CountersAdvance :
    (positioned (-1) 339 true).ppu.cycle = 339 ∧ (positioned (-1) 339 true).ppu.oddFrame = true ∧
    (positioned (-1) 339 false).ppu.oddFrame = false ∧ (positioned 0 340 false).ppu.scanline ≠ 260 ∧
    (positioned 260 340 true).ppu.scanline = 260 ∧ (positioned 0 0 false).ppu.cycle ≠ 340 := by decide

theorem witness_FrameLength :
    (positioned 0 0 true).ppu.scanline = 0 ∧ (positioned 0 0 true).ppu.cycle = 0 ∧ (positioned 0 0 false).ppu.oddFrame = false := by
  decide

theorem witness_VerticalBlank :
    (positioned 241 1 false).ppu.scanline = 241 ∧ (positioned 241 1 false).ppu.cycle = 1 ∧
    (positioned (-1) 1 false).ppu.scanline = -1 ∧ (positioned 0 1 false).ppu.scanline ≠ 241 := by decide

/-- `positioned` with both layers enabled, the sprite height 8, and OAM entry 0 in range on line 16. -/
def rendering (scanline : Int) (cycle : Nat) : State :=
  sample.setPpu { sample.ppu with scanline, cycle, oddFrame := false, mask := 0x1E, oam := [(0, 0x10)] }

/-- Rendering off, and with rendering on each place of the fetch pattern, each case of the shift registers, and the
cycles at which `v` moves. -/
theorem witness_TicksLeaveTheRestAlone :
    sample.ppu.rendering = false ∧ (rendering (-1) 1).ppu.rendering = true ∧ (rendering 0 1).ppu.Fetches 0 ∧
    (rendering 0 3).ppu.Fetches 2 ∧ (rendering 0 325).ppu.Fetches 4 ∧ (rendering 239 335).ppu.Fetches 6 ∧
    (rendering 0 336).ppu.Fetches 7 ∧ ¬(rendering 0 0).ppu.Fetches 0 ∧ ¬(rendering 0 257).ppu.Fetches 0 ∧
    ((rendering 0 257).ppu.Shifts ∧ (rendering 0 257).ppu.Loads) ∧ ((rendering 0 2).ppu.Shifts ∧ ¬(rendering 0 2).ppu.Loads) ∧
    (¬(rendering 0 1).ppu.Shifts ∧ (rendering 0 1).ppu.Loads) ∧ (¬(rendering 0 338).ppu.Shifts ∧ ¬(rendering 0 338).ppu.Loads) ∧
    (rendering 0 256).ppu.cycle = 256 ∧ (rendering (-1) 304).ppu.scanline = -1 :=
  ⟨by decide, by decide, by decide, by decide, by decide, by decide, by decide, by decide, by decide, by decide, by decide,
    by decide, by decide, by decide, by decide⟩

theorem inv_rendering (scanline : Int) (cycle : Nat) (hc : cycle ≤ 340) (hf : -1 ≤ scanline) (hl : scanline ≤ 260) :
    (rendering scanline cycle).Inv :=
  { inv_sample with
    ppu := { inv_sample.ppu with
      cycle := hc, first := hf, last := hl, skipped := fun h => Bool.false_ne_true h.2.2
      oam := show Memory.wf Bank.oam.unlisted 256 [(0, 0x10)] = true from by decide } }

/-- The last pixel with rendering off and with rendering on, and a position that draws nothing. -/
theorem witness_TicksDrawOnePixel :
    (positioned 239 256 false).Inv ∧ 0 ≤ (positioned 239 256 false).ppu.scanline ∧
    (positioned 239 256 false).ppu.scanline ≤ 239 ∧ (positioned 239 256 false).ppu.cycle ≤ 256 ∧
    61439 = 256 * (positioned 239 256 false).ppu.scanline.toNat + ((positioned 239 256 false).ppu.cycle - 1) ∧
    (positioned 239 256 false).ppu.rendering = false ∧ (rendering 239 256).Inv ∧
    61439 = 256 * (rendering 239 256).ppu.scanline.toNat + ((rendering 239 256).ppu.cycle - 1) ∧
    (rendering 239 256).ppu.rendering = true ∧
    ¬((rendering 239 257).ppu.scanline ≤ 239 ∧ (rendering 239 257).ppu.cycle ≤ 256) :=
  ⟨{ inv_sample with
      ppu := { inv_sample.ppu with
        cycle := by decide, first := by decide, last := by decide, skipped := by decide } },
    by decide, by decide, by decide, by decide, by decide, inv_rendering _ _ (by decide) (by decide) (by decide), by decide,
    by decide, by decide⟩

/-- A unit whose eight columns are the last of the line. -/
def lastUnit : SpriteUnit := { lo := 0x81, hi := 0x01, attr := 0x00, x := 0xF8 }

/-- The layers enabled, with the left column shown and hidden; a unit's first and last column, and the columns beside
it. -/
theorem witness_TicksDrawOnePixel_layers :
    (0x1E : Byte).getLsbD 3 = true ∧ (0x1E : Byte).getLsbD 4 = true ∧ (0x1E : Byte).getLsbD 1 = true ∧
    (0x1E : Byte).getLsbD 2 = true ∧ ¬(8 ≤ 7 ∨ (0x18 : Byte).getLsbD 1 = true) ∧
    ¬(8 ≤ 7 ∨ (0x18 : Byte).getLsbD 2 = true) ∧ 0xF8 = lastUnit.x.toNat + 0 ∧ 0xFF = lastUnit.x.toNat + 7 ∧
    0xF7 < lastUnit.x.toNat ∧ lastUnit.x.toNat + 8 ≤ 0x100 ∧
    (lastUnit.pixel 0xF8, lastUnit.pixel 0xFF, lastUnit.pixel 0xF7) = (1, 3, 0) := by decide

/-- A transparent unit, and an opaque one. -/
theorem witness_PixelPriority :
    ({ lo := 0x00, hi := 0x00, attr := 0x20, x := 0x00 } : SpriteUnit).pixel 0 = 0 ∧
    ({ lo := 0x80, hi := 0x00, attr := 0x20, x := 0x00 } : SpriteUnit).pixel 0 = 1 := by decide

/-- A PPU at an evaluation step, on line 16, on which the entries 0 and 62 are in range. -/
def evaluating (sev : EvalPhase) (n m found : Nat) : Ppu :=
  { Ppu.powerOn [] with
    scanline := 16, oam := [(0, 0x10), (248, 0x09)], eval := { sev, n, m, found, zeroNext := false } }

theorem inv_evaluating (sev : EvalPhase) (n m found : Nat) (h : ({ sev, n, m, found, zeroNext := false } : Evaluation).Inv) :
    (evaluating sev n m found).Inv :=
  { cycle := Nat.zero_le _, first := show (-1 : Int) ≤ 16 from by decide, last := show (16 : Int) ≤ 260 from by decide
    skipped := fun h => absurd h.1 (show ¬(16 : Int) = -1 from by decide), eval := h, spriteCount := Nat.zero_le _
    oam := show Memory.wf Bank.oam.unlisted 256 [(0, 0x10), (248, 0x09)] = true from by decide
    secOam := show Memory.wf Bank.secOam.unlisted 32 [] = true from by decide }

/-- Every case of an evaluation step: the eighth entry's last byte, and the last entry of OAM, among them. -/
theorem witness_SpriteOverflow :
    ((evaluating .copyY 62 0 7).Inv ∧ (evaluating .copyY 62 0 7).shows 62 = true) ∧
    ((evaluating .copyY 63 0 7).Inv ∧ (evaluating .copyY 63 0 7).shows 63 = false) ∧
    ((evaluating .copyRest 62 3 7).Inv ∧ (evaluating .copyRest 62 3 7).evalStep.eval.sev = .overflowDetect) ∧
    (evaluating .copyRest 0 1 0).Inv ∧
    ((evaluating .overflowDetect 62 0 8).Inv ∧ (evaluating .overflowDetect 62 0 8).shows 62 = true) ∧
    ((evaluating .overflowDetect 61 0 8).Inv ∧ (evaluating .overflowDetect 61 0 8).shows 61 = false) ∧
    (evaluating .wait 63 0 8).Inv :=
  ⟨⟨inv_evaluating _ _ _ _ ⟨by decide, by decide, by decide, by decide, by decide⟩, by decide⟩,
    ⟨inv_evaluating _ _ _ _ ⟨by decide, by decide, by decide, by decide, by decide⟩, by decide⟩,
    ⟨inv_evaluating _ _ _ _ ⟨by decide, by decide, by decide, by decide, by decide⟩, by decide⟩,
    inv_evaluating _ _ _ _ ⟨by decide, by decide, by decide, by decide, by decide⟩,
    ⟨inv_evaluating _ _ _ _ ⟨by decide, by decide, by decide, by decide, by decide⟩, by decide⟩,
    ⟨inv_evaluating _ _ _ _ ⟨by decide, by decide, by decide, by decide, by decide⟩, by decide⟩,
    inv_evaluating _ _ _ _ ⟨by decide, by decide, by decide, by decide, by decide⟩⟩

/-- A line with a sprite on it at the start of its evaluation, its hand-over and a unit's load; lines without sprites. -/
theorem witness_SpriteOverflow_line :
    (rendering 16 65).Inv ∧ (rendering 16 65).ppu.rendering = true ∧ (rendering 16 65).ppu.shown[0]? = some 0 ∧
    (rendering 16 64).Inv ∧ (rendering 16 256).Inv ∧ (rendering 16 257).Inv ∧ (rendering 16 264).Inv ∧
    (rendering (-1) 257).Inv ∧ (rendering 240 257).Inv ∧ (positioned 0 257 false).ppu.rendering = false :=
  ⟨inv_rendering _ _ (by decide) (by decide) (by decide), by decide, by decide,
    inv_rendering _ _ (by decide) (by decide) (by decide), inv_rendering _ _ (by decide) (by decide) (by decide),
    inv_rendering _ _ (by decide) (by decide) (by decide), inv_rendering _ _ (by decide) (by decide) (by decide),
    inv_rendering _ _ (by decide) (by decide) (by decide), inv_rendering _ _ (by decide) (by decide) (by decide), by decide⟩

/-- A unit loaded from entry 0 of secondary OAM: row 1 of an unflipped sprite, row 0 from the bottom of a flipped one. -/
theorem witness_SpriteOverflow_row :
    let s := (rendering 16 264).setPpu { (rendering 16 264).ppu with secOam := [(0, 0x0F), (2, 0x00)] }
    let t := (rendering 16 264).setPpu { (rendering 16 264).ppu with secOam := [(0, 0x09), (2, 0x80)] }
    s.ppu.scanline - (s.ppu.secByte 0).toNat = 1 ∧ t.ppu.scanline - (t.ppu.secByte 0).toNat = 7 - (0 : Int) ∧
    (t.ppu.secByte 2).getLsbD 7 = true := by decide

end Sys2Proof.Tests
end

section
/-! PROOFS. Whole steps are `State.Sound`: what every part of a step keeps, every step keeps (R250, R270). From it, the
configuration, the input and the ROMs over a step (R6, R57, R60). -/

namespace Sys2Proof.Machine

/-- A computation answers a next state exactly when it does not fault. -/
theorem outcome_eq_next {r : Except Fault State} {t : State} : outcome r = .next t ↔ r = .ok t := by
  cases r <;> simp [outcome]

/-- A CPU step that completes is the interrupt check, the DMA query and then a transfer or one instruction (R250, R251,
R292). -/
theorem cpuStep_eq_next {s t : State} (h : cpuStep s = .next t) :
    dmaTransfer (s.interruptCheck.setAck dmaSlot .none) = .ok t ∨
      ∃ i u, fetch (s.interruptCheck.setAck dmaSlot .none) = .ok (i, u) ∧ exec i u = .next t := by
  simp only [cpuStep] at h
  split at h
  · exact .inl (outcome_eq_next.1 h)
  · unfold fetchExecute at h
    split at h
    · exact .inr ⟨_, _, ‹_›, h⟩
    · cases h

/-- A step that completes is a CPU step, the Controller, the PPU's register step, its ticks and the refreshed cells
(R270). -/
theorem step_eq_next {s t : State} (h : step s = .next t) :
    ∃ u v, cpuStep s = .next u ∧ manageRegisters (controllerStep u) = .ok v ∧
      t = refreshCells (ppuTicks (3 * (u.cyc - s.cyc)) v) := by
  unfold step at h
  split at h
  · rename_i u hu
    have hd := outcome_eq_next.1 h
    unfold deviceStep ppuStep at hd
    split at hd
    · exact ⟨u, _, hu, ‹_›, (Except.ok.inj hd).symm⟩
    · cases hd
  · cases h
  · cases h

/-- Every CPU step that completes keeps the configuration, the input, the ROMs and the invariant (R250). -/
theorem State.Sound.cpuStep {s t : State} (h : cpuStep s = .next t) : s.Sound t := by
  have hc : s.Sound (s.interruptCheck.setAck dmaSlot .none) :=
    (State.Sound.interruptCheck s).trans (State.Sound.setAck _ _ _)
  rcases cpuStep_eq_next h with hd | ⟨i, u, hf, he⟩
  · exact hc.trans (State.Sound.dmaTransfer hd)
  · exact (hc.trans (State.Sound.fetch hf)).trans (State.Sound.exec he)

/-- Every step that completes keeps the configuration, the input, the ROMs and the invariant (R270). -/
theorem State.Sound.step {s t : State} (h : step s = .next t) : s.Sound t := by
  obtain ⟨u, v, hu, hv, rfl⟩ := step_eq_next h
  have hcpu : s.Sound u := State.Sound.cpuStep hu
  have hpads : u.Sound (Machine.controllerStep u) := State.Sound.controllerStep u
  have hregs : (Machine.controllerStep u).Sound v := State.Sound.manageRegisters hv
  exact (((hcpu.trans hpads).trans hregs).trans (State.Sound.ppuTicks _ v)).trans (State.Sound.refreshCells _)

/-- Settles O15: its four clauses are the fields of `State.Sound` other than the invariant. -/
theorem configurationAndRomNeverChange : Obligations.ConfigurationAndRomNeverChange := by
  intro s t h
  obtain ⟨hcfg, hkeys, hprg, hchr, -⟩ := State.Sound.step h
  exact ⟨hcfg, hkeys, hprg, hchr⟩

end Sys2Proof.Machine
end

section
/-! PROOFS. Reset and the invariant: what the state after reset holds (R30), that inputs and steps keep the invariant
(R8, R270), and the first step after power-on (R251, R431). -/

namespace Sys2Proof.Machine

theorem Joypad.powerOn_inv : Joypad.powerOn.Inv := ⟨by decide, by decide⟩

theorem Evaluation.powerOn_inv : Evaluation.powerOn.Inv := ⟨by decide, by decide, by decide, by decide, by decide⟩

theorem Ppu.powerOn_inv {oam : Memory} (h : Memory.wf Bank.oam.unlisted 256 oam) : (Ppu.powerOn oam).Inv where
  cycle := Nat.zero_le _
  first := show (-1 : Int) ≤ 0 by decide
  last := show (0 : Int) ≤ 260 by decide
  skipped hs := Bool.false_ne_true hs.2.2
  eval := Evaluation.powerOn_inv
  spriteCount := Nat.zero_le _
  oam := h
  secOam := Memory.wf_nil _ _

/-- Power-on with memories of the right sizes meets the invariant, whatever the open parameters are (R22, R30). -/
theorem State.powerOn_inv {i : PowerOn} (hm : (State.powerOn i).mapper.Inv i.cfg)
    (ho : Memory.wf Bank.oam.unlisted 256 i.oam) (hp : Memory.wf Bank.pixels.unlisted 61440 i.pixels) :
    (State.powerOn i).Inv where
  mapper := hm
  pad1 := Joypad.powerOn_inv
  pad2 := Joypad.powerOn_inv
  ppu := Ppu.powerOn_inv ho
  pixels := hp
  context := show (0x01 : Byte) &&& 0xF8 = 0 by decide

/-- Settles O13: the reference parameters list no byte, so every memory is canonical. -/
theorem invariantAtReset : Obligations.InvariantAtReset :=
  State.powerOn_inv
    ⟨Memory.wf_nil _ _, Memory.wf_nil _ _, Memory.wf_nil _ _, Memory.wf_nil _ _, Memory.wf_nil _ _, Memory.wf_nil _ _⟩
    (Memory.wf_nil _ _) (Memory.wf_nil _ _)

/-! ### Inputs -/

/-- Setting one of the context's bits 0 and 2, bit by bit (R402, R404). -/
theorem getLsbD_request (b : Byte) {k : Nat} (hk : k < 8) :
    (b ||| 0x01).getLsbD k = (if k = 0 then true else b.getLsbD k) ∧
    (b ||| 0x04).getLsbD k = (if k = 2 then true else b.getLsbD k) := by
  have bits : ∀ k < 8, (0x01 : Byte).getLsbD k = decide (k = 0) ∧ (0x04 : Byte).getLsbD k = decide (k = 2) := by decide
  obtain ⟨h0, h2⟩ := bits k hk
  rw [BitVec.getLsbD_or, BitVec.getLsbD_or, h0, h2]
  constructor
  · by_cases h : k = 0 <;> simp [h]
  · by_cases h : k = 2 <;> simp [h]

/-- An input keeps the invariant: a request sets bit 0 or bit 2 of the context, never one of bits 3 to 7 (R409). -/
theorem State.Inv.accept {s : State} (h : s.Inv) (i : Input) : (s.accept i).Inv := by
  have bits : ∀ b : Byte, b &&& 0xF8 = 0 → (b ||| 0x01) &&& 0xF8 = 0 ∧ (b ||| 0x04) &&& 0xF8 = 0 := by decide
  cases i with
  | resetRequest => exact { h with context := (bits _ h.context).1 }
  | irqRequest => exact { h with context := (bits _ h.context).2 }
  | keys k => exact { h with }

/-- Any inputs, delivered in order, keep the invariant. -/
theorem State.Inv.foldl_accept {s : State} (h : s.Inv) (inputs : List Input) :
    (inputs.foldl State.accept s).Inv := by
  induction inputs generalizing s with
  | nil => exact h
  | cons i inputs ih => exact ih (h.accept i)

/-- Settles O14: every part of a step is `State.Sound`, and the inputs before it keep the invariant. -/
theorem stepKeepsTheInvariant : Obligations.StepKeepsTheInvariant := by
  refine ⟨fun s t hi h => (State.Sound.step h).inv hi,
    fun inputs s t hi h => (State.Sound.step h).inv (hi.foldl_accept inputs),
    fun _ => rfl, fun _ _ _ => rfl, fun s => ⟨⟨fun k hk => ?_, rfl⟩, ⟨fun k hk => ?_, rfl⟩, fun _ => rfl⟩⟩
  · exact (getLsbD_request s.context hk).1
  · exact (getLsbD_request s.context hk).2

/-! ### Reset -/

/-- Settles O46: every value is read off the reset state; the two vectors and secondary OAM are uniform. -/
theorem resetValues : Obligations.ResetValues := by
  refine ⟨rfl, rfl, rfl, rfl, rfl, rfl, rfl, fun k => ?_, fun k => ?_, rfl, rfl, rfl, rfl, rfl, rfl, rfl, rfl, rfl, rfl, rfl,
    rfl, rfl, rfl, by decide, rfl, rfl, rfl, rfl, rfl, rfl, rfl, fun k => ?_, fun _ => rfl⟩
  · exact Vector.getElem_replicate k.isLt
  · exact Vector.getElem_replicate k.isLt
  · exact Vector.getElem_replicate k.isLt

/-- A pending Reset is serviced before anything else (R405, R411). -/
theorem State.interruptCheck_of_reset {s : State} (h : s.context.getLsbD 0 = true) :
    s.interruptCheck = s.serviceReset.charge 7 := by
  simp [State.interruptCheck, State.dueInterrupt, h]

/-- A CPU step with no DMA pending after the interrupt check runs one instruction (R250, R290). -/
theorem cpuStep_of_dma_inactive {s : State} (h : s.interruptCheck.dmaActive = false) :
    cpuStep s = fetchExecute (s.interruptCheck.setAck dmaSlot .none) := by
  simp [cpuStep, h]

/-- Settles O45: Reset is the one pending interrupt, no DMA is, and the service changes SP, PC, P.I and the context
alone. -/
theorem firstStepAfterPowerOn : Obligations.FirstStepAfterPowerOn := by
  intro i l h hl hh
  have hs : (State.powerOn i).interruptCheck = (State.powerOn i).serviceReset.charge 7 :=
    State.interruptCheck_of_reset (show (0x01 : Byte).getLsbD 0 = true by decide)
  have hd : (State.powerOn i).interruptCheck.dmaActive = false := by
    rw [hs]
    show (IoBank.powerOn.ack[dmaSlot] == Access.write) = false
    decide
  have hio : { IoBank.powerOn with ack := IoBank.powerOn.ack.set dmaSlot.val .none dmaSlot.isLt } = IoBank.powerOn := by
    decide
  have hpc : ((State.powerOn i).vectorTarget resetVector).toNat = h.toNat * 256 + l.toNat :=
    vectorTarget_toNat (w := 0xFFFD) (by decide) (by decide) (by decide) hl hh
  have hcontext : (0x01 : Byte) &&& ~~~0x01 = 0 := by decide
  have hf : ∀ f, flagOf (putFlag i.p .interrupt true) f = if f = .interrupt then true else flagOf i.p f := fun f =>
    (flagOf_putFlag i.p .interrupt f true).trans (by simp only [eq_comm])
  refine ⟨_, cpuStep_of_dma_inactive hd, ?_⟩
  rw [hs]
  exact ⟨rfl, hpc, hf .interrupt, rfl, rfl, rfl, hcontext, rfl, hf, rfl, rfl, rfl, rfl, rfl, rfl, hio, rfl, rfl, rfl⟩

end Sys2Proof.Machine
end

section
/-! PROOFS. What stores into ROM do, on the CPU's side and on the PPU's (R57, R62). -/

namespace Sys2Proof.Machine

/-- A PPU-side store in character memory that is made reads back (R22, R62). -/
theorem ppuWrite_reads_back {s : State} {a : Word} (v : Byte) (hi : s.mapper.Inv s.cfg)
    (h : s.cfg.chrBanks = .zero ∨ s.cfg.romWrite = .store) :
    ∃ t, ppuWrite a v s = .ok t ∧ ppuRead t.cfg t.mapper a = v := by
  refine ⟨s.setMapper (s.mapper.writePpuCell (ppuCell s.cfg a) v), ?_, ppuRead_writePpuCell_same hi⟩
  rw [ppuWrite_eq]
  rcases h with h | h <;> simp [h]

/-- Settles O10: the two policies that store nothing are equations; a store that is made is a cell's, read back under
the invariant. -/
theorem romStoresFollowRomWrite : Obligations.RomStoresFollowRomWrite := by
  intro s a v hi
  refine ⟨fun h8 => ⟨fun hr => ?_, fun hr => ?_, fun hr => ?_⟩, fun hc => ⟨fun hb hr => ?_, fun hb hr => ?_, fun hs => ?_⟩⟩
  · simp [memWrite, cpuCell_prg h8, hr]
  · simp [memWrite, cpuCell_prg h8, hr]
  · have hw : memWrite a v s = .ok (s.writeCell (.prg (a.toNat % prgSize s.cfg)) v) := by
      simp [memWrite, cpuCell_prg h8, hr]
    exact ⟨_, hw, State.reads_writeCell hi.mapper (cpuCell_prg h8), State.memKept_writeCell (cpuCell_prg h8)⟩
  · exact ⟨a &&& 0x3FFF, mask14_toNat a, by simp [ppuWrite_eq, hc, hb, hr]⟩
  · simp [ppuWrite_eq, hc, hb, hr]
  · exact ppuWrite_reads_back v hi.mapper hs

end Sys2Proof.Machine
end

section
/-! PROOFS. The stack instructions and BRK: where they complete and with what result (R220 to R224, R234). -/

namespace Sys2Proof.Machine

/-! ### What each of them answers -/

theorem exec_pha (s : State) : exec .pha s = .next ((s.push s.a).charge 3) := by
  obtain ⟨hc, -⟩ := cost_stack
  rw [← hc]
  rfl

theorem exec_php (s : State) : exec .php s = .next ((s.push (pushedByInstruction s.p)).charge 3) := by
  obtain ⟨-, hc, -⟩ := cost_stack
  rw [← hc]
  rfl

theorem exec_pla (s : State) : exec .pla s = .next (((s.pop.setA s.pulled).setNZ s.pulled).charge 4) := by
  obtain ⟨-, -, hc, -⟩ := cost_stack
  rw [← hc]
  rfl

theorem exec_plp (s : State) : exec .plp s = .next ((s.pop.setP (pulledStatus s.pulled)).charge 4) := by
  obtain ⟨-, -, -, hc, -⟩ := cost_stack
  rw [← hc]
  rfl

theorem exec_brk (s : State) :
    exec .brk s = .next ((s.enter (s.pc + 1) (pushedByInstruction s.p) irqVector).charge 7) := by
  obtain ⟨-, -, -, -, -, -, hc⟩ := cost_stack
  rw [← hc]
  rfl

/-- Counting cycles changes no byte read. -/
theorem State.Reads.charge {s : State} {a : Word} {v : Byte} (h : s.Reads a v) (n : Nat) : (s.charge n).Reads a v := by
  rwa [State.Reads, State.charge_peek]

/-- Settles O28: a push reads back at the old SP, and the byte pulled is the one above it. -/
theorem stackOperationsComplete : Obligations.StackOperationsComplete := by
  refine ⟨fun s hi => ⟨?pha, ?php⟩, fun s b hb => ?pull⟩
  case pha => exact ⟨_, exec_pha s, (State.push_reads hi.mapper _).charge 3, rfl, rfl, rfl, rfl⟩
  case php =>
    exact ⟨_, _, exec_php s, (State.push_reads hi.mapper _).charge 3, rfl, rfl, rfl, rfl, flagOf_pushedByInstruction s.p⟩
  case pull =>
    have hp : s.pulled = b := State.pulled_of_reads hb
    have hpla := exec_pla s
    have hplp := exec_plp s
    rw [hp] at hpla hplp
    exact ⟨⟨_, hpla, rfl, flagsOf_of_setNZ _ b, rfl, rfl, rfl⟩, ⟨_, hplp, rfl, rfl, rfl, flagOf_pulledStatus b⟩⟩

/-- The bytes of a return address, high and low, make it up (R67). -/
theorem hi_lo_toNat (w : Word) : (hi w).toNat * 256 + (lo w).toNat = w.toNat := by
  rw [← wordOf_toNat, wordOf_hi_lo]

/-- Settles O30: BRK is an entry through the IRQ vector, with PC + 1 and P with B and U set. -/
theorem breakCompletes : Obligations.BreakCompletes := by
  intro s l h hi hl hh
  obtain ⟨hrh, hrl, hrp⟩ := State.enter_reads hi.mapper (s.pc + 1) (pushedByInstruction s.p) irqVector
  have hpc : (s.vectorTarget irqVector).toNat = h.toNat * 256 + l.toNat :=
    vectorTarget_toNat (w := 0xFFFF) (by decide) (by decide) (by decide) hl hh
  have hret : (Machine.hi (s.pc + 1)).toNat * 256 + (lo (s.pc + 1)).toNat = (s.pc.toNat + 1) % 65536 := by
    rw [hi_lo_toNat, BitVec.toNat_add]
    rfl
  refine ⟨_, exec_brk s, ?_, ?_, ?_, ⟨_, _, _, hret, hrh.charge 7, hrl.charge 7, hrp.charge 7, ?_⟩, ?_⟩
  · rw [State.charge_pc, State.enter_pc, hpc]
  · rw [State.charge_sp, State.enter_sp]
  · simp [State.flag]
  · exact flagOf_pushedByInstruction s.p
  · simp

end Sys2Proof.Machine
end

section
/-! PROOFS. The frames of the instructions (R11, R16, R137), by what they may change: registers and flags, the byte of
an operand, stack locations. -/

namespace Sys2Proof.Machine

/-! ### Writing registers and flags only -/

/-- `s` with the registers of `u`. -/
def State.withRegisters (s u : State) : State :=
  { s with a := u.a, x := u.x, y := u.y, sp := u.sp, p := u.p, pc := u.pc }

/-- `u` is `s` but for PC, the registers `rs` and the flags `fs`. -/
structure State.OnlyWrites (rs : List Reg) (fs : List Flag) (s u : State) : Prop where
  rest : u = s.withRegisters u
  regs : ∀ r, r ∉ rs → u.reg r = s.reg r
  flags : ∀ f, f ∉ fs → u.flag f = s.flag f

theorem State.withRegisters_peek (s u : State) (b : Word) : (s.withRegisters u).peek b = s.peek b :=
  State.peek_congr rfl (fun c => by cases c <;> rfl) b

theorem State.withRegisters_sameDevices (s u : State) : State.SameDevices s (s.withRegisters u) := by
  constructor <;> rfl

/-- PLP, which loads P, writes every flag (R16); so does RTI. -/
theorem mem_flagsWritten_plp (f : Flag) : f ∈ Instr.plp.flagsWritten := by
  cases f <;> decide

/-- N and Z of a byte are written, and no other flag. -/
theorem State.setNZ_flag_other (s : State) (v : Byte) {f : Flag} (h : f ∉ [Flag.negative, .zero]) :
    (s.setNZ v).flag f = s.flag f := by
  simp only [List.mem_cons, List.not_mem_nil, or_false, not_or] at h
  simp [State.flag, h.1, h.2]

namespace State.OnlyWrites

variable {rs : List Reg} {fs : List Flag} {s u : State}

theorem peek (h : OnlyWrites rs fs s u) (b : Word) : u.peek b = s.peek b := by
  rw [h.rest, State.withRegisters_peek]

theorem io (h : OnlyWrites rs fs s u) : u.io = s.io := by
  rw [h.rest]
  rfl

theorem sameDevices (h : OnlyWrites rs fs s u) : State.SameDevices s u := by
  rw [h.rest]
  exact State.withRegisters_sameDevices s u

theorem setPc (rs : List Reg) (fs : List Flag) (s : State) (w : Word) : OnlyWrites rs fs s (s.setPc w) :=
  ⟨rfl, fun r _ => by cases r <;> rfl, fun _ _ => rfl⟩

theorem refl (rs : List Reg) (fs : List Flag) (s : State) : OnlyWrites rs fs s s := setPc rs fs s s.pc

theorem setA (s : State) (v w : Byte) : OnlyWrites [.a] [.negative, .zero] s ((s.setA v).setNZ w) :=
  ⟨rfl, fun r hr => by cases r <;> simp [State.reg] at hr ⊢, fun _ hf => State.setNZ_flag_other (s.setA v) w hf⟩

theorem setX (s : State) (v w : Byte) : OnlyWrites [.x] [.negative, .zero] s ((s.setX v).setNZ w) :=
  ⟨rfl, fun r hr => by cases r <;> simp [State.reg] at hr ⊢, fun _ hf => State.setNZ_flag_other (s.setX v) w hf⟩

theorem setY (s : State) (v w : Byte) : OnlyWrites [.y] [.negative, .zero] s ((s.setY v).setNZ w) :=
  ⟨rfl, fun r hr => by cases r <;> simp [State.reg] at hr ⊢, fun _ hf => State.setNZ_flag_other (s.setY v) w hf⟩

theorem setSp (s : State) (v : Byte) : OnlyWrites [.sp] [] s (s.setSp v) :=
  ⟨rfl, fun r hr => by cases r <;> simp [State.reg] at hr ⊢, fun _ _ => rfl⟩

theorem setFlag (s : State) (f : Flag) (v : Bool) : OnlyWrites [] [f] s (s.setFlag f v) :=
  ⟨rfl, fun r _ => by cases r <;> rfl, fun g hg => by
    have hne : f ≠ g := fun e => hg (by simp [e])
    simp [State.flag, hne]⟩

/-- Add and subtract (R162, R163). -/
theorem addWithCarry (s : State) (m : Byte) :
    OnlyWrites [.a] [.negative, .zero, .carry, .overflow] s (s.addWithCarry m) :=
  ⟨rfl, fun r hr => by cases r <;> simp [State.reg, State.addWithCarry] at hr ⊢, fun f hf => by
    simp only [List.mem_cons, List.not_mem_nil, or_false, not_or] at hf
    simp [State.flag, State.addWithCarry, flagOf_addStatus, hf]⟩

/-- The compares (R167). -/
theorem compare (s : State) (r m : Byte) : OnlyWrites [] [.negative, .zero, .carry] s (s.compare r m) :=
  ⟨rfl, fun r _ => by cases r <;> rfl, fun f hf => by
    simp only [List.mem_cons, List.not_mem_nil, or_false, not_or] at hf
    simp [State.flag, State.compare, flagOf_compareStatus, hf]⟩

/-- BIT (R170). -/
theorem bitStatus (s : State) (a m : Byte) :
    OnlyWrites [] [.negative, .overflow, .zero] s (s.setP (bitStatus s.p a m)) :=
  ⟨rfl, fun r _ => by cases r <;> rfl, fun f hf => by
    simp only [List.mem_cons, List.not_mem_nil, or_false, not_or] at hf
    simp [State.flag, flagOf_bitStatus, hf]⟩

/-- PLA (R223). -/
theorem pla (s : State) (v : Byte) : OnlyWrites [.a, .sp] [.negative, .zero] s ((s.pop.setA v).setNZ v) :=
  ⟨rfl, fun r hr => by cases r <;> simp [State.reg] at hr ⊢, fun _ hf => State.setNZ_flag_other (s.pop.setA v) v hf⟩

/-- PLP (R224). -/
theorem plp (s : State) (v : Byte) : OnlyWrites [.sp] Instr.plp.flagsWritten s (s.pop.setP v) :=
  ⟨rfl, fun r hr => by cases r <;> simp [State.reg] at hr ⊢, fun f hf => absurd (mem_flagsWritten_plp f) hf⟩

/-- RTS (R203). -/
theorem rts (s : State) (w : Word) : OnlyWrites [.sp] [] s (s.pop.pop.setPc w) :=
  ⟨rfl, fun r hr => by cases r <;> simp [State.reg] at hr ⊢, fun _ _ => rfl⟩

/-- RTI (R236). -/
theorem returnFromInterrupt (s : State) : OnlyWrites [.sp] Instr.plp.flagsWritten s s.returnFromInterrupt :=
  ⟨rfl, fun r hr => by cases r <;> simp [State.reg] at hr ⊢, fun f hf => absurd (mem_flagsWritten_plp f) hf⟩

/-- An instruction has its frame when its effect writes only the registers and flags it may write. -/
theorem frame {i : Instr} (h : OnlyWrites i.regsWritten i.flagsWritten s u) (n : Nat) : i.Frame s (u.charge n) :=
  frame_of_registers h.regs h.flags (fun b => by rw [State.charge_peek, h.peek]) h.io { h.sameDevices with }

end State.OnlyWrites

/-! ### Registers and flags -/

/-- An instruction with no operand has its frame when its effect writes only what the instruction may write. -/
theorem plainInstr_frame {i : Instr} {s t u : State} (h : plainInstr i u = .next t)
    (hw : State.OnlyWrites i.regsWritten i.flagsWritten s u) : i.Frame s t := by
  obtain rfl := Host.Outcome.next.inj h
  exact hw.frame _

/-- An instruction with no operand leaves PC where its effect does. -/
theorem plainInstr_pc {i : Instr} {s t u : State} (h : plainInstr i u = .next t) (hu : u.pc = s.pc) : t.pc = s.pc := by
  obtain rfl := Host.Outcome.next.inj h
  exact hu

/-- Settles O33: each of these instructions is `plainInstr` of an effect that writes its registers and flags alone. -/
theorem registerInstructionsFrame : Obligations.RegisterInstructionsFrame := by
  intro s t i hi h
  cases i
  case txa | tya => exact ⟨plainInstr_frame h (.setA s _ _), plainInstr_pc h rfl⟩
  case tax | tsx | inx | dex => exact ⟨plainInstr_frame h (.setX s _ _), plainInstr_pc h rfl⟩
  case tay | iny | dey => exact ⟨plainInstr_frame h (.setY s _ _), plainInstr_pc h rfl⟩
  case txs => exact ⟨plainInstr_frame h (.setSp s _), plainInstr_pc h rfl⟩
  case clc | sec | cli | sei | cld | sed | clv => exact ⟨plainInstr_frame h (.setFlag s _ _), plainInstr_pc h rfl⟩
  case nop => exact ⟨plainInstr_frame h (.refl _ _ s), plainInstr_pc h rfl⟩
  all_goals simp at hi

/-! ### Reading an operand -/

/-- An instruction that reads an operand has its frame when what follows the load writes only what the instruction may
write. -/
theorem readInstr_frame {i : Instr} {o : ReadOperand} {s t : State} {k : Byte → State → State}
    (h : readInstr i o s k = .next t) (ha : i.accesses s = o.addrs s)
    (hk : ∀ v u, State.OnlyWrites i.regsWritten i.flagsWritten u (k v u)) (hpc : ∀ v u, (k v u).pc = u.pc) :
    i.Frame s t ∧ t.pc = s.pc := by
  rcases readInstr_cases i o s k with ⟨v, -, h'⟩ | ⟨a, -, -, h'⟩
  · rw [h'] at h
    obtain rfl := Host.Outcome.next.inj h
    have hw := hk v (o.loaded s)
    exact ⟨frame_of_read _ ha hw.regs hw.flags hw.peek hw.io hw.sameDevices, (hpc v _).trans (o.loaded_pc s)⟩
  · rw [h'] at h
    cases h

/-- Settles O34: after the load, each of these instructions writes a register or flags alone. -/
theorem readingInstructionsFrame : Obligations.ReadingInstructionsFrame := by
  intro s t o m i hi h
  cases i
  case lda | and | ora | eor => exact readInstr_frame h rfl (fun _ u => .setA u _ _) (fun _ _ => rfl)
  case ldx => exact readInstr_frame h rfl (fun _ u => .setX u _ _) (fun _ _ => rfl)
  case ldy => exact readInstr_frame h rfl (fun _ u => .setY u _ _) (fun _ _ => rfl)
  case adc | sbc => exact readInstr_frame h rfl (fun _ u => .addWithCarry u _) (fun _ _ => rfl)
  case cmp | cpx | cpy => exact readInstr_frame h rfl (fun _ u => .compare u _ _) (fun _ _ => rfl)
  case bit => exact readInstr_frame (o := .mem _) h rfl (fun _ u => .bitStatus u _ _) (fun _ _ => rfl)
  all_goals simp at hi

/-! ### Storing an operand -/

/-- An instruction that only stores has the frame of its store. -/
theorem storeInstr_frame {i : Instr} {m : MemOperand} {v : Byte} {s t : State} (hs : i.stores s = [m.ea s])
    (ha : i.accesses s = [m.ea s]) (h : storeInstr i m v s = .next t) : i.Frame s t ∧ t.pc = s.pc := by
  rcases storeInstr_cases i m v s with ⟨u, hu, h'⟩ | ⟨-, h'⟩ | ⟨-, -, h'⟩
  · rw [h'] at h
    obtain rfl := Host.Outcome.next.inj h
    exact frame_of_store hs ha hu
  · rw [h'] at h
    cases h
  · rw [h'] at h
    cases h

/-- Settles O35: the stores write no register or flag; the others are read-modify-write, with a carry out where they
shift. -/
theorem storingInstructionsFrame : Obligations.StoringInstructionsFrame := by
  intro s t o m i hi h
  cases i
  case sta | stx | sty => exact storeInstr_frame rfl rfl h
  case inc m | dec m =>
    exact frame_of_rmw (o := .mem m) (c := none) rfl rfl rfl (fun f hf => by cases f <;> simp [Instr.flagsWritten] at hf ⊢) h
  case asl o | lsr o | rol o | ror o =>
    exact frame_of_rmw (o := o) (c := some _) rfl rfl rfl (fun f hf => by cases f <;> simp [Instr.flagsWritten] at hf ⊢) h
  all_goals simp at hi

/-! ### The stack and control transfer -/

/-- A pushed word leaves every cell but those of its two stack locations (R14, R67). -/
theorem State.pushWord_memKept (s : State) (w : Word) :
    State.MemKept [stackAddr s.sp, stackAddr (s.sp - 1)] s (s.pushWord w) := by
  have hfirst := State.push_memKept s (hi w)
  have hsecond := State.push_memKept (s.push (hi w)) (lo w)
  exact State.MemKept.trans (State.push_cfg s (hi w)) hfirst hsecond

/-- A push writes no register but SP. -/
theorem State.push_reg_other (s : State) (v : Byte) {r : Reg} (h : r ∉ [Reg.sp]) : (s.push v).reg r = s.reg r := by
  cases r <;> simp [State.reg] at h ⊢

/-- A push instruction has the frame of its push. -/
theorem pushInstr_frame {i : Instr} {s t : State} {v : Byte} (h : plainInstr i (s.push v) = .next t)
    (hr : i.regsWritten = [.sp]) (hs : i.stores s = [stackAddr s.sp]) : i.Frame s t ∧ t.pc = s.pc := by
  obtain rfl := Host.Outcome.next.inj h
  refine ⟨⟨fun r hr' => State.push_reg_other s v (hr ▸ hr'), fun _ _ => rfl, fun b hb => ?_, fun _ _ => rfl,
    by constructor <;> rfl⟩, rfl⟩
  rw [State.charge_peek]
  exact State.push_memKept s v b (hs ▸ hb)

theorem exec_jsr_frame {s t : State} {w : Word} (h : exec (.jsr w) s = .next t) : (Instr.jsr w).Frame s t := by
  obtain rfl := Host.Outcome.next.inj h
  refine ⟨fun r hr => ?_, fun _ _ => rfl, fun b hb => ?_, fun _ _ => rfl, by constructor <;> rfl⟩
  · exact (State.push_reg_other (s.push (hi (s.pc - 1))) (lo (s.pc - 1)) hr).trans (State.push_reg_other s _ hr)
  · rw [State.charge_peek, State.setPc_peek]
    exact State.pushWord_memKept s (s.pc - 1) b hb

theorem exec_brk_frame {s t : State} (h : exec .brk s = .next t) : Instr.brk.Frame s t := by
  rw [exec_brk] at h
  obtain rfl := Host.Outcome.next.inj h
  refine ⟨fun r hr => ?_, fun f hf => ?_, fun b hb => ?_, fun _ _ => ?_, by constructor <;> simp⟩
  · cases r <;> simp [State.reg, Instr.regsWritten] at hr ⊢
  · have hne : Flag.interrupt ≠ f := fun e => hf (by simp [Instr.flagsWritten, e])
    simp [State.flag, hne]
  · rw [State.charge_peek]
    exact State.enter_memKept s _ _ _ b hb
  · simp

/-- JMP writes PC alone, and touches the acknowledgments of its pointer. -/
theorem exec_jmp_frame {s t : State} {j : JumpOperand} (h : exec (.jmp j) s = .next t) : (Instr.jmp j).Frame s t := by
  simp only [exec, execJmp] at h
  rcases jumpTarget_cases j s with ⟨w, u, hj, -, hr, hp, -, hm, hd, ha⟩ | ⟨a, -, -, left, hj, -⟩
  · rw [hj] at h
    obtain rfl := Host.Outcome.next.inj h
    refine ⟨fun r _ => ?_, fun f _ => ?_, fun b _ => ?_, fun sl hs => ha sl hs, { hd with }⟩
    · rw [← hr r]
      cases r <;> rfl
    · simp [State.flag, hp]
    · simp [hm]
  · rw [hj] at h
    cases h

/-- A branch writes PC alone. -/
theorem branchInstr_frame {i : Instr} {c : Bool} {d : Byte} {s t : State} (h : branchInstr c d s = .next t) :
    i.Frame s t := by
  obtain ⟨w, n, -, h'⟩ := branchInstr_cases c d s
  rw [h'] at h
  obtain rfl := Host.Outcome.next.inj h
  exact (State.OnlyWrites.setPc i.regsWritten i.flagsWritten s w).frame _

/-- Settles O36: JSR, BRK, PHA and PHP push; the others read the stack or a pointer and write registers alone. -/
theorem stackAndControlInstructionsFrame : Obligations.StackAndControlInstructionsFrame := by
  intro s t j w d i hi h
  cases i
  case pha | php => exact (pushInstr_frame h rfl rfl).imp_right fun hpc _ => hpc
  case pla => exact ⟨plainInstr_frame h (.pla s _), fun _ => plainInstr_pc h rfl⟩
  case plp => exact ⟨plainInstr_frame h (.plp s _), fun _ => plainInstr_pc h rfl⟩
  case jmp => exact ⟨exec_jmp_frame h, by simp⟩
  case jsr => exact ⟨exec_jsr_frame h, by simp⟩
  case brk => exact ⟨exec_brk_frame h, by simp⟩
  case rts => exact ⟨plainInstr_frame h (.rts s _), by simp⟩
  case rti => exact ⟨plainInstr_frame h (.returnFromInterrupt s), by simp⟩
  case bcc | bcs | beq | bne | bmi | bpl | bvc | bvs => exact ⟨branchInstr_frame h, by simp⟩
  all_goals simp at hi

end Sys2Proof.Machine
end

section
/-! PROOFS. The CPU and the PPU address spaces: which addresses share a cell and which a slot (R51 to R58, R61 to R65,
R281), and what an access to the unmapped window does (R53). -/

namespace Sys2Proof.Machine

/-! ### RAM, save-RAM and program ROM -/

theorem toNat_le_of_cpuCell_ram {cfg : Config} {b : Word} {i : Nat} (h : cpuCell cfg b = some (.ram i)) :
    b.toNat ≤ 0x1FFF := by
  rcases cpuCell_kind cfg b with ⟨j, -, hb⟩ | ⟨j, hj, -⟩ | ⟨j, hj, -⟩ | ⟨hn, -⟩
  · exact hb
  · simp [h] at hj
  · simp [h] at hj
  · exact absurd h (hn i).1

theorem toNat_mem_of_cpuCell_sram {cfg : Config} {b : Word} {i : Nat} (h : cpuCell cfg b = some (.sram i)) :
    0x6000 ≤ b.toNat ∧ b.toNat ≤ 0x7FFF := by
  rcases cpuCell_kind cfg b with ⟨j, hj, -⟩ | ⟨j, -, hb⟩ | ⟨j, hj, -⟩ | ⟨hn, -⟩
  · simp [h] at hj
  · exact hb
  · simp [h] at hj
  · exact absurd h (hn i).2.1

/-- An address with no acknowledgment slot is accessed with no side effect (R55). -/
theorem State.touch_of_no_slot {a : Word} (h : ackSlot a = none) (s : State) (k : Access) : s.touch a k = s := by
  simp [State.touch, h]

theorem State.canLoad_of_mapped (s : State) {a : Word} (h : a.toNat ≤ 0x401F ∨ 0x6000 ≤ a.toNat) : s.CanLoad a :=
  fun _ _ => by omega

theorem State.canStore_of_register (s : State) {a : Word} (h : a.toNat ≤ 0x401F) : s.CanStore a :=
  ⟨s.canLoad_of_mapped (.inl h), fun _ => by omega⟩

/-- Reading an address with a cell and no acknowledgment slot changes nothing. -/
theorem memRead_of_no_slot {s : State} {a : Word} (hl : s.CanLoad a) (hs : ackSlot a = none) :
    ∃ v, memRead a s = .ok (v, s) := by
  obtain ⟨v, hv⟩ := State.canLoad_iff_reads.1 hl
  exact ⟨v, by rw [memRead_of_reads hv, State.touch_of_no_slot hs]⟩

/-- Two addresses of RAM, of save-RAM and of program ROM share a cell as their offsets say (R51, R54, R56). -/
theorem State.sameCell_ram_iff {s : State} {a b : Word} (ha : a.toNat ≤ 0x1FFF) (hb : b.toNat ≤ 0x1FFF) :
    s.SameCell a b ↔ a.toNat % 0x800 = b.toNat % 0x800 := by
  simp [State.SameCell, cpuCell_ram ha, cpuCell_ram hb]

theorem State.sameCell_sram_iff {s : State} {a b : Word} (ha : 0x6000 ≤ a.toNat) (ha' : a.toNat ≤ 0x7FFF)
    (hb : 0x6000 ≤ b.toNat) (hb' : b.toNat ≤ 0x7FFF) : s.SameCell a b ↔ a = b := by
  simp only [State.SameCell, cpuCell_sram ha ha', cpuCell_sram hb hb', Option.some.injEq, CpuCell.sram.injEq,
    ← BitVec.toNat_inj]
  omega

theorem State.sameCell_prg_iff {s : State} {a b : Word} (ha : 0x8000 ≤ a.toNat) (hb : 0x8000 ≤ b.toNat) :
    s.SameCell a b ↔ a.toNat % prgSize s.cfg = b.toNat % prgSize s.cfg := by
  simp [State.SameCell, cpuCell_prg ha, cpuCell_prg hb]

/-- Settles O7: each memory's cells are given by the address's offset, and an address that has one lies in the memory's
own range. -/
theorem cpuMirrors : Obligations.CpuMirrors := by
  intro s a b
  refine ⟨State.sameCell_ram_iff, State.sameCell_sram_iff, fun ha hb h1 => ?one, fun ha hb h2 => ?two, fun ha hb h => ?ram,
    fun ha ha' hb h => ?sram, fun ha hb h => ?prg, fun ha => ?access⟩
  case one => rw [State.sameCell_prg_iff ha hb, prgSize, h1]
  case two =>
    have halt := a.isLt
    have hblt := b.isLt
    rw [State.sameCell_prg_iff ha hb, prgSize, h2, ← BitVec.toNat_inj]
    show a.toNat % 0x8000 = b.toNat % 0x8000 ↔ _
    omega
  case ram =>
    have := toNat_le_of_cpuCell_ram (h.symm.trans (cpuCell_ram ha))
    omega
  case sram =>
    have := toNat_mem_of_cpuCell_sram (h.symm.trans (cpuCell_sram ha ha'))
    omega
  case prg =>
    have := (cpuCell_prg_iff.1 (h.symm.trans (cpuCell_prg ha))).1
    omega
  case access =>
    have hs : ackSlot a = none := ackSlot_none (by omega)
    exact ⟨memRead_of_no_slot (s.canLoad_of_mapped (by omega)) hs, hs⟩

/-! ### The register window -/

theorem ioOffset_eq_iff {a : Word} {k : Nat} (h : 0x4000 ≤ a.toNat) (hk : k < 0x20) :
    a.toNat - 0x4000 = k ↔ a = BitVec.ofNat 16 (0x4000 + k) := by
  rw [← BitVec.toNat_inj, BitVec.toNat_ofNat]
  omega

/-- The cell of an address of `$4000–$401F`, by the address (R58). -/
theorem ioCell_of_addr {a : Word} (h : 0x4000 ≤ a.toNat) :
    ioCell (a.toNat - 0x4000) =
      if a = 0x4014 then .dmareg else if a = 0x4016 then .joy1 else if a = 0x4017 then .joy2 else .dummy := by
  simp only [ioCell, ioOffset_eq_iff h (show 0x14 < 0x20 by decide), ioOffset_eq_iff h (show 0x16 < 0x20 by decide),
    ioOffset_eq_iff h (show 0x17 < 0x20 by decide)]
  rfl

theorem ioOffset_mem_iff {a : Word} (h : 0x4000 ≤ a.toNat) :
    a.toNat - 0x4000 ∈ [0x14, 0x16, 0x17] ↔ a ∈ [0x4014, 0x4016, 0x4017] := by
  simp only [List.mem_cons, List.not_mem_nil, or_false, ioOffset_eq_iff h (show 0x14 < 0x20 by decide),
    ioOffset_eq_iff h (show 0x16 < 0x20 by decide), ioOffset_eq_iff h (show 0x17 < 0x20 by decide)]
  rfl

/-- The byte read at an address is that of its cell. -/
theorem State.peek_of_cell {s : State} {a : Word} {c : CpuCell} (h : cpuCell s.cfg a = some c) :
    s.peek a = some (s.readCell c) := by
  simp [State.peek, h]

/-- Settles O8: the two windows' cells and slots are given by the address's offset modulo 8 or from `$4000`. -/
theorem registerWindow : Obligations.RegisterWindow := by
  intro s a b
  refine ⟨fun k ha ha' hk => ?reg, fun ha ha' => ?io, fun ha ha' hb hb' => ⟨?regCell, ?regSlot⟩,
    fun ha ha' hb hb' => ⟨?ioCells, ?ioSlot⟩, fun ha ha' hb hb' => ⟨?apart, ?slotsApart⟩, fun ha ha' => ?access⟩
  case reg =>
    have e : Fin.ofNat 8 a.toNat = k := Fin.ext hk
    have hc : cpuCell s.cfg a = some (.ioreg k) := e ▸ cpuCell_ioreg ha ha'
    exact ⟨hc, State.peek_of_cell hc, _, ackSlot_ioreg ha ha', by simp; omega⟩
  case io =>
    have hc := cpuCell_io (cfg := s.cfg) ha ha'
    rw [ioCell_of_addr ha] at hc
    refine ⟨hc, ?_, _, ackSlot_io ha ha', Nat.mod_eq_of_lt (by omega)⟩
    rw [State.peek_of_cell hc]
    congr 1
    split
    · rfl
    split
    · rfl
    split <;> rfl
  case regCell =>
    simp [State.SameCell, cpuCell_ioreg ha ha', cpuCell_ioreg hb hb', Fin.ofNat, Fin.ext_iff]
  case regSlot =>
    rw [ackSlot_ioreg ha ha', ackSlot_ioreg hb hb', Option.some.injEq, slot_eq_iff (by omega) (by omega)]
  case ioCells =>
    rw [State.SameCell, cpuCell_io ha ha', cpuCell_io hb hb', Option.some.injEq, ioCell_eq_iff (by omega) (by omega),
      ioOffset_mem_iff ha, ioOffset_mem_iff hb, ← BitVec.toNat_inj]
    exact or_congr_left (by omega)
  case ioSlot =>
    rw [ackSlot_io ha ha', ackSlot_io hb hb', Option.some.injEq, slot_eq_iff (by omega) (by omega), ← BitVec.toNat_inj]
    omega
  case apart =>
    rw [State.SameCell, cpuCell_ioreg ha ha', cpuCell_io hb hb', Option.some.injEq]
    exact ioreg_ne_ioCell _ _
  case slotsApart =>
    rw [ackSlot_ioreg ha ha', ackSlot_io hb hb', Ne, Option.some.injEq, slot_eq_iff (by omega) (by omega)]
    omega
  case access =>
    refine ⟨s.canLoad_of_mapped (.inl ha'), s.canStore_of_register ha', ?_⟩
    rcases Nat.lt_or_ge a.toNat 0x4000 with h | h
    · rw [ackSlot_ioreg ha (Nat.le_of_lt_succ h)]
      exact Option.some_ne_none _
    · rw [ackSlot_io h ha']
      exact Option.some_ne_none _

/-! ### The unmapped window -/

/-- A fetch whose opcode byte cannot be read is that read's fault (R252). -/
theorem fetchExecute_of_error {s : State} {f : Fault} (h : memRead s.pc s = .error f) : fetchExecute s = .fault f := by
  simp [fetchExecute, fetch, h, bind, Except.bind]

/-- Settles O9: under `fault` the window has no cell; under `dummy` its cell is that of `$4000`. -/
theorem unmappedWindow : Obligations.UnmappedWindow := by
  intro s a v ha ha'
  refine ⟨fun hu => ?fault, fun hu => ?dummy⟩
  case fault =>
    have hc : cpuCell s.cfg a = none := cpuCell_eq_none_iff.2 ⟨ha, ha', hu⟩
    have hr : memRead a s = .error (.unmappedAccess a s) := by simp [memRead, State.peek, hc]
    exact ⟨hr, by simp [memWrite, hc], fun hpc => fetchExecute_of_error (hpc ▸ hr)⟩
  case dummy =>
    exact ⟨(cpuCell_unmapped ha ha' hu).trans cpuCell_dummy.symm, ackSlot_none (.inr ha), fun _ _ => hu, fun _ _ => hu,
      fun _ => by omega⟩

/-! ### The PPU address space -/

theorem ppuCell_of_chr (cfg : Config) {a : Word} (h : a.toNat ≤ 0x1FFF) : ppuCell cfg a = .chr a.toNat := by
  have e : a.toNat % 0x4000 = a.toNat := Nat.mod_eq_of_lt (by omega)
  rw [ppuCell_chr (by omega), e]

theorem ppuCell_vram_horizontal {cfg : Config} {a : Word} (hm : cfg.mirroring = .horizontal) (h : 0x2000 ≤ a.toNat)
    (h' : a.toNat ≤ 0x3EFF) : ppuCell cfg a = .vram (a.toNat / 0x800 % 2 * 0x400 + a.toNat % 0x400) := by
  rw [ppuCell_vram h h', hm, vramHalf]

theorem ppuCell_vram_vertical {cfg : Config} {a : Word} (hm : cfg.mirroring = .vertical) (h : 0x2000 ≤ a.toNat)
    (h' : a.toNat ≤ 0x3EFF) : ppuCell cfg a = .vram (a.toNat % 0x800) := by
  rw [ppuCell_vram h h', hm, vramHalf]
  congr 1
  omega

/-- The palette's aliases in terms of the address (R65). -/
theorem ppuCell_of_palette (cfg : Config) {a : Word} (h : 0x3F00 ≤ a.toNat) (h' : a.toNat ≤ 0x3FFF) :
    ppuCell cfg a = .palette (if a.toNat % 4 = 0 then a.toNat % 16 else a.toNat % 32) := by
  rw [ppuCell_palette h h', paletteIndex]
  congr 1
  split <;> split <;> omega

/-- Settles O12: each area has its own kind of cell, with the index its rule gives. -/
theorem ppuMirrors : Obligations.PpuMirrors := by
  intro cfg a b
  refine ⟨(ppuCell_mask cfg a).symm,
    fun ha => ⟨ppuCell_of_chr cfg ha, fun m => ?chrRead, fun hb => ?chr, fun hb hb' => ?chrApart⟩,
    fun ha ha' => ⟨fun hm => ppuCell_vram_horizontal hm ha ha', fun hm => ppuCell_vram_vertical hm ha ha',
      fun hb hb' => ?vramApart⟩,
    fun ha ha' hb hb' => ⟨fun hm => ?horizontal, fun hm => ?vertical⟩, ppuCell_of_palette cfg, fun ha ha' hb hb' => ?palette⟩
  case chrRead => rw [ppuRead, ppuCell_of_chr cfg ha]
  case chr => rw [ppuCell_of_chr cfg ha, ppuCell_of_chr cfg hb, PpuCell.chr.injEq, BitVec.toNat_inj]
  case chrApart =>
    rw [ppuCell_of_chr cfg ha]
    rcases Nat.lt_or_ge b.toNat 0x3F00 with h | h
    · simp [ppuCell_vram hb (Nat.le_of_lt_succ h)]
    · simp [ppuCell_palette h hb']
  case vramApart => simp [ppuCell_vram ha ha', ppuCell_palette hb hb']
  case horizontal =>
    rw [ppuCell_vram_horizontal hm ha ha', ppuCell_vram_horizontal hm hb hb', PpuCell.vram.injEq]
    omega
  case vertical => rw [ppuCell_vram_vertical hm ha ha', ppuCell_vram_vertical hm hb hb', PpuCell.vram.injEq]
  case palette =>
    rw [ppuCell_of_palette cfg ha ha', ppuCell_of_palette cfg hb hb', PpuCell.palette.injEq]
    split <;> split <;> omega

end Sys2Proof.Machine
end

section
/-! PROOFS. Logic, the compares and BIT complete on every operand that can be read (R160, R164 to R170). -/

namespace Sys2Proof.Machine

/-- An instruction that computes A from A and its operand, with N and Z of the result (R164 to R166). -/
theorem logicInstr_completes {i : Instr} {o : ReadOperand} {s : State} {v : Byte} (f : Byte → Byte → Byte)
    (h : o.Is s v) :
    ∃ t, readInstr i o s (fun m u => (u.setA (f u.a m)).setNZ (f u.a m)) = .next t ∧ t.a = f s.a v ∧ t.FlagsOf t.a ∧
      (∀ a ∈ o.addrs s, State.Acknowledged a .read s t) ∧ t.cyc = s.cyc + i.cost (o.crossed s) :=
  ⟨_, readInstr_of_is _ h, by simp, flagsOf_of_setNZ _ _, ReadOperand.loaded_ack, by simp⟩

/-- Settles O20: the three differ in the operation on bytes alone, which is bitwise. -/
theorem logicCompletes : Obligations.LogicCompletes := by
  intro s o v h
  obtain ⟨t1, hand, ha1, hrest1⟩ := logicInstr_completes (i := .and o) (· &&& ·) h
  obtain ⟨t2, hora, ha2, hrest2⟩ := logicInstr_completes (i := .ora o) (· ||| ·) h
  obtain ⟨t3, heor, ha3, hrest3⟩ := logicInstr_completes (i := .eor o) (· ^^^ ·) h
  exact ⟨⟨t1, hand, fun k => by rw [ha1, BitVec.getLsbD_and], hrest1⟩,
    ⟨t2, hora, fun k => by rw [ha2, BitVec.getLsbD_or], hrest2⟩,
    ⟨t3, heor, fun k => by rw [ha3, BitVec.getLsbD_xor], hrest3⟩⟩

/-- N of a compare is bit 7 of the difference modulo 256 (R167). -/
theorem getLsbD_sub_top (r v : Byte) : (r - v).getLsbD 7 = true ↔ 128 ≤ ((r.toNat : Int) - v.toNat) % 256 := by
  have hr := r.isLt
  have hv := v.isLt
  rw [testBit_top, decide_eq_true_eq, BitVec.toNat_sub]
  omega

/-- A compare with the register `r` (R167 to R169). -/
theorem compareInstr_completes {i : Instr} {o : ReadOperand} {s : State} {v : Byte} {r : State → Byte}
    (hr : r (o.loaded s) = r s) (h : o.Is s v) :
    ∃ t, readInstr i o s (fun m u => u.compare (r u) m) = .next t ∧ (t.flag .carry = true ↔ v.toNat ≤ (r s).toNat) ∧
      (t.flag .zero = true ↔ r s = v) ∧ (t.flag .negative = true ↔ 128 ≤ (((r s).toNat : Int) - v.toNat) % 256) ∧
      (∀ a ∈ o.addrs s, State.Acknowledged a .read s t) ∧ t.cyc = s.cyc + i.cost (o.crossed s) := by
  refine ⟨_, readInstr_of_is _ h, ?carry, ?zero, ?negative, ReadOperand.loaded_ack, by simp [State.compare]⟩
  case carry => simp [State.flag, State.compare, flagOf_compareStatus, hr]
  case zero => simp [State.flag, State.compare, flagOf_compareStatus, hr]
  case negative =>
    rw [← getLsbD_sub_top]
    simp [State.flag, State.compare, flagOf_compareStatus, hr]

/-- The and of two bytes is zero exactly when no bit is set in both. -/
theorem and_eq_zero_iff_bits (a v : Byte) : a &&& v = 0 ↔ ∀ k, (a.getLsbD k && v.getLsbD k) = false := by
  simp only [← BitVec.getLsbD_and]
  constructor
  · intro h k
    rw [h]
    exact BitVec.getLsbD_zero
  · exact fun h => BitVec.eq_of_getLsbD_eq fun k _ => (h k).trans BitVec.getLsbD_zero.symm

/-- BIT takes Z from the and, N and V from the operand (R170). -/
theorem exec_bit_completes {s : State} {m : MemOperand} {v : Byte} (h : s.Reads (m.ea s) v) :
    ∃ t, exec (.bit m) s = .next t ∧ (t.flag .zero = true ↔ ∀ k, (s.a.getLsbD k && v.getLsbD k) = false) ∧
      t.flag .negative = v.getLsbD 7 ∧ t.flag .overflow = v.getLsbD 6 ∧
      State.Acknowledged (m.ea s) .read s t ∧ t.cyc = s.cyc + (Instr.bit m).cost (m.crossed s) := by
  have hack : State.Acknowledged (m.ea s) .read s ((ReadOperand.mem m).loaded s) :=
    ReadOperand.loaded_ack _ (List.mem_singleton_self _)
  refine ⟨_, readInstr_of_is (o := .mem m) _ h, ?zero, ?negative, ?overflow, hack, by simp [ReadOperand.crossed]⟩
  case zero =>
    rw [← and_eq_zero_iff_bits]
    simp [State.flag, flagOf_bitStatus]
  case negative => simp [State.flag, flagOf_bitStatus]
  case overflow => simp [State.flag, flagOf_bitStatus]

/-- Settles O21: the three compares differ in the register alone, which the read of the operand leaves as it is. -/
theorem comparesComplete : Obligations.ComparesComplete := by
  refine ⟨fun s o v h p hp => ?_, fun s m v h => exec_bit_completes h⟩
  simp only [List.mem_cons, List.not_mem_nil, or_false] at hp
  rcases hp with rfl | rfl | rfl
  · exact compareInstr_completes (r := State.a) (o.loaded_a s) h
  · exact compareInstr_completes (r := State.x) (o.loaded_x s) h
  · exact compareInstr_completes (r := State.y) (o.loaded_y s) h

end Sys2Proof.Machine
end

section
/-! PROOFS. Where instructions fault (R53, R57, R106, R412), by their shapes: reading, storing, read-modify-write. -/

namespace Sys2Proof.Machine

/-- In `s` the instruction completes, or faults in one of the spec's three cases, with nothing stored, PC past it and no
cycle charged: what O37 states of every instruction and state (log entry 7). -/
def FaultsOnlyAsSpecified (i : Instr) (s : State) : Prop :=
  (∃ t, exec i s = .next t) ∨
    (∃ opcode, i = .und opcode ∧ exec i s = .fault (.decodeFault opcode s)) ∨
    (∃ a ∈ i.accesses s, ¬s.CanLoad a ∧ ∃ left, exec i s = .fault (.unmappedAccess a left) ∧
      left.mapper = s.mapper ∧ left.pc = s.pc ∧ left.cyc = s.cyc) ∨
    (∃ a ∈ i.stores s, 0x8000 ≤ a.toNat ∧ s.cfg.romWrite = .fault ∧ ∃ left, exec i s = .fault (.romWrite a left) ∧
      left.mapper = s.mapper ∧ left.pc = s.pc ∧ left.cyc = s.cyc)

namespace FaultsOnlyAsSpecified

variable {i : Instr} {s : State}

theorem of_next {t : State} (h : exec i s = .next t) : FaultsOnlyAsSpecified i s := .inl ⟨t, h⟩

theorem of_unmapped {a : Word} {left : State} (ha : a ∈ i.accesses s) (hl : ¬s.CanLoad a)
    (h : exec i s = .fault (.unmappedAccess a left))
    (hleft : left.mapper = s.mapper ∧ left.pc = s.pc ∧ left.cyc = s.cyc) : FaultsOnlyAsSpecified i s :=
  .inr (.inr (.inl ⟨a, ha, hl, left, h, hleft⟩))

theorem of_romWrite {a : Word} {left : State} (ha : a ∈ i.stores s) (h8 : 0x8000 ≤ a.toNat)
    (hr : s.cfg.romWrite = .fault) (h : exec i s = .fault (.romWrite a left))
    (hleft : left.mapper = s.mapper ∧ left.pc = s.pc ∧ left.cyc = s.cyc) : FaultsOnlyAsSpecified i s :=
  .inr (.inr (.inr ⟨a, ha, h8, hr, left, h, hleft⟩))

/-- Reading an operand faults where its address has no cell. -/
theorem of_read {o : ReadOperand} {k : Byte → State → State} (he : exec i s = readInstr i o s k)
    (ha : i.accesses s = o.addrs s) : FaultsOnlyAsSpecified i s := by
  rcases readInstr_cases i o s k with ⟨v, -, h⟩ | ⟨a, hm, hl, h⟩
  · exact of_next (he.trans h)
  · exact of_unmapped (ha ▸ hm) hl (he.trans h) ⟨rfl, rfl, rfl⟩

/-- Storing faults where the address has no cell, or in program ROM under the policy `fault`. -/
theorem of_store {m : MemOperand} {v : Byte} (he : exec i s = storeInstr i m v s) (ha : i.accesses s = [m.ea s])
    (hs : i.stores s = [m.ea s]) : FaultsOnlyAsSpecified i s := by
  rcases storeInstr_cases i m v s with ⟨t, -, h⟩ | ⟨hl, h⟩ | ⟨h8, hr, h⟩
  · exact of_next (he.trans h)
  · exact of_unmapped (by simp [ha]) hl (he.trans h) ⟨rfl, rfl, rfl⟩
  · exact of_romWrite (by simp [hs]) h8 hr (he.trans h) ⟨rfl, rfl, rfl⟩

/-- Reading and writing back faults at the read where the address has no cell, or at the write in program ROM; by then
only P.C and the read's acknowledgment have changed. -/
theorem of_rmw {o : RmwOperand} {c : Option (Byte → Bool)} {r : Byte → Byte} (he : exec i s = rmwInstr i o s c r)
    (ha : i.accesses s = o.addrs s) (hs : i.stores s = o.addrs s) : FaultsOnlyAsSpecified i s := by
  rcases rmwInstr_cases i o s c r with ⟨v, t, -, -, h⟩ | ⟨a, hm, hl, h⟩ | ⟨v, a, hm, -, h8, hr, h⟩
  · exact of_next (he.trans h)
  · exact of_unmapped (ha ▸ hm) hl (he.trans h) ⟨rfl, rfl, rfl⟩
  · exact of_romWrite (hs ▸ hm) h8 hr (he.trans h) ⟨by simp, by simp, by simp⟩

/-- A branch accesses no memory. -/
theorem of_branch {c : Bool} {d : Byte} (he : exec i s = branchInstr c d s) : FaultsOnlyAsSpecified i s := by
  obtain ⟨w, n, -, h⟩ := branchInstr_cases c d s
  exact of_next (he.trans h)

/-- JMP faults where a byte of its pointer has no cell (R130). -/
theorem jmp (j : JumpOperand) (s : State) : FaultsOnlyAsSpecified (.jmp j) s := by
  rcases jumpTarget_cases j s with ⟨w, u, h, -⟩ | ⟨a, ha, hl, left, h, hleft⟩
  · have he : exec (.jmp j) s = plainInstr (.jmp j) (u.setPc w) := by simp [exec, execJmp, h]
    exact of_next he
  · exact of_unmapped ha hl (by simp [exec, execJmp, h]) hleft

end FaultsOnlyAsSpecified

/-- Settles O37: what an instruction can do is what its shape can do. -/
theorem instructionsFaultOnlyWhereTheSpecSays : Obligations.InstructionsFaultOnlyWhereTheSpecSays := by
  intro i s
  show FaultsOnlyAsSpecified i s
  cases i
  case lda | ldx | ldy | adc | sbc | and | ora | eor | cmp | cpx | cpy => exact .of_read rfl rfl
  case bit m => exact .of_read (o := .mem m) rfl rfl
  case sta | stx | sty => exact .of_store rfl rfl rfl
  case inc m | dec m => exact .of_rmw (o := .mem m) (c := none) rfl rfl rfl
  case asl | lsr | rol | ror => exact .of_rmw (c := some _) rfl rfl rfl
  case jmp j => exact .jmp j s
  case bcc | bcs | beq | bne | bmi | bpl | bvc | bvs => exact .of_branch rfl
  case und opcode => exact .inr (.inl ⟨opcode, rfl, rfl⟩)
  all_goals exact .of_next rfl

end Sys2Proof.Machine
end

section
/-! PROOFS. The PPU's data port and OAM data (R57, R310, R323, R326, R327). -/

namespace Sys2Proof.Machine

/-- Bumping `v` changes no other field of the PPU. -/
theorem Ppu.bumpV_eq (p : Ppu) : p.bumpV = { p with v := p.bumpV.v } := rfl

/-- A read of `$2007`, once polled (R327). -/
theorem manageRegister_data_read {s : State} (h : s.io.ack[ppuSlot 7] = .read) :
    manageRegister 7 s = .ok (s.setAck (ppuSlot 7) .none).readData := by
  simp only [manageRegister, State.takeAck, h, State.registerEffect]
  rfl

/-- Loading the cell of `$2007` and moving `v` leaves alone what polling does. -/
theorem State.Polled.readData {slot : Fin 40} {s t : State} (h : State.Polled slot s t) :
    State.Polled slot s t.readData :=
  h.of_effect (by constructor <;> rfl) rfl rfl rfl rfl rfl rfl rfl rfl rfl rfl rfl rfl

/-- The cells after a read of `$2007` (R327). -/
theorem State.readData_ioreg (s : State) (k : Fin 8) :
    s.readData.io.ioreg[k] = if k = 7 then ppuRead s.cfg s.mapper s.ppu.dataAddr else s.io.ioreg[k] := by
  show (s.io.ioreg.set 7 (ppuRead s.cfg s.mapper s.ppu.dataAddr))[k.val] = _
  rw [Vector.getElem_set]
  by_cases hk : k = 7
  · subst hk
    rfl
  · rw [if_neg hk, if_neg fun e => hk (Fin.ext e.symm)]
    rfl

/-- The data port addresses the cell that the low 14 bits of `v` select, so ROM's policy is asked of them (R326). -/
theorem Ppu.dataAddr_mod (p : Ppu) : p.dataAddr.toNat % 0x4000 = p.v.toNat % 0x4000 := by
  rw [p.dataAddr_toNat, Nat.mod_mod]

/-- A write of `$2007` by the policy for its cell: a fault, no store, or a store; `v` moves where it does not fault (R57,
R326). -/
theorem State.writeData_eq (s : State) (d : Byte) :
    s.writeData d =
      if s.ppu.v.toNat % 0x4000 ≤ 0x1FFF ∧ s.cfg.chrBanks = .one ∧ s.cfg.romWrite = .fault then
        .error (.romWrite (s.ppu.dataAddr &&& 0x3FFF) s)
      else if s.ppu.v.toNat % 0x4000 ≤ 0x1FFF ∧ s.cfg.chrBanks = .one ∧ s.cfg.romWrite = .ignore then
        .ok (s.setPpu s.ppu.bumpV)
      else .ok ((s.setMapper (s.mapper.writePpuCell (ppuCell s.cfg s.ppu.dataAddr) d)).setPpu s.ppu.bumpV) := by
  rw [State.writeData, ppuWrite_eq, Ppu.dataAddr_mod]
  split_ifs <;> rfl

/-- Settles O51: a write is `writeData_eq` in the polled state, a read `readData`, and OAM data a store in a canonical
memory. -/
theorem dataPort : Obligations.DataPort := by
  intro s hi
  have hpolled := State.polled_setAck (ppuSlot 7) s
  refine ⟨fun hack hno => ?write, fun hack hf => ?fault, fun hack => ?read, s.ppu.dataAddr_toNat, fun d => ?oam⟩
  case write =>
    have hw := (manageRegister_data_write hack).trans (State.writeData_eq _ _)
    by_cases hg : s.ppu.v.toNat % 0x4000 ≤ 0x1FFF ∧ s.cfg.chrBanks = .one ∧ s.cfg.romWrite = .ignore
    · exact ⟨_, hw.trans ((if_neg hno).trans (if_pos hg)), hpolled.setPpu _, fun h => absurd hg h, fun _ => rfl,
        fun _ _ => rfl, Ppu.bumpV_eq _, Ppu.bumpV_toNat _, rfl⟩
    · exact ⟨_, hw.trans ((if_neg hno).trans (if_neg hg)), (hpolled.writePpuCell _ _).setPpu _,
        fun _ => ppuRead_writePpuCell_same hi.mapper, fun h => absurd h hg,
        fun _ ha => ppuRead_writePpuCell_other ha.symm, Ppu.bumpV_eq _, Ppu.bumpV_toNat _, rfl⟩
  case fault =>
    exact ⟨_, _, (manageRegister_data_write hack).trans ((State.writeData_eq _ _).trans (if_pos hf))⟩
  case read =>
    exact ⟨_, manageRegister_data_read hack, hpolled.readData, State.readData_ioreg _, Ppu.bumpV_eq _, Ppu.bumpV_toNat _,
      rfl⟩
  case oam =>
    exact ⟨Memory.read_write_same hi.ppu.oam, BitVec.toNat_add _ _, fun j hj => Memory.read_write_other hj.symm⟩

end Sys2Proof.Machine
end

section
/-! PROOFS. The decoder and the encoder undo each other, on instructions and on bytes (R100 to R107), and the decode table
byte by byte (R104). -/

namespace Sys2Proof

/-! ### From an instruction to its bytes and back -/

/-- The opcode byte of an instruction's row, with argument bytes, stands for the instruction with those argument bytes
(R103, R104). -/
theorem instrOf_of_rowFor {i : Instr} {r : OpcodeRow} (h : rowFor i = some r) (a b : Byte) :
    instrOf r.opcode a b = i.fill a b ∧ argCount r.opcode = i.args.length := by
  obtain ⟨hr, hf⟩ := mem_of_rowFor h
  obtain ⟨hi, hn⟩ := instrOf_of_row hr a b
  have hl : (i.fill 0 0).args.length = i.args.length := by
    simpa [Instr.args_fill] using i.args_length_le
  rw [hi, hn, hf, Instr.fill_fill]
  exact ⟨rfl, hl⟩

/-- A well-formed instruction is an undefined opcode, or its row's opcode byte begins its encoding (R101, R104, R106). -/
theorem wf_cases {i : Instr} (h : i.wf = true) :
    (∃ opcode, i = .und opcode ∧ rowOf opcode = none) ∨ ∃ r, rowFor i = some r ∧ encode i = r.opcode :: i.args := by
  by_cases hu : i.mode = .UND
  · obtain ⟨opcode, rfl⟩ := Instr.mode_eq_und hu
    exact .inl ⟨opcode, rfl, (rowOf_eq_none_iff opcode).2 h⟩
  · obtain ⟨r, hr⟩ := exists_row h hu
    exact .inr ⟨r, hr, encode_of_row hr⟩

/-- Settles O1: the opcode byte finds the instruction's row, and the row's form with the instruction's own argument bytes
is the instruction. -/
theorem decodeOfEncodeIsTheInstruction : Obligations.DecodeOfEncodeIsTheInstruction := by
  intro i rest h
  rcases wf_cases h with ⟨opcode, rfl, hn⟩ | ⟨r, hr, he⟩
  · obtain ⟨hi, hc⟩ := instrOf_of_none hn 0 0
    exact (decode_cons (args := []) hc.symm (Nat.zero_le 2)).trans (by rw [← hi]; rfl)
  · obtain ⟨hi, hc⟩ := instrOf_of_rowFor hr (i.args[0]?.getD 0#8) (i.args[1]?.getD 0#8)
    rw [he, List.cons_append, decode_cons hc.symm i.args_length_le, hi, Instr.fill_args]

/-! ### From bytes to an instruction and back -/

/-- An opcode byte is undefined, or it is the opcode of a row, and its instruction has the row's form (R104, R106). -/
theorem instrOf_cases (opcode a b : Byte) :
    (opcode ∈ undefinedOpcodes ∧ instrOf opcode a b = .und opcode ∧ argCount opcode = 0) ∨
      (opcode ∉ undefinedOpcodes ∧ ∃ r ∈ opcodeTable, r.opcode = opcode ∧ instrOf opcode a b = r.form.fill a b ∧
        argCount opcode = r.form.args.length) := by
  have hmem : opcode ∈ undefinedOpcodes ↔ rowOf opcode = none := by
    rw [rowOf_eq_none_iff, List.contains_iff_mem]
  cases h : rowOf opcode with
  | none => exact .inl ⟨hmem.2 h, instrOf_of_none h a b⟩
  | some r =>
    obtain ⟨hr, rfl⟩ := mem_of_rowOf h
    exact .inr ⟨fun hm => by simp [hmem.1 hm] at h, r, hr, rfl, instrOf_of_row hr a b⟩

/-- The instruction of an opcode byte is well formed (R104, R106). -/
theorem instrOf_wf (opcode a b : Byte) : (instrOf opcode a b).wf = true := by
  rcases instrOf_cases opcode a b with ⟨hm, hi, -⟩ | ⟨-, r, hr, -, hi, -⟩
  · rw [hi]
    exact List.contains_iff_mem.2 hm
  · rw [hi, Instr.fill_wf]
    exact (form_of_row r hr).2.1

/-- The instruction of an opcode byte encodes to that byte and the argument bytes its mode has (R101, R102). -/
theorem encode_instrOf (opcode a b : Byte) :
    encode (instrOf opcode a b) = opcode :: [a, b].take (argCount opcode) := by
  rcases instrOf_cases opcode a b with ⟨-, hi, hc⟩ | ⟨-, r, hr, rfl, hi, hc⟩
  · rw [hi, hc]
    rfl
  · have hrow : rowFor (r.form.fill a b) = some r := (rowFor_fill r.form a b).trans (form_of_row r hr).1
    rw [hi, hc, encode_of_row hrow, Instr.args_fill]

/-- The instruction of an opcode byte has as many argument bytes as are read after that byte (R102, R253). -/
theorem instrOf_args_length (opcode a b : Byte) : (instrOf opcode a b).args.length = argCount opcode := by
  rcases instrOf_cases opcode a b with ⟨-, hi, hc⟩ | ⟨-, r, -, -, hi, hc⟩
  · rw [hi, hc]
    rfl
  · rw [hi, hc]
    simpa [Instr.args_fill] using r.form.args_length_le

/-- The undefined opcodes, and no others, have mode `UND` (R106). -/
theorem instrOf_mode_und (opcode a b : Byte) : (instrOf opcode a b).mode = .UND ↔ opcode ∈ undefinedOpcodes := by
  rcases instrOf_cases opcode a b with ⟨hm, hi, -⟩ | ⟨hm, r, hr, -, hi, -⟩
  · simp [hi, hm, Instr.mode]
  · simp [hi, hm, (form_of_row r hr).2.2]

/-- Everything the decoder can read: the instruction of an opcode byte and the argument bytes after it, and it leaves the
rest (R100). -/
theorem decode_eq_ok {bytes rest : List Byte} {i : Instr} (h : decode bytes = .ok (i, rest)) :
    ∃ opcode a b, i = instrOf opcode a b ∧ bytes = opcode :: [a, b].take (argCount opcode) ++ rest := by
  cases bytes with
  | nil => cases h
  | cons opcode tail =>
    simp only [decode] at h
    split at h
    case h_1 hc =>
      cases h
      exact ⟨opcode, 0, 0, rfl, by simp [hc]⟩
    case h_2 a _ hc =>
      cases h
      exact ⟨opcode, a, 0, rfl, by simp [hc]⟩
    case h_3 a b _ hc =>
      cases h
      exact ⟨opcode, a, b, rfl, by simp [hc]⟩
    case h_4 => cases h

/-- Settles O2: what is decoded is the instruction of its opcode byte, and that encodes to the bytes read. -/
theorem encodeOfDecodeIsTheBytes : Obligations.EncodeOfDecodeIsTheBytes := by
  intro bytes rest i h
  obtain ⟨opcode, a, b, rfl, rfl⟩ := decode_eq_ok h
  exact ⟨instrOf_wf opcode a b, by rw [encode_instrOf]⟩

/-- Settles O3: the instruction of the opcode byte and the two bytes after it is well formed, so its encoding, with which
the bytes begin, decodes to it. -/
theorem everyOpcodeByteIsDecided : Obligations.EveryOpcodeByteIsDecided := by
  intro opcode a b rest
  have hbytes : opcode :: a :: b :: rest =
      encode (instrOf opcode a b) ++ ([a, b].drop (argCount opcode) ++ rest) := by
    rw [encode_instrOf, List.cons_append, ← List.append_assoc, List.take_append_drop]
    rfl
  refine ⟨instrOf opcode a b, [a, b].drop (argCount opcode) ++ rest, ?decodes, ?encodes, instrOf_mode_und opcode a b⟩
  case decodes =>
    rw [hbytes]
    exact decodeOfEncodeIsTheInstruction _ _ (instrOf_wf opcode a b)
  case encodes => rw [encode_instrOf, instrOf_args_length]

/-! ### The table byte by byte -/

/-- A row's opcode byte, with an instruction's argument bytes after it, decodes to the instruction, when the row has its
form (R103, R104). -/
theorem decode_of_form {opcode : Byte} {i : Instr} (h : (rowOf opcode).map OpcodeRow.form = some (i.fill 0 0)) :
    decode (opcode :: i.args) = .ok (i, []) := by
  obtain ⟨r, hr, hf⟩ := Option.map_eq_some_iff.1 h
  obtain ⟨hm, rfl⟩ := mem_of_rowOf hr
  obtain ⟨hrow, hwf, -⟩ := form_of_row r hm
  rw [hf, rowFor_fill] at hrow
  rw [hf, Instr.fill_wf] at hwf
  have := decodeOfEncodeIsTheInstruction i [] hwf
  rwa [encode_of_row hrow, List.append_nil] at this

/-- The same for a list of opcode bytes and instructions that share their argument bytes. -/
theorem decode_of_forms {l : List (Byte × Instr)} {args : List Byte}
    (hf : l.map (fun p => (rowOf p.1).map OpcodeRow.form) = l.map fun p => some (p.2.fill 0 0))
    (ha : l.map (fun p => p.2.args) = l.map fun _ => args) : ∀ p ∈ l, decode (p.1 :: args) = .ok (p.2, []) := by
  intro p hp
  rw [← List.map_inj_left.1 ha p hp]
  exact decode_of_form (List.map_inj_left.1 hf p hp)

/-- A word is its two argument bytes, low byte first (R103). -/
theorem args_of_toNat {l h : Byte} {w : Word} (hw : w.toNat = h.toNat * 256 + l.toNat) : l = argLow w ∧ h = argHigh w := by
  have hl := l.isLt
  constructor <;> apply BitVec.eq_of_toNat_eq
  · rw [argLow, ← Machine.lo, Machine.lo_toNat]
    omega
  · rw [argHigh, ← Machine.hi, Machine.hi_toNat]
    omega

/-- Settles O4: the rows of the bytes have the forms stated, mode by mode. -/
theorem wordsOfTheSpecDecode : Obligations.WordsOfTheSpecDecode := by
  refine ⟨⟨rfl, rfl, rfl, rfl, rfl, rfl, rfl, rfl, rfl, rfl⟩, decode_of_forms rfl rfl, decode_of_forms rfl rfl,
    fun l => ?one, fun l h w hw => ?two⟩
  case one =>
    and_intros
    all_goals exact decode_of_forms rfl rfl
  case two =>
    obtain ⟨rfl, rfl⟩ := args_of_toNat hw
    and_intros
    all_goals exact decode_of_forms rfl rfl

end Sys2Proof
end

section
/-! PROOFS. Undefined opcodes stop the step with `DecodeFault`, at the opcode (R106, R253, R410, R411). -/

namespace Sys2Proof.Machine

/-- Fetching an undefined opcode reads its one byte, and leaves PC at it (R253). -/
theorem fetch_of_undefined {s : State} {opcode : Byte} (h : s.Reads s.pc opcode) (hu : opcode ∈ undefinedOpcodes) :
    fetch s = .ok (.und opcode, s.touch s.pc .read) := by
  have hn : rowOf opcode = none := (rowOf_eq_none_iff opcode).2 (List.contains_iff_mem.2 hu)
  obtain ⟨hi, hc⟩ := instrOf_of_none hn 0#8 0#8
  have hpc : (s.touch s.pc .read).setPc (s.pc + 0) = s.touch s.pc .read := by
    have hzero : s.pc + 0 = s.pc := BitVec.add_zero s.pc
    rw [hzero]
    unfold State.touch
    split <;> rfl
  rw [fetch_of_holds (args := []) hc.symm ⟨h, trivial⟩]
  simp only [List.getElem?_nil, Option.getD_none, hi]
  exact congrArg (fun u => Except.ok (Instr.und opcode, u)) hpc

/-- A fault of the CPU step is a fault of the step (R410). -/
theorem step_of_fault {s : State} {f : Fault} (h : cpuStep s = .fault f) : step s = .fault f := by
  simp [step, h]

/-- With nothing due, the interrupt check changes nothing (R251). -/
theorem State.interruptCheck_of_none {s : State} (h : s.dueInterrupt = none) : s.interruptCheck = s := by
  simp [State.interruptCheck, h]

/-- The acknowledgments once the DMA check has cleared the slot of `$4014` and a byte has been read (R55, R290). -/
theorem State.touch_setAck_ack (s : State) (a : Word) (slot : Fin 40) :
    ((s.setAck dmaSlot .none).touch a .read).io.ack[slot] =
      if ackSlot a = some slot then .read else if slot = dmaSlot then .none else s.io.ack[slot] := by
  rw [State.touch_ack, (State.polled_setAck dmaSlot s).acks]

/-- Settles O32: the DMA check clears its slot, the fetch records the opcode's read, and `und` faults with that state. -/
theorem undefinedOpcodesFault : Obligations.UndefinedOpcodesFault := by
  refine ⟨fun _ _ => rfl, fun s u opcode hu hr hm hd => ?_⟩
  have hfetch : fetch (u.setAck dmaSlot .none) = .ok (.und opcode, (u.setAck dmaSlot .none).touch u.pc .read) :=
    fetch_of_undefined (by simpa [State.Reads] using hr) hm
  have hcpu : cpuStep s = .fault (.decodeFault opcode ((u.setAck dmaSlot .none).touch u.pc .read)) := by
    rw [cpuStep_of_dma_inactive (hu ▸ hd), hu, fetchExecute, hfetch]
    rfl
  have hregs : ((u.setAck dmaSlot .none).touch u.pc .read).SameRegisters u := by constructor <;> simp
  have hdue : s.dueInterrupt = none → ((u.setAck dmaSlot .none).touch u.pc .read).SameRegisters s ∧ u.cyc = s.cyc ∧
      u.mapper = s.mapper ∧ u.ppu = s.ppu ∧ u.context = s.context := by
    intro hnone
    obtain rfl : s = u := (State.interruptCheck_of_none hnone).symm.trans hu
    exact ⟨hregs, rfl, rfl, rfl, rfl⟩
  refine ⟨_, step_of_fault hcpu, hregs, ?_⟩
  simpa using ⟨State.touch_setAck_ack u u.pc, hdue⟩

end Sys2Proof.Machine
end

section
/-! PROOFS. What an instruction costs: by its shape, its table entry and its branch (R208, R254, R256), and the counts of
R104 by operation and mode. -/

namespace Sys2Proof

open Machine

/-! ### The cost of each shape -/

/-- An instruction that reads its operand charges its table entry's cost, when its effect counts no cycle (R256). -/
theorem readInstr_cyc {i : Instr} {o : ReadOperand} {s t : State} {k : Byte → State → State}
    (h : readInstr i o s k = .next t) (hk : ∀ v u, (k v u).cyc = u.cyc) : t.cyc = s.cyc + i.cost (o.crossed s) := by
  rcases readInstr_cases i o s k with ⟨v, -, h'⟩ | ⟨a, -, -, h'⟩
  · obtain rfl := Host.Outcome.next.inj (h'.symm.trans h)
    simp [hk]
  · exact nomatch h'.symm.trans h

/-- An instruction that only stores charges its table entry's cost (R256). -/
theorem storeInstr_cyc {i : Instr} {m : MemOperand} {v : Byte} {s t : State} (h : storeInstr i m v s = .next t) :
    t.cyc = s.cyc + i.cost (m.crossed s) := by
  rcases storeInstr_cases i m v s with ⟨u, hu, h'⟩ | ⟨-, h'⟩ | ⟨-, -, h'⟩
  · obtain rfl := Host.Outcome.next.inj (h'.symm.trans h)
    rw [State.charge_cyc, (memWrite_registers hu).2]
  · exact nomatch h'.symm.trans h
  · exact nomatch h'.symm.trans h

/-- Writing an operand counts no cycle. -/
theorem RmwOperand.store_cyc {o : RmwOperand} {v : Byte} {s t : State} (h : o.store v s = .ok t) : t.cyc = s.cyc := by
  cases o with
  | acc =>
    obtain rfl := Except.ok.inj h
    rfl
  | mem m => exact (memWrite_registers h).2

/-- A read-modify-write instruction charges its table entry's cost, when that is the same on every page (R256). -/
theorem rmwInstr_cyc {i : Instr} {o : RmwOperand} {s t : State} {c : Option (Byte → Bool)} {r : Byte → Byte}
    (h : rmwInstr i o s c r = .next t) (hc : ∀ b, i.cost b = i.cost false) (b : Bool) : t.cyc = s.cyc + i.cost b := by
  rcases rmwInstr_cases i o s c r with ⟨v, u, -, hu, h'⟩ | ⟨a, -, -, h'⟩ | ⟨v, a, -, -, -, -, h'⟩
  · obtain rfl := Host.Outcome.next.inj (h'.symm.trans h)
    rw [State.charge_cyc, State.setNZ_cyc, RmwOperand.store_cyc hu, rmwMiddle_cyc, hc b]
  · exact nomatch h'.symm.trans h
  · exact nomatch h'.symm.trans h

/-- An instruction with no operand charges its table entry's base count, when its effect counts no cycle (R220). -/
theorem plainInstr_cyc {i : Instr} {s t u : State} (h : plainInstr i u = .next t) (hu : u.cyc = s.cyc) :
    t.cyc = s.cyc + i.cost false := by
  obtain rfl := Host.Outcome.next.inj h
  rw [State.charge_cyc, hu]

/-- JMP charges its table entry's count (R200). -/
theorem exec_jmp_cyc {j : JumpOperand} {s t : State} (h : exec (.jmp j) s = .next t) :
    t.cyc = s.cyc + (Instr.jmp j).cost false := by
  simp only [exec, execJmp] at h
  rcases jumpTarget_cases j s with ⟨w, u, hj, -, -, -, hu, -⟩ | ⟨a, -, -, left, hj, -⟩
  · rw [hj] at h
    exact plainInstr_cyc h hu
  · rw [hj] at h
    cases h

/-- A branch consumes 2, 3 or 4 cycles (R208). -/
theorem branchInstr_cyc {c : Bool} {d : Byte} {s t : State} (h : branchInstr c d s = .next t) :
    ∃ n ≤ 2, t.cyc = s.cyc + 2 + n := by
  obtain ⟨w, n, hn, h'⟩ := branchInstr_cases c d s
  obtain rfl := Host.Outcome.next.inj (h'.symm.trans h)
  exact ⟨n, hn, (Nat.add_assoc ..).symm⟩

/-! ### The counts of R104 -/

/-- Base count and page penalty of an instruction that reads its operand, by its mode (R104). -/
def readCounts : Mode → Nat × Nat
  | .IMM => (2, 0)
  | .ZER => (3, 0)
  | .ZEX | .ZEY | .ABS => (4, 0)
  | .ABX | .ABY => (4, 1)
  | .INX => (6, 0)
  | .INY => (5, 1)
  | .IMP | .ACC | .REL | .ABI | .UND => (0, 0)

/-- Base count of an instruction that stores a register, by its mode (R104). -/
def storeCount : Mode → Nat
  | .ZER => 3
  | .ZEX | .ZEY | .ABS => 4
  | .ABX | .ABY => 5
  | .INX | .INY => 6
  | .IMP | .ACC | .IMM | .REL | .ABI | .UND => 0

/-- Base count of a read-modify-write instruction, by its mode (R104). -/
def rmwCount : Mode → Nat
  | .ACC => 2
  | .ZER => 5
  | .ZEX | .ABS => 6
  | .ABX => 7
  | .IMP | .IMM | .ZEY | .INX | .INY | .REL | .ABY | .ABI | .UND => 0

/-- Base count and page penalty of an instruction, by its operation and mode (R104); the table gives them where it has the
form (`rowFor_counts`). -/
def Instr.counts : Instr → Nat × Nat
  | .lda o | .ldx o | .ldy o | .adc o | .sbc o | .and o | .ora o | .eor o | .cmp o | .cpx o | .cpy o => readCounts o.mode
  | .bit m => readCounts m.mode
  | .sta m | .stx m | .sty m => (storeCount m.mode, 0)
  | .inc m | .dec m => (rmwCount m.mode, 0)
  | .asl o | .lsr o | .rol o | .ror o => (rmwCount o.mode, 0)
  | .jmp (.abs _) | .pha | .php => (3, 0)
  | .pla | .plp => (4, 0)
  | .jmp (.abi _) => (5, 0)
  | .jsr _ | .rts | .rti => (6, 0)
  | .brk => (7, 0)
  | .tax | .tay | .txa | .tya | .tsx | .txs | .inx | .iny | .dex | .dey | .clc | .sec | .cli | .sei | .cld | .sed | .clv
  | .nop | .bcc _ | .bcs _ | .beq _ | .bne _ | .bmi _ | .bpl _ | .bvc _ | .bvs _ => (2, 0)
  | .und _ => (0, 0)

/-- The counts depend on the form alone. -/
theorem Instr.counts_fill (i : Instr) (a b : Byte) : (i.fill a b).counts = i.counts := by
  cases i
  case jmp o => cases o <;> rfl
  all_goals simp [Instr.fill, Instr.counts]

set_option maxRecDepth 20000 in
/-- Every row of the table has the counts of its form (R104). -/
theorem form_counts : ∀ r ∈ opcodeTable, r.form.counts = (r.cycles, if r.pagePenalty then 1 else 0) := by decide

theorem rowFor_counts {i : Instr} {r : OpcodeRow} (h : rowFor i = some r) :
    i.counts = (r.cycles, if r.pagePenalty then 1 else 0) := by
  obtain ⟨hr, hf⟩ := mem_of_rowFor h
  rw [← form_counts r hr, hf, Instr.counts_fill]

/-- The cost of an instruction that has a row: its base count, and its penalty where the page was crossed (R256). -/
theorem cost_of_row {i : Instr} {r : OpcodeRow} (h : rowFor i = some r) (b : Bool) :
    i.cost b = i.counts.1 + if b = true then i.counts.2 else 0 := by
  rw [rowFor_counts h]
  cases b <;> simp [Instr.cost, h]

/-- An instruction without a page penalty costs the same on every page (R256). -/
theorem cost_of_unmarked {i : Instr} (h : i.counts.2 = 0) (b : Bool) : i.cost b = i.cost false := by
  cases hr : rowFor i with
  | none => simp [Instr.cost, hr]
  | some r => simp [cost_of_row hr, h]

/-! ### The cost of each instruction -/

/-- A well-formed instruction that completes has a row: an undefined opcode faults (R106). -/
theorem exists_row_of_next {i : Instr} {s t : State} (hw : i.wf = true) (h : exec i s = .next t) :
    ∃ r, rowFor i = some r := by
  refine exists_row hw fun hm => ?_
  obtain ⟨opcode, rfl⟩ := Instr.mode_eq_und hm
  cases h

/-- Every well-formed instruction that completes consumes the cycles of its table entry, and a branch up to 2 more (R208,
R254, R256). -/
theorem exec_cyc {i : Instr} {s t : State} (hw : i.wf = true) (h : exec i s = .next t) :
    ∃ extra ≤ 2, t.cyc = s.cyc + i.cost (i.crossed s) + extra ∧ (i.mode ≠ .REL → extra = 0) := by
  obtain ⟨r, hr⟩ := exists_row_of_next hw h
  have hcost := cost_of_row hr
  cases i
  case und => cases h
  case bcc | bcs | beq | bne | bmi | bpl | bvc | bvs =>
    obtain ⟨n, hn, ht⟩ := branchInstr_cyc h
    exact ⟨n, hn, by rw [ht, Instr.crossed, hcost]; rfl, fun hm => absurd rfl hm⟩
  all_goals refine ⟨0, Nat.zero_le 2, ?_, fun _ => rfl⟩
  case lda o | ldx o | ldy o | adc o | sbc o | and o | ora o | eor o | cmp o | cpx o | cpy o =>
    exact readInstr_cyc (o := o) h fun _ _ => rfl
  case bit m => exact readInstr_cyc (o := .mem m) h fun _ _ => rfl
  case sta m | stx m | sty m => exact storeInstr_cyc (m := m) h
  case inc m | dec m => exact rmwInstr_cyc (o := .mem m) (c := none) h (cost_of_unmarked rfl) _
  case asl o | lsr o | rol o | ror o => exact rmwInstr_cyc (o := o) (c := some _) h (cost_of_unmarked rfl) _
  case jmp => exact exec_jmp_cyc h
  case rti => exact plainInstr_cyc h s.rti_cyc
  case brk => exact plainInstr_cyc h (State.enter_cyc ..)
  all_goals exact plainInstr_cyc h rfl

set_option maxRecDepth 20000 in
/-- Every count of the table, the page penalty included, is 2 to 7 cycles, and a branch's is 2 (R104, R208). -/
theorem row_bounds : ∀ r ∈ opcodeTable, 2 ≤ r.cycles ∧ r.cycles + (if r.pagePenalty then 1 else 0) ≤ 7 ∧
    (r.form.mode = .REL → r.cycles + (if r.pagePenalty then 1 else 0) = 2) := by decide

/-- The cycles of every well-formed instruction that completes, by its row (R104, R208, R256). -/
theorem exec_cyc_of_row {i : Instr} {s t : State} (hw : i.wf = true) (h : exec i s = .next t) :
    ∃ row extra, rowFor i = some row ∧
      t.cyc = s.cyc + row.cycles + (if row.pagePenalty = true ∧ i.crossed s = true then 1 else 0) + extra ∧
      (i.mode ≠ .REL → extra = 0) ∧ extra ≤ 2 ∧ s.cyc + 2 ≤ t.cyc ∧ t.cyc ≤ s.cyc + 7 := by
  obtain ⟨extra, hle, ht, he⟩ := exec_cyc hw h
  obtain ⟨r, hr⟩ := exists_row_of_next hw h
  obtain ⟨hmem, hform⟩ := mem_of_rowFor hr
  obtain ⟨hmin, hmax, hrel⟩ := row_bounds r hmem
  rw [hform, Instr.fill_mode] at hrel
  have hcost : i.cost (i.crossed s) = r.cycles + if r.pagePenalty = true ∧ i.crossed s = true then 1 else 0 := by
    simp [Instr.cost, hr]
  have hpen : (if r.pagePenalty = true ∧ i.crossed s = true then 1 else 0) ≤ if r.pagePenalty then 1 else 0 := by
    split_ifs <;> simp_all
  rw [hcost, ← Nat.add_assoc] at ht
  refine ⟨r, extra, hr, ht, he, hle, by omega, ?_⟩
  by_cases hm : i.mode = .REL
  · have := hrel hm
    omega
  · have := he hm
    omega

/-- The 23 opcodes with a page penalty (R256). -/
def markedOpcodes : List Byte :=
  [0x7D, 0x79, 0x71, 0x3D, 0x39, 0x31, 0xDD, 0xD9, 0xD1, 0x5D, 0x59, 0x51, 0xBD, 0xB9, 0xB1, 0xBE, 0xBC, 0x1D, 0x19, 0x11,
    0xFD, 0xF9, 0xF1]

set_option maxRecDepth 20000 in
/-- The rows marked for the page penalty are those of the 23 opcodes (R104, R256). -/
theorem marked_rows : ((opcodeTable.filter (·.pagePenalty)).map (·.opcode)).Perm markedOpcodes := by decide

/-! ### Lists of instructions with their counts -/

/-- A well-formed instruction other than a branch consumes its base count, and its penalty where the page was crossed
(R256). -/
theorem exec_cyc_of_counts {i : Instr} {s t : State} (hm : i.mode ≠ .REL) (hw : i.wf = true) (h : exec i s = .next t) :
    t.cyc = s.cyc + i.counts.1 + if i.crossed s = true then i.counts.2 else 0 := by
  obtain ⟨extra, -, ht, he⟩ := exec_cyc hw h
  obtain ⟨r, hr⟩ := exists_row_of_next hw h
  rw [ht, he hm, cost_of_row hr, Nat.add_zero, Nat.add_assoc]

/-- Instructions that read operands, none a branch, listed with their base counts and page penalties. -/
theorem cyc_of_read_counts {l : List (ReadOperand × Nat × Nat)} {f : ReadOperand → Instr} {s t : State}
    (hx : ∀ o, (f o).crossed s = o.crossed s)
    (hc : l.map (fun p => ((f p.1).mode == .REL, (f p.1).counts)) = l.map fun p => (false, p.2)) :
    ∀ p ∈ l, (f p.1).wf = true → exec (f p.1) s = .next t →
      t.cyc = s.cyc + p.2.1 + if p.1.crossed s = true then p.2.2 else 0 := by
  intro p hp hw h
  obtain ⟨hrel, hcounts⟩ := Prod.mk.inj (List.map_inj_left.1 hc p hp)
  rw [← hx p.1, ← hcounts]
  exact exec_cyc_of_counts (ne_of_beq_false hrel) hw h

/-- Instructions without a page penalty, none a branch, listed with their counts. -/
theorem cyc_of_wf_counts {α : Type} {l : List α} {i : α → Instr} {n : α → Nat} {s t : State}
    (hc : l.map (fun p => ((i p).mode == .REL, (i p).counts)) = l.map fun p => (false, n p, 0)) :
    ∀ p ∈ l, (i p).wf = true → exec (i p) s = .next t → t.cyc = s.cyc + n p := by
  intro p hp hw h
  obtain ⟨hrel, hcounts⟩ := Prod.mk.inj (List.map_inj_left.1 hc p hp)
  simpa [hcounts] using exec_cyc_of_counts (ne_of_beq_false hrel) hw h

/-- The same for a list of well-formed instructions. -/
theorem cyc_of_counts {α : Type} {l : List α} {i : α → Instr} {n : α → Nat} {s t : State}
    (hw : l.map (fun p => (i p).wf) = l.map fun _ => true)
    (hc : l.map (fun p => ((i p).mode == .REL, (i p).counts)) = l.map fun p => (false, n p, 0)) :
    ∀ p ∈ l, exec (i p) s = .next t → t.cyc = s.cyc + n p :=
  fun p hp => cyc_of_wf_counts hc p hp (List.map_inj_left.1 hw p hp)

/-- A branch, whose row has 2 cycles and no penalty, consumes 2, 3 or 4 (R208). -/
theorem cyc_of_branch {i : Instr} {s t : State} (hw : i.wf = true) (hc : i.counts = (2, 0)) (h : exec i s = .next t) :
    t.cyc = s.cyc + 2 ∨ t.cyc = s.cyc + 3 ∨ t.cyc = s.cyc + 4 := by
  obtain ⟨extra, hle, ht, -⟩ := exec_cyc hw h
  obtain ⟨r, hr⟩ := exists_row_of_next hw h
  have hcost : i.cost (i.crossed s) = 2 := by simp [cost_of_row hr, hc]
  omega

/-- Settles O38: the cost of a completed instruction is its row's, and the rows hold the counts stated. -/
theorem instructionCosts : Obligations.InstructionCosts := by
  refine ⟨fun i s t hw h => exec_cyc_of_row hw h, fun opcode => ?marked,
    fun s t v w => ⟨?read, ?store, cyc_of_counts rfl rfl, ?rmw, cyc_of_counts (i := id) rfl rfl, cyc_of_counts rfl rfl,
      ?branch⟩⟩
  case marked =>
    show _ ↔ opcode ∈ markedOpcodes
    rw [← marked_rows.mem_iff]
    simp only [List.mem_map, List.mem_filter, and_assoc]
    exact exists_congr fun r => and_congr_right fun _ => and_comm
  case read =>
    refine List.forall_iff_forall_mem.1 ?_
    and_intros
    all_goals exact cyc_of_read_counts (fun _ => rfl) rfl
  case store =>
    refine List.forall_iff_forall_mem.1 ?_
    and_intros
    all_goals exact cyc_of_wf_counts rfl
  case rmw =>
    refine List.forall_iff_forall_mem.1 ?_
    and_intros
    all_goals exact cyc_of_counts rfl rfl
  case branch =>
    refine List.forall_iff_forall_mem.1 ?_
    and_intros
    all_goals exact cyc_of_branch rfl rfl

end Sys2Proof
end

section
/-! PROOFS. The effective addresses of the memory modes as numbers, and when an index crosses a page (R120 to R135). -/

namespace Sys2Proof

open Machine

/-- The 16-bit indexed modes wrap at `$FFFF` (R128, R131, R132). -/
theorem Machine.add_zext16_toNat (w : Word) (b : Byte) : (w + zext16 b).toNat = (w.toNat + b.toNat) % 65536 := by
  rw [BitVec.toNat_add, zext16_toNat]

/-- The indexed zero-page modes wrap inside page zero (R125, R126). -/
theorem Machine.zext16_add_toNat (a b : Byte) : (zext16 (a + b)).toNat = (a.toNat + b.toNat) % 256 := by
  rw [zext16_toNat, BitVec.toNat_add]

/-- An address of page zero, as the number it is. -/
theorem Machine.zext16_eq_ofNat (b : Byte) : zext16 b = BitVec.ofNat 16 b.toNat := by
  rw [← zext16_toNat, BitVec.ofNat_toNat, BitVec.setWidth_eq]

theorem Machine.State.reads_zeroPage_iff {s : State} {a v : Byte} : s.Reads (zext16 a) v ↔ s.zeroPage a = v := by
  rw [State.Reads, zeroPage_eq_peek, Option.some.injEq]

/-- A pointer in page zero, from the two bytes it reads, the second one after a wrap inside page zero (R127, R128). -/
theorem Machine.State.zeroPageWord_of_reads {s : State} {p l h : Byte} (hl : s.Reads (BitVec.ofNat 16 p.toNat) l)
    (hh : s.Reads (BitVec.ofNat 16 ((p.toNat + 1) % 256)) h) :
    (s.zeroPageWord p).toNat = h.toNat * 256 + l.toNat := by
  have hnext : (p.toNat + 1) % 256 = (p + 1).toNat := (BitVec.toNat_add p 1).symm
  rw [← zext16_eq_ofNat, reads_zeroPage_iff] at hl
  rw [hnext, ← zext16_eq_ofNat, reads_zeroPage_iff] at hh
  rw [State.zeroPageWord, wordOf_toNat, hl, hh]

/-- Settles O5: each mode's address is a sum of bytes and words, and a pointer is the word of the two bytes it reads. -/
theorem effectiveAddresses : Obligations.EffectiveAddresses := by
  refine fun s b w => ⟨zext16_toNat b, zext16_add_toNat b s.x, zext16_add_toNat b s.y, fun l h hl hh => ?inx,
    fun l h hl hh => ?iny, rfl, add_zext16_toNat w s.x, add_zext16_toNat w s.y⟩
  case inx =>
    have hp : (b + s.x).toNat = (b.toNat + s.x.toNat) % 256 := BitVec.toNat_add b s.x
    refine State.zeroPageWord_of_reads (p := b + s.x) (by rwa [hp]) ?_
    rwa [hp, Nat.mod_add_mod]
  case iny =>
    rw [← State.zeroPageWord_of_reads hl hh]
    exact add_zext16_toNat (s.zeroPageWord b) s.y

/-- Adding an index leads to another page exactly when the low byte and the index carry (R135). -/
theorem Machine.hi_ne_add_zext16_iff (w : Word) (b : Byte) :
    (hi w != hi (w + zext16 b)) = true ↔ 255 < w.toNat % 256 + b.toNat := by
  have hw := w.isLt
  have hb := b.isLt
  rw [hi_ne_iff, add_zext16_toNat]
  omega

/-- The page-crossed flag compares the high bytes of base and effective address in three modes, and is false in the
others (R120, R135). -/
theorem MemOperand.crossed_iff (m : MemOperand) (s : State) :
    m.crossed s = true ↔
      (m.mode = .ABX ∨ m.mode = .ABY ∨ m.mode = .INY) ∧ (m.base s).toNat / 256 ≠ (m.ea s).toNat / 256 := by
  rw [← hi_ne_iff]
  cases m <;> simp [MemOperand.crossed, MemOperand.mode]

theorem MemOperand.crossed_iff_of_abx {m : MemOperand} {s : State} (hm : m.mode = .ABX) :
    m.crossed s = true ↔ 255 < (m.base s).toNat % 256 + s.x.toNat := by
  cases m
  case abx w => exact hi_ne_add_zext16_iff w s.x
  all_goals exact nomatch hm

theorem MemOperand.crossed_iff_of_aby_iny {m : MemOperand} {s : State} (hm : m.mode = .ABY ∨ m.mode = .INY) :
    m.crossed s = true ↔ 255 < (m.base s).toNat % 256 + s.y.toNat := by
  cases m
  case aby w => exact hi_ne_add_zext16_iff w s.y
  case iny p => exact hi_ne_add_zext16_iff (s.zeroPageWord p) s.y
  all_goals exact nomatch hm

/-- Settles O6: the flag by mode, and the carry into the high byte. -/
theorem pageCrossedExactlyWhenHighBytesDiffer : Obligations.PageCrossedExactlyWhenHighBytesDiffer :=
  fun s m => ⟨m.crossed_iff s, MemOperand.crossed_iff_of_abx, MemOperand.crossed_iff_of_aby_iny, fun _ => rfl⟩

end Sys2Proof
end

section
/-! PROOFS. Loads, stores and the increments of memory complete, by the shapes of instructions (R136, R140 to R146, R171,
R172). -/

namespace Sys2Proof.Machine

/-- An instruction that loads a register, with N and Z of the byte loaded (R141 to R143). -/
theorem loadInstr_completes {i : Instr} {o : ReadOperand} {s : State} {v : Byte} {get : State → Byte}
    {set : State → Byte → State} (hget : ∀ u n, get (((set u v).setNZ v).charge n) = v)
    (hio : ∀ u, (set u v).io = u.io) (hcyc : ∀ u, (set u v).cyc = u.cyc) (h : o.Is s v) :
    ∃ t, readInstr i o s (fun m u => (set u m).setNZ m) = .next t ∧ get t = v ∧ t.FlagsOf v ∧
      (∀ a ∈ o.addrs s, State.Acknowledged a .read s t) ∧ t.cyc = s.cyc + i.cost (o.crossed s) := by
  refine ⟨_, readInstr_of_is _ h, hget _ _, flagsOf_of_setNZ _ v, fun a ha slot => ?ack, by simp [hcyc]⟩
  case ack =>
    rw [State.charge_io, State.setNZ_io, hio]
    exact ReadOperand.loaded_ack a ha slot

/-- Settles O16: the three loads differ in the register alone. -/
theorem loadsComplete : Obligations.LoadsComplete := fun _ _ _ h =>
  ⟨loadInstr_completes (get := State.a) (set := State.setA) (fun _ _ => rfl) (fun _ => rfl) (fun _ => rfl) h,
    loadInstr_completes (get := State.x) (set := State.setX) (fun _ _ => rfl) (fun _ => rfl) (fun _ => rfl) h,
    loadInstr_completes (get := State.y) (set := State.setY) (fun _ _ => rfl) (fun _ => rfl) (fun _ => rfl) h⟩

/-- Counting cycles changes nothing stored. -/
theorem State.Stored.charge {a : Word} {v : Byte} {s t : State} (h : State.Stored a v s t) (n : Nat) :
    State.Stored a v s (t.charge n) := by
  obtain ⟨hmade, hignored, hkept⟩ := h
  exact ⟨fun hi => (hmade hi).charge n, fun hi => (State.charge_peek t n a).trans (hignored hi),
    fun b hb => (State.charge_peek t n b).trans (hkept b hb)⟩

/-- An instruction that only stores a byte completes wherever the store can be made (R136, R144). -/
theorem storeInstr_completes {i : Instr} {m : MemOperand} {v : Byte} {s : State} (hi : s.Inv)
    (hs : s.CanStore (m.ea s)) :
    ∃ t, storeInstr i m v s = .next t ∧ State.Stored (m.ea s) v s t ∧ State.Acknowledged (m.ea s) .write s t ∧
      t.cyc = s.cyc + i.cost (m.crossed s) := by
  obtain ⟨t, ht⟩ := memWrite_of_canStore v hs
  obtain ⟨hstored, hack, -⟩ := memWrite_stored hi.mapper ht
  have hnext : storeInstr i m v s = .next (t.charge (i.cost (m.crossed s))) := by simp [storeInstr, ht]
  exact ⟨_, hnext, hstored.charge _, hack, storeInstr_cyc hnext⟩

/-- Settles O17: the three stores differ in the byte stored alone. -/
theorem storesComplete : Obligations.StoresComplete := fun _ _ hi hs =>
  ⟨storeInstr_completes hi hs, storeInstr_completes hi hs, storeInstr_completes hi hs⟩

/-- A read-modify-write instruction completes wherever its operand can be read and written: the operand becomes the
result, with its N and Z (R136, R171, R190). -/
theorem rmwInstr_completes {i : Instr} {o : RmwOperand} {s : State} {v : Byte} (c : Option (Byte → Bool))
    (r : Byte → Byte) (hi : s.Inv) (h : o.Is s v) (hs : o.CanStore s) :
    ∃ t, rmwInstr i o s c r = .next t ∧ o.Becomes (r v) s t ∧ t.FlagsOf (r v) ∧ t.cyc = s.cyc + i.cost false := by
  obtain ⟨t, ht, hb, -, hcyc⟩ := rmwInstr_of_is c r hi.mapper h hs
  exact ⟨_, ht, becomes_mono hb, flagsOf_of_setNZ t (r v), by simp [hcyc]⟩

/-- Settles O22: the two differ in the byte added alone, 1 or 255. -/
theorem incrementsOfMemoryComplete : Obligations.IncrementsOfMemoryComplete := by
  intro s m v hi h hs
  obtain ⟨t, hinc, ht⟩ := rmwInstr_completes (i := .inc m) (o := .mem m) none (· + 1) hi h hs
  obtain ⟨u, hdec, hu⟩ := rmwInstr_completes (i := .dec m) (o := .mem m) none (· - 1) hi h hs
  have hplus : (v + 1).toNat = (v.toNat + 1) % 256 := BitVec.toNat_add v 1
  have hminus : (v - 1).toNat = (v.toNat + 255) % 256 := by
    rw [BitVec.toNat_sub, Nat.add_comm]
    rfl
  exact ⟨⟨t, v + 1, hinc, hplus, ht⟩, ⟨u, v - 1, hdec, hminus, hu⟩⟩

end Sys2Proof.Machine
end

section
/-! PROOFS. JMP completes, to its argument or through its pointer (R129, R130, R201). -/

namespace Sys2Proof

open Machine

/-- The second byte of a jump's pointer is in the page of the first (R130, decision D10). -/
theorem Machine.abiHighAddr_toNat (p : Word) : (abiHighAddr p).toNat = p.toNat / 256 * 256 + (p.toNat + 1) % 256 := by
  rw [abiHighAddr_eq, wordOf_toNat, hi_toNat, BitVec.toNat_add, lo_toNat]
  exact congrArg _ (Nat.mod_add_mod p.toNat 256 1)

/-- A jump through a pointer whose bytes can be read goes to the word they make, both reads recorded (R55, R130). -/
theorem JumpOperand.target_abi_of_reads {s : State} {p : Word} {l h : Byte} (hl : s.Reads p l)
    (hh : s.Reads (abiHighAddr p) h) :
    (JumpOperand.abi p).target s = .ok (wordOf h l, (s.touch p .read).touch (abiHighAddr p) .read) := by
  have hh' : (s.touch p .read).Reads (abiHighAddr p) h := by rwa [State.Reads, State.touch_peek]
  simp only [JumpOperand.target, memRead_of_reads hl, memRead_of_reads hh', bind, Except.bind]
  rfl

/-- Once its target is found, a jump goes there. -/
theorem Machine.exec_jmp_of_target {j : JumpOperand} {s u : State} {w : Word} (h : j.target s = .ok (w, u)) :
    exec (.jmp j) s = .next ((u.setPc w).charge ((Instr.jmp j).cost false)) := by
  simp [exec, execJmp, h, plainInstr]

/-- Settles O25: the target is the argument, or the word of the pointer's two bytes. -/
theorem jumpsComplete : Obligations.JumpsComplete := by
  refine ⟨fun s w => ?direct, fun s p q l h hl hq hh => ?indirect⟩
  case direct =>
    have hexec := exec_jmp_of_target (j := .abs w) (s := s) rfl
    exact ⟨_, hexec, rfl, (exec_jmp_cyc hexec).trans (by rw [cost_jmp])⟩
  case indirect =>
    obtain rfl : q = abiHighAddr p := BitVec.eq_of_toNat_eq (hq.trans (abiHighAddr_toNat p).symm)
    have hexec := exec_jmp_of_target (JumpOperand.target_abi_of_reads hl hh)
    exact ⟨_, hexec, wordOf_toNat h l, (exec_jmp_cyc hexec).trans (by rw [cost_jmp_indirect])⟩

end Sys2Proof
end

section
/-! PROOFS. The register transfers complete (R147 to R152). -/

namespace Sys2Proof.Machine

/-- What writes registers and flags alone counts no cycle. -/
theorem State.OnlyWrites.cyc {rs : List Reg} {fs : List Flag} {s u : State} (h : State.OnlyWrites rs fs s u) :
    u.cyc = s.cyc := by
  rw [h.rest]
  rfl

/-- An instruction that copies a byte to a register, with N and Z of the byte copied (R147 to R151). -/
theorem transferInstr_completes {i : Instr} {s u : State} {v : Byte} (get : State → Byte) (hi : i ∈ twoCycles)
    (hw : State.OnlyWrites i.regsWritten i.flagsWritten s (u.setNZ v)) (hget : get ((u.setNZ v).charge 2) = v) :
    ∃ t, plainInstr i (u.setNZ v) = .next t ∧ get t = v ∧ t.FlagsOf v ∧ i.Frame s t ∧ t.cyc = s.cyc + 2 :=
  ⟨_, plainInstr_two hi _, hget, flagsOf_of_setNZ u v, hw.frame 2, congrArg (· + 2) hw.cyc⟩

/-- Settles O18: five transfers set a register and then N and Z from it; TXS sets SP and leaves P. -/
theorem transfersComplete : Obligations.TransfersComplete := by
  refine fun s => ⟨⟨rfl, ?tax⟩, ⟨rfl, ?tay⟩, ⟨rfl, ?txa⟩, ⟨rfl, ?tya⟩, ⟨rfl, ?tsx⟩, ⟨rfl, ?txs⟩⟩
  case tax => exact transferInstr_completes State.x (by decide) (.setX s s.a s.a) rfl
  case tay => exact transferInstr_completes State.y (by decide) (.setY s s.a s.a) rfl
  case txa => exact transferInstr_completes State.a (by decide) (.setA s s.x s.x) rfl
  case tya => exact transferInstr_completes State.a (by decide) (.setA s s.y s.y) rfl
  case tsx => exact transferInstr_completes State.x (by decide) (.setX s s.sp s.sp) rfl
  case txs =>
    have hexec : exec .txs s = .next ((s.setSp s.x).charge 2) := plainInstr_two (by decide) _
    exact ⟨_, hexec, rfl, rfl, plainInstr_frame hexec (.setSp s s.x), rfl⟩

end Sys2Proof.Machine
end

section
/-! PROOFS. The increments and decrements of registers complete (R173 to R176). -/

namespace Sys2Proof.Machine

/-- Counting a byte down wraps modulo 256 (R175). -/
theorem sub_one_toNat (v : Byte) : (v - 1).toNat = (v.toNat + 255) % 256 := by
  rw [BitVec.toNat_sub, Nat.add_comm]
  rfl

/-- An instruction that counts a register up or down sets it to the byte `v` as a transfer does, so the result and its
flags are those of `v` (R173 to R176). -/
theorem countInstr_completes {i : Instr} {s u : State} {v : Byte} {n : Nat} (get : State → Byte) (hi : i ∈ twoCycles)
    (hw : State.OnlyWrites i.regsWritten i.flagsWritten s (u.setNZ v)) (hget : get ((u.setNZ v).charge 2) = v)
    (hv : v.toNat = n) :
    ∃ t, plainInstr i (u.setNZ v) = .next t ∧ (get t).toNat = n ∧ t.FlagsOf (get t) ∧ i.Frame s t ∧
      t.cyc = s.cyc + 2 := by
  obtain ⟨t, hnext, hreg, hflags, hrest⟩ := transferInstr_completes get hi hw hget
  rw [← hreg] at hv hflags
  exact ⟨t, hnext, hv, hflags, hrest⟩

/-- Settles O23: the four set a register to it plus or minus 1, then N and Z from it. -/
theorem incrementsOfRegistersComplete : Obligations.IncrementsOfRegistersComplete := by
  refine fun s => ⟨⟨rfl, ?inx⟩, ⟨rfl, ?iny⟩, ⟨rfl, ?dex⟩, ⟨rfl, ?dey⟩⟩
  case inx => exact countInstr_completes State.x (by decide) (.setX s _ _) rfl (BitVec.toNat_add s.x 1)
  case iny => exact countInstr_completes State.y (by decide) (.setY s _ _) rfl (BitVec.toNat_add s.y 1)
  case dex => exact countInstr_completes State.x (by decide) (.setX s _ _) rfl (sub_one_toNat s.x)
  case dey => exact countInstr_completes State.y (by decide) (.setY s _ _) rfl (sub_one_toNat s.y)

end Sys2Proof.Machine
end

section
/-! PROOFS. ADC and SBC complete on every operand that can be read (R160 to R163). -/

namespace Sys2Proof.Machine

/-- V after an add, as the two ways in which the exact signed sum can miss the range of a byte (R161). -/
theorem addOverflow_iff (a m : Byte) (c : Bool) :
    addOverflow a m c = true ↔ a.toInt + m.toInt + c.toNat < -128 ∨ 127 < a.toInt + m.toInt + c.toNat := by
  rw [addOverflow_eq_signed, Bool.not_eq_true', Bool.and_eq_false_iff, decide_eq_false_iff_not, decide_eq_false_iff_not,
    not_le, not_le]

theorem addCarry_iff (a m : Byte) (c : Bool) : addCarry a m c = true ↔ 255 < a.toNat + m.toNat + c.toNat :=
  decide_eq_true_iff

/-- An instruction that adds the byte `g` makes of its operand to A with the old C: the operand itself for ADC, its
complement for SBC (R162, R163). -/
theorem addInstr_completes {i : Instr} {o : ReadOperand} {s : State} {v : Byte} (g : Byte → Byte) (h : o.Is s v) :
    ∃ t, readInstr i o s (fun m u => u.addWithCarry (g m)) = .next t ∧
      t.a = addResult s.a (g v) (s.flag .carry) ∧ t.FlagsOf t.a ∧
      t.flag .carry = addCarry s.a (g v) (s.flag .carry) ∧
      t.flag .overflow = addOverflow s.a (g v) (s.flag .carry) ∧
      (∀ a ∈ o.addrs s, State.Acknowledged a .read s t) ∧ t.cyc = s.cyc + i.cost (o.crossed s) := by
  have ha : ((o.loaded s).addWithCarry (g v)).a = addResult s.a (g v) (s.flag .carry) := by
    simp [State.addWithCarry, State.flag]
  have hp : ((o.loaded s).addWithCarry (g v)).p = addStatus s.p s.a (g v) := by simp [State.addWithCarry]
  refine ⟨_, readInstr_of_is _ h, ha, ⟨?negative, ?zero⟩, ?carry, ?overflow, ReadOperand.loaded_ack,
    by simp [State.addWithCarry]⟩
  case negative => simp [State.flag, ha, hp, flagOf_addStatus]
  case zero => simp [State.flag, ha, hp, flagOf_addStatus, beq_eq_decide]
  case carry => simp [State.flag, hp, flagOf_addStatus]
  case overflow => simp [State.flag, hp, flagOf_addStatus]

/-- The borrow of a subtraction is the carry complemented (R163). -/
theorem not_toNat_add_toNat (c : Bool) : (!c).toNat + c.toNat = 1 := by cases c <;> rfl

/-- Subtracting with borrow is adding the complement with carry: the result (R163). -/
theorem addResult_not_toNat (a m : Byte) (c : Bool) :
    ((addResult a (m ^^^ 0xFF) c).toNat : Int) = ((a.toNat : Int) - m.toNat - (!c).toNat) % 256 := by
  have hm := m.isLt
  have hc := not_toNat_add_toNat c
  rw [addResult_toNat, not_toNat]
  omega

/-- C after a subtraction says that no borrow was needed (R163). -/
theorem addCarry_not_iff (a m : Byte) (c : Bool) :
    addCarry a (m ^^^ 0xFF) c = true ↔ m.toNat + (!c).toNat ≤ a.toNat := by
  have hm := m.isLt
  have hc := not_toNat_add_toNat c
  rw [addCarry_iff, not_toNat]
  omega

/-- V after a subtraction says that the exact signed difference does not fit in a byte (R161, R163). -/
theorem addOverflow_not_iff (a m : Byte) (c : Bool) :
    addOverflow a (m ^^^ 0xFF) c = true ↔
      a.toInt - m.toInt - (!c).toNat < -128 ∨ 127 < a.toInt - m.toInt - (!c).toNat := by
  have hc := not_toNat_add_toNat c
  rw [addOverflow_iff, not_toInt]
  omega

/-- Settles O19: both add a byte to A with C, which no other flag enters; SBC's byte is the operand's complement. -/
theorem addAndSubtractComplete : Obligations.AddAndSubtractComplete := by
  intro s o v h
  obtain ⟨t, hadc, hta, htf, htc, htv, htrest⟩ := addInstr_completes (i := .adc o) (fun m => m) h
  obtain ⟨u, hsbc, hua, huf, huc, huv, hurest⟩ := addInstr_completes (i := .sbc o) (· ^^^ 0xFF) h
  refine ⟨⟨t, hadc, ?sum, htf, ?carry, ?overflow, htrest⟩, ⟨u, hsbc, ?difference, huf, ?noBorrow, ?underflow, hurest⟩⟩
  case sum => rw [hta, addResult_toNat]
  case carry => rw [htc, addCarry_iff]
  case overflow => rw [htv, addOverflow_iff]
  case difference => rw [hua, addResult_not_toNat]
  case noBorrow => rw [huc, addCarry_not_iff]
  case underflow => rw [huv, addOverflow_not_iff]

end Sys2Proof.Machine
end

section
/-! PROOFS. The shifts and rotates complete on A and on every byte that can be read and written (R190 to R194). -/

namespace Sys2Proof.Machine

/-- Between its read and its write, an instruction that shifts a bit out has it in C (R190). -/
theorem rmwMiddle_carry (o : RmwOperand) (s : State) (c : Byte → Bool) (v : Byte) :
    (rmwMiddle o s (some c) v).flag .carry = c v := by
  simp [rmwMiddle, State.flag]

/-- An instruction that shifts a bit out completes as read-modify-write instructions do, and the bit it shifts out is
C: writing the result and its N and Z leaves C as it is (R190). -/
theorem shiftInstr_completes {i : Instr} {o : RmwOperand} {s : State} {v : Byte} {n : Nat} (c : Byte → Bool)
    (r : Byte → Byte) (hr : (r v).toNat = n) (hi : s.Inv) (h : o.Is s v) (hs : o.CanStore s) :
    ∃ t b, rmwInstr i o s (some c) r = .next t ∧ b.toNat = n ∧ o.Becomes b s t ∧ t.flag .carry = c v ∧
      t.FlagsOf b ∧ t.cyc = s.cyc + i.cost false := by
  obtain ⟨t, hnext, hbecomes, hp, hcyc⟩ := rmwInstr_of_is c r hi.mapper h hs
  refine ⟨_, r v, hnext, hr, becomes_mono hbecomes, ?carry, flagsOf_of_setNZ t (r v), by simp [hcyc]⟩
  case carry =>
    calc (t.setNZ (r v)).flag .carry
      _ = t.flag .carry := State.setNZ_flag_other t (r v) (by decide)
      _ = (rmwMiddle o s (some c) v).flag .carry := congrArg (flagOf · .carry) hp
      _ = c v := rmwMiddle_carry o s c v

/-- Settles O24: the four differ in the bit shifted out and in the result; the rotates take C as it was before. -/
theorem shiftsComplete : Obligations.ShiftsComplete := by
  refine fun s o v hi h hs => ⟨?asl, ?lsr, ?rol, ?ror⟩
  case asl => exact shiftInstr_completes (·.getLsbD 7) aslResult (aslResult_toNat v) hi h hs
  case lsr => exact shiftInstr_completes (·.getLsbD 0) lsrResult (lsrResult_toNat v) hi h hs
  case rol =>
    exact shiftInstr_completes (·.getLsbD 7) (rolResult · (s.flag .carry)) (rolResult_toNat v _) hi h hs
  case ror =>
    exact shiftInstr_completes (·.getLsbD 0) (rorResult · (s.flag .carry)) (rorResult_toNat v _) hi h hs

end Sys2Proof.Machine
end

section
/-! PROOFS. The eight branches, and JSR with RTS, complete (R202, R203, R208 to R216). -/

namespace Sys2Proof.Machine

/-! ### Branches -/

/-- What a taken branch costs, by the pages of its target and of PC (R208, decision D47). -/
theorem takenBranch_cost (a b : Word) :
    3 + (if hi a != hi b then 1 else 0) = if a.toNat / 256 = b.toNat / 256 then 3 else 4 := by
  simp only [hi_ne_iff, ne_eq, ite_not]
  split <;> rfl

/-- A branch completes: PC stays when its condition is false and is the target when it is true; it writes nothing
else (R208). -/
theorem branchInstr_completes (i : Instr) (c : Bool) (d : Byte) (s : State) :
    ∃ t, branchInstr c d s = .next t ∧ t.p = s.p ∧ i.Frame s t ∧
      (c = false → t.pc = s.pc ∧ t.cyc = s.cyc + 2) ∧
      (c = true → (t.pc.toNat : Int) = (s.pc.toNat + d.toInt) % 65536 ∧
        t.cyc = s.cyc + (if t.pc.toNat / 256 = s.pc.toNat / 256 then 3 else 4)) := by
  cases c with
  | false => exact ⟨_, rfl, rfl, branchInstr_frame (c := false) (d := d) rfl, fun _ => ⟨rfl, rfl⟩, nofun⟩
  | true =>
    exact ⟨_, rfl, rfl, branchInstr_frame (c := true) (d := d) rfl, nofun, fun _ =>
      ⟨add_sext8_toNat d s.pc, congrArg (s.cyc + ·) (takenBranch_cost (branchTarget d s) s.pc)⟩⟩

/-- Settles O27: the eight differ in their opcode and in the condition alone. -/
theorem branchesComplete : Obligations.BranchesComplete := by
  intro s d
  simp only [List.forall_mem_cons, List.not_mem_nil, false_implies, implies_true, and_true]
  exact ⟨⟨rfl, branchInstr_completes _ (!s.flag .carry) d s⟩, ⟨rfl, branchInstr_completes _ (s.flag .carry) d s⟩,
    ⟨rfl, branchInstr_completes _ (s.flag .zero) d s⟩, ⟨rfl, branchInstr_completes _ (!s.flag .zero) d s⟩,
    ⟨rfl, branchInstr_completes _ (s.flag .negative) d s⟩, ⟨rfl, branchInstr_completes _ (!s.flag .negative) d s⟩,
    ⟨rfl, branchInstr_completes _ (!s.flag .overflow) d s⟩, ⟨rfl, branchInstr_completes _ (s.flag .overflow) d s⟩⟩

/-! ### JSR and RTS -/

theorem exec_jsr (w : Word) (s : State) :
    exec (.jsr w) s = .next (((s.pushWord (s.pc - 1)).setPc w).charge 6) := by
  rw [← cost_jsr w]
  rfl

theorem exec_rts (s : State) : exec .rts s = .next ((s.pop.pop.setPc (s.pulledWord + 1)).charge 6) := by
  obtain ⟨-, -, -, -, hc, -⟩ := cost_stack
  rw [← hc]
  rfl

/-- Counting a word down wraps modulo 65536. -/
theorem word_sub_one_toNat (w : Word) : (w - 1).toNat = (w.toNat + 65535) % 65536 := by
  rw [BitVec.toNat_sub, Nat.add_comm]
  rfl

theorem add_one_add_one (b : Byte) : b + 1 + 1 = b + 2 := by rw [BitVec.add_assoc]; rfl

/-- A pushed word reads back as its two bytes, the high one at the old SP (R67). -/
theorem State.pushWord_reads {s : State} (h : s.mapper.Inv s.cfg) (w : Word) :
    (s.pushWord w).Reads (stackAddr s.sp) (hi w) ∧ (s.pushWord w).Reads (stackAddr (s.sp - 1)) (lo w) := by
  have hne : (s.push (hi w)).sp ≠ s.sp := by simp
  exact ⟨(State.push_peek_other hne).trans (State.push_reads h (hi w)),
    State.push_reads (State.push_mapper_inv h (hi w)) (lo w)⟩

/-- Settles O26: JSR pushes PC − 1 as a word, and RTS adds 1 to the word it pulls. -/
theorem callsComplete : Obligations.CallsComplete := by
  refine ⟨rfl, fun w => ⟨lo w, hi w, rfl, hi_lo_toNat w⟩, fun s w hinv => ?jsr, fun s l h hl hh => ?rts⟩
  case jsr =>
    obtain ⟨hhigh, hlow⟩ := State.pushWord_reads hinv.mapper (s.pc - 1)
    have hret := (hi_lo_toNat (s.pc - 1)).trans (word_sub_one_toNat s.pc)
    exact ⟨_, exec_jsr w s, rfl, sub_one_sub_one s.sp, rfl, ⟨_, _, hret, hhigh, hlow⟩, rfl⟩
  case rts =>
    refine ⟨_, exec_rts s, ?_, add_one_add_one s.sp, rfl, rfl⟩
    rw [State.charge_pc, State.setPc_pc, State.pulledWord_of_reads hl hh, BitVec.toNat_add, wordOf_toNat]
    rfl

end Sys2Proof.Machine
end

section
/-! PROOFS. Returns undo entries: RTS undoes JSR, and RTI undoes an NMI or IRQ entry and BRK (R202, R203, R234, R236,
R414, R415). -/

namespace Sys2Proof.Machine

theorem exec_rti (s : State) : exec .rti s = .next (s.returnFromInterrupt.charge 6) := by
  obtain ⟨-, -, -, -, -, hc, -⟩ := cost_stack
  rw [← hc]
  rfl

/-- RTS after JSR continues after the JSR, with SP and P as before (R202, R203). -/
theorem rts_undoes_jsr {s t u : State} {w pc : Word} (hinv : s.Inv) (ht : exec (.jsr w) s = .next t)
    (hu : exec .rts (t.setPc pc) = .next u) : u.pc = s.pc ∧ u.sp = s.sp ∧ u.p = s.p := by
  obtain ⟨-, -, hjsr, hrts⟩ := callsComplete
  obtain ⟨t', ht', -, hsp, hp, ⟨h, l, hret, hh, hl⟩, -⟩ := hjsr s w hinv
  obtain rfl := Host.Outcome.next.inj (ht'.symm.trans ht)
  have hsp1 : (t'.setPc pc).sp + 1 = s.sp - 1 := by rw [State.setPc_sp, hsp]; bv_omega
  have hsp2 : (t'.setPc pc).sp + 2 = s.sp := by rw [State.setPc_sp, hsp]; bv_omega
  obtain ⟨u', hu', hpc, husp, hup, -⟩ := hrts (t'.setPc pc) l h (by rwa [hsp1]) (by rwa [hsp2])
  obtain rfl := Host.Outcome.next.inj (hu'.symm.trans hu)
  refine ⟨BitVec.eq_of_toNat_eq ?_, husp.trans hsp2, hup.trans hp⟩
  have := s.pc.isLt
  omega

/-- RTI from a state with the SP and the memory an entry left continues at the return address pushed, with SP as before
the entry and the flags of the status byte pushed, U set (R236, R415). -/
theorem rti_undoes_enter {s t u : State} {ret : Word} {status : Byte} {vector : Word} (hinv : s.Inv)
    (hsp : t.sp = s.sp - 3) (hmem : ∀ a, t.peek a = (s.enter ret status vector).peek a) (hu : exec .rti t = .next u) :
    u.pc = ret ∧ u.sp = s.sp ∧ ∀ f, u.flag f = if f = .unused then true else flagOf status f := by
  obtain rfl := Host.Outcome.next.inj ((exec_rti t).symm.trans hu)
  obtain ⟨hh, hl, hb⟩ := State.enter_reads hinv.mapper ret status vector
  simp only [State.Reads, ← hmem] at hh hl hb
  have hsp1 : t.sp + 1 = s.sp - 2 := by rw [hsp]; bv_omega
  have hsp2 : t.sp + 2 = s.sp - 1 := by rw [hsp]; bv_omega
  have hsp3 : t.sp + 3 = s.sp := by rw [hsp]; bv_omega
  have hpc : t.returnFromInterrupt.pc = wordOf (hi ret) (lo ret) :=
    State.rti_pc_of_reads (by rwa [hsp2]) (by rwa [hsp3])
  have hpulled : t.pulled = status := State.pulled_of_reads (by rwa [hsp1])
  refine ⟨hpc.trans (wordOf_hi_lo ret), (State.rti_sp t).trans hsp3, fun f => ?_⟩
  rw [State.flag, State.charge_p, State.rti_p, hpulled, flagOf_pulledStatus]

/-- Servicing NMI or IRQ is an entry that pushes PC and P with B clear and U set (R407, R408). -/
theorem interruptCheck_enters {s : State} (h : s.dueInterrupt = some .nmi ∨ s.dueInterrupt = some .irq) :
    ∃ vector, s.interruptCheck.sp = s.sp - 3 ∧
      ∀ a, s.interruptCheck.peek a = (s.enter s.pc (pushedByInterrupt s.p) vector).peek a := by
  rcases h with h | h
  · refine ⟨nmiVector, ?_, fun a => ?_⟩ <;> simp [State.interruptCheck, h, State.serviceNmi]
  · refine ⟨irqVector, ?_, fun a => ?_⟩ <;> simp [State.interruptCheck, h, State.serviceIrq]

/-- RTI after an NMI or IRQ entry continues at the interrupted boundary, with SP as before and P as pushed (R414). -/
theorem rti_undoes_service {s u : State} {pc : Word} (hinv : s.Inv)
    (hdue : s.dueInterrupt = some .nmi ∨ s.dueInterrupt = some .irq)
    (hu : exec .rti (s.interruptCheck.setPc pc) = .next u) :
    u.pc = s.pc ∧ u.sp = s.sp ∧ ∀ f, u.flag f = if f = .brk then false else if f = .unused then true else s.flag f := by
  obtain ⟨vector, hsp, hmem⟩ := interruptCheck_enters hdue
  obtain ⟨hpc, husp, hflags⟩ :=
    rti_undoes_enter hinv hsp (fun a => (State.setPc_peek _ pc a).trans (hmem a)) hu
  refine ⟨hpc, husp, fun f => ?_⟩
  rw [hflags, flagOf_pushedByInterrupt]
  cases f <;> rfl

/-- RTI after BRK continues at the address of the BRK plus 2, with SP as before and B and U set (R234, R415). -/
theorem rti_undoes_brk {s t u : State} {pc : Word} (hinv : s.Inv) (ht : exec .brk s = .next t)
    (hu : exec .rti (t.setPc pc) = .next u) :
    u.pc.toNat = (s.pc.toNat + 1) % 65536 ∧ u.sp = s.sp ∧
      ∀ f, u.flag f = if f = .brk ∨ f = .unused then true else s.flag f := by
  obtain rfl := Host.Outcome.next.inj ((exec_brk s).symm.trans ht)
  obtain ⟨hpc, husp, hflags⟩ :=
    rti_undoes_enter hinv (by simp) (fun a => (State.setPc_peek _ pc a).trans (State.charge_peek _ 7 a)) hu
  refine ⟨(congrArg BitVec.toNat hpc).trans (BitVec.toNat_add s.pc 1), husp, fun f => ?_⟩
  rw [hflags, flagOf_pushedByInstruction]
  cases f <;> rfl

/-- Settles O39: what JSR and the entries push is what RTS and RTI pull. -/
theorem returnsUndoEntries : Obligations.ReturnsUndoEntries := fun _ _ _ _ _ hinv =>
  ⟨rts_undoes_jsr hinv, rti_undoes_service hinv, rti_undoes_brk hinv⟩

end Sys2Proof.Machine
end

section
/-! PROOFS. The flag instructions, NOP and RTI complete (R225 to R232, R236). -/

namespace Sys2Proof.Machine

/-! ### The flag instructions and NOP -/

theorem State.setFlag_flag_same (s : State) (f : Flag) (v : Bool) : (s.setFlag f v).flag f = v := by
  simp [State.flag]

/-- An instruction that may write the flag `f` alone, and whose effect sets it to `v` (R225 to R231). -/
theorem flagInstr_completes {i : Instr} {s : State} {f : Flag} {v : Bool} (hi : i ∈ twoCycles)
    (hw : State.OnlyWrites i.regsWritten i.flagsWritten s (s.setFlag f v)) :
    ∃ t, plainInstr i (s.setFlag f v) = .next t ∧ t.flag f = v ∧ i.Frame s t ∧ t.pc = s.pc ∧ t.cyc = s.cyc + 2 :=
  ⟨_, plainInstr_two hi _, s.setFlag_flag_same f v, hw.frame 2, rfl, rfl⟩

/-- Settles O29: seven instructions set the one flag they may write, and NOP counts its cycles alone. -/
theorem flagInstructionsComplete : Obligations.FlagInstructionsComplete := by
  refine fun s => ⟨?flags, ⟨rfl, ?nop⟩⟩
  case flags =>
    simp only [List.forall_mem_cons, List.not_mem_nil, false_implies, implies_true, and_true]
    refine ⟨⟨rfl, ?clc⟩, ⟨rfl, ?sec⟩, ⟨rfl, ?cli⟩, ⟨rfl, ?sei⟩, ⟨rfl, ?cld⟩, ⟨rfl, ?sed⟩, ⟨rfl, ?clv⟩⟩
    case clc | sec | cli | sei | cld | sed | clv => exact flagInstr_completes (by decide) (.setFlag s _ _)
  case nop =>
    have hexec : exec .nop s = .next (s.charge 2) := plainInstr_two (by decide) s
    exact ⟨_, hexec, rfl, plainInstr_frame hexec (.refl _ _ s), rfl, rfl⟩

/-! ### RTI -/

/-- The flags RTI leaves are those of the byte pulled, but for U, which is 1 (R236, R415). -/
theorem State.rti_flag_of_reads {s : State} {b : Byte} (hb : s.Reads (stackAddr (s.sp + 1)) b) (f : Flag) :
    s.returnFromInterrupt.flag f = if f = .unused then true else flagOf b f := by
  rw [State.flag, State.rti_p, State.pulled_of_reads hb, flagOf_pulledStatus]

/-- Settles O31: RTI sets P from the first byte pulled, and PC to the word of the two above it. -/
theorem returnFromInterruptCompletes : Obligations.ReturnFromInterruptCompletes := by
  intro s b l h hb hl hh
  have hpc : (s.returnFromInterrupt.charge 6).pc = wordOf h l := State.rti_pc_of_reads hl hh
  refine ⟨_, exec_rti s, ?pc, s.rti_sp, State.rti_flag_of_reads hb, congrArg (· + 6) s.rti_cyc⟩
  case pc => rw [hpc, wordOf_toNat]

end Sys2Proof.Machine
end

section
/-! PROOFS. Whole steps put together: a step that runs one instruction, a step that makes a DMA transfer, and the two
cells the PPU drives after every step (R250, R258, R270, R316, R322). -/

namespace Sys2Proof.Machine

/-! ### What follows the CPU step -/

/-- After a CPU step that completes come the Controller and the PPU (R270). -/
theorem step_of_next {s t : State} (h : cpuStep s = .next t) : step s = outcome (deviceStep (t.cyc - s.cyc) t) := by
  simp [step, h]

/-- A refusal of the CPU step is a refusal of the step. -/
theorem step_of_refused {s : State} {r : Refusal} (h : cpuStep s = .refused r) : step s = .refused r := by
  simp [step, h]

/-- The devices' part of a step: the Controller, the PPU's register step, which alone can fault, its ticks and the
refresh of the driven cells (R270, R410). -/
theorem outcome_deviceStep (n : Nat) (t : State) :
    outcome (deviceStep n t) = match manageRegisters (controllerStep t) with
      | .ok v => .next (refreshCells (ppuTicks (3 * n) v))
      | .error f => .fault f := by
  unfold deviceStep ppuStep
  cases manageRegisters (controllerStep t) <;> rfl

/-! ### A step that runs an instruction -/

/-- Fetching where the bytes of a well-formed, defined instruction stand gives that instruction, each of its bytes read
and PC past them (R102, R252). -/
theorem fetch_of_encode {s : State} {i : Instr} (hwf : i.wf = true) (hu : i.mode ≠ .UND)
    (h : s.HoldsBytes s.pc (encode i)) :
    fetch s = .ok (i, (State.touches s.pc (encode i).length s).setPc (s.pc + BitVec.ofNat 16 (encode i).length)) := by
  obtain ⟨r, hr⟩ := exists_row hwf hu
  obtain ⟨hi, hc⟩ := instrOf_of_rowFor hr (i.args[0]?.getD 0#8) (i.args[1]?.getD 0#8)
  have hlen : i.length = 1 + i.args.length := by
    cases i
    case und => exact absurd rfl hu
    all_goals rfl
  rw [encode_of_row hr] at h ⊢
  rw [fetch_of_holds hc.symm h, hi, Instr.fill_args, hlen, List.length_cons, Nat.add_comm]

/-- A CPU step without DMA is `exec` of the instruction whose bytes stand at PC after the interrupt check (R250 to
R252). -/
theorem cpuStep_of_encode {s : State} {i : Instr} (hd : s.interruptCheck.dmaActive = false) (hwf : i.wf = true)
    (hu : i.mode ≠ .UND) (h : s.interruptCheck.HoldsBytes s.interruptCheck.pc (encode i)) :
    cpuStep s = exec i (s.interruptCheck.fetched (encode i).length) := by
  have hb : (s.interruptCheck.setAck dmaSlot .none).HoldsBytes s.interruptCheck.pc (encode i) :=
    (holdsBytes_congr (State.setAck_peek _ _ _) _ _).2 h
  rw [cpuStep_of_dma_inactive hd, fetchExecute, fetch_of_encode hwf hu hb]
  rfl

/-- Settles O40: the CPU step is `exec` of the instruction, and what it answers decides what follows. -/
theorem stepRunsTheDecodedInstruction : Obligations.StepRunsTheDecodedInstruction := by
  refine ⟨fun _ => State.interruptCheck_of_none, ?_⟩
  rintro s _ i rfl hd hwf hu hb
  have hcpu := cpuStep_of_encode hd hwf hu hb
  cases he : exec i (s.interruptCheck.fetched (encode i).length) with
  | next t => exact (step_of_next (hcpu.trans he)).trans (outcome_deviceStep _ t)
  | fault f => exact step_of_fault (hcpu.trans he)
  | refused r => exact step_of_refused (hcpu.trans he)

/-! ### A step that makes a DMA transfer -/

/-- A CPU step with DMA active after the interrupt check is the transfer, with the slot of `$4014` cleared (R258,
R290). -/
theorem cpuStep_of_dma_active {s : State} (h : s.interruptCheck.dmaActive = true) :
    cpuStep s = outcome (dmaTransfer (s.interruptCheck.setAck dmaSlot .none)) := by
  simp [cpuStep, h]

/-- The transfer copies page `dmareg` into OAM from `oamaddr` on, wrapping, where the page can be read, and leaves the
registers, CPU memory and a cleared slot of `$4014` alone (R290, R291). -/
theorem dmaTransfer_copies {s : State} (hoam : Memory.wf Bank.oam.unlisted 256 s.ppu.oam)
    (hack : s.io.ack[dmaSlot] ≠ .write) (hl : ∀ i : Byte, s.CanLoad (wordOf s.io.dmareg i)) :
    ∃ t, dmaTransfer s = .ok t ∧ t.SameRegisters s ∧ t.cyc = s.cyc + dmaCost s.cyc ∧ t.mapper = s.mapper ∧
      t.context = s.context ∧ t.ppu.oamaddr = s.ppu.oamaddr ∧ t.dmaActive = false ∧
      ∀ i v : Byte, s.Reads (wordOf s.io.dmareg i) v →
        Memory.read Bank.oam.unlisted t.ppu.oam ((s.ppu.oamaddr.toNat + i.toNat) % 256) = v := by
  obtain ⟨u, hcopy, hregs, hcontext, hcyc, hmapper, -, -, hoamaddr, hinactive, -, hbytes⟩ :=
    dmaCopy_writes s.io.dmareg 256 0 s (Nat.le_refl _) hoam hl
  refine ⟨u.charge (dmaCost s.cyc), by simp [dmaTransfer, hcopy], { hregs with },
    congrArg (· + dmaCost s.cyc) hcyc, hmapper, hcontext, hoamaddr, beq_eq_false_iff_ne.2 (hinactive hack), fun i v hv => ?_⟩
  exact hbytes i.toNat (Nat.zero_le _) (by omega) v (by simpa using hv)

/-- Settles O41: the transfer starts in the state after the interrupt check, with the slot of `$4014` cleared. -/
theorem dmaCopiesThePage : Obligations.DmaCopiesThePage := by
  rintro s _ hinv rfl hd hl
  have hoam : Memory.wf Bank.oam.unlisted 256 (s.interruptCheck.setAck dmaSlot .none).ppu.oam :=
    ((State.Sound.interruptCheck s).inv hinv).ppu.oam
  have hack : (s.interruptCheck.setAck dmaSlot .none).io.ack[dmaSlot] ≠ .write := by simp
  obtain ⟨t, ht, hregs, hcyc, hmapper, hcontext, hoamaddr, hinactive, hbytes⟩ := dmaTransfer_copies hoam hack hl
  have hcpu : cpuStep s = .next t := (cpuStep_of_dma_active hd).trans (outcome_eq_next.2 ht)
  refine ⟨t, hcpu, { hregs with }, hcyc.trans (Nat.add_assoc _ _ _).symm, hmapper,
    hcontext, hoamaddr, hinactive, fun i v hv => hbytes i v ?_, (step_of_next hcpu).trans (outcome_deviceStep _ t)⟩
  exact (State.setAck_peek _ _ _ _).trans hv

/-! ### The driven cells -/

/-- The status byte as a number: the three flags in bits 7 to 5 (R315, R316). -/
theorem Ppu.status_toNat (p : Ppu) :
    p.status.toNat = 128 * p.vblank.toNat + 64 * p.sprite0.toNat + 32 * p.overflow.toNat := by
  have bits : ∀ v z o : Bool, ((bitOf v <<< 7) ||| (bitOf z <<< 6) ||| (bitOf o <<< 5)).toNat =
      128 * v.toNat + 64 * z.toNat + 32 * o.toNat := by decide
  exact bits _ _ _

/-- The refresh drives the status byte into `$2002` and the OAM byte at `oamaddr` into `$2004` (R316, R322). -/
theorem refreshCells_ioreg (s : State) :
    (refreshCells s).io.ioreg[2] = s.ppu.status ∧ (refreshCells s).io.ioreg[4] = s.ppu.oamByte s.ppu.oamaddr.toNat := by
  simp [refreshCells, Ppu.oamByte]

/-- Settles O52: every step that completes ends with the refresh, which leaves the PPU alone. -/
theorem drivenCellsAreRefreshed : Obligations.DrivenCellsAreRefreshed := by
  intro s t h
  obtain ⟨u, v, -, -, rfl⟩ := step_eq_next h
  obtain ⟨hstatus, hoam⟩ := refreshCells_ioreg (ppuTicks (3 * (u.cyc - s.cyc)) v)
  exact ⟨(congrArg BitVec.toNat hstatus).trans (Ppu.status_toNat _), hoam⟩

end Sys2Proof.Machine
end

section
/-! PROOFS. The acknowledgments (R284, R285) and the Controller: what a query answers, what the joypads serve, and what a
step of the Controller does (R300 to R306). -/

namespace Sys2Proof.Machine

/-! ### Acknowledgments -/

theorem State.setAck_none_ack (s : State) (slot j : Fin 40) :
    (s.setAck slot .none).io.ack[j] = if j = slot then .none else s.io.ack[j] :=
  (State.polled_setAck slot s).acks j

/-- A CPU read that is made is recorded in its address's slot, and no other (R55, R284). -/
theorem memRead_acknowledged {s t : State} {a : Word} {v : Byte} (h : memRead a s = .ok (v, t)) :
    State.Acknowledged a .read s t := by
  obtain ⟨-, rfl⟩ := memRead_eq_ok.1 h
  exact State.touch_ack s a .read

/-- A CPU write that is made is recorded in its address's slot, and no other (R55, R284); where it is ignored there is no
slot. -/
theorem memWrite_acknowledged {s t : State} {a : Word} {v : Byte} (h : memWrite a v s = .ok t) :
    State.Acknowledged a .write s t := by
  intro slot
  rcases memWrite_eq_ok h with ⟨⟨h8, -⟩, rfl⟩ | ⟨-, c, -, rfl⟩
  · rw [ackSlot_none (.inr (by omega)), if_neg (by simp)]
  · rw [State.writeCell_ack]
    exact State.touch_ack s a .write slot

/-- The first query after an access answers it, a second one none, and other slots keep their records (R285). -/
theorem State.Acknowledged.oneShot {s t : State} {a : Word} {k : Access} {slot : Fin 40} (hslot : ackSlot a = some slot)
    (h : State.Acknowledged a k s t) :
    (t.takeAck slot).1 = k ∧ ((t.takeAck slot).2.takeAck slot).1 = .none ∧
      ∀ other, other ≠ slot →
        t.io.ack[other] = s.io.ack[other] ∧ (t.takeAck slot).2.io.ack[other] = s.io.ack[other] := by
  have hother : ∀ other, other ≠ slot → t.io.ack[other] = s.io.ack[other] := fun other hne => by
    rw [h other, if_neg fun e => hne (Option.some.inj (hslot.symm.trans e)).symm]
  refine ⟨(h slot).trans (if_pos hslot), (t.setAck_none_ack slot slot).trans (if_pos rfl), fun other hne => ?_⟩
  exact ⟨hother other hne, (t.setAck_none_ack slot other).trans ((if_neg hne).trans (hother other hne))⟩

/-- Settles O11: a read and a write are each recorded in the register's slot, and a query clears that slot alone. -/
theorem acknowledgmentIsOneShot : Obligations.AcknowledgmentIsOneShot := fun s _ slot hslot =>
  ⟨⟨rfl, (s.setAck_none_ack slot slot).trans (if_pos rfl)⟩, fun _ _ h => (memRead_acknowledged h).oneShot hslot,
    fun _ _ h => (memWrite_acknowledged h).oneShot hslot⟩

/-! ### One joypad -/

theorem Joypad.advance_idle {pad : Joypad} (h : pad.polling = false) (cell : Byte) : pad.advance cell = (pad, cell) := by
  simp [Joypad.advance, h]

theorem Joypad.afterReads_idle {pad : Joypad} (h : pad.polling = false) (cell : Byte) (n : Nat) :
    pad.afterReads cell n = (pad, cell) := by
  induction n with
  | zero => rfl
  | succ n ih => rw [Joypad.afterReads, ih, Joypad.advance_idle h]

theorem Joypad.bit0_eq (pad : Joypad) : pad.bit0 = bitOf (pad.shift.getLsbD 0) := by
  have bits : ∀ b : Byte, b &&& 0x01 = bitOf (b.getLsbD 0) := by decide
  exact bits pad.shift

/-- A joypad latched with a key byte and read `n` times: it counts its reads, shifting in the first eight, and is back at
rest from the tenth on (R301 to R303). -/
def Joypad.served (keys : Byte) (n : Nat) : Joypad :=
  if n < 10 then { shift := keys >>> min n 8, pos := n + 1, polling := true }
  else { shift := 0, pos := 1, polling := false }

/-- What the cell holds after `n` reads: the keys lowest bit first, then 1 (R302, R303). -/
def servedCell (keys : Byte) (n : Nat) : Byte := if n < 8 then bitOf (keys.getLsbD n) else 1

/-- One more read of a latched joypad (R302, R303). -/
theorem Joypad.advance_served (keys : Byte) (n : Nat) :
    (Joypad.served keys n).advance (servedCell keys n) = (Joypad.served keys (n + 1), servedCell keys (n + 1)) := by
  rcases Nat.lt_or_ge n 10 with h10 | h10
  · have hcases : n < 7 ∨ n = 7 ∨ n = 8 ∨ n = 9 := by omega
    rcases hcases with h | rfl | rfl | rfl
    · have hpad : Joypad.served keys (n + 1) = { shift := keys >>> min (n + 1) 8, pos := n + 2, polling := true } :=
        if_pos (by omega)
      have hcell : servedCell keys (n + 1) = (Joypad.served keys (n + 1)).bit0 := by
        rw [Joypad.bit0_eq, hpad, servedCell, if_pos (by omega), Nat.min_eq_left (by omega), BitVec.getLsbD_ushiftRight,
          Nat.add_zero]
      have hshift : (keys >>> min n 8) >>> 1 = keys >>> min (n + 1) 8 := by
        rw [Nat.min_eq_left (by omega), Nat.min_eq_left (by omega), BitVec.shiftRight_add]
      rw [hcell, hpad, ← hshift]
      simp [Joypad.served, Joypad.advance, h10, show n + 1 ≤ 7 by omega]
    · simp [Joypad.served, servedCell, Joypad.advance]
    · simp [Joypad.served, servedCell, Joypad.advance]
    · simp [Joypad.served, servedCell, Joypad.advance]
  · have hpad : ∀ m, 10 ≤ m → Joypad.served keys m = { shift := 0, pos := 1, polling := false } := fun m hm =>
      if_neg (by omega)
    have hcell : ∀ m, 10 ≤ m → servedCell keys m = 1 := fun m hm => if_neg (by omega)
    rw [hpad n h10, hpad (n + 1) (by omega), hcell n h10, hcell (n + 1) (by omega)]
    rfl

/-- A latched joypad after `n` reads (R301 to R303). -/
theorem Joypad.afterReads_latch (pad : Joypad) (keys : Byte) (n : Nat) :
    (pad.latch keys).afterReads (pad.latch keys).bit0 n = (Joypad.served keys n, servedCell keys n) := by
  induction n with
  | zero =>
    rw [Joypad.afterReads, Joypad.bit0_eq]
    rfl
  | succ n ih => rw [Joypad.afterReads, ih, Joypad.advance_served]

/-- Settles O47: a latched joypad is `Joypad.served`, and one that is not polling does not move. -/
theorem joypadServesTheKeysInOrder : Obligations.JoypadServesTheKeysInOrder := by
  refine ⟨fun pad keys n => ?latched, fun pad cell n h => ⟨Joypad.advance_idle h cell, Joypad.afterReads_idle h cell n⟩,
    fun i => ⟨rfl, rfl, rfl, rfl⟩⟩
  case latched =>
    rw [Joypad.afterReads_latch]
    refine ⟨rfl, ?_, fun h => if_neg (by omega)⟩
    rw [Joypad.served]
    split <;> simpa using by omega

/-! ### The Controller's step -/

/-- What a record of `$4016` makes the Controller do (R300). -/
def State.pollPad1 (s : State) : Access → State
  | .write => s.strobe
  | .read => s.shiftPad1
  | .none => s

/-- What a record of `$4017` makes the Controller do (R300). -/
def State.pollPad2 (s : State) : Access → State
  | .read => s.shiftPad2
  | .write => s
  | .none => s

/-- The two slots of the joypads cleared (R285). -/
def State.padsQueried (s : State) : State := (s.setAck joy1Slot .none).setAck joy2Slot .none

/-- The Controller's step: both slots are queried, then what `$4016` recorded takes effect, then what `$4017` recorded
(R300). -/
theorem controllerStep_eq (s : State) :
    controllerStep s = (s.padsQueried.pollPad1 s.io.ack[joy1Slot]).pollPad2 s.io.ack[joy2Slot] := by
  have h2 : (s.setAck joy1Slot .none).io.ack[joy2Slot] = s.io.ack[joy2Slot] :=
    (s.setAck_none_ack joy1Slot joy2Slot).trans (if_neg (by decide))
  rw [← h2]
  rfl

theorem State.padsQueried_ack (s : State) (slot : Fin 40) :
    s.padsQueried.io.ack[slot] = if slot = joy1Slot ∨ slot = joy2Slot then .none else s.io.ack[slot] := by
  rw [State.padsQueried, State.setAck_none_ack, State.setAck_none_ack]
  split_ifs <;> simp_all

/-- `s` with other joypads, look-back and joypads' cells. -/
def State.withPads (s : State) (c : Controller) (joy1 joy2 : Byte) : State :=
  (s.setPads c).setIo { s.io with joy1 := joy1, joy2 := joy2 }

/-- `t` is `s` but for the joypads, the look-back and the joypads' cells. -/
def State.PadsOnly (s t : State) : Prop := ∃ c joy1 joy2, t = s.withPads c joy1 joy2

theorem State.PadsOnly.trans {s t u : State} (h : s.PadsOnly t) (h' : t.PadsOnly u) : s.PadsOnly u := by
  obtain ⟨_, _, _, rfl⟩ := h
  obtain ⟨c, joy1, joy2, rfl⟩ := h'
  exact ⟨c, joy1, joy2, rfl⟩

/-- A byte with bit 0 set raises the strobe (R300). -/
theorem State.strobe_raise {s : State} (h : s.io.joy1.getLsbD 0 = true) :
    s.strobe = s.setPads { s.pads with lastStrobe := true } := if_pos h

/-- A byte with bit 0 clear does nothing without a raised strobe (R300). -/
theorem State.strobe_idle {s : State} (h : s.io.joy1.getLsbD 0 = false) (hl : s.pads.lastStrobe = false) :
    s.strobe = s :=
  (if_neg (Bool.eq_false_iff.1 h)).trans (if_neg (Bool.eq_false_iff.1 hl))

/-- A byte with bit 0 clear after a raised strobe latches both joypads (R300, R301). -/
theorem State.strobe_latch {s : State} (h : s.io.joy1.getLsbD 0 = false) (hl : s.pads.lastStrobe = true) :
    s.strobe =
      (s.setPads
        { pad1 := { shift := s.keys.extractLsb' 0 8, pos := 1, polling := true }
          pad2 := { shift := s.keys.extractLsb' 8 8, pos := 1, polling := true }
          lastStrobe := false }).setIo
        { s.io with joy1 := bitOf (s.keys.getLsbD 0), joy2 := bitOf (s.keys.getLsbD 8) } := by
  have h1 : (s.pads.pad1.latch (s.keys.extractLsb' 0 8)).bit0 = bitOf (s.keys.getLsbD 0) := by
    rw [Joypad.bit0_eq]
    simp [Joypad.latch]
  have h2 : (s.pads.pad2.latch (s.keys.extractLsb' 8 8)).bit0 = bitOf (s.keys.getLsbD 8) := by
    rw [Joypad.bit0_eq]
    simp [Joypad.latch]
  rw [← h1, ← h2]
  exact (if_neg (Bool.eq_false_iff.1 h)).trans (if_pos hl)

theorem State.strobe_padsOnly (s : State) : s.PadsOnly s.strobe := by
  cases hb : s.io.joy1.getLsbD 0 with
  | true => exact ⟨{ s.pads with lastStrobe := true }, s.io.joy1, s.io.joy2, State.strobe_raise hb⟩
  | false =>
    cases hl : s.pads.lastStrobe with
    | true => exact ⟨_, _, _, State.strobe_latch hb hl⟩
    | false => exact ⟨s.pads, s.io.joy1, s.io.joy2, State.strobe_idle hb hl⟩

theorem State.pollPad1_padsOnly (s : State) (k : Access) : s.PadsOnly (s.pollPad1 k) := by
  cases k with
  | none => exact ⟨s.pads, s.io.joy1, s.io.joy2, rfl⟩
  | read => exact ⟨_, _, s.io.joy2, rfl⟩
  | write => exact s.strobe_padsOnly

theorem State.pollPad2_padsOnly (s : State) (k : Access) : s.PadsOnly (s.pollPad2 k) := by
  cases k with
  | none | write => exact ⟨s.pads, s.io.joy1, s.io.joy2, rfl⟩
  | read => exact ⟨_, s.io.joy1, _, rfl⟩

/-- The Controller's step changes the joypads, the look-back, their cells and the two slots alone (R300). -/
theorem controllerStep_padsOnly (s : State) : s.padsQueried.PadsOnly (controllerStep s) := by
  rw [controllerStep_eq]
  exact (State.pollPad1_padsOnly _ _).trans (State.pollPad2_padsOnly _ _)

/-- Polling `$4017` leaves the first joypad and the look-back alone (R300). -/
theorem State.pollPad2_pad1 (s : State) (k : Access) :
    (s.pollPad2 k).pads.pad1 = s.pads.pad1 ∧ (s.pollPad2 k).pads.lastStrobe = s.pads.lastStrobe ∧
      (s.pollPad2 k).io.joy1 = s.io.joy1 := by
  cases k <;> exact ⟨rfl, rfl, rfl⟩

theorem State.pollPad2_of_ne_read {s : State} {k : Access} (h : k ≠ .read) : s.pollPad2 k = s := by
  cases k with
  | none | write => rfl
  | read => exact absurd rfl h

/-- Polling `$4016` leaves the second joypad alone unless it latches both (R300). -/
theorem State.pollPad1_pad2 {s : State} {k : Access}
    (h : ¬(k = .write ∧ s.io.joy1.getLsbD 0 = false ∧ s.pads.lastStrobe = true)) :
    (s.pollPad1 k).pads.pad2 = s.pads.pad2 ∧ (s.pollPad1 k).io.joy2 = s.io.joy2 := by
  cases k with
  | none | read => exact ⟨rfl, rfl⟩
  | write =>
    show s.strobe.pads.pad2 = _ ∧ s.strobe.io.joy2 = _
    cases hb : s.io.joy1.getLsbD 0 with
    | true =>
      rw [State.strobe_raise hb]
      exact ⟨rfl, rfl⟩
    | false =>
      rw [State.strobe_idle hb (Bool.eq_false_iff.2 fun hl => h ⟨rfl, hb, hl⟩)]
      exact ⟨rfl, rfl⟩

/-- The state between the two polls (R300). -/
def State.pad1Polled (s : State) : State := s.padsQueried.pollPad1 s.io.ack[joy1Slot]

/-- What the step leaves of the first joypad is what polling `$4016` leaves (R300). -/
theorem controllerStep_pad1 (s : State) :
    (controllerStep s).pads.pad1 = s.pad1Polled.pads.pad1 ∧
      (controllerStep s).pads.lastStrobe = s.pad1Polled.pads.lastStrobe ∧
      (controllerStep s).io.joy1 = s.pad1Polled.io.joy1 := by
  rw [controllerStep_eq]
  exact State.pollPad2_pad1 _ _

/-- What the step leaves of the second joypad is what polling `$4016` leaves, moved on by a read of `$4017` (R300). -/
theorem controllerStep_pad2 (s : State) :
    (s.io.ack[joy2Slot] ≠ .read → (controllerStep s).pads.pad2 = s.pad1Polled.pads.pad2 ∧
      (controllerStep s).io.joy2 = s.pad1Polled.io.joy2) ∧
    (s.io.ack[joy2Slot] = .read → ((controllerStep s).pads.pad2, (controllerStep s).io.joy2) =
      s.pad1Polled.pads.pad2.advance s.pad1Polled.io.joy2) := by
  rw [controllerStep_eq]
  refine ⟨fun h => ?_, fun h => ?_⟩
  · rw [State.pollPad2_of_ne_read h]
    exact ⟨rfl, rfl⟩
  · rw [h]
    rfl

theorem State.pad1Polled_write {s : State} (h : s.io.ack[joy1Slot] = .write) : s.pad1Polled = s.padsQueried.strobe := by
  rw [State.pad1Polled, h]
  rfl

/-- Settles O48: the step is two queries, the record of `$4016` and the record of `$4017`, in this order. -/
theorem controllerStepFollowsTheStrobe : Obligations.ControllerStepFollowsTheStrobe := by
  intro s
  obtain ⟨c, j1, j2, hframe⟩ := controllerStep_padsOnly s
  obtain ⟨hpad1, hlast, hjoy1⟩ := controllerStep_pad1 s
  obtain ⟨hkeep2, hread2⟩ := controllerStep_pad2 s
  have hstay : ¬s.LatchesJoypads →
      s.pad1Polled.pads.pad2 = s.pads.pad2 ∧ s.pad1Polled.io.joy2 = s.io.joy2 :=
    State.pollPad1_pad2 (s := s.padsQueried)
  have hlatch : s.LatchesJoypads → s.pad1Polled = _ := fun h =>
    (State.pad1Polled_write h.1).trans (State.strobe_latch h.2.1 h.2.2)
  rw [hframe] at hpad1 hlast hjoy1 hkeep2 hread2
  refine ⟨_, hframe, s.padsQueried_ack, ?ioreg, ?dmareg, ?dummy, ?regs, ?context, ?cyc, ?mapper,
    ?ppu, ?pixels, ?cfg, ?keys, ?frames, ?fresh, fun h => ?none, fun h => ?read, fun h hb => ?raise,
    fun h hb hl => ?idle, fun h => ?latch,
    fun hn h => ?keep2, fun hn h => ?read2, fun hl h => ?latch2, fun hl h => ?latchRead2⟩
  case regs => constructor <;> simp [State.withPads, State.padsQueried]
  case ioreg | dmareg | dummy | context | cyc | mapper | ppu | pixels | cfg | keys | frames | fresh =>
    simp [State.withPads, State.padsQueried]
  case none =>
    have e : s.pad1Polled = s.padsQueried := by rw [State.pad1Polled, h]; rfl
    rw [hpad1, hlast, hjoy1, e]
    exact ⟨rfl, rfl, rfl⟩
  case read =>
    have e : s.pad1Polled = s.padsQueried.shiftPad1 := by rw [State.pad1Polled, h]; rfl
    rw [hpad1, hlast, hjoy1, e]
    exact ⟨rfl, rfl⟩
  case raise =>
    rw [hpad1, hlast, hjoy1, State.pad1Polled_write h, State.strobe_raise (s := s.padsQueried) hb]
    exact ⟨rfl, rfl, rfl⟩
  case idle =>
    rw [hpad1, hlast, hjoy1, State.pad1Polled_write h, State.strobe_idle (s := s.padsQueried) hb hl]
    exact ⟨rfl, hl, rfl⟩
  case latch =>
    rw [hpad1, hlast, hjoy1, hlatch h]
    exact ⟨rfl, rfl, rfl⟩
  case keep2 => exact ⟨(hkeep2 h).1.trans (hstay hn).1, (hkeep2 h).2.trans (hstay hn).2⟩
  case read2 =>
    rw [hread2 h, (hstay hn).1, (hstay hn).2]
  case latch2 =>
    rw [(hkeep2 h).1, (hkeep2 h).2, hlatch hl]
    exact ⟨rfl, rfl⟩
  case latchRead2 =>
    rw [hread2 h, hlatch hl]
    rfl

end Sys2Proof.Machine
end

section
/-! PROOFS. The PPU's registers but for the data port: the writes of `$2000`, `$2005` and `$2006` field by field (R312,
R318, R319, R324, R325), and what each acknowledged access does when it is polled (R310, R329). -/

namespace Sys2Proof.Machine

/-! ### The fields of an address with some bits replaced -/

section Fields

variable {v mask b : VramAddr}

theorem coarseX_putField_other (h : mask.extractLsb' 0 5 = 0) : coarseX (putField v mask b) = coarseX v := by
  rw [coarseX_eq, coarseX_eq, extract_putField_other h]

theorem coarseX_putField_same (h : mask.extractLsb' 0 5 = BitVec.allOnes 5) :
    coarseX (putField v mask b) = coarseX b := by
  rw [coarseX_eq, coarseX_eq, extract_putField_same h]

theorem coarseY_putField_other (h : mask.extractLsb' 5 5 = 0) : coarseY (putField v mask b) = coarseY v := by
  rw [coarseY_eq, coarseY_eq, extract_putField_other h]

theorem coarseY_putField_same (h : mask.extractLsb' 5 5 = BitVec.allOnes 5) :
    coarseY (putField v mask b) = coarseY b := by
  rw [coarseY_eq, coarseY_eq, extract_putField_same h]

theorem nametableX_putField_other (h : mask.extractLsb' 10 1 = 0) : nametableX (putField v mask b) = nametableX v := by
  rw [nametableX_eq, nametableX_eq, extract_putField_other h]

theorem nametableX_putField_same (h : mask.extractLsb' 10 1 = BitVec.allOnes 1) :
    nametableX (putField v mask b) = nametableX b := by
  rw [nametableX_eq, nametableX_eq, extract_putField_same h]

theorem nametableY_putField_other (h : mask.extractLsb' 11 1 = 0) : nametableY (putField v mask b) = nametableY v := by
  rw [nametableY_eq, nametableY_eq, extract_putField_other h]

theorem nametableY_putField_same (h : mask.extractLsb' 11 1 = BitVec.allOnes 1) :
    nametableY (putField v mask b) = nametableY b := by
  rw [nametableY_eq, nametableY_eq, extract_putField_same h]

theorem fineY_putField_other (h : mask.extractLsb' 12 3 = 0) : fineY (putField v mask b) = fineY v := by
  rw [fineY_eq, fineY_eq, extract_putField_other h]

theorem fineY_putField_same (h : mask.extractLsb' 12 3 = BitVec.allOnes 3) :
    fineY (putField v mask b) = fineY b := by
  rw [fineY_eq, fineY_eq, extract_putField_same h]

/-- An address is its bit 14, its high six bits below that and its low byte (R325). -/
theorem toNat_eq_slices (v : VramAddr) :
    v.toNat = (v.extractLsb' 14 1).toNat * 16384 + (v.extractLsb' 8 6).toNat * 256 + (v.extractLsb' 0 8).toNat := by
  have := v.isLt
  simp [Nat.shiftRight_eq_div_pow]
  omega

end Fields

/-! ### The bytes written, as fields -/

/-- The two nametable bits of a byte put at bit 10 (R312). -/
theorem nametable_of_byte (d : Byte) :
    nametableX (d.setWidth 15 <<< 10) = d.toNat % 2 ∧ nametableY (d.setWidth 15 <<< 10) = d.toNat / 2 % 2 := by
  rw [nametableX_eq, nametableY_eq, extract_shiftLeft d (by decide) (by decide), extract_shiftLeft d (by decide) (by decide)]
  simp [Nat.shiftRight_eq_div_pow]

/-- The high five bits of a byte as coarse X (R324). -/
theorem coarseX_of_byte (d : Byte) : coarseX (d.setWidth 15 >>> 3) = d.toNat / 8 := by
  have := d.isLt
  simp [coarseX, Nat.shiftRight_eq_div_pow]
  omega

/-- The high five bits of a byte as coarse Y (R324). -/
theorem coarseY_of_byte (d : Byte) : coarseY ((d.setWidth 15 >>> 3) <<< 5) = d.toNat / 8 := by
  have := d.isLt
  simp [coarseY, Nat.shiftRight_eq_div_pow, Nat.shiftLeft_eq]
  omega

/-- The low three bits of a byte as fine Y (R324). -/
theorem fineY_of_byte (d : Byte) : fineY (d.setWidth 15 <<< 12) = d.toNat % 8 := by
  rw [fineY_eq, extract_shiftLeft d (by decide) (by decide)]
  simp

/-! ### The writes -/

/-- A write of `$2000` (R312). -/
theorem Ppu.writeCtrl_fields (p : Ppu) (d : Byte) :
    nametableX (p.writeCtrl d).t = d.toNat % 2 ∧ nametableY (p.writeCtrl d).t = d.toNat / 2 % 2 ∧
      coarseX (p.writeCtrl d).t = coarseX p.t ∧ coarseY (p.writeCtrl d).t = coarseY p.t ∧
      fineY (p.writeCtrl d).t = fineY p.t := by
  obtain ⟨hx, hy⟩ := nametable_of_byte d
  exact ⟨(nametableX_putField_same (by decide)).trans hx, (nametableY_putField_same (by decide)).trans hy,
    coarseX_putField_other (by decide), coarseY_putField_other (by decide), fineY_putField_other (by decide)⟩

/-- The first write of `$2005` (R324). -/
theorem Ppu.writeScroll_first {p : Ppu} (hw : p.w = false) (d : Byte) :
    p.writeScroll d =
      { p with t := putField p.t 0x001F (d.setWidth 15 >>> 3), fineX := d.setWidth 3, w := true } := by
  simp [Ppu.writeScroll, hw]

/-- The second write of `$2005` (R324). -/
theorem Ppu.writeScroll_second {p : Ppu} (hw : p.w = true) (d : Byte) :
    p.writeScroll d =
      { p with
        t := putField (putField p.t 0x7000 (d.setWidth 15 <<< 12)) 0x03E0 ((d.setWidth 15 >>> 3) <<< 5), w := false } := by
  simp [Ppu.writeScroll, hw]

/-- The first write of `$2006` (R325). -/
theorem Ppu.writeAddr_first {p : Ppu} (hw : p.w = false) (d : Byte) :
    p.writeAddr d = { p with t := putField (putField p.t 0x3F00 (d.setWidth 15 <<< 8)) 0x4000 0, w := true } := by
  simp [Ppu.writeAddr, hw]

/-- The second write of `$2006` (R325). -/
theorem Ppu.writeAddr_second {p : Ppu} (hw : p.w = true) (d : Byte) :
    p.writeAddr d =
      { p with t := putField p.t 0x00FF (d.setWidth 15), v := putField p.t 0x00FF (d.setWidth 15), w := false } := by
  simp [Ppu.writeAddr, hw]

/-- The high six address bits are the byte's low six, and bit 14 is cleared (R325). -/
theorem addrHigh_toNat (t : VramAddr) (d : Byte) :
    (putField (putField t 0x3F00 (d.setWidth 15 <<< 8)) 0x4000 0).toNat = d.toNat % 64 * 256 + t.toNat % 256 := by
  have htop : (putField (putField t 0x3F00 (d.setWidth 15 <<< 8)) 0x4000 0).extractLsb' 14 1 = 0 :=
    extract_putField_same (by decide)
  have hmid : (putField (putField t 0x3F00 (d.setWidth 15 <<< 8)) 0x4000 0).extractLsb' 8 6 = d.extractLsb' 0 6 :=
    (extract_putField_other (by decide)).trans
      ((extract_putField_same (by decide)).trans (extract_shiftLeft d (by decide) (by decide)))
  have hlow : (putField (putField t 0x3F00 (d.setWidth 15 <<< 8)) 0x4000 0).extractLsb' 0 8 = t.extractLsb' 0 8 :=
    (extract_putField_other (by decide)).trans (extract_putField_other (by decide))
  rw [toNat_eq_slices, htop, hmid, hlow]
  simp

/-- The low address byte replaced (R325). -/
theorem addrLow_toNat (t : VramAddr) (d : Byte) :
    (putField t 0x00FF (d.setWidth 15)).toNat = t.toNat / 256 * 256 + d.toNat := by
  have htop : (putField t 0x00FF (d.setWidth 15)).extractLsb' 14 1 = t.extractLsb' 14 1 :=
    extract_putField_other (by decide)
  have hmid : (putField t 0x00FF (d.setWidth 15)).extractLsb' 8 6 = t.extractLsb' 8 6 :=
    extract_putField_other (by decide)
  have hlow : (putField t 0x00FF (d.setWidth 15)).extractLsb' 0 8 = (d.setWidth 15).extractLsb' 0 8 :=
    extract_putField_same (by decide)
  have := t.isLt
  rw [toNat_eq_slices, htop, hmid, hlow]
  simp [Nat.shiftRight_eq_div_pow]
  omega

/-- Settles O49: each write replaces fields of `t` by fields of the byte. -/
theorem scrollAndAddressWrites : Obligations.ScrollAndAddressWrites := by
  intro p d e
  refine ⟨?ctrl, fun hw => ?scroll1, fun hw => ?scroll2, ?scrollFrame, fun hw => ?addr1, fun hw => ?addr2, ?addrFrame,
    fun hw => ?pair⟩
  case ctrl =>
    obtain ⟨hnx, hny, hcx, hcy, hfy⟩ := p.writeCtrl_fields d
    exact ⟨rfl, hnx, hny, hcx, hcy, hfy, rfl, rfl⟩
  case scroll1 =>
    rw [Ppu.writeScroll_first hw]
    exact ⟨(coarseX_putField_same (by decide)).trans (coarseX_of_byte d), BitVec.toNat_setWidth 3 d,
      coarseY_putField_other (by decide), nametableX_putField_other (by decide), nametableY_putField_other (by decide),
      fineY_putField_other (by decide), rfl, rfl⟩
  case scroll2 =>
    rw [Ppu.writeScroll_second hw]
    refine ⟨?_, (coarseY_putField_same (by decide)).trans (coarseY_of_byte d), ?_, ?_, ?_, rfl, rfl, rfl⟩
    · exact (fineY_putField_other (by decide)).trans ((fineY_putField_same (by decide)).trans (fineY_of_byte d))
    · exact (coarseX_putField_other (by decide)).trans (coarseX_putField_other (by decide))
    · exact (nametableX_putField_other (by decide)).trans (nametableX_putField_other (by decide))
    · exact (nametableY_putField_other (by decide)).trans (nametableY_putField_other (by decide))
  case scrollFrame =>
    cases hw : p.w with
    | false => rw [Ppu.writeScroll_first hw]
    | true => rw [Ppu.writeScroll_second hw]
  case addr1 =>
    rw [Ppu.writeAddr_first hw]
    exact ⟨addrHigh_toNat p.t d, rfl, rfl⟩
  case addr2 =>
    rw [Ppu.writeAddr_second hw]
    exact ⟨addrLow_toNat p.t d, rfl, rfl⟩
  case addrFrame =>
    cases hw : p.w with
    | false => rw [Ppu.writeAddr_first hw]
    | true => rw [Ppu.writeAddr_second hw]
  case pair =>
    rw [Ppu.writeAddr_first hw, Ppu.writeAddr_second rfl]
    refine ⟨?_, rfl, rfl, rfl, rfl⟩
    rw [addrLow_toNat, addrHigh_toNat]
    omega

/-! ### Polling -/

/-- What an access of a register but `$2007` does to the PPU (R310, R329). -/
def Ppu.afterAccess (p : Ppu) (k : Fin 8) (a : Access) (d : Byte) : Ppu :=
  match k.val, a with
  | 0, .write => p.writeCtrl d
  | 1, .write => { p with mask := d }
  | 2, .read => p.readStatus
  | 3, .write => { p with oamaddr := d }
  | 4, .write => p.writeOamData d
  | 5, .write => p.writeScroll d
  | 6, .write => p.writeAddr d
  | _, _ => p

/-- The side effect of an access of a register but `$2007` is on the PPU alone (R310). -/
theorem State.registerEffect_eq (s : State) {k : Fin 8} (hk : k.val ≠ 7) (a : Access) (d : Byte) :
    s.registerEffect k a d = .ok (s.setPpu (s.ppu.afterAccess k a d)) := by
  obtain ⟨k, hk8⟩ := k
  have hk7 : k < 7 := by
    have : k ≠ 7 := hk
    omega
  interval_cases k <;> cases a <;> rfl

/-- Polling a register but `$2007` clears its slot and makes its recorded access take effect on the PPU (R310). -/
theorem manageRegister_eq (s : State) {k : Fin 8} (hk : k.val ≠ 7) :
    manageRegister k s =
      .ok ((s.setAck (ppuSlot k) .none).setPpu (s.ppu.afterAccess k s.io.ack[ppuSlot k] s.io.ioreg[k])) :=
  State.registerEffect_eq _ hk _ _

/-- Only `$2002` has a read side effect besides `$2007` (R310, R317). -/
theorem Ppu.afterAccess_read (p : Ppu) (k : Fin 8) (d : Byte) :
    p.afterAccess k .read d = if k = 2 then { p with vblank := false, w := false } else p := by
  obtain ⟨k, hk⟩ := k
  interval_cases k <;> rfl

theorem Ppu.afterAccess_none (p : Ppu) (k : Fin 8) (d : Byte) : p.afterAccess k .none d = p := by
  obtain ⟨k, hk⟩ := k
  interval_cases k <;> rfl

/-- Settles O50: polling is `manageRegister_eq`, and `$2007` with no access recorded has its slot cleared. -/
theorem registerAccessesTakeEffect : Obligations.RegisterAccessesTakeEffect := by
  refine ⟨manageRegisters_eq, fun s k => ⟨fun hk => ?effect, fun hk ha => ?data⟩⟩
  case effect =>
    refine ⟨_, manageRegister_eq s hk, (State.polled_setAck (ppuSlot k) s).setPpu _, rfl, rfl, fun ha => ?write,
      fun ha => ?read, fun ha => ?none⟩ <;> rw [ha]
    case write =>
      refine ⟨?_, ?_, ?_, ?_, ?_, ?_, ?_⟩ <;> (rintro rfl; rfl)
    case read => exact Ppu.afterAccess_read _ _ _
    case none => exact Ppu.afterAccess_none _ _ _
  case data =>
    obtain rfl : k = 7 := Fin.ext hk
    simp only [manageRegister, State.takeAck, ha, State.registerEffect]

end Sys2Proof.Machine
end

section
/-! PROOFS. The ticks of the PPU: the counters and the length of a frame (R351, R352, R385), the vertical blank (R354, R384,
R403), and the background with what a tick leaves alone (R350, R355 to R363). -/

namespace Sys2Proof.Machine

/-! ### The counters and the frame -/

/-- Settles O53: the counters move as `advance` says, whatever the tick draws. -/
theorem countersAdvance : Obligations.CountersAdvance := by
  intro s
  obtain ⟨hline, hcycle, hparity⟩ := ppuTick_counters s
  rw [hline, hcycle, hparity]
  refine ⟨fun h => ?skip, fun hn => ⟨fun hc => ?next, fun ⟨hc, hl⟩ => ?line, fun ⟨hc, hl⟩ => ?frame⟩⟩
  case skip =>
    rw [Ppu.advance, if_pos h]
    exact ⟨rfl, rfl, h.2.2⟩
  case next =>
    rw [Ppu.advance, if_neg hn, if_neg hc]
    exact ⟨rfl, rfl, rfl⟩
  case line =>
    rw [Ppu.advance, if_neg hn, if_pos hc, if_neg hl]
    exact ⟨rfl, rfl, rfl⟩
  case frame =>
    rw [Ppu.advance, if_neg hn, if_pos hc, if_pos hl]
    exact ⟨rfl, rfl, rfl⟩

/-- From (0, 0), 261 lines of 341 ticks reach the start of the pre-render line, with the parity toggled (R351). -/
theorem ppuTicks_preRender {s : State} (hl : s.ppu.scanline = 0) (hc : s.ppu.cycle = 0) :
    (ppuTicks 89001 s).ppu.scanline = -1 ∧ (ppuTicks 89001 s).ppu.cycle = 0 ∧
    (ppuTicks 89001 s).ppu.oddFrame = !s.ppu.oddFrame := by
  obtain ⟨h1, h2, h3⟩ := ppuTicks_lines s 260 hc hl (Nat.le_refl _)
  obtain ⟨g1, g2, g3⟩ := ppuTicks_last_line (ppuTicks (341 * 260) s) h2 h1
  have hticks : 341 * 260 + 341 = 89001 := by norm_num
  rw [← ppuTicks_add, hticks] at g1 g2 g3
  exact ⟨g1, g2, g3.trans (congrArg _ h3)⟩

/-- Before the pre-render line the counters do not come back to (0, 0) (R351). -/
theorem ppuTicks_ne_origin {s : State} (hl : s.ppu.scanline = 0) (hc : s.ppu.cycle = 0) {n : Nat} (h0 : 0 < n)
    (hn : n < 89001) : ¬((ppuTicks n s).ppu.scanline = 0 ∧ (ppuTicks n s).ppu.cycle = 0) := by
  obtain ⟨h1, h2⟩ := ppuTicks_position s n hc hl hn
  rw [h1, h2]
  omega

/-- The pre-render line lasts `len` ticks: 341, or 340 in an odd frame (R352). -/
theorem ppuTicks_frame {s : State} (hl : s.ppu.scanline = 0) (hc : s.ppu.cycle = 0) {len : Nat}
    (hlen : len = if s.ppu.oddFrame then 341 else 340) :
    (ppuTicks (89001 + len) s).ppu.scanline = 0 ∧ (ppuTicks (89001 + len) s).ppu.cycle = 0 ∧
    (ppuTicks (89001 + len) s).ppu.oddFrame = !s.ppu.oddFrame := by
  obtain ⟨h1, h2, h3⟩ := ppuTicks_preRender hl hc
  rw [ppuTicks_add]
  cases ho : s.ppu.oddFrame with
  | true =>
    obtain rfl : len = 341 := by simpa [ho] using hlen
    have h3' : (ppuTicks 89001 s).ppu.oddFrame = false := by rw [h3, ho]; rfl
    obtain ⟨g1, g2, g3⟩ := ppuTicks_full_line _ h2 (by simp [h3']) (by simp [h1])
    exact ⟨by rw [g1, h1]; rfl, g2, g3.trans h3'⟩
  | false =>
    obtain rfl : len = 340 := by simpa [ho] using hlen
    have h3' : (ppuTicks 89001 s).ppu.oddFrame = true := by rw [h3, ho]; rfl
    exact ppuTicks_odd_line _ h2 h1 h3'

/-- Inside the pre-render line the counters are not at (0, 0) (R352). -/
theorem ppuTicks_preRender_line {s : State} (hl : s.ppu.scanline = 0) (hc : s.ppu.cycle = 0) {n : Nat}
    (hn : 89001 ≤ n) (hlt : n < if s.ppu.oddFrame then 89342 else 89341) : (ppuTicks n s).ppu.scanline = -1 := by
  obtain ⟨h1, h2, h3⟩ := ppuTicks_preRender hl hc
  have hm : n - 89001 ≤ 340 ∧ (s.ppu.oddFrame = false → n - 89001 ≤ 339) := by
    cases ho : s.ppu.oddFrame with
    | true =>
      rw [ho, if_pos rfl] at hlt
      exact ⟨by omega, fun h => absurd h (by decide)⟩
    | false =>
      rw [ho, if_neg Bool.false_ne_true] at hlt
      exact ⟨by omega, fun _ => by omega⟩
  have hline := (ppuTicks_line (ppuTicks 89001 s) (n - 89001) h2 hm.1 fun _ hodd => hm.2 (by simpa [h3] using hodd)).1
  rw [← ppuTicks_add, Nat.add_sub_cancel' hn] at hline
  exact hline.trans h1

/-- Settles O54: 261 lines of 341 ticks and the pre-render line make the frame. -/
theorem frameLength : Obligations.FrameLength := by
  intro s hl hc
  have hlen : (if s.ppu.oddFrame then 89342 else 89341) = 89001 + if s.ppu.oddFrame then 341 else 340 := by
    cases s.ppu.oddFrame <;> rfl
  obtain ⟨h1, h2, h3⟩ := ppuTicks_frame hl hc rfl
  rw [← hlen] at h1 h2 h3
  refine ⟨h1, h2, h3, fun n h0 hn => ?_⟩
  rcases Nat.lt_or_ge n 89001 with h | h
  · exact ppuTicks_ne_origin hl hc h0 h
  · rw [ppuTicks_preRender_line hl hc h hn]
    simp

/-! ### The vertical blank -/

/-- Requesting the NMI sets bit 1 of the context (R403). -/
theorem getLsbD_requestNmi (b : Byte) (k : Nat) : (b ||| 0x02).getLsbD k = (b.getLsbD k || decide (k = 1)) := by
  have bits : ∀ k, (0x02 : Byte).getLsbD k = decide (k = 1) := fun k => by
    rcases Nat.lt_or_ge k 8 with h | h
    · revert k
      decide
    · rw [BitVec.getLsbD_of_ge _ _ h, decide_eq_false (by omega)]
  rw [BitVec.getLsbD_or, bits]

/-- What the start of the vertical blank does (R384, R403). -/
theorem State.vblankStart_effect (s : State) :
    s.vblankStart.ppu.vblank = true ∧ s.vblankStart.frames = s.frames + 1 ∧
      ∀ k, s.vblankStart.context.getLsbD k = (s.context.getLsbD k || (decide (k = 1) && s.ppu.ctrl.getLsbD 7)) := by
  unfold State.vblankStart
  cases hc : s.ppu.ctrl.getLsbD 7 with
  | true => exact ⟨rfl, rfl, fun k => by simpa using getLsbD_requestNmi s.context k⟩
  | false => exact ⟨rfl, rfl, fun k => by simp⟩

/-- Advancing leaves `vblank` alone. -/
theorem ppuTick_vblank (s : State) : (ppuTick s).ppu.vblank = s.beforeAdvance.ppu.vblank := by
  obtain ⟨-, -, h, -⟩ := s.beforeAdvance.ppu.advance_rest
  exact h

/-- The pre-render line draws nothing, so its pipelines and the compositor leave the hit flag alone (R350, R369). -/
theorem State.renderTick_sprite0 {s : State} (h : s.ppu.scanline < 0) : s.renderTick.ppu.sprite0 = s.ppu.sprite0 := by
  obtain ⟨-, hkeptBg, -⟩ := s.backgroundTick_kept
  obtain ⟨-, hkeptSprites, -⟩ := s.backgroundTick.spritePipeline_kept s.ppu.rendering
  have hline := hkeptSprites.scanline.trans hkeptBg.scanline
  have hdraw : s.renderTick = s.backgroundTick.spritePipeline s.ppu.rendering := by
    rw [State.renderTick_eq, State.drawTick, if_neg]
    rw [hline]
    omega
  have hbg : s.backgroundTick.ppu.sprite0 = s.ppu.sprite0 := by
    unfold State.backgroundTick
    split
    · obtain ⟨-, -, -, -, -, hsprite0, -⟩ := s.ppu.backgroundPipeline_sprites s.cfg s.mapper
      exact hsprite0
    · rfl
  rw [hdraw]
  exact (State.spritePipeline_shown _ _).1.trans hbg

/-- At (−1, 1) `vblank` and the hit flag are cleared, and nothing in the tick sets them again (R354). -/
theorem ppuTick_clears {s : State} (hl : s.ppu.scanline = -1) (hc : s.ppu.cycle = 1) :
    (ppuTick s).ppu.vblank = false ∧ (ppuTick s).ppu.sprite0 = false := by
  have hb : s.beforeAdvance = (s.setPpu s.ppu.clearFlags).renderTick := by
    rw [State.beforeAdvance_render (by omega) (by omega), State.clearTick, if_pos ⟨hl, hc⟩]
  obtain ⟨-, -, hvblank, hsprite0, -⟩ := s.beforeAdvance.ppu.advance_rest
  obtain ⟨-, hkept⟩ := (s.setPpu s.ppu.clearFlags).renderTick_kept
  refine ⟨hvblank.trans ?_, hsprite0.trans ?_⟩ <;> rw [hb]
  · exact hkept.vblank
  · refine State.renderTick_sprite0 ?_
    show s.ppu.scanline < 0
    omega

/-- A tick that does not begin the vertical blank requests nothing and counts no frame, and but for the clear at (−1, 1) it
leaves `vblank` alone (R354, R384). -/
theorem State.beforeAdvance_no_vblank {s : State} (h : ¬(s.ppu.scanline = 241 ∧ s.ppu.cycle = 1)) :
    s.beforeAdvance.context = s.context ∧ s.beforeAdvance.frames = s.frames ∧
      (¬(s.ppu.scanline = -1 ∧ s.ppu.cycle = 1) → s.beforeAdvance.ppu.vblank = s.ppu.vblank) := by
  rcases s.beforeAdvance_cases with ⟨hl, hc, -⟩ | ⟨hl, hc, e⟩ | ⟨-, -, -, e⟩ | ⟨-, -, e⟩
  · exact absurd ⟨hl, hc⟩ h
  · obtain ⟨honly, -⟩ := (s.setPpu s.ppu.clearFlags).renderTick_kept
    rw [e]
    exact ⟨honly.context, honly.frames, fun hn => absurd ⟨hl, hc⟩ hn⟩
  · obtain ⟨honly, hkept⟩ := s.renderTick_kept
    rw [e]
    exact ⟨honly.context, honly.frames, fun _ => hkept.vblank⟩
  · rw [e]
    exact ⟨rfl, rfl, fun _ => rfl⟩

/-- Settles O55: the start of the vertical blank, the clear, and every other tick. -/
theorem verticalBlank : Obligations.VerticalBlank := by
  intro s
  refine ⟨fun ⟨hl, hc⟩ => ?start, fun ⟨hl, hc⟩ => ?clear, fun h => ?other⟩
  case start =>
    obtain ⟨hvblank, hframes, hcontext⟩ := s.vblankStart_effect
    rw [← State.beforeAdvance_vblank hl hc] at hvblank hframes hcontext
    exact ⟨(ppuTick_vblank s).trans hvblank, hframes, hcontext⟩
  case clear =>
    obtain ⟨hvblank, hsprite0⟩ := ppuTick_clears hl hc
    exact ⟨hvblank, hsprite0, (ppuTick_overflow (by omega)).trans (if_pos ⟨hl, hc⟩)⟩
  case other =>
    obtain ⟨hcontext, hframes, hvblank⟩ := State.beforeAdvance_no_vblank h
    exact ⟨hcontext, hframes, fun hn => (ppuTick_vblank s).trans (hvblank hn)⟩

/-! ### What a tick leaves alone -/

/-- `u` has the CPU, the Mapper's memories, the cells and acknowledgments, the Controller, OAM and the registers written by
software of `s`. -/
structure State.TickKept (s u : State) : Prop where
  registers : u.SameRegisters s
  mapper : u.mapper = s.mapper
  io : u.io = s.io
  pads : u.pads = s.pads
  cyc : u.cyc = s.cyc
  oam : u.ppu.oam = s.ppu.oam
  oamaddr : u.ppu.oamaddr = s.ppu.oamaddr
  ctrl : u.ppu.ctrl = s.ppu.ctrl
  mask : u.ppu.mask = s.ppu.mask
  t : u.ppu.t = s.ppu.t
  fineX : u.ppu.fineX = s.ppu.fineX
  w : u.ppu.w = s.ppu.w

theorem State.TickKept.of_render {s u : State} (h : s.PpuOnly u) (h' : s.ppu.Kept u.ppu) : s.TickKept u :=
  { h, h' with registers := ⟨h.a.symm, h.x.symm, h.y.symm, h.sp.symm, h.p.symm, h.pc.symm⟩ }

theorem State.TickKept.vblankStart (s : State) : s.TickKept s.vblankStart := by
  unfold State.vblankStart
  dsimp only
  split <;> exact ⟨⟨rfl, rfl, rfl, rfl, rfl, rfl⟩, rfl, rfl, rfl, rfl, rfl, rfl, rfl, rfl, rfl, rfl, rfl⟩

/-- Whatever a tick does before the counters advance leaves all this alone (R314, R321, R350). -/
theorem State.TickKept.beforeAdvance (s : State) : s.TickKept s.beforeAdvance := by
  rcases s.beforeAdvance_cases with ⟨-, -, e⟩ | ⟨-, -, e⟩ | ⟨-, -, -, e⟩ | ⟨-, -, e⟩ <;> rw [e]
  · exact .vblankStart s
  · obtain ⟨honly, hkept⟩ := (s.setPpu s.ppu.clearFlags).renderTick_kept
    have h := State.TickKept.of_render honly hkept
    exact { h with registers := { h.registers with } }
  · obtain ⟨honly, hkept⟩ := s.renderTick_kept
    exact .of_render honly hkept
  · exact .of_render (.refl s) (.refl s.ppu)

theorem State.TickKept.ppuTick (s : State) : s.TickKept (Machine.ppuTick s) := by
  have h := State.TickKept.beforeAdvance s
  obtain ⟨hctrl, hmask, -, -, -, hoamaddr, -, ht, hfineX, hw, -, -, -, -, -, hoam, -⟩ := s.beforeAdvance.ppu.advance_rest
  exact { h with
    registers := { h.registers with }, oam := hoam.trans h.oam, oamaddr := hoamaddr.trans h.oamaddr
    ctrl := hctrl.trans h.ctrl, mask := hmask.trans h.mask, t := ht.trans h.t, fineX := hfineX.trans h.fineX
    w := hw.trans h.w }

/-! ### The background -/

/-- With rendering disabled, and on lines 240 to 260, a tick leaves the background alone (R314, R350). -/
theorem ppuTick_background_off {s : State}
    (h : s.ppu.rendering = false ∨ s.ppu.scanline < -1 ∨ 239 < s.ppu.scanline) :
    (ppuTick s).ppu.bg = s.ppu.bg ∧ (ppuTick s).ppu.v = s.ppu.v := by
  by_cases hline : s.ppu.scanline < -1 ∨ 239 < s.ppu.scanline
  · obtain ⟨hbg, hv, -⟩ := ppuTick_idle hline
    exact ⟨hbg, hv⟩
  · have hr : s.ppu.rendering = false := h.resolve_right hline
    obtain ⟨hbg, hv, -⟩ := ppuTick_piped (s := s) (by omega) (by omega)
    have hclear : s.clearTick.ppu.rendering = false ∧ s.clearTick.ppu.bg = s.ppu.bg ∧ s.clearTick.ppu.v = s.ppu.v := by
      unfold State.clearTick
      split <;> exact ⟨hr, rfl, rfl⟩
    obtain ⟨hcr, hcbg, hcv⟩ := hclear
    have htick : s.clearTick.backgroundTick = s.clearTick := if_neg (by simp [hcr])
    obtain ⟨hsbg, hsv⟩ := s.clearTick.backgroundTick.spritePipeline_background s.ppu.rendering
    rw [htick] at hsbg hsv
    rw [hbg, hv, State.piped, htick]
    exact ⟨hsbg.trans hcbg, hsv.trans hcv⟩

/-- Settles O56: the background is what its pipeline makes of it, the rest what a tick keeps. -/
theorem ticksLeaveTheRestAlone : Obligations.TicksLeaveTheRestAlone := by
  intro s
  have hkept := State.TickKept.ppuTick s
  refine ⟨hkept.registers, hkept.mapper, hkept.io, hkept.pads, hkept.cyc, hkept.oam, hkept.oamaddr, hkept.ctrl, hkept.mask,
    hkept.t, hkept.fineX, hkept.w, ppuTick_background_off, fun hr hl hl' => ?_⟩
  obtain ⟨hbg, hv⟩ := ppuTick_background hr hl hl'
  rw [Ppu.backgroundPipeline_eq] at hbg hv
  obtain ⟨hpatLo, hpatHi, hattLo, hattHi⟩ := s.ppu.shiftLoad_moves
  rw [hbg, hv]
  refine ⟨hpatLo, hpatHi, hattLo, hattHi, fun h => ?nt, fun h => if_neg h, fun h => ?attr, fun h => ?attrKept,
    fun h => ?patLo, fun h => if_neg h, fun h => ?patHi, fun h => if_neg h, rfl⟩
  case nt => exact (if_pos h).trans (by rw [ntAddr_eq])
  case attr =>
    rw [← attrBits_toNat, ← atAddr_eq]
    exact congrArg BitVec.toNat (if_pos h)
  case attrKept => exact if_neg h
  case patLo => exact (if_pos h).trans (by rw [Ppu.patAddr_eq])
  case patHi =>
    refine (if_pos h).trans ?_
    rw [Ppu.patAddr_eq]
    exact congrArg _ (BitVec.ofNat_add _ 8).symm

end Sys2Proof.Machine
end

section
/-! PROOFS. The scroll counters (R360 to R363), which layer shows at a pixel (R378, R379), and what a tick draws (R350, R376,
R380, R381, R383). -/

namespace Sys2Proof.Machine

/-! ### The scroll counters -/

/-- Clearing bits of an address is replacing them by 0. -/
theorem clear_eq_putField (v mask : VramAddr) : v &&& ~~~mask = putField v mask 0 := by
  simp [putField]

/-- Flipping bit 10 changes the horizontal nametable alone (R360). -/
theorem fields_flip_nametableX (v : VramAddr) :
    coarseX (v ^^^ 0x0400) = coarseX v ∧ coarseY (v ^^^ 0x0400) = coarseY v ∧
      nametableX (v ^^^ 0x0400) = 1 - nametableX v ∧ nametableY (v ^^^ 0x0400) = nametableY v ∧
      fineY (v ^^^ 0x0400) = fineY v := by
  simp only [coarseX_eq, coarseY_eq, nametableX_eq, nametableY_eq, fineY_eq]
  refine ⟨?_, ?_, extract_flip_same (by decide), ?_, ?_⟩ <;> rw [extract_flip_other (by decide)]

/-- Flipping bit 11 changes the vertical nametable alone (R361). -/
theorem fields_flip_nametableY (v : VramAddr) :
    coarseX (v ^^^ 0x0800) = coarseX v ∧ coarseY (v ^^^ 0x0800) = coarseY v ∧
      nametableX (v ^^^ 0x0800) = nametableX v ∧ nametableY (v ^^^ 0x0800) = 1 - nametableY v ∧
      fineY (v ^^^ 0x0800) = fineY v := by
  simp only [coarseX_eq, coarseY_eq, nametableX_eq, nametableY_eq, fineY_eq]
  refine ⟨?_, ?_, ?_, extract_flip_same (by decide), ?_⟩ <;> rw [extract_flip_other (by decide)]

/-- The machine's test of coarse X (R360). -/
theorem coarseX_full_iff (v : VramAddr) : v &&& 0x001F = 0x001F ↔ coarseX v = 31 := by
  have h := Nat.and_two_pow_sub_one_eq_mod v.toNat 5
  rw [← BitVec.toNat_inj, BitVec.toNat_and, coarseX, ← h]
  rfl

/-- The machine's test of fine Y (R361). -/
theorem fineY_full_iff (v : VramAddr) : v &&& 0x7000 = 0x7000 ↔ fineY v = 7 := by
  have hmask : ∀ i < 15, (0x7000 : VramAddr).getLsbD i = decide (12 ≤ i) := by decide
  have htop : v &&& (0x7000 : VramAddr) = (v >>> 12) <<< 12 := by
    apply BitVec.eq_of_getLsbD_eq
    intro i hi
    rw [BitVec.getLsbD_and, hmask i hi, BitVec.getLsbD_shiftLeft, BitVec.getLsbD_ushiftRight]
    by_cases h : 12 ≤ i
    · simp [h, hi, Nat.add_sub_cancel' h, Nat.not_lt.2 h]
    · simp [h, Nat.lt_of_not_le h]
  have := v.isLt
  rw [htop, ← BitVec.toNat_inj, fineY]
  simp [Nat.shiftRight_eq_div_pow, Nat.shiftLeft_eq]
  omega

/-- The row the machine compares is coarse Y (R361). -/
theorem row_toNat (v : VramAddr) : ((v &&& 0x03E0) >>> 5).toNat = coarseY v := by
  have h := Nat.and_two_pow_sub_one_eq_mod (v.toNat / 32) 5
  rw [BitVec.ushiftRight_and_distrib, BitVec.toNat_and, BitVec.toNat_ushiftRight, Nat.shiftRight_eq_div_pow, coarseY, ← h]
  rfl

/-- `IncX` wraps coarse X at 31 into the other horizontal nametable (R360). -/
theorem incX_fields (v : VramAddr) :
    coarseX (incX v) = (coarseX v + 1) % 32 ∧
      nametableX (incX v) = (if coarseX v = 31 then 1 - nametableX v else nametableX v) ∧
      coarseY (incX v) = coarseY v ∧ nametableY (incX v) = nametableY v ∧ fineY (incX v) = fineY v := by
  have hlt : coarseX v < 32 := Nat.mod_lt _ (by decide)
  by_cases h : coarseX v = 31
  · obtain ⟨hcx, hcy, hnx, hny, hfy⟩ := fields_flip_nametableX (putField v 0x001F 0)
    rw [incX, if_pos ((coarseX_full_iff v).2 h), clear_eq_putField, hcx, hcy, hnx, hny, hfy, if_pos h, h]
    exact ⟨coarseX_putField_same (by decide), congrArg _ (nametableX_putField_other (by decide)),
      coarseY_putField_other (by decide), nametableY_putField_other (by decide), fineY_putField_other (by decide)⟩
  · obtain ⟨hcx, hcy, hnx, hny, hfy⟩ := fields_add_one (v := v) (by omega)
    rw [incX, if_neg (mt (coarseX_full_iff v).1 h), if_neg h]
    exact ⟨by omega, hnx, hcy, hny, hfy⟩

/-- The fields after fine Y is cleared (R361). -/
theorem fields_clear_fineY (v : VramAddr) :
    coarseX (putField v 0x7000 0) = coarseX v ∧ coarseY (putField v 0x7000 0) = coarseY v ∧
      nametableX (putField v 0x7000 0) = nametableX v ∧ nametableY (putField v 0x7000 0) = nametableY v ∧
      fineY (putField v 0x7000 0) = 0 :=
  ⟨coarseX_putField_other (by decide), coarseY_putField_other (by decide), nametableX_putField_other (by decide),
    nametableY_putField_other (by decide), fineY_putField_same (by decide)⟩

/-- The fields after coarse Y is cleared (R361). -/
theorem fields_clear_coarseY (v : VramAddr) :
    coarseX (putField v 0x03E0 0) = coarseX v ∧ coarseY (putField v 0x03E0 0) = 0 ∧
      nametableX (putField v 0x03E0 0) = nametableX v ∧ nametableY (putField v 0x03E0 0) = nametableY v ∧
      fineY (putField v 0x03E0 0) = fineY v :=
  ⟨coarseX_putField_other (by decide), coarseY_putField_same (by decide), nametableX_putField_other (by decide),
    nametableY_putField_other (by decide), fineY_putField_other (by decide)⟩

/-- `IncY` where fine Y is full, by the row (R361). -/
theorem incY_of_full {v : VramAddr} (h : fineY v = 7) :
    incY v =
      if coarseY v = 29 then putField (putField v 0x7000 0) 0x03E0 0 ^^^ 0x0800
      else if coarseY v = 31 then putField (putField v 0x7000 0) 0x03E0 0
      else putField v 0x7000 0 + 0x0020 := by
  obtain ⟨-, hrow, -⟩ := fields_clear_fineY v
  rw [incY, if_neg (not_not.2 ((fineY_full_iff v).2 h))]
  simp only [clear_eq_putField, ← BitVec.toNat_inj, row_toNat, hrow]
  rfl

/-- `IncY` carries fine Y into coarse Y, which wraps at 29 into the other vertical nametable and at 31 into the same one
(R361). -/
theorem incY_fields (v : VramAddr) :
    fineY (incY v) = (fineY v + 1) % 8 ∧
      coarseY (incY v) =
        (if fineY v < 7 then coarseY v else if coarseY v = 29 ∨ coarseY v = 31 then 0 else coarseY v + 1) ∧
      nametableY (incY v) = (if fineY v = 7 ∧ coarseY v = 29 then 1 - nametableY v else nametableY v) ∧
      coarseX (incY v) = coarseX v ∧ nametableX (incY v) = nametableX v := by
  have hlt : fineY v < 8 := by
    have := v.isLt
    unfold fineY
    omega
  have hrow : coarseY v < 32 := Nat.mod_lt _ (by decide)
  by_cases h : fineY v = 7
  · have hn : ¬fineY v < 7 := by omega
    obtain ⟨ax, ay, anx, any, afy⟩ := fields_clear_fineY v
    obtain ⟨bx, by', bnx, bny, bfy⟩ := fields_clear_coarseY (putField v 0x7000 0)
    rw [incY_of_full h]
    by_cases h29 : coarseY v = 29
    · obtain ⟨cx, cy, cnx, cny, cfy⟩ := fields_flip_nametableY (putField (putField v 0x7000 0) 0x03E0 0)
      rw [if_pos h29, cx, cy, cnx, cny, cfy, bx, by', bnx, bny, bfy, ax, anx, any, afy]
      simp [h, h29]
    by_cases h31 : coarseY v = 31
    · rw [if_neg h29, if_pos h31, bx, by', bnx, bny, bfy, ax, anx, any, afy]
      simp [h, h31]
    · obtain ⟨cx, cy, cnx, cny, cfy⟩ := fields_add_row (v := putField v 0x7000 0) (by omega)
      rw [if_neg h29, if_neg h31, cx, cy, cnx, cny, cfy, ax, ay, anx, any, afy]
      simp [h, h29, h31]
  · obtain ⟨cx, cy, cnx, cny, cfy⟩ := fields_add_fine (v := v) (by omega)
    rw [incY, if_pos (mt (fineY_full_iff v).1 h), cx, cy, cnx, cny, cfy, if_pos (by omega), if_neg (fun x => h x.1)]
    exact ⟨by omega, rfl, rfl, rfl, rfl⟩

/-- Settles O57: the increments by their wraps, and the copies by the fields their masks cover. -/
theorem scrollCounters : Obligations.ScrollCounters := fun v _ =>
  ⟨incX_fields v, incY_fields v,
    ⟨coarseX_putField_same (by decide), nametableX_putField_same (by decide), coarseY_putField_other (by decide),
      nametableY_putField_other (by decide), fineY_putField_other (by decide)⟩,
    ⟨coarseX_putField_other (by decide), nametableX_putField_other (by decide), coarseY_putField_same (by decide),
      nametableY_putField_same (by decide), fineY_putField_same (by decide)⟩⟩

/-! ### Which layer shows -/

theorem LayerPixel.bgIndex_toNat (l : LayerPixel) : l.bgIndex.toNat = 4 * l.pal.toNat + l.pix.toNat := by
  have key : ∀ pal pix : BitVec 2,
      ((pal.setWidth 16 <<< 2 : Word) ||| pix.setWidth 16).toNat = 4 * pal.toNat + pix.toNat := by decide
  exact key _ _

theorem LayerPixel.spriteIndex_toNat (l : LayerPixel) : l.spriteIndex.toNat = 16 + 4 * l.pal.toNat + l.pix.toNat := by
  have key : ∀ pal pix : BitVec 2,
      ((0x10 : Word) ||| ((pal.setWidth 16 <<< 2) ||| pix.setWidth 16)).toNat = 16 + 4 * pal.toNat + pix.toNat := by decide
  exact key _ _

/-- A transparent unit is passed over (R379). -/
theorem firstOpaque_cons_clear {x : Nat} {u : SpriteUnit} (h : u.pixel x = 0) (zero : Bool) (us : List SpriteUnit) :
    firstOpaque x zero (u :: us) = firstOpaque x false us := by
  simp [firstOpaque, h]

/-- An opaque unit is taken, whatever its priority (R379). -/
theorem firstOpaque_cons_opaque {x : Nat} {u : SpriteUnit} (h : u.pixel x ≠ 0) (zero : Bool) (us : List SpriteUnit) :
    firstOpaque x zero (u :: us) =
      { pix := u.pixel x, pal := u.attr.setWidth 2, front := !u.attr.getLsbD 5, zero := zero } :=
  if_pos h

theorem firstOpaque_clear {x : Nat} {units : List SpriteUnit} (h : ∀ u ∈ units, u.pixel x = 0) (zero : Bool) :
    (firstOpaque x zero units).pix = 0 := by
  induction units generalizing zero with
  | nil => rfl
  | cons u us ih =>
    rw [List.forall_mem_cons] at h
    rw [firstOpaque_cons_clear h.1]
    exact ih h.2 false

theorem firstOpaque_append {x : Nat} {before after : List SpriteUnit} {u : SpriteUnit}
    (hb : ∀ w ∈ before, w.pixel x = 0) (hu : u.pixel x ≠ 0) (zero : Bool) :
    firstOpaque x zero (before ++ u :: after) =
      { pix := u.pixel x, pal := u.attr.setWidth 2, front := !u.attr.getLsbD 5, zero := zero && before.isEmpty } := by
  induction before generalizing zero with
  | nil => simp [firstOpaque_cons_opaque hu]
  | cons w ws ih =>
    rw [List.forall_mem_cons] at hb
    rw [List.cons_append, firstOpaque_cons_clear hb.1, ih hb.2]
    simp

/-- Settles O59: the four cases of two layers, and the first opaque unit by induction on the units before it. -/
theorem pixelPriority : Obligations.PixelPriority := by
  refine ⟨fun bg sp => ⟨fun hb hs => ?neither, fun hb hs => ?background, fun hb hs => ?sprite, fun hb hs => ?both⟩,
    fun x zero units h => firstOpaque_clear h zero, fun x zero before after u hb hu => firstOpaque_append hb hu zero⟩
  case neither => rw [composite, if_pos ⟨hb, hs⟩]
  case background =>
    rw [composite, if_neg (fun h => hb h.1), if_neg hb, if_pos hs, LayerPixel.bgIndex_toNat]
  case sprite =>
    rw [composite, if_neg (fun h => hs h.2), if_pos hb, LayerPixel.spriteIndex_toNat]
  case both =>
    rw [composite, if_neg (fun h => hb h.1), if_neg hb, if_neg hs, apply_ite BitVec.toNat, LayerPixel.spriteIndex_toNat,
      LayerPixel.bgIndex_toNat]

/-! ### What a tick draws -/

theorem paletteEntry_toNat (cfg : Config) (m : Mapper) (idx : Word) :
    (paletteEntry cfg m idx).toNat = (ppuRead cfg m (0x3F00 ||| idx)).toNat % 64 := by
  have h := Nat.and_two_pow_sub_one_eq_mod (ppuRead cfg m (0x3F00 ||| idx)).toNat 6
  rw [← h]
  exact BitVec.toNat_and _ _

/-- A pixel's two bits as a number, the high plane's first (R376, R378). -/
theorem planes_toNat (h l : Bool) : (BitVec.ofBool h ++ BitVec.ofBool l).toNat = 2 * h.toNat + l.toNat := by
  cases h <;> cases l <;> rfl

theorem spriteZeroHit_iff (x : Nat) (bg sp : LayerPixel) :
    spriteZeroHit x bg sp = true ↔ bg.pix ≠ 0 ∧ sp.pix ≠ 0 ∧ sp.zero = true ∧ x ≠ 255 := by
  simp [spriteZeroHit, and_assoc]

/-- With rendering disabled both layers are transparent (R314, R378). -/
theorem layers_off {p : Ppu} (h : p.rendering = false) (x : Nat) : (p.bgPixel x).pix = 0 ∧ (p.spritePixel x).pix = 0 := by
  obtain ⟨h3, h4⟩ := Bool.or_eq_false_iff.1 h
  rw [Ppu.bgPixel, Ppu.spritePixel, if_neg (fun hb => Bool.eq_false_iff.1 h3 hb.1),
    if_neg (fun hs => Bool.eq_false_iff.1 h4 hs.1)]
  exact ⟨rfl, rfl⟩

/-- With rendering disabled the backdrop is shown (R378). -/
theorem composite_off {s : State} (h : s.ppu.rendering = false) (x : Nat) :
    composite ((ppuTick s).ppu.bgPixel x) (s.ppu.spritePixel x) = 0 := by
  obtain ⟨-, hmask, -⟩ := ppuTick_registers s
  have h' : (ppuTick s).ppu.rendering = false := by rwa [Ppu.rendering, hmask]
  rw [composite, if_pos ⟨(layers_off h' x).1, (layers_off h x).2⟩]

/-- A tick on a visible pixel (R350, R378, R380, R381). -/
theorem ppuTick_visible {s : State} (hi : s.Inv) (h : 0 ≤ s.ppu.scanline) (h' : s.ppu.scanline ≤ 239)
    (hc : 1 ≤ s.ppu.cycle) (hc' : s.ppu.cycle ≤ 256) :
    (Memory.read Bank.pixels.unlisted (ppuTick s).pixels (256 * s.ppu.scanline.toNat + (s.ppu.cycle - 1))).toNat =
      (ppuRead s.cfg s.mapper (0x3F00 ||| composite ((ppuTick s).ppu.bgPixel (s.ppu.cycle - 1))
        (s.ppu.spritePixel (s.ppu.cycle - 1)))).toNat % 64 ∧
    ((ppuTick s).ppu.sprite0 = true ↔ s.ppu.sprite0 = true ∨
      (((ppuTick s).ppu.bgPixel (s.ppu.cycle - 1)).pix ≠ 0 ∧ (s.ppu.spritePixel (s.ppu.cycle - 1)).pix ≠ 0 ∧
        (s.ppu.spritePixel (s.ppu.cycle - 1)).zero = true ∧ s.ppu.cycle - 1 ≠ 255)) := by
  obtain ⟨hpixels, hsprite0⟩ := (ppuTick_draw s).1 ⟨h, h', hc, hc'⟩
  rw [hpixels, Memory.read_write_same hi.pixels, paletteEntry_toNat, hsprite0, Bool.or_eq_true, spriteZeroHit_iff]
  exact ⟨rfl, Iff.rfl⟩

/-- A tick touches no pixel but that of its position (R383). -/
theorem ppuTick_other_pixel {s : State} {j : Nat}
    (h : ¬(0 ≤ s.ppu.scanline ∧ s.ppu.scanline ≤ 239 ∧ 1 ≤ s.ppu.cycle ∧ s.ppu.cycle ≤ 256 ∧
      j = 256 * s.ppu.scanline.toNat + (s.ppu.cycle - 1))) :
    Memory.read Bank.pixels.unlisted (ppuTick s).pixels j = Memory.read Bank.pixels.unlisted s.pixels j := by
  obtain ⟨hdraw, hkeep⟩ := ppuTick_draw s
  by_cases hv : 0 ≤ s.ppu.scanline ∧ s.ppu.scanline ≤ 239 ∧ 1 ≤ s.ppu.cycle ∧ s.ppu.cycle ≤ 256
  · rw [(hdraw hv).1]
    exact Memory.read_write_other fun e => h ⟨hv.1, hv.2.1, hv.2.2.1, hv.2.2.2, e.symm⟩
  · rw [(hkeep hv).1]

/-- A unit shows at the eight columns from its X on (R376). -/
theorem SpriteUnit.pixel_inside (u : SpriteUnit) {x off : Nat} (ho : off < 8) (hx : x = u.x.toNat + off) :
    (u.pixel x).toNat = 2 * (u.hi.getLsbD (7 - off)).toNat + (u.lo.getLsbD (7 - off)).toNat := by
  have hoff : (x : Int) - (u.x.toNat : Int) = off := by omega
  rw [SpriteUnit.pixel, hoff]
  dsimp only
  rw [if_pos ⟨by omega, by omega⟩]
  exact planes_toNat _ _

/-- A unit shows nothing at any other column (R376). -/
theorem SpriteUnit.pixel_outside (u : SpriteUnit) {x : Nat} (h : x < u.x.toNat ∨ u.x.toNat + 8 ≤ x) : u.pixel x = 0 :=
  if_neg (by omega)

/-- Settles O58: what `draw` writes, and each layer by its enable and the left-column mask. -/
theorem ticksDrawOnePixel : Obligations.TicksDrawOnePixel := by
  refine ⟨fun s j hi => ⟨ppuTick_other_pixel, fun h h' hc hc' hj => ?visible, fun hv hn => ?hidden⟩,
    fun p u x => ⟨fun hb => ?background, fun hb => ?noBackground, fun hs => if_pos hs, fun hs => ?noSprite,
      fun off ho hx => u.pixel_inside ho hx, fun h => u.pixel_outside h⟩⟩
  case visible =>
    obtain ⟨hpixel, hsprite0⟩ := ppuTick_visible hi h h' hc hc'
    rw [← hj] at hpixel
    refine ⟨hpixel, fun hr => ?_, hsprite0⟩
    rw [hpixel, composite_off hr]
    rfl
  case hidden => exact ((ppuTick_draw s).2 hv).2 hn
  case background =>
    rw [Ppu.bgPixel, if_pos hb]
    exact ⟨planes_toNat _ _, planes_toNat _ _⟩
  case noBackground =>
    rw [Ppu.bgPixel, if_neg hb]
    rfl
  case noSprite =>
    rw [Ppu.spritePixel, if_neg hs]
    rfl

end Sys2Proof.Machine
end

section
/-! PROOFS. The sprites: one evaluation step, a whole line of evaluation, and what each tick does to secondary OAM, the
evaluation machine, the units and the overflow flag (R315, R369 to R373, R375). -/

namespace Sys2Proof.Machine

/-! ### One evaluation step -/

/-- An entry in range is begun: its Y is copied (R370). -/
theorem Ppu.Inv.evalStep_begin {p : Ppu} (hi : p.Inv) (h : p.eval.sev = .copyY) (hs : p.shows p.eval.n = true) :
    p.evalStep.eval =
      { sev := .copyRest, n := p.eval.n, m := 1, found := p.eval.found,
        zeroNext := p.eval.zeroNext || decide (p.eval.n = 0) } ∧
    p.evalStep.secByte (4 * p.eval.found) = p.oamByte (4 * p.eval.n) := by
  rw [Ppu.evalStep_copyY h hs]
  exact ⟨rfl, Memory.read_write_same hi.secOam⟩

/-- One more byte of an entry is copied, and after the fourth the entry is kept (R370). -/
theorem Ppu.Inv.evalStep_copy {p : Ppu} (hi : p.Inv) (h : p.eval.sev = .copyRest) :
    p.evalStep.secByte (4 * p.eval.found + p.eval.m) = p.oamByte (4 * p.eval.n + p.eval.m) ∧
    (p.eval.m < 3 → p.evalStep.eval = { p.eval with m := p.eval.m + 1 }) ∧
    (p.eval.m = 3 → p.eval.MovedOn (p.eval.found + 1) p.evalStep.eval) := by
  by_cases hm : p.eval.m < 3
  · rw [Ppu.evalStep_copyRest h hm]
    exact ⟨Memory.read_write_same hi.secOam, fun _ => rfl, fun h3 => by omega⟩
  · have h3 : p.eval.m = 3 := by
      have := hi.eval.m
      omega
    have hmoved := Evaluation.next_movedOn (e := { p.eval with m := 0, found := p.eval.found + 1 }) hi.eval.n
    rw [Ppu.evalStep_copyRest_last h h3, h3]
    exact ⟨Memory.read_write_same hi.secOam, fun hlt => by omega, fun _ => hmoved⟩

/-- Only the search for a ninth sprite can set the overflow flag (R371). -/
theorem Ppu.evalStep_overflow_other {p : Ppu} (h : p.eval.sev ≠ .overflowDetect) : p.evalStep.overflow = p.overflow := by
  simp only [Ppu.evalStep]
  split
  · split <;> rfl
  · split <;> rfl
  · exact absurd ‹_› h
  · rfl

/-! ### One tick -/

/-- What a rendering tick of a visible line leaves in each byte of secondary OAM (R369, R372). -/
theorem ppuTick_secByte {s : State} (hi : s.Inv) (h : 0 ≤ s.ppu.scanline) (h' : s.ppu.scanline ≤ 239)
    (hr : s.ppu.rendering = true) (j : Nat) :
    (ppuTick s).ppu.secByte j =
      if 1 ≤ s.ppu.cycle ∧ s.ppu.cycle ≤ 64 ∧ s.ppu.cycle % 2 = 0 ∧ j = s.ppu.cycle / 2 - 1 then 0xFF
      else if s.ppu.Evaluates then s.ppu.evalStep.secByte j
      else s.ppu.secByte j := by
  obtain ⟨hsec, -⟩ := ppuTick_sprites h h' hr
  rw [Ppu.secByte, hsec]
  by_cases hc : s.ppu.Clears
  · have he : ¬s.ppu.Evaluates := by omega
    rw [if_pos hc, if_neg he, Memory.read_write hi.ppu.secOam]
    by_cases hj : s.ppu.cycle / 2 - 1 = j
    · rw [if_pos hj, if_pos ⟨hc.1, hc.2.1, hc.2.2, hj.symm⟩]
    · rw [if_neg hj, if_neg fun hx => hj hx.2.2.2.symm]
      rfl
  · have hn : ¬(1 ≤ s.ppu.cycle ∧ s.ppu.cycle ≤ 64 ∧ s.ppu.cycle % 2 = 0 ∧ j = s.ppu.cycle / 2 - 1) := fun hx =>
      hc ⟨hx.1, hx.2.1, hx.2.2.1⟩
    rw [if_neg hc, if_neg hn]
    split <;> rfl

/-- Settles O60: the evaluation steps by the machine's state, the line by `ppuTicks_line_sprites`, and the ticks by what
each does to the sprites. -/
theorem spriteOverflow : Obligations.SpriteOverflow := by
  refine ⟨fun p hi => ?step, fun s hi h h' hr hc => ?line, fun s hi => ⟨fun h h' hr => ?visible, fun h => ?off, ?flag⟩⟩
  case step =>
    refine ⟨hi.evalStep.eval.found, hi.evalStep_begin, fun h hs => ?_, hi.evalStep_copy, fun h hs => ?_, fun h hs => ?_,
      Ppu.evalStep_overflow_other, Ppu.evalStep_wait⟩
    · rw [Ppu.evalStep_copyY_skip h hs]
      exact Evaluation.next_movedOn hi.eval.n
    · rw [Ppu.evalStep_overflow h hs]
      exact ⟨rfl, rfl⟩
    · rw [Ppu.evalStep_overflow_skip h hs]
      exact ⟨Evaluation.next_movedOn hi.eval.n, rfl⟩
  case line =>
    obtain ⟨hcount, hzero, hflag, hbytes⟩ := ppuTicks_line_sprites hi h h' hr hc
    refine ⟨hcount, hzero, ?_, hbytes⟩
    rw [hflag, Bool.or_eq_true, decide_eq_true_iff]
  case visible =>
    obtain ⟨-, heval, -, hcount, hzero⟩ := ppuTick_sprites h h' hr
    refine ⟨ppuTick_secByte hi h h' hr, heval, fun hc => ?_, fun hc => ?_⟩
    · rw [if_pos hc] at hcount hzero
      exact ⟨hcount, hzero, fun i => (ppuTick_units hi h h' hr i).1 hc⟩
    · rw [if_neg hc] at hcount hzero
      refine ⟨hcount, hzero, fun i => ?_⟩
      obtain ⟨-, hload, hkeep⟩ := ppuTick_units hi h h' hr i
      exact ⟨hload, hkeep hc⟩
  case off =>
    obtain ⟨hsec, heval, hunits, hcount, hzero⟩ := ppuTick_sprites_off hi.ppu.first h
    exact ⟨hsec, heval, hunits, fun hc => ⟨hcount.trans (if_pos hc), hzero.trans (if_pos hc)⟩,
      fun hc => ⟨hcount.trans (if_neg hc), hzero.trans (if_neg hc)⟩⟩
  case flag => exact ppuTick_overflow hi.ppu.first

end Sys2Proof.Machine
end

section
/-! PROOFS. The interrupts: Reset, NMI and IRQ service, and the check that services nothing (R405 to R408). -/

namespace Sys2Proof.Machine

theorem flag_setInterrupt (p : Byte) (f : Flag) :
    flagOf (putFlag p .interrupt true) f = if f = .interrupt then true else flagOf p f := by
  simp only [flagOf_putFlag, eq_comm]

/-- Settles O42: the service loads the vector, moves SP, sets I and clears bit 0. -/
theorem resetService : Obligations.ResetService := by
  intro s l h hreset hl hh
  have hpc : (s.vectorTarget resetVector).toNat = h.toNat * 256 + l.toNat :=
    vectorTarget_toNat (w := 0xFFFD) (by decide) (by decide) (by decide) hl hh
  rw [State.interruptCheck_of_reset hreset]
  refine ⟨?sp, hpc, flag_setInterrupt s.p, fun k => (getLsbD_clear s.context k).1, ?frame⟩
  case sp | frame => simp [State.serviceReset]

/-- What an NMI or IRQ service does: the entry through `vector` with PC and P, B clear and U set, pushed, then the context
`c`, for 7 cycles (R407, R408). -/
def State.serviced (s : State) (vector : Word) (c : Byte) : State :=
  ((s.enter s.pc (pushedByInterrupt s.p) vector).setContext c).charge 7

section Serviced

variable (s : State) (vector : Word) (c : Byte)

@[simp] theorem State.serviced_sp : (s.serviced vector c).sp = s.sp - 3 := by simp [State.serviced]
@[simp] theorem State.serviced_pc : (s.serviced vector c).pc = s.vectorTarget vector := by simp [State.serviced]
@[simp] theorem State.serviced_p : (s.serviced vector c).p = putFlag s.p .interrupt true := by simp [State.serviced]
@[simp] theorem State.serviced_peek (a : Word) :
    (s.serviced vector c).peek a = (s.enter s.pc (pushedByInterrupt s.p) vector).peek a := by simp [State.serviced]

/-- An entry stores in RAM alone (R14). -/
theorem State.serviced_mapper : (s.serviced vector c).mapper = { s.mapper with ram := (s.serviced vector c).mapper.ram } := by
  rw [State.serviced, State.charge_mapper, State.setContext_mapper]
  rfl

end Serviced

/-- With no Reset pending, a pending NMI is serviced (R405, R407). -/
theorem State.interruptCheck_of_nmi {s : State} (h0 : s.context.getLsbD 0 = false) (h1 : s.context.getLsbD 1 = true) :
    s.interruptCheck = s.serviced nmiVector (s.context &&& ~~~0x02) := by
  have hdue : s.dueInterrupt = some .nmi := by rw [State.dueInterrupt, if_neg (Bool.eq_false_iff.1 h0), if_pos h1]
  rw [State.interruptCheck, hdue]
  rfl

/-- With no other interrupt pending, a pending IRQ is serviced where I is 0 (R405, R408). -/
theorem State.interruptCheck_of_irq {s : State} (h0 : s.context.getLsbD 0 = false) (h1 : s.context.getLsbD 1 = false)
    (h2 : s.context.getLsbD 2 = true) (hf : s.flag .interrupt = false) :
    s.interruptCheck = s.serviced irqVector (s.context &&& ~~~0x04) := by
  have hdue : s.dueInterrupt = some .irq := by
    rw [State.dueInterrupt, if_neg (Bool.eq_false_iff.1 h0), if_neg (Bool.eq_false_iff.1 h1), h2, hf]
    rfl
  rw [State.interruptCheck, hdue]
  rfl

/-- Where nothing but a masked IRQ is pending, no interrupt is due (R405, decision D5). -/
theorem State.dueInterrupt_masked {s : State} (h0 : s.context.getLsbD 0 = false) (h1 : s.context.getLsbD 1 = false)
    (h : s.context.getLsbD 2 = false ∨ s.flag .interrupt = true) : s.dueInterrupt = none := by
  have hmasked : (s.context.getLsbD 2 && !s.flag .interrupt) = false := by
    rcases h with h | h
    · rw [h, Bool.false_and]
    · rw [h, Bool.not_true, Bool.and_false]
  rw [State.dueInterrupt, if_neg (Bool.eq_false_iff.1 h0), if_neg (Bool.eq_false_iff.1 h1),
    if_neg (Bool.eq_false_iff.1 hmasked)]

/-- The three stack locations, SP, PC and P after a service (R407, R408). -/
theorem State.serviced_entry {s : State} {vector w : Word} {l h : Byte} (hi : s.Inv) (hw : w = vector + 1)
    (h8 : 0x8000 ≤ vector.toNat) (h8' : 0x8000 ≤ w.toNat) (hl : s.Reads vector l) (hh : s.Reads w h) (c : Byte) :
    (s.serviced vector c).sp = s.sp - 3 ∧ (s.serviced vector c).pc.toNat = h.toNat * 256 + l.toNat ∧
    (∀ f, (s.serviced vector c).flag f = if f = .interrupt then true else s.flag f) ∧
    (∃ rh rl b : Byte, rh.toNat * 256 + rl.toNat = s.pc.toNat ∧ (s.serviced vector c).Reads (stackAddr s.sp) rh ∧
      (s.serviced vector c).Reads (stackAddr (s.sp - 1)) rl ∧ (s.serviced vector c).Reads (stackAddr (s.sp - 2)) b ∧
      ∀ f, flagOf b f = if f = .brk then false else if f = .unused then true else s.flag f) ∧
    State.MemKept [stackAddr s.sp, stackAddr (s.sp - 1), stackAddr (s.sp - 2)] s (s.serviced vector c) := by
  obtain ⟨hrh, hrl, hb⟩ := State.enter_reads hi.mapper s.pc (pushedByInterrupt s.p) vector
  refine ⟨s.serviced_sp _ _, ?_, fun f => ?_, ⟨_, _, _, hi_lo_toNat s.pc, ?_, ?_, ?_, flagOf_pushedByInterrupt s.p⟩,
    fun a ha => ?_⟩
  · rw [State.serviced_pc, vectorTarget_toNat hw h8 h8' hl hh]
  · rw [State.flag, State.serviced_p, flag_setInterrupt]
    rfl
  · rwa [State.Reads, State.serviced_peek]
  · rwa [State.Reads, State.serviced_peek]
  · rwa [State.Reads, State.serviced_peek]
  · rw [State.serviced_peek]
    exact State.enter_memKept _ _ _ _ a ha

/-- Settles O43: the service is an entry through `$FFFA` that clears bit 1. -/
theorem nmiService : Obligations.NmiService := by
  intro s l h hi h0 h1 hl hh
  rw [State.interruptCheck_of_nmi h0 h1]
  obtain ⟨hsp, hpc, hflags, hpushed, hmem⟩ :=
    State.serviced_entry (w := 0xFFFB) hi (by decide) (by decide) (by decide) hl hh (s.context &&& ~~~0x02)
  refine ⟨hsp, hpc, hflags, hpushed, hmem, fun k => (getLsbD_clear s.context k).2.1, ?cyc, ?a, ?x, ?y,
    s.serviced_mapper _ _, ?frame⟩
  case cyc | a | x | y | frame => simp [State.serviced]

/-- Settles O44: the service is an entry through `$FFFE` that clears bit 2, and a masked or absent request is not due. -/
theorem irqService : Obligations.IrqService := by
  refine fun s h0 h1 => ⟨fun h => State.interruptCheck_of_none (State.dueInterrupt_masked h0 h1 h),
    fun l h hi h2 hf hl hh => ?_⟩
  rw [State.interruptCheck_of_irq h0 h1 h2 hf]
  obtain ⟨hsp, hpc, hflags, hpushed, hmem⟩ :=
    State.serviced_entry (w := 0xFFFF) hi (by decide) (by decide) (by decide) hl hh (s.context &&& ~~~0x04)
  refine ⟨hsp, hpc, hflags, hpushed, hmem, fun k => (getLsbD_clear s.context k).2.2, ?cyc, ?a, ?x, ?y,
    s.serviced_mapper _ _, ?frame⟩
  case cyc | a | x | y | frame => simp [State.serviced]

end Sys2Proof.Machine
end
